-- ==== Sys2Proof/Word.lean ====
section
/-! DEFINITION. The word types of the DEFLATE CORE (rules R8 to R10 of `spec/00_scope.md`). -/

namespace Sys2Proof

/-- A byte of a buffer or of the compressed stream (R10). -/
abbrev Byte := BitVec 8

/-- A 32-bit word: a command word, a register, a host datum (R8). -/
abbrev Word := BitVec 32

/-- The 24-bit operand ARG of a command word (R44). -/
abbrev Arg := BitVec 24

end Sys2Proof
end

