-- ==== Sys2Proof/Config.lean ====
section
/-! DEFINITION. The implementation parameters of rule R5 (`spec/00_scope.md`): what one realisation of the block fixes. -/

namespace Sys2Proof

/-- MATCH_FINDER (R5, R101, R102): the reference finder, or one of the other finders a realisation may have.
`custom k` names the finder `Config.customFinder k`; `Machine/MatchFinder.lean` admits of it exactly what R101 admits. -/
inductive Finder where
  | reference
  | custom (k : Nat)
deriving DecidableEq, Repr

/-- The parameters of R5 other than WBITS, which CONFIGURE chooses per stream. Their legal ranges are
`Machine.paramsLegal`. -/
structure Params where
  /-- IN_CAP: bytes of IN_BUF. -/
  inCap : Nat
  /-- OUT_CAP: bytes of OUT_BUF. -/
  outCap : Nat
  /-- TALLY_CAP: symbols the tally buffer holds before it forces a block flush. -/
  tallyCap : Nat
  /-- PENDING_CAP: bytes the pending-output queue holds. No rule has to handle a full queue (R76). -/
  pendingCap : Nat
  /-- MATCH_FINDER. -/
  finder : Finder
deriving DecidableEq, Repr

/-- The default column of R5's table. -/
def Params.default : Params :=
  { inCap := 65536, outCap := 65536, tallyCap := 16383, pendingCap := 4 * 16383 + 8, finder := .reference }

/-- A FREE VALUE: what the finder number `k` answers for the readable history `hist[0 .. p + maxlen)`, the position
`p`, `maxlen` and `maxdist` (R101, property 4: it depends on nothing else). It has no body: R5 allows "any function
meeting rule R101", and nothing here says which. Assumption log 3. -/
opaque Config.customFinder : (k : Nat) → (readable : List Byte) → (p maxlen maxdist : Nat) → Option (Nat × Nat)

end Sys2Proof
end

