-- ==== Sys2Proof/Syntax.lean ====
section
/-! DEFINITION. The nine commands of `spec/opcode_table.json` (rules R44 to R47 of `spec/30_encoding.md`). -/

namespace Sys2Proof

/-- One constructor per row of the opcode table. The operands are the fields of the row that its mask leaves free:
a reserved field that the mask fixes at 0 is no operand, and a word with such a field non-zero is no command (R47). -/
inductive Instr where
  /-- NOP (R153). ARG is a hint that is ignored. -/
  | nop (arg : Arg)
  /-- RESET (R154). ARG is a hint that is ignored. -/
  | reset (arg : Arg)
  /-- CONFIGURE (R155) with the fields MODE, STORE_ONLY and WBITS of R46. -/
  | configure (mode : BitVec 2) (storeOnly : Bool) (wbits : BitVec 4)
  /-- SET_INPUT (R156): LEN input bytes. -/
  | setInput (len : Arg)
  /-- PRODUCE_OUTPUT (R159) with room for CAP bytes. -/
  | produceOutput (cap : Arg)
  /-- FLUSH (R160) with room for CAP bytes. -/
  | flush (cap : Arg)
  /-- FINISH (R161) with room for CAP bytes. -/
  | finish (cap : Arg)
  /-- END_OF_INPUT (R157). -/
  | endOfInput
  /-- BUILD_TREE (R162) for the alphabet ALPHA. -/
  | buildTree (alpha : BitVec 2)
deriving DecidableEq, Repr

end Sys2Proof
end

