-- ==== Sys2Proof/WellFormed.lean ====
section
/-! DEFINITION. Which instructions have legal operand fields: the "legal values" of rule R46 and R155
(`spec/30_encoding.md`, `spec/47_commands.md`). An instruction that fails a check here still has a meaning: in every
state it is an illegal command (R47, R163). The conditions on the STATE (the mode, the phase, unconsumed input, IN_CAP,
OUT_CAP) are the meanings' own. -/

namespace Sys2Proof

/-- R155: MODE is 1 (ENCODE) or 2 (DECODE); "0 and 3 illegal". -/
def modeFieldLegal (mode : BitVec 2) : Bool := mode == 1#2 || mode == 2#2

/-- R155: STORE_ONLY is 0, or MODE is ENCODE. -/
def storeOnlyFieldLegal (mode : BitVec 2) (storeOnly : Bool) : Bool := !storeOnly || mode == 1#2

/-- R155: 9 ≤ WBITS ≤ 15; four bits never hold more than 15. -/
def wbitsFieldLegal (wbits : BitVec 4) : Bool := 9#4 ≤ wbits

/-- R46, R162: ALPHA is 0 LIT, 1 DIST or 2 CL; 3 is illegal. -/
def alphaFieldLegal (alpha : BitVec 2) : Bool := alpha != 3#2

/-- The operand fields of an instruction are legal. -/
def Instr.wellFormed : Instr → Bool
  | .nop _ => true
  | .reset _ => true
  | .configure mode storeOnly wbits => modeFieldLegal mode && storeOnlyFieldLegal mode storeOnly && wbitsFieldLegal wbits
  | .setInput _ => true
  | .produceOutput _ => true
  | .flush _ => true
  | .finish _ => true
  | .endOfInput => true
  | .buildTree alpha => alphaFieldLegal alpha

end Sys2Proof
end

