-- ==== Sys2Proof/Decode.lean ====
section
/-! DEFINITION. The decoder and the encoder of command words (rules R44 to R47 of `spec/30_encoding.md`). -/

namespace Sys2Proof

/-- Why a word is no command (R47's list of illegal encodings that no instruction's operands can express). -/
inductive DecodeError where
  /-- OP 0x09..0xFF: "every OP in 0x09..0xFF". -/
  | illegalOp (op : Byte)
  /-- CONFIGURE with ARG[3] or ARG[23:8] non-zero: "a non-zero reserved bit". -/
  | configureReserved
  /-- "END_OF_INPUT with ARG ≠ 0". -/
  | endOfInputArg
  /-- BUILD_TREE with "ARG[23:2] ≠ 0". -/
  | buildTreeReserved
deriving DecidableEq, Repr

/-- OP = word[7:0] (R44). -/
def opField (w : Word) : Byte := w.extractLsb' 0 8

/-- ARG = word[31:8] (R44). -/
def argField (w : Word) : Arg := w.extractLsb' 8 24

/-- R46: the CONFIGURE operand. ARG[1:0] MODE, ARG[2] STORE_ONLY, ARG[3] reserved, ARG[7:4] WBITS, ARG[23:8] reserved. -/
def decodeConfigure (arg : Arg) : Except DecodeError Instr :=
  if arg.extractLsb' 3 1 = 0#1 ∧ arg.extractLsb' 8 16 = 0#16 then
    .ok (.configure (arg.extractLsb' 0 2) (arg.getLsbD 2) (arg.extractLsb' 4 4))
  else .error .configureReserved

/-- R46, R47: ALPHA = ARG[1:0], and ARG[23:2] must be 0. -/
def decodeBuildTree (arg : Arg) : Except DecodeError Instr :=
  if arg.extractLsb' 2 22 = 0#22 then .ok (.buildTree (arg.extractLsb' 0 2)) else .error .buildTreeReserved

/-- R47: END_OF_INPUT must have ARG = 0. -/
def decodeEndOfInput (arg : Arg) : Except DecodeError Instr :=
  if arg = 0#24 then .ok .endOfInput else .error .endOfInputArg

/-- The opcode map of R45, total on every word. -/
def decode (w : Word) : Except DecodeError Instr :=
  match (opField w).toNat with
  | 0x00 => .ok (.nop (argField w))
  | 0x01 => .ok (.reset (argField w))
  | 0x02 => decodeConfigure (argField w)
  | 0x03 => .ok (.setInput (argField w))
  | 0x04 => .ok (.produceOutput (argField w))
  | 0x05 => .ok (.flush (argField w))
  | 0x06 => .ok (.finish (argField w))
  | 0x07 => decodeEndOfInput (argField w)
  | 0x08 => decodeBuildTree (argField w)
  | _ => .error (.illegalOp (opField w))

/-- R30: the word whose four bytes stand at a, a+1, a+2, a+3, the byte at a being bits [7:0]. -/
def wordOfBytes (b0 b1 b2 b3 : Byte) : Word := b3 ++ b2 ++ b1 ++ b0

/-- The decoder over bytes in address order (R30): the first four bytes are one command word, and the rest is handed
back. Fewer than four bytes are no word ("There is no other length", R44). -/
def decodeBytes : List Byte → Option (Except DecodeError Instr × List Byte)
  | b0 :: b1 :: b2 :: b3 :: rest => some (decode (wordOfBytes b0 b1 b2 b3), rest)
  | _ => none

/-- The word of OP and ARG (R44). -/
def commandWord (op : Byte) (arg : Arg) : Word := arg ++ op

/-- R46: the CONFIGURE operand, which is also the CONFIG register's layout (R52): the reserved bits are 0. -/
def configArg (mode : BitVec 2) (storeOnly : Bool) (wbits : BitVec 4) : Arg :=
  0#16 ++ wbits ++ 0#1 ++ BitVec.ofBool storeOnly ++ mode

/-- The word of an instruction (R44 to R46 and the words of R48). -/
def encode : Instr → Word
  | .nop arg => commandWord 0x00#8 arg
  | .reset arg => commandWord 0x01#8 arg
  | .configure mode storeOnly wbits => commandWord 0x02#8 (configArg mode storeOnly wbits)
  | .setInput len => commandWord 0x03#8 len
  | .produceOutput cap => commandWord 0x04#8 cap
  | .flush cap => commandWord 0x05#8 cap
  | .finish cap => commandWord 0x06#8 cap
  | .endOfInput => commandWord 0x07#8 0#24
  | .buildTree alpha => commandWord 0x08#8 (0#22 ++ alpha)

/-- The command word whose low `nbits` bits are `w` and whose other bits are 0 (the host's numbering of a table row:
bit 0 is the least significant bit of the word, which is how R44 numbers it too). -/
def tableWord (nbits w : Nat) : Word := BitVec.ofNat 32 (w % 2 ^ nbits)

/-- What the decoder reads from a row of the opcode table; no command is longer than one 32-bit word (R44). -/
def decodeTableWord (nbits w : Nat) : Option Instr :=
  if nbits ≤ 32 then
    match decode (tableWord nbits w) with
    | .ok i => some i
    | .error _ => none
  else none

end Sys2Proof
end

