-- ==== Sys2Proof/Machine/State.lean ====
section
/-! DEFINITION. The state of the block as plain data (`spec/10_state.md`, rules R13 to R27), its value after reset, and
the reasons a step can stop. -/

namespace Sys2Proof.Machine

/-- A byte memory: (address, byte) pairs in the one canonical form of `Memory.wf` (`Machine/Ops.lean`). -/
abbrev Memory := List Host.Cell

/-- MODE (R15). Its code 3 is never held, so it has no constructor. -/
inductive Mode where
  | idle | encode | decode
deriving DecidableEq, Repr

/-- ERR (R15, R165). Codes 12 to 15 are never held, so they have no constructor. -/
inductive Err where
  | none
  | invalidBlockType
  | invalidStoredBlockLength
  | invalidCodeLengthSequence
  | missingEndOfBlockCode
  | malformedHuffmanCode
  | outputBufferOverrun
  | invalidHuffmanTable
  | invalidSymbol
  | invalidDistance
  | invalidHeaderCount
  | illegalCommand
deriving DecidableEq, Repr

/-- `phase` (R20): the part of the encoder state machine that a host command changes. -/
inductive Phase where
  | running | flushing | finishing | finished
deriving DecidableEq, Repr

/-- `dec_state` (R21, R131), in the order of its numbering 0..18. Values 19..31 are never held. -/
inductive DecState where
  | readingBFinal
  | readingBType
  | readingNumLitCodes
  | readingNumDistCodes
  | readingNumCodeLenCodes
  | readingCodeLenCodes
  | readingTreeCodes
  | readingTreeCodesExtra
  | decodeTop
  | haveInitialLength
  | haveFullLength
  | haveDistCode
  | uncompressedAligning
  | uncompressedByte1
  | uncompressedByte2
  | uncompressedByte3
  | uncompressedByte4
  | decodingUncompressed
  | done
deriving DecidableEq, Repr

/-- A symbol of the tally (R20): `Lit(b)` or `Match(L, D)`. -/
inductive Sym where
  | lit (b : Byte)
  | backRef (len dist : Nat)
deriving DecidableEq, Repr

/-- A decode table (R126). The lists `cnt`, `first` and `offs` are indexed by the code length 0..15; entry 0 is 0. -/
structure DecTable where
  cnt : List Nat
  first : List Nat
  offs : List Nat
  sym : List Nat
  lmax : Nat
deriving DecidableEq, Repr

/-- The empty table of R21: no symbol has a code. -/
def DecTable.empty : DecTable :=
  { cnt := List.replicate 16 0, first := List.replicate 16 0, offs := List.replicate 16 0, sym := [], lmax := 0 }

/-- The input buffer's counters (R16). -/
structure Input where
  /-- `in_len`: the valid bytes the last SET_INPUT declared. -/
  inLen : Nat
  /-- `in_pos`: the index of the next byte to consume. -/
  inPos : Nat
deriving DecidableEq, Repr

/-- The bit reader's cache (R17); cache bit 0 is the oldest unread stream bit. -/
structure BitReader where
  brCache : BitVec 32
  brCount : Nat
deriving DecidableEq, Repr

/-- The bit writer and the pending-output queue, oldest byte first (R18). -/
structure BitWriter where
  bwAcc : Byte
  bwCount : Nat
  pending : List Byte
deriving DecidableEq, Repr

/-- The decoder's window (R19). `win` is the ring's contents by ring index. -/
structure Window where
  win : Memory
  winEnd : Nat
  winUsed : Nat
  winFilled : Nat
deriving DecidableEq, Repr

/-- The encoder state (R20). -/
structure Encoder where
  hist : List Byte
  encPos : Nat
  blockStart : Nat
  tally : List Sym
  litFreq : List Nat
  distFreq : List Nat
  phase : Phase
deriving DecidableEq, Repr

/-- The decoder state (R21). -/
structure Decoder where
  decState : DecState
  bfinal : Bool
  hlitN : Nat
  hdistN : Nat
  hclenN : Nat
  clIdx : Nat
  clLens : List Nat
  lens : List Nat
  repSym : Nat
  clTable : DecTable
  litTable : DecTable
  distTable : DecTable
  curSym : Nat
  curLen : Nat
  curDsym : Nat
  lenLo : Byte
  nlenLo : Byte
  storedLen : BitVec 16
  storedRem : Nat
  eoi : Bool
deriving DecidableEq, Repr

/-- The three TREE_ registers (R22, R53). -/
structure TreeRegs where
  maxCode : Word
  optLen : Word
  staticLen : Word
deriving DecidableEq, Repr

/-- An access of the one agent that issues accesses, the host (R39): its width in bits (R30), its byte address (R29)
and, for a write, the datum, of which an 8-bit or 16-bit write uses the low bits. -/
inductive HostAccess where
  | read (bits : Nat) (addr : BitVec 32)
  | write (bits : Nat) (addr : BitVec 32) (value : Word)
deriving DecidableEq, Repr

/-- Everything the spec gives the block (R15 to R23, R28), its parameters (R5), and the two ends of the host interface:
the accesses the host has issued and the datum its last read returned. -/
structure State where
  /-- The implementation parameters (R5). No step changes them. -/
  params : Params
  /-- MODE (R15). -/
  mode : Mode
  /-- STORE_ONLY (R15). -/
  storeOnly : Bool
  /-- WBITS (R15). -/
  wbits : BitVec 4
  /-- ERR (R15). -/
  err : Err
  /-- RESULT (R15, R51). -/
  result : Word
  /-- `in_len` and `in_pos` (R16). -/
  input : Input
  /-- The bit reader (R17). -/
  reader : BitReader
  /-- The bit writer and `pending` (R18). -/
  writer : BitWriter
  /-- The decode window (R19). -/
  window : Window
  /-- The encoder (R20). -/
  enc : Encoder
  /-- The decoder (R21). -/
  dec : Decoder
  /-- TREE_MAX_CODE, TREE_OPT_LEN, TREE_STATIC_LEN (R22). -/
  tree : TreeRegs
  /-- The host-visible bytes by host address (R29): FREQ_TAB, LEN_TAB, CODE_TAB, BLCOUNT_TAB (R23), IN_BUF, OUT_BUF. -/
  mem : Memory
  /-- The host accesses not yet performed, in issue order (R39). The model's own field: assumption log 1. -/
  bus : List HostAccess
  /-- The datum the host's latest read returned. The model's own field: assumption log 1. -/
  readData : Word
deriving DecidableEq, Repr

/-- `lit_freq` at the start of a block (R20, R107): all 0 except `lit_freq[256]` = 1. -/
def initialLitFreq : List Nat := (List.replicate 286 0).set 256 1

/-- R20's column "reset and CONFIGURE value": every count is 0 but that of the end-of-block symbol. -/
def Encoder.reset : Encoder :=
  { hist := [], encPos := 0, blockStart := 0, tally := [],
    litFreq := initialLitFreq, distFreq := List.replicate 30 0, phase := .running }

/-- R21's column "reset and CONFIGURE value". -/
def Decoder.reset : Decoder :=
  { decState := .readingBFinal, bfinal := false, hlitN := 0, hdistN := 0, hclenN := 0, clIdx := 0,
    clLens := List.replicate 19 0, lens := [], repSym := 0,
    clTable := DecTable.empty, litTable := DecTable.empty, distTable := DecTable.empty,
    curSym := 0, curLen := 0, curDsym := 0, lenLo := 0#8, nlenLo := 0#8, storedLen := 0#16, storedRem := 0, eoi := false }

/-- The state after power-on (R27, R174, R175), with the default parameters of R5 and no host access issued. FREQ_TAB,
LEN_TAB, CODE_TAB and BLCOUNT_TAB are all 0, and `mem` lists nothing. The spec leaves the contents of IN_BUF, OUT_BUF and
`win` unspecified; what an unlisted byte reads as is `unlistedByte` (assumption log 2). -/
def State.reset : State :=
  { params := Params.default
    mode := .idle, storeOnly := false, wbits := 0#4, err := .none, result := 0#32
    input := { inLen := 0, inPos := 0 }
    reader := { brCache := 0#32, brCount := 0 }
    writer := { bwAcc := 0#8, bwCount := 0, pending := [] }
    window := { win := [], winEnd := 0, winUsed := 0, winFilled := 0 }
    enc := Encoder.reset
    dec := Decoder.reset
    tree := { maxCode := 0#32, optLen := 0#32, staticLen := 0#32 }
    mem := []
    bus := []
    readData := 0#32 }

/-- Why a step stops the machine. The block itself never traps (R33, R43, R166): an error is a next state. -/
inductive Fault where
  /-- Raised by `deflateRun` (PRODUCE_OUTPUT in ENCODE, FLUSH, FINISH) and `decodeRun` (PRODUCE_OUTPUT in DECODE) when
  their loop has not ended within the bound the model computes for it. SAFE: the machine stops where the hardware would go
  on. The loops end within the bound from every state that `State.wf` allows (R113 and R150: "The loop ends"). -/
  | driverBound
deriving DecidableEq, Repr

/-- Why a step has no meaning. -/
inductive Refusal where
  /-- Raised by an arm of `exec` whose command has no meaning yet. SAFE: the machine stops. -/
  | notModelled (mnemonic : String)
  /-- Raised by `step` when the parameters are outside R5's legal ranges: "A configuration outside the legal range is not
  a DEFLATE CORE, and a model refuses it." SAFE: the machine stops. -/
  | illegalParameters
deriving DecidableEq, Repr

/-- The outcome of one step or of one command. -/
abbrev Result := Host.Outcome State Fault Refusal

end Sys2Proof.Machine
end

