-- ==== Sys2Proof/Machine/Tables.lean ====
section
/-! DEFINITION. The constants of the format and of the block: rules R6 and R7 (`spec/00_scope.md`), R57, R60 to R62 and
R64 (`spec/30_encoding.md`), R83 (`spec/42_huffman_builder.md`), and the codes of R15, R20, R131 and R165. -/

namespace Sys2Proof.Machine

/-- The 2-bit code of MODE (R15). -/
def Mode.code : Mode → BitVec 2
  | .idle => 0#2
  | .encode => 1#2
  | .decode => 2#2

/-- The 4-bit code of ERR (R165). -/
def Err.code : Err → BitVec 4
  | .none => 0#4
  | .invalidBlockType => 1#4
  | .invalidStoredBlockLength => 2#4
  | .invalidCodeLengthSequence => 3#4
  | .missingEndOfBlockCode => 4#4
  | .malformedHuffmanCode => 5#4
  | .outputBufferOverrun => 6#4
  | .invalidHuffmanTable => 7#4
  | .invalidSymbol => 8#4
  | .invalidDistance => 9#4
  | .invalidHeaderCount => 10#4
  | .illegalCommand => 11#4

/-- The code of `phase` (R20), as STATUS.STATE shows it (R50). -/
def Phase.code : Phase → BitVec 5
  | .running => 0#5
  | .flushing => 1#5
  | .finishing => 2#5
  | .finished => 3#5

/-- The number of a decoder state (R131). -/
def DecState.code : DecState → BitVec 5
  | .readingBFinal => 0#5
  | .readingBType => 1#5
  | .readingNumLitCodes => 2#5
  | .readingNumDistCodes => 3#5
  | .readingNumCodeLenCodes => 4#5
  | .readingCodeLenCodes => 5#5
  | .readingTreeCodes => 6#5
  | .readingTreeCodesExtra => 7#5
  | .decodeTop => 8#5
  | .haveInitialLength => 9#5
  | .haveFullLength => 10#5
  | .haveDistCode => 11#5
  | .uncompressedAligning => 12#5
  | .uncompressedByte1 => 13#5
  | .uncompressedByte2 => 14#5
  | .uncompressedByte3 => 15#5
  | .uncompressedByte4 => 16#5
  | .decodingUncompressed => 17#5
  | .done => 18#5

/-- MIN_MATCH (R6). -/
def minMatch : Nat := 3

/-- MAX_MATCH (R6). -/
def maxMatch : Nat := 258

/-- MIN_LOOKAHEAD = MAX_MATCH + MIN_MATCH + 1 (R7). -/
def minLookahead : Nat := 262

/-- HEAP_SIZE = 2·286 + 1 (R7). -/
def heapSize : Nat := 573

/-- The largest LEN of a stored block (R55). -/
def maxStored : Nat := 65535

/-- BL_ORDER (R57): entry j of a dynamic header is the length of this code-length symbol. -/
def blOrder : List Nat := [16, 17, 18, 0, 8, 7, 9, 6, 10, 5, 11, 4, 12, 3, 13, 2, 14, 1, 15]

/-- LEN_EXTRA (R60): extra bits of the length codes 257..285. -/
def lenExtra : List Nat :=
  [0, 0, 0, 0, 0, 0, 0, 0, 1, 1, 1, 1, 2, 2, 2, 2, 3, 3, 3, 3, 4, 4, 4, 4, 5, 5, 5, 5, 0]

/-- LEN_BASE (R60): base lengths of the length codes 257..285. -/
def lenBase : List Nat :=
  [3, 4, 5, 6, 7, 8, 9, 10, 11, 13, 15, 17, 19, 23, 27, 31, 35, 43, 51, 59, 67, 83, 99, 115, 131, 163, 195, 227, 258]

/-- DIST_EXTRA (R61): extra bits of the distance codes 0..29. -/
def distExtra : List Nat :=
  [0, 0, 0, 0, 1, 1, 2, 2, 3, 3, 4, 4, 5, 5, 6, 6, 7, 7, 8, 8, 9, 9, 10, 10, 11, 11, 12, 12, 13, 13]

/-- DIST_BASE (R61): base distances of the distance codes 0..29. -/
def distBase : List Nat :=
  [1, 2, 3, 4, 5, 7, 9, 13, 17, 25, 33, 49, 65, 97, 129, 193, 257, 385, 513, 769, 1025, 1537, 2049, 3073, 4097, 6145,
   8193, 12289, 16385, 24577]

/-- LEN_BASE of a length code s (257..285). -/
def lenBaseOf (s : Nat) : Nat := lenBase.getD (s - 257) 0

/-- LEN_EXTRA of a length code s (257..285). -/
def lenExtraOf (s : Nat) : Nat := lenExtra.getD (s - 257) 0

/-- DIST_BASE of a distance code c (0..29). -/
def distBaseOf (c : Nat) : Nat := distBase.getD c 0

/-- DIST_EXTRA of a distance code c (0..29). -/
def distExtraOf (c : Nat) : Nat := distExtra.getD c 0

/-- How many entries of an increasing list of bases are at most v: one more than the index of the largest such entry. -/
def countUpTo (bases : List Nat) (v : Nat) : Nat := (bases.filter (· ≤ v)).length

/-- `len_code(L)` (R62): 285 if L = 258, and otherwise the largest code s in 257..284 with LEN_BASE[s−257] ≤ L. -/
def lenCode (len : Nat) : Nat := if len = 258 then 285 else 256 + countUpTo (lenBase.take 28) len

/-- `dist_code(D)` (R62): the largest c in 0..29 with DIST_BASE[c] ≤ D. -/
def distCode (dist : Nat) : Nat := countUpTo distBase dist - 1

/-- The code lengths of the static literal/length code, symbols 0..287 (R64). -/
def staticLitLens : List Nat :=
  List.replicate 144 8 ++ List.replicate 112 9 ++ List.replicate 24 7 ++ List.replicate 8 8

/-- The code lengths of the static distance code as the encoder uses it, symbols 0..29 (R64, R98). -/
def staticDistLens : List Nat := List.replicate 30 5

/-- The 32 code lengths of the static distance decode table (R64, R128). -/
def staticDistDecodeLens : List Nat := List.replicate 32 5

/-- An alphabet of R83. -/
inductive Alphabet where
  | lit | dist | cl
deriving DecidableEq, Repr

/-- `n_α` (R83): the element count. -/
def Alphabet.size : Alphabet → Nat
  | .lit => 286
  | .dist => 30
  | .cl => 19

/-- `MAXLEN_α` (R83): the maximum code length. -/
def Alphabet.maxLen : Alphabet → Nat
  | .lit => 15
  | .dist => 15
  | .cl => 7

/-- `xbits_α(s)` (R83): the extra-bit count of a symbol, 0 below `xbase_α`. -/
def Alphabet.extraBits : Alphabet → Nat → Nat
  | .lit, s => if s < 257 then 0 else lenExtraOf s
  | .dist, s => distExtraOf s
  | .cl, s => if s = 16 then 2 else if s = 17 then 3 else if s = 18 then 7 else 0

/-- `stat_α` (R83): the static code length of a symbol, if the alphabet has a static table. -/
def Alphabet.staticLen : Alphabet → Nat → Option Nat
  | .lit, s => some (staticLitLens.getD s 0)
  | .dist, _ => some 5
  | .cl, _ => none

end Sys2Proof.Machine
end

