-- ==== Sys2Proof/Machine/Ops.lean ====
section
/-! DEFINITION. The operations every part of the block shares: byte memory in its canonical form, the host address map
(`spec/20_memory.md`), the core's reads and writes of the host-visible spaces, entering an error (R166), leaving it
(R154), and the dispatch conditions of a command (R152, R163). -/

namespace Sys2Proof.Machine

/-! ### Byte memory -/

/-- What an address that `mem` or `win` does not list reads as. FREQ_TAB, LEN_TAB, CODE_TAB and BLCOUNT_TAB reset to 0
(R23). DESIGN CHOICE, unsafe: for IN_BUF, OUT_BUF and `win`, whose contents are unspecified after reset (R175), the same
byte. Assumption log 2. -/
def unlistedByte : Byte := 0#8

/-- The addresses of a memory rise strictly. -/
def Memory.rising : Memory → Bool
  | [] => true
  | [_] => true
  | c :: d :: rest => decide (c.1 < d.1) && Memory.rising (d :: rest)

/-- The one canonical form: addresses strictly rising, and no entry equal to what an unlisted address reads as. -/
def Memory.wf (m : Memory) : Bool := Memory.rising m && m.all (fun c => c.2 != unlistedByte)

/-- The byte at an address. -/
def Memory.read : Memory → Nat → Byte
  | [], _ => unlistedByte
  | c :: rest, a => if c.1 = a then c.2 else Memory.read rest a

/-- `m` with the entry (a, v) in its place. -/
def Memory.insert : Memory → Nat → Byte → Memory
  | [], a, v => [(a, v)]
  | c :: rest, a, v =>
    if a < c.1 then (a, v) :: c :: rest
    else if a = c.1 then (a, v) :: rest
    else c :: Memory.insert rest a v

/-- `m` without an entry for a. -/
def Memory.erase : Memory → Nat → Memory
  | [], _ => []
  | c :: rest, a => if c.1 = a then rest else c :: Memory.erase rest a

/-- Write one byte: writing what an unlisted address reads as removes the entry. -/
def Memory.write (m : Memory) (a : Nat) (v : Byte) : Memory :=
  if v = unlistedByte then Memory.erase m a else Memory.insert m a v

/-- Write bytes at a, a+1, a+2, … -/
def Memory.writeBytes : Memory → Nat → List Byte → Memory
  | m, _, [] => m
  | m, a, v :: rest => Memory.writeBytes (Memory.write m a v) (a + 1) rest

/-- The n bytes at a, a+1, …, a+n−1. -/
def Memory.readBytes (m : Memory) (a n : Nat) : List Byte := (List.range n).map (fun i => Memory.read m (a + i))

/-- The value of bytes in address order, little-endian (R30): the first byte is bits [7:0]. -/
def leValue : List Byte → Nat
  | [] => 0
  | b :: rest => b.toNat + 256 * leValue rest

/-- The n bytes of a value in address order, little-endian (R30). -/
def leBytes : (n v : Nat) → List Byte
  | 0, _ => []
  | n + 1, v => BitVec.ofNat 8 v :: leBytes n (v / 256)

/-! ### The host address map (R28, R29, R33) -/

/-- A host-visible address space (R28). -/
inductive Space where
  | reg | freqTab | lenTab | codeTab | blcountTab | inBuf | outBuf
deriving DecidableEq, Repr

/-- One line of R29's map with R33's access rule: where the space lies, which access widths in bits it accepts, and
whether the host may write it. -/
structure Region where
  space : Space
  base : Nat
  size : Nat
  widths : List Nat
  writable : Bool
deriving DecidableEq, Repr

/-- First address of FREQ_TAB (R29). -/
def freqBase : Nat := 0x1000

/-- First address of LEN_TAB (R29). -/
def lenTabBase : Nat := 0x1400

/-- First address of CODE_TAB (R29). -/
def codeTabBase : Nat := 0x1800

/-- First address of BLCOUNT_TAB (R29). -/
def blcountBase : Nat := 0x1C00

/-- First address of IN_BUF (R29). -/
def inBase : Nat := 0x100000

/-- First address of OUT_BUF (R29). -/
def outBase : Nat := 0x200000

/-- Entries of FREQ_TAB, LEN_TAB and CODE_TAB (R23). -/
def tabEntries : Nat := 286

/-- The host address map of R29 with the widths of R33. CMD, the one writable register, is not in this column: its write
is a command, not a store (R34). -/
def regions (p : Params) : List Region :=
  [ { space := .reg, base := 0, size := 32, widths := [32], writable := false },
    { space := .freqTab, base := freqBase, size := 2 * tabEntries, widths := [16], writable := true },
    { space := .lenTab, base := lenTabBase, size := tabEntries, widths := [8], writable := false },
    { space := .codeTab, base := codeTabBase, size := 2 * tabEntries, widths := [16], writable := false },
    { space := .blcountTab, base := blcountBase, size := 32, widths := [16], writable := false },
    { space := .inBuf, base := inBase, size := p.inCap, widths := [8, 16, 32], writable := true },
    { space := .outBuf, base := outBase, size := p.outCap, widths := [8, 16, 32], writable := true } ]

/-! ### The core's accesses to the host-visible spaces (R36 to R38) -/

/-- MemRead(IN_BUF, i, 8) (R36). -/
def inByte (m : Memory) (i : Nat) : Byte := Memory.read m (inBase + i)

/-- The bytes written to OUT_BUF[written..) in order: MemWrite(OUT_BUF, written + j, 8, …) (R37). -/
def writeOut (m : Memory) (written : Nat) (bytes : List Byte) : Memory := Memory.writeBytes m (outBase + written) bytes

/-- FREQ_TAB[i], 16 bits, zero-extended (R38, R162). -/
def freqEntry (m : Memory) (i : Nat) : Nat := leValue (Memory.readBytes m (freqBase + 2 * i) 2)

/-! ### Parameters -/

/-- R5's legal ranges. PENDING_CAP is at least 4·TALLY_CAP + 8; MATCH_FINDER is any admissible finder, and every
`Finder` is one (`Machine/MatchFinder.lean`). -/
def paramsLegal (p : Params) : Bool :=
  decide (1 ≤ p.inCap) && decide (p.inCap ≤ 2 ^ 20) && decide (1 ≤ p.outCap) && decide (p.outCap ≤ 2 ^ 20) &&
    decide (1 ≤ p.tallyCap) && decide (p.tallyCap ≤ 65535) && decide (4 * p.tallyCap + 8 ≤ p.pendingCap)

/-- W = 2^WBITS (R5, R155). -/
def windowSize (wbits : BitVec 4) : Nat := 2 ^ wbits.toNat

/-- MAX_DIST = W − MIN_LOOKAHEAD (R7). -/
def maxDist (wbits : BitVec 4) : Nat := windowSize wbits - minLookahead

/-! ### Errors and commands -/

/-- `raise E` (R166): ERR takes the code of E, and nothing else changes. What the raise ends is its caller's part: no
later part of the command runs, but an output command still writes RESULT. -/
def raiseError (e : Err) (s : State) : State := { s with err := e }

/-- The one way out of an error, and the end of a stream (R154, R167, R174): every state element of `10_state.md` takes
its reset value. The parameters are no state element, and the accesses the host has issued are not the block's.
DESIGN CHOICE, unsafe: IN_BUF, OUT_BUF and `win`, which the spec leaves unspecified after RESET (R175), read as they do
after power-on. Assumption log 2. -/
def resetBlock (s : State) : State := { State.reset with params := s.params, bus := s.bus, readData := s.readData }

/-- R163: an illegal command raises IllegalCommand and changes no other state. -/
def illegalCommand (s : State) : State := raiseError .illegalCommand s

/-- R152, steps 3 and 4, for every command but RESET and NOP: with ERR ≠ 0 the command is refused and changes no state;
with its legality condition failing it is illegal (R163); otherwise it has its effect. -/
def runCommand (legal : Bool) (effect : State → Result) (s : State) : Result :=
  if s.err ≠ .none then .next s else if legal then effect s else .next (illegalCommand s)

end Sys2Proof.Machine
end

