-- ==== Sys2Proof/Machine/Operands.lean ====
section
/-! DEFINITION. The operand forms: the ARG layouts of the commands with the part of their legality that depends on the
operand (R46, R155, R158, R162), and the width, alignment and range of a host access (R30, R33). -/

namespace Sys2Proof.Machine

/-- A 24-bit byte count LEN or CAP: "unsigned byte counts", "zero-extended" (R44, R46). -/
def byteCount (arg : Arg) : Nat := arg.toNat

/-- MODE's field values 1 ENCODE and 2 DECODE (R46); 0 and 3 are illegal. -/
def modeOfField (mode : BitVec 2) : Option Mode :=
  if mode = 1#2 then some .encode else if mode = 2#2 then some .decode else none

/-- The conditions of R155 on CONFIGURE's operand fields. -/
def configureFieldsLegal (mode : BitVec 2) (storeOnly : Bool) (wbits : BitVec 4) : Bool :=
  (mode == 1#2 || mode == 2#2) && (!storeOnly || mode == 1#2) && decide (9 ≤ wbits.toNat) && decide (wbits.toNat ≤ 15)

/-- ALPHA (R46, R162): 0 LIT, 1 DIST, 2 CL; 3 is illegal. -/
def alphabetOfField (alpha : BitVec 2) : Option Alphabet :=
  if alpha = 0#2 then some .lit else if alpha = 1#2 then some .dist else if alpha = 2#2 then some .cl else none

/-- R158: every output command is illegal with CAP > OUT_CAP. -/
def capLegal (p : Params) (cap : Arg) : Bool := decide (byteCount cap ≤ p.outCap)

/-- An access of `bits` bits at byte address `a` is one that region `r` accepts (R33): of a width the space takes,
aligned to its width, and entirely inside the space. -/
def Region.accepts (r : Region) (bits a : Nat) : Bool :=
  r.widths.contains bits && decide (r.base ≤ a) && decide (a + bits / 8 ≤ r.base + r.size) &&
    decide ((a - r.base) % (bits / 8) = 0)

/-- The region that accepts an access of `bits` bits at `a`, if any (R29, R33). -/
def regionFor (p : Params) (bits a : Nat) : Option Region := (regions p).find? (fun r => r.accepts bits a)

/-- The command word of an accepted write to CMD: "only as a 32-bit access at address 0x0000_0000" (R152). -/
def commandOf : HostAccess → Option Word
  | .read _ _ => none
  | .write bits addr value => if bits = 32 ∧ addr = 0#32 then some value else none

end Sys2Proof.Machine
end

