-- ==== Sys2Proof/Machine/Flags.lean ====
section
/-! DEFINITION. The status flags and the registers the host reads: R26 (`spec/10_state.md`) and R49 to R53
(`spec/30_encoding.md`). The flags are computed from state on every read, not stored. -/

namespace Sys2Proof.Machine

/-- NEEDS_INPUT = (`in_pos` = `in_len`) (R26). -/
def needsInput (s : State) : Bool := decide (s.input.inPos = s.input.inLen)

/-- FINISHED (R26). -/
def finished (s : State) : Bool :=
  match s.mode with
  | .idle => false
  | .encode => decide (s.enc.phase = .finished) && s.writer.pending.isEmpty
  | .decode => decide (s.dec.decState = .done) && decide (s.window.winUsed = 0)

/-- EOI (R26): `eoi` if MODE = DECODE, and 0 otherwise. -/
def eoiFlag (s : State) : Bool :=
  match s.mode with
  | .idle => false
  | .encode => false
  | .decode => s.dec.eoi

/-- STATUS.STATE (R50). -/
def stateField (s : State) : BitVec 5 :=
  match s.mode with
  | .idle => 0#5
  | .encode => s.enc.phase.code
  | .decode => s.dec.decState.code

/-- STATUS (R50): [31:15] 0, [14] EOI, [13] 0, [12:8] STATE, [7] FINISHED, [6] NEEDS_INPUT, [5:2] ERR, [1:0] MODE. -/
def statusReg (s : State) : Word :=
  0#17 ++ BitVec.ofBool (eoiFlag s) ++ 0#1 ++ stateField s ++ BitVec.ofBool (finished s) ++ BitVec.ofBool (needsInput s) ++
    s.err.code ++ s.mode.code

/-- RESULT's layout (R51): [31:25] 0, [24] DONE, [23:0] COUNT. -/
def resultReg (count : Nat) (isDone : Bool) : Word := 0#7 ++ BitVec.ofBool isDone ++ BitVec.ofNat 24 count

/-- CONFIG (R52): the CONFIGURE operand's layout. -/
def configReg (s : State) : Word := 0#8 ++ configArg s.mode.code s.storeOnly s.wbits

/-- The value a read of register k returns (R49): CMD and the reserved register 7 read 0. -/
def readReg (s : State) (k : Nat) : Word :=
  match k with
  | 1 => statusReg s
  | 2 => s.result
  | 3 => configReg s
  | 4 => s.tree.maxCode
  | 5 => s.tree.optLen
  | 6 => s.tree.staticLen
  | _ => 0#32

/-- OutputEnd(n) (R158): `RESULT <- n | (FINISHED << 24)`, with FINISHED as it stands when the command ends. -/
def outputEnd (n : Nat) (s : State) : State := { s with result := resultReg n (finished s) }

end Sys2Proof.Machine
end

