-- ==== Sys2Proof/Machine/Bus.lean ====
section
/-! DEFINITION. The host accesses that are not commands (`spec/20_memory.md`, R29 to R35): reads have no side effect on
the block, and a write to a writable location only stores the value written. -/

namespace Sys2Proof.Machine

/-- The datum of an accepted read in region `r` (R30, R34): a register's value, or the bytes read, little-endian and
zero-extended. -/
def regionDatum (s : State) (r : Region) (bits a : Nat) : Word :=
  match r.space with
  | .reg => readReg s (a / 4)
  | _ => BitVec.ofNat 32 (leValue (Memory.readBytes s.mem a (bits / 8)))

/-- The datum a host read returns; "A refused read returns 0" (R33). -/
def readDatum (s : State) (bits : Nat) (addr : BitVec 32) : Word :=
  match regionFor s.params bits addr.toNat with
  | none => 0#32
  | some r => regionDatum s r bits addr.toNat

/-- A host write that is no command (R33, R34): it stores the value's low bits, little-endian, where it is accepted and
the location is writable; "A refused write changes nothing" and records no error. -/
def storeDatum (s : State) (bits : Nat) (addr : BitVec 32) (value : Word) : Memory :=
  match regionFor s.params bits addr.toNat with
  | none => s.mem
  | some r => if r.writable then Memory.writeBytes s.mem addr.toNat (leBytes (bits / 8) value.toNat) else s.mem

/-- Perform a host access that is no command. -/
def hostAccess (a : HostAccess) (s : State) : State :=
  match a with
  | .read bits addr => { s with readData := readDatum s bits addr }
  | .write bits addr value => { s with mem := storeDatum s bits addr value }

/-- Place the command word of a row of the opcode table at the front of the accesses the host has issued: a 32-bit write
of it to CMD (R152). -/
def pushCommand (nbits w : Nat) (s : State) : State := { s with bus := .write 32 0#32 (tableWord nbits w) :: s.bus }

end Sys2Proof.Machine
end

