-- ==== Sys2Proof/Machine/Control.lean ====
section
/-! DEFINITION. The control commands NOP and RESET (`spec/47_commands.md`, R153 and R154): legal in every mode and also
when ERR ≠ 0 (R152, steps 1 and 2). -/

namespace Sys2Proof.Machine

/-- NOP (R153): nothing, whatever its ARG. -/
def execNop (_arg : Arg) (s : State) : Result := .next s

/-- RESET (R154): the block returns to IDLE with every state element at its reset value, whatever its ARG. -/
def execReset (_arg : Arg) (s : State) : Result := .next (resetBlock s)

end Sys2Proof.Machine
end

