-- ==== Sys2Proof/Machine/BitIO.lean ====
section
/-! DEFINITION. The bit reader, the bit writer and the pending-output queue (`spec/40_bitio.md`, R66 to R76). Stream bits
go LSB first within each byte (R31). -/

namespace Sys2Proof.Machine

/-! ### Bit reader -/

/-- The loop of `Load(n)` (R66), at most `fuel` bytes: each byte pulled from IN_BUF is consumed at once. -/
def loadLoop (mem : Memory) (n : Nat) : (fuel : Nat) → Input → BitReader → Input × BitReader
  | 0, inp, r => (inp, r)
  | fuel + 1, inp, r =>
    if r.brCount < n ∧ inp.inPos < inp.inLen then
      loadLoop mem n fuel { inp with inPos := inp.inPos + 1 }
        { brCache := r.brCache ||| ((inByte mem inp.inPos).setWidth 32 <<< r.brCount), brCount := r.brCount + 8 }
    else (inp, r)

/-- `Load(n)` (R66). Every pull adds 8 bits, so n pulls reach n bits. -/
def load (n : Nat) (s : State) : State :=
  let r := loadLoop s.mem n n s.input s.reader
  { s with input := r.1, reader := r.2 }

/-- `DropBits(n)` (R69). -/
def dropBits (n : Nat) (r : BitReader) : BitReader := { brCache := r.brCache >>> n, brCount := r.brCount - n }

/-- `PeekBit(i)` (R69). -/
def peekBit (r : BitReader) (i : Nat) : Bool := r.brCache.getLsbD i

/-- `GetBits(n)` (R67, R68): the next n bits, the oldest as bit 0, consumed; `none` where fewer are available, with the
state after `Load(n)` kept. -/
def getBits (n : Nat) (s : State) : Option Nat × State :=
  let s := load n s
  if n ≤ s.reader.brCount then
    (some (s.reader.brCache.toNat % 2 ^ n), { s with reader := dropBits n s.reader })
  else (none, s)

/-- `SkipToByteBoundary()` (R70). -/
def skipToByteBoundary (r : BitReader) : BitReader := dropBits (r.brCount % 8) r

/-! ### Bit writer -/

/-- One turn of the loop of `PutBits` (R71): a completed byte goes to the tail of `pending` at once. -/
def putBit (b : Bool) (w : BitWriter) : BitWriter :=
  let acc := w.bwAcc ||| ((BitVec.ofBool b).setWidth 8 <<< w.bwCount)
  if w.bwCount + 1 = 8 then { bwAcc := 0#8, bwCount := 0, pending := w.pending ++ [acc] }
  else { w with bwAcc := acc, bwCount := w.bwCount + 1 }

/-- `PutBits(v, n)` (R71): the n low bits of v, bit 0 first. -/
def putBits (v : Nat) : (n : Nat) → BitWriter → BitWriter
  | 0, w => w
  | n + 1, w => putBits (v / 2) n (putBit (v % 2 == 1) w)

/-- `AlignWriter()` (R73): pad with zero bits to the next byte boundary. -/
def alignWriter (w : BitWriter) : BitWriter :=
  if 0 < w.bwCount then { bwAcc := 0#8, bwCount := 0, pending := w.pending ++ [w.bwAcc] } else w

/-- `PutByte(b)` (R74), which requires `bw_count` = 0. -/
def putByte (b : Byte) (w : BitWriter) : BitWriter := { w with pending := w.pending ++ [b] }

/-- `PutByte` of each byte in order, with the queue extended once. -/
def putByteList (bytes : List Byte) (w : BitWriter) : BitWriter := { w with pending := w.pending ++ bytes }

/-- A code table (R72): code lengths and bit-reversed canonical codes, indexed by symbol. -/
structure CodeTable where
  len : List Nat
  code : List Nat
deriving DecidableEq, Repr

/-- `PutCode(T, s)` (R72). -/
def putCode (t : CodeTable) (s : Nat) (w : BitWriter) : BitWriter := putBits (t.code.getD s 0) (t.len.getD s 0) w

/-! ### Pending output -/

/-- `DrainPending(cap, written)` (R75): the oldest pending bytes go to OUT_BUF from index `written`, as far as `cap`
allows; the new `written` is returned. -/
def drainPending (cap written : Nat) (s : State) : Nat × State :=
  let k := min (cap - written) s.writer.pending.length
  (written + k,
    { s with mem := writeOut s.mem written (s.writer.pending.take k)
             writer := { s.writer with pending := s.writer.pending.drop k } })

end Sys2Proof.Machine
end

