-- ==== Sys2Proof/Machine/Huffman.lean ====
section
/-! DEFINITION. The canonical Huffman tree builder (`spec/42_huffman_builder.md`, R83 to R98). One build is a pure
function of its inputs (R84); its working state (R25) exists only during the build. -/

namespace Sys2Proof.Machine

/-- The working state of one build (R25). The arrays `freq`, `len`, `dad` and `depth` are indexed by node 0..2·n, `heap` by
heap position 0..HEAP_SIZE−1; `overflow` is R91's local counter. -/
structure TreeBuild where
  freq : List Nat
  len : List Nat
  dad : List Nat
  depth : List Nat
  heap : List Nat
  heapLen : Nat
  heapMax : Nat
  maxCode : Int
  blCount : List Nat
  overflow : Nat
  optLen : Word
  staticLen : Word
deriving DecidableEq, Repr

/-- What a build returns (R84). `code` holds the bit-reversed canonical codes. -/
structure TreeResult where
  table : CodeTable
  maxCode : Nat
  blCount : List Nat
  optLen : Word
  staticLen : Word
deriving DecidableEq, Repr

/-- Element i of an array of numbers. -/
def at0 (xs : List Nat) (i : Nat) : Nat := xs.getD i 0

/-- Add n to element i of an array of numbers. -/
def addAt (xs : List Nat) (i n : Nat) : List Nat := xs.set i (at0 xs i + n)

/-- R84: the build's inputs. The arrays have no value of their own at the start of a build (R25); they start at 0, which
is what R85 writes to the length and to the depth of a leaf. -/
def startBuild (f : List Nat) (alpha : Alphabet) (optIn staticIn : Word) : TreeBuild :=
  { freq := f.take alpha.size ++ List.replicate (2 * alpha.size + 1 - (f.take alpha.size).length) 0
    len := List.replicate (2 * alpha.size + 1) 0
    dad := List.replicate (2 * alpha.size + 1) 0
    depth := List.replicate (2 * alpha.size + 1) 0
    heap := List.replicate heapSize 0
    heapLen := 0
    heapMax := heapSize
    maxCode := -1
    blCount := List.replicate 16 0
    overflow := 0
    optLen := optIn
    staticLen := staticIn }

/-- R85, one symbol: a symbol of non-zero frequency enters the heap at its end, with depth 0. -/
def seedSymbol (b : TreeBuild) (s : Nat) : TreeBuild :=
  if at0 b.freq s ≠ 0 then
    { b with heapLen := b.heapLen + 1, heap := b.heap.set (b.heapLen + 1) s, maxCode := (s : Int) }
  else b

/-- R85: symbols enter in increasing order. -/
def seedHeap (n : Nat) (b : TreeBuild) : TreeBuild := (List.range n).foldl seedSymbol b

/-- R86: the symbol the next forcing takes: the one above `max_code` while `max_code` < 2, otherwise symbol 0. -/
def forcedNode (b : TreeBuild) : Nat := if b.maxCode < 2 then (b.maxCode + 1).toNat else 0

/-- R86, one turn of the loop: the forced symbol gets frequency 1, and both costs are corrected. -/
def forceSymbol (alpha : Alphabet) (b : TreeBuild) : TreeBuild :=
  let node := forcedNode b
  { b with
    maxCode := if b.maxCode < 2 then b.maxCode + 1 else b.maxCode
    heapLen := b.heapLen + 1
    heap := b.heap.set (b.heapLen + 1) node
    freq := b.freq.set node 1
    depth := b.depth.set node 0
    optLen := b.optLen - 1#32
    staticLen := match alpha.staticLen node with
      | some l => b.staticLen - BitVec.ofNat 32 l
      | none => b.staticLen }

/-- R86: `while heap_len < 2`, which runs at most twice. -/
def forceSymbols (alpha : Alphabet) (b : TreeBuild) : TreeBuild :=
  let b := if b.heapLen < 2 then forceSymbol alpha b else b
  if b.heapLen < 2 then forceSymbol alpha b else b

/-- `smaller(a, b)` (R87): by frequency, then by depth; a full tie counts as smaller. -/
def smaller (b : TreeBuild) (x y : Nat) : Bool :=
  decide (at0 b.freq x < at0 b.freq y) || (at0 b.freq x == at0 b.freq y && decide (at0 b.depth x ≤ at0 b.depth y))

/-- The loop of `DownHeap` (R88): v is the node being sifted, k its position, j the child position under consideration.
j at least doubles in every turn, so `heap_len` turns are enough. -/
def downHeapLoop : (fuel : Nat) → (v k j : Nat) → TreeBuild → TreeBuild
  | 0, v, k, _, b => { b with heap := b.heap.set k v }
  | fuel + 1, v, k, j, b =>
    if j ≤ b.heapLen then
      let child := if j < b.heapLen ∧ smaller b (at0 b.heap (j + 1)) (at0 b.heap j) then j + 1 else j
      if smaller b v (at0 b.heap child) then { b with heap := b.heap.set k v }
      else downHeapLoop fuel v child (2 * child) { b with heap := b.heap.set k (at0 b.heap child) }
    else { b with heap := b.heap.set k v }

/-- `DownHeap(k)` (R88). -/
def downHeap (k : Nat) (b : TreeBuild) : TreeBuild := downHeapLoop b.heapLen (at0 b.heap k) k (2 * k) b

/-- R89: `DownHeap(k)` for k = `heap_len div 2` down to 1. -/
def heapify : (k : Nat) → TreeBuild → TreeBuild
  | 0, b => b
  | k + 1, b => heapify k (downHeap (k + 1) b)

/-- R90: the first node leaves position 1, the last one takes its place, and the order is restored. -/
def popHeap (b : TreeBuild) : TreeBuild :=
  downHeap 1 { b with heap := b.heap.set 1 (at0 b.heap b.heapLen), heapLen := b.heapLen - 1 }

/-- R90: record a popped node at `heap[heap_max − 1]`. -/
def recordNode (x : Nat) (b : TreeBuild) : TreeBuild :=
  { b with heapMax := b.heapMax - 1, heap := b.heap.set (b.heapMax - 1) x }

/-- R90: the internal node `node` becomes the parent of x and y and takes position 1. -/
def joinNodes (node x y : Nat) (b : TreeBuild) : TreeBuild :=
  downHeap 1
    { b with
      freq := b.freq.set node (at0 b.freq x + at0 b.freq y)
      depth := b.depth.set node (max (at0 b.depth x) (at0 b.depth y) + 1)
      dad := (b.dad.set x node).set y node
      heap := b.heap.set 1 node }

/-- R90, one merge of the two least-frequent entries under the internal node `node`. -/
def mergeStep (node : Nat) (b : TreeBuild) : TreeBuild :=
  let x := at0 b.heap 1
  let b := popHeap b
  let y := at0 b.heap 1
  joinNodes node x y (recordNode y (recordNode x b))

/-- R90: `repeat … until heap_len < 2`. Every merge takes one entry from the heap, so `heap_len` turns are enough. -/
def mergeLoop : (fuel node : Nat) → TreeBuild → TreeBuild
  | 0, _, b => b
  | fuel + 1, node, b =>
    let b := mergeStep node b
    if b.heapLen < 2 then b else mergeLoop fuel (node + 1) b

/-- R90: the merges, and then the root recorded. Internal nodes are numbered from `n_α`. -/
def mergeAll (alpha : Alphabet) (b : TreeBuild) : TreeBuild :=
  let b := mergeLoop b.heapLen alpha.size b
  recordNode (at0 b.heap 1) b

/-- R91: what a leaf m of code length `bits` adds to the histogram and to both costs. -/
def countLeaf (alpha : Alphabet) (m bits : Nat) (b : TreeBuild) : TreeBuild :=
  { b with
    blCount := addAt b.blCount bits 1
    optLen := b.optLen + BitVec.ofNat 32 (at0 b.freq m * (bits + alpha.extraBits m))
    staticLen := match alpha.staticLen m with
      | some l => b.staticLen + BitVec.ofNat 32 (at0 b.freq m * (l + alpha.extraBits m))
      | none => b.staticLen }

/-- R91, one node of the walk: its length is its parent's plus 1, capped at MAXLEN; only leaves are counted. -/
def lengthStep (alpha : Alphabet) (b : TreeBuild) (h : Nat) : TreeBuild :=
  let m := at0 b.heap h
  let bits := at0 b.len (at0 b.dad m) + 1
  let b := if alpha.maxLen < bits then { b with overflow := b.overflow + 1 } else b
  let bits := min bits alpha.maxLen
  let b := { b with len := b.len.set m bits }
  if b.maxCode < (m : Int) then b else countLeaf alpha m bits b

/-- R91: the walk from the root at `heap[heap_max]` to `heap[HEAP_SIZE − 1]`. -/
def genLengths (alpha : Alphabet) (b : TreeBuild) : TreeBuild :=
  let b := { b with blCount := List.replicate 16 0, overflow := 0, len := b.len.set (at0 b.heap b.heapMax) 0 }
  (List.range' (b.heapMax + 1) (heapSize - (b.heapMax + 1))).foldl (lengthStep alpha) b

/-- R92: `while bl_count[bits] = 0: bits <- bits − 1`. -/
def nonEmptyBelow (bl : List Nat) : (bits : Nat) → Nat
  | 0 => 0
  | bits + 1 => if at0 bl (bits + 1) = 0 then nonEmptyBelow bl bits else bits + 1

/-- R92, one turn of the correction loop: one leaf moves down a level, and an overflow item becomes its sibling. -/
def correctOnce (maxLen : Nat) (bl : List Nat) : List Nat :=
  let bits := nonEmptyBelow bl (maxLen - 1)
  let bl := bl.set bits (at0 bl bits - 1)
  let bl := addAt bl (bits + 1) 2
  bl.set maxLen (at0 bl maxLen - 1)

/-- R92: `repeat … overflow <- overflow − 2 until overflow <= 0`. Every turn lowers `overflow`, so `overflow` turns are
enough. -/
def correctLoop (maxLen : Nat) : (fuel overflow : Nat) → List Nat → List Nat
  | 0, _, bl => bl
  | fuel + 1, overflow, bl =>
    let bl := correctOnce maxLen bl
    if overflow ≤ 2 then bl else correctLoop maxLen fuel (overflow - 2) bl

/-- R93: the leaves in the order of `heap` from its end. -/
def leavesFromEnd (b : TreeBuild) : List Nat :=
  ((b.heap.drop b.heapMax).reverse).filter (fun m => decide ((m : Int) ≤ b.maxCode))

/-- R93: the lengths the leaves take, in that order: `bl_count[bits]` times `bits`, for bits = MAXLEN down to 1. -/
def lengthsDown (bl : List Nat) : (bits : Nat) → List Nat
  | 0 => []
  | bits + 1 => List.replicate (at0 bl (bits + 1)) (bits + 1) ++ lengthsDown bl bits

/-- R93, one leaf m: a changed length adjusts `opt_len` by (new − old) · freq modulo 2^32. -/
def reassign (b : TreeBuild) (mb : Nat × Nat) : TreeBuild :=
  let m := mb.1
  let bits := mb.2
  if at0 b.len m ≠ bits then
    { b with
      optLen := b.optLen + BitVec.ofInt 32 (((bits : Int) - (at0 b.len m : Int)) * (at0 b.freq m : Int))
      len := b.len.set m bits }
  else b

/-- R92 and R93: the correction and the reassignment, which run only when `overflow` > 0. -/
def correctOverflow (alpha : Alphabet) (b : TreeBuild) : TreeBuild :=
  if 0 < b.overflow then
    let b := { b with blCount := correctLoop alpha.maxLen b.overflow b.overflow b.blCount }
    ((leavesFromEnd b).zip (lengthsDown b.blCount alpha.maxLen)).foldl reassign b
  else b

/-- The loop of `rev_n(v)` (R96), r being the bits reversed so far. -/
def revLoop : (n v r : Nat) → Nat
  | 0, _, r => r
  | n + 1, v, r => revLoop n (v / 2) (2 * r + v % 2)

/-- `rev_n(v)` (R96): the n-bit bit reversal. -/
def revBits (n v : Nat) : Nat := revLoop n v 0

/-- R95: the first canonical codes `next[l]`, `next[l+1]`, … of `fuel` lengths from l on, c being `next[l−1]`'s value;
`bl_count[0]` is taken as 0. -/
def nextCodesFrom (bl : List Nat) : (fuel l c : Nat) → List Nat
  | 0, _, _ => []
  | fuel + 1, l, c =>
    let c := 2 * (c + (if l = 1 then 0 else at0 bl (l - 1)))
    c :: nextCodesFrom bl fuel (l + 1) c

/-- R95: `next[l]` for l = 0..15, with entry 0 unused. -/
def nextCodes (bl : List Nat) : List Nat := 0 :: nextCodesFrom bl 15 1 0

/-- R95: the symbols in increasing order, each taking the next code of its length, bit-reversed; a symbol of length 0
has no code. -/
def assignCodes : (lens next : List Nat) → List Nat
  | [], _ => []
  | l :: rest, next =>
    if l ≠ 0 then revBits l (at0 next l) :: assignCodes rest (addAt next l 1) else 0 :: assignCodes rest next

/-- `GenCodes(len, bl_count)` (R95). -/
def genCodes (lens bl : List Nat) : List Nat := assignCodes lens (nextCodes bl)

/-- How many entries have each length 0..15, with entry 0 taken as 0 (R94, R95, R126). -/
def histogram (lens : List Nat) : List Nat :=
  0 :: (List.range' 1 15).map (fun l => lens.count l)

/-- R84: `BuildTree(f, α, opt_in, static_in)`. -/
def buildTree (f : List Nat) (alpha : Alphabet) (optIn staticIn : Word) : TreeResult :=
  let b := startBuild f alpha optIn staticIn
  let b := forceSymbols alpha (seedHeap alpha.size b)
  let b := mergeAll alpha (heapify (b.heapLen / 2) b)
  let b := correctOverflow alpha (genLengths alpha b)
  let lens := b.len.take alpha.size
  { table := { len := lens, code := genCodes lens b.blCount }
    maxCode := b.maxCode.toNat
    blCount := b.blCount
    optLen := b.optLen
    staticLen := b.staticLen }

/-- R98: the static literal/length code table the encoder writes with. -/
def staticLitCode : CodeTable := { len := staticLitLens, code := genCodes staticLitLens (histogram staticLitLens) }

/-- R98: the static distance code table the encoder writes with. -/
def staticDistCode : CodeTable := { len := staticDistLens, code := genCodes staticDistLens (histogram staticDistLens) }

end Sys2Proof.Machine
end

