-- ==== Sys2Proof/Machine/SymbolDecoder.lean ====
section
/-! DEFINITION. The Huffman symbol decoder (`spec/45_huffman_decoder.md`, R126 to R129). -/

namespace Sys2Proof.Machine

/-- `CheckKraft(cnt)` (R127) from length l on, `left` being the unused codes of length l − 1: false if the lengths ask
for more codes than the code space holds. -/
def kraftFrom (cnt : List Nat) : (fuel l left : Nat) → Bool
  | 0, _, _ => true
  | fuel + 1, l, left =>
    if 2 * left < at0 cnt l then false else kraftFrom cnt fuel (l + 1) (2 * left - at0 cnt l)

/-- `CheckKraft(cnt)` (R127). -/
def checkKraft (cnt : List Nat) : Bool := kraftFrom cnt 15 1 1

/-- The symbols of code length l, in increasing order. -/
def symbolsOfLength (lens : List Nat) (l : Nat) : List Nat :=
  (lens.zipIdx.filter (fun p => p.1 == l)).map Prod.snd

/-- R126: the indexes `offs[l]`, `offs[l+1]`, … of `fuel` lengths from l on, k being the symbols placed so far. -/
def offsetsFrom (cnt : List Nat) : (fuel l k : Nat) → List Nat
  | 0, _, _ => []
  | fuel + 1, l, k => k :: offsetsFrom cnt fuel (l + 1) (k + at0 cnt l)

/-- `MakeTable(lens)` (R126); `none` where R127 raises InvalidHuffmanTable. -/
def makeTable (lens : List Nat) : Option DecTable :=
  let cnt := histogram lens
  if checkKraft cnt then
    some { cnt := cnt
           first := nextCodes cnt
           offs := 0 :: offsetsFrom cnt 15 1 0
           sym := (List.range' 1 15).flatMap (symbolsOfLength lens)
           lmax := lens.foldl max 0 }
  else none

/-- The static literal/length decode table (R128). -/
def staticLitTable : DecTable := (makeTable staticLitLens).getD DecTable.empty

/-- The static distance decode table (R128). -/
def staticDistTable : DecTable := (makeTable staticDistDecodeLens).getD DecTable.empty

/-- What `DecodeSym` answers (R129). -/
inductive SymOut where
  | symbol (s : Nat)
  | needIn
  | badCode
deriving DecidableEq, Repr

/-- The loop of `DecodeSym` (R129) over the lengths l, l+1, … (`fuel` of them), c being the code read so far: the first
length at which the bits read are a code, with its symbol. -/
def findCode (t : DecTable) (r : BitReader) : (fuel l c : Nat) → Option (Nat × Nat)
  | 0, _, _ => none
  | fuel + 1, l, c =>
    let c := 2 * c + (peekBit r (l - 1)).toNat
    if at0 t.first l ≤ c ∧ c < at0 t.first l + at0 t.cnt l then some (l, at0 t.sym (at0 t.offs l + c - at0 t.first l))
    else findCode t r fuel (l + 1) c

/-- `DecodeSym(T)` (R129). -/
def decodeSym (t : DecTable) (s : State) : SymOut × State :=
  let s := load t.lmax s
  match findCode t s.reader (min s.reader.brCount 15) 1 0 with
  | some (l, sym) => (.symbol sym, { s with reader := dropBits l s.reader })
  | none => if t.lmax ≤ s.reader.brCount then (.badCode, s) else (.needIn, s)

end Sys2Proof.Machine
end

