-- ==== Sys2Proof/Machine/Window.lean ====
section
/-! DEFINITION. The decode window (`spec/41_window.md`, R77 to R80): a ring of W = 2^WBITS bytes. -/

namespace Sys2Proof.Machine

/-- `FreeBytes()` (R77). -/
def freeBytes (w : Nat) (x : Window) : Nat := w - x.winUsed

/-- The byte `back` positions before the write cursor, `win[(win_end − back) mod W]`, for back ≤ W. -/
def windowByte (w : Nat) (x : Window) (back : Nat) : Byte := Memory.read x.win ((x.winEnd + w - back) % w)

/-- `WriteLiteral(b)` (R78). -/
def writeLiteral (w : Nat) (b : Byte) (x : Window) : Window :=
  { win := Memory.write x.win x.winEnd b, winEnd := (x.winEnd + 1) % w, winUsed := x.winUsed + 1,
    winFilled := min (x.winFilled + 1) w }

/-- `WriteBackReference(L, D)` (R79), byte by byte: a source byte is read after every earlier byte of the same copy has
been written. -/
def writeBackReference (w : Nat) : (len dist : Nat) → Window → Window
  | 0, _, x => x
  | len + 1, dist, x => writeBackReference w len dist (writeLiteral w (windowByte w x dist) x)

/-- The k oldest undrained bytes of the ring, in order: `win[(start + j) mod W]` for j < k (R80). -/
def oldestBytes (w : Nat) (x : Window) (k : Nat) : List Byte :=
  (List.range k).map (fun j => Memory.read x.win (((x.winEnd + w - x.winUsed) % w + j) % w))

/-- `DrainWindow(cap, written)` (R80): the oldest undrained bytes go to OUT_BUF from index `written`, as far as `cap`
allows; the new `written` is returned. -/
def drainWindow (cap written : Nat) (s : State) : Nat × State :=
  let k := min (cap - written) s.window.winUsed
  (written + k,
    { s with mem := writeOut s.mem written (oldestBytes (windowSize s.wbits) s.window k)
             window := { s.window with winUsed := s.window.winUsed - k } })

end Sys2Proof.Machine
end

