-- ==== Sys2Proof/Machine/Decoder.lean ====
section
/-! DEFINITION. The block decode state machine (`spec/46_decoder.md`, R131 to R150): one definition per state. -/

namespace Sys2Proof.Machine

/-- The outcome of `DecStep()` (R132): OK, IN, OUT, DONE, or a raise. -/
inductive StepOut where
  | ok
  | needIn
  | needOut
  | done
  | raised (e : Err)
deriving DecidableEq, Repr

/-- A state that reads n bits with one `GetBits(n)` before it changes anything (R133): IN where they are not there. -/
def withBits (n : Nat) (f : Nat → State → StepOut × State) (s : State) : StepOut × State :=
  match getBits n s with
  | (none, s) => (.needIn, s)
  | (some v, s) => f v s

/-- A state that reads one symbol with one `DecodeSym(T)` before it changes anything (R133): IN where the input ends
first, InvalidHuffmanTable where the bits are no code (R129). -/
def withSym (t : DecTable) (f : Nat → State → StepOut × State) (s : State) : StepOut × State :=
  match decodeSym t s with
  | (.needIn, s) => (.needIn, s)
  | (.badCode, s) => (.raised .invalidHuffmanTable, s)
  | (.symbol v, s) => f v s

/-- `dec_state` after the end of a block: `(bfinal = 1) ? 18 : 0` (R142, R148). -/
def afterBlock (d : Decoder) : DecState := if d.bfinal then .done else .readingBFinal

/-! ### Block header -/

/-- State 0, ReadingBFinal (R134). -/
def decReadingBFinal (s : State) : StepOut × State :=
  withBits 1 (fun v s => (.ok, { s with dec := { s.dec with bfinal := v == 1, decState := .readingBType } })) s

/-- State 1 (R135), the block type v. -/
def blockTypeRead (v : Nat) (s : State) : StepOut × State :=
  if v = 0 then (.ok, { s with dec := { s.dec with decState := .uncompressedAligning } })
  else if v = 1 then
    (.ok, { s with dec := { s.dec with litTable := staticLitTable, distTable := staticDistTable, decState := .decodeTop } })
  else if v = 2 then (.ok, { s with dec := { s.dec with decState := .readingNumLitCodes } })
  else (.raised .invalidBlockType, s)

/-- State 1, ReadingBType (R135). -/
def decReadingBType (s : State) : StepOut × State := withBits 2 blockTypeRead s

/-! ### Dynamic header -/

/-- State 2, ReadingNumLitCodes (R136). -/
def decReadingNumLitCodes (s : State) : StepOut × State :=
  withBits 5
    (fun v s =>
      if 29 < v then (.raised .invalidHeaderCount, s)
      else (.ok, { s with dec := { s.dec with hlitN := v + 257, decState := .readingNumDistCodes } }))
    s

/-- State 3, ReadingNumDistCodes (R137). -/
def decReadingNumDistCodes (s : State) : StepOut × State :=
  withBits 5
    (fun v s =>
      if 29 < v then (.raised .invalidHeaderCount, s)
      else (.ok, { s with dec := { s.dec with hdistN := v + 1, decState := .readingNumCodeLenCodes } }))
    s

/-- State 4, ReadingNumCodeLenCodes (R138). -/
def decReadingNumCodeLenCodes (s : State) : StepOut × State :=
  withBits 4
    (fun v s =>
      (.ok, { s with dec := { s.dec with hclenN := v + 4, clLens := List.replicate 19 0, clIdx := 0,
                                         decState := .readingCodeLenCodes } }))
    s

/-- State 5 (R139) after the last entry: the code-length table is built in the same step; a raise leaves the entries. -/
def codeLenTable (s : State) : StepOut × State :=
  match makeTable s.dec.clLens with
  | none => (.raised .invalidHuffmanTable, s)
  | some t => (.ok, { s with dec := { s.dec with clTable := t, lens := [], decState := .readingTreeCodes } })

/-- State 5, ReadingCodeLenCodes (R139). -/
def decReadingCodeLenCodes (s : State) : StepOut × State :=
  withBits 3
    (fun v s =>
      let s := { s with dec := { s.dec with clLens := s.dec.clLens.set (at0 blOrder s.dec.clIdx) v,
                                            clIdx := s.dec.clIdx + 1 } }
      if s.dec.clIdx = s.dec.hclenN then codeLenTable s else (.ok, s))
    s

/-- State 6 (R140) with every length read: the end-of-block check, then the literal/length table, then the distance
table; a raise keeps what was built before it (R166). -/
def buildTables (s : State) : StepOut × State :=
  if at0 s.dec.lens 256 = 0 then (.raised .missingEndOfBlockCode, s)
  else
    match makeTable (s.dec.lens.take s.dec.hlitN) with
    | none => (.raised .invalidHuffmanTable, s)
    | some lt =>
      let s := { s with dec := { s.dec with litTable := lt } }
      match makeTable ((s.dec.lens.drop s.dec.hlitN).take s.dec.hdistN) with
      | none => (.raised .invalidHuffmanTable, s)
      | some dt => (.ok, { s with dec := { s.dec with distTable := dt, decState := .decodeTop } })

/-- State 6 (R140), the code-length symbol c. -/
def treeCodeRead (c : Nat) (s : State) : StepOut × State :=
  if c ≤ 15 then (.ok, { s with dec := { s.dec with lens := s.dec.lens ++ [c] } })
  else if c = 16 ∧ s.dec.lens = [] then (.raised .invalidCodeLengthSequence, s)
  else (.ok, { s with dec := { s.dec with repSym := c, decState := .readingTreeCodesExtra } })

/-- State 6, ReadingTreeCodes (R140). -/
def decReadingTreeCodes (s : State) : StepOut × State :=
  if s.dec.lens.length = s.dec.hlitN + s.dec.hdistN then buildTables s
  else withSym s.dec.clTable treeCodeRead s

/-- R141: how many extra bits the repeat symbol has. -/
def repeatBits (repSym : Nat) : Nat := if repSym = 16 then 2 else if repSym = 17 then 3 else 7

/-- R141: the run (n, val) of the repeat symbol with extra value v. -/
def repeatRun (d : Decoder) (v : Nat) : Nat × Nat :=
  if d.repSym = 16 then (v + 3, at0 d.lens (d.lens.length - 1))
  else if d.repSym = 17 then (v + 3, 0)
  else (v + 11, 0)

/-- State 7, ReadingTreeCodesExtra (R141). -/
def decReadingTreeCodesExtra (s : State) : StepOut × State :=
  withBits (repeatBits s.dec.repSym)
    (fun v s =>
      let run := repeatRun s.dec v
      if s.dec.hlitN + s.dec.hdistN < s.dec.lens.length + run.1 then (.raised .invalidCodeLengthSequence, s)
      else
        (.ok, { s with dec := { s.dec with lens := s.dec.lens ++ List.replicate run.1 run.2,
                                           decState := .readingTreeCodes } }))
    s

/-! ### Compressed data -/

/-- State 8 (R142), the literal/length symbol v. -/
def litSymRead (v : Nat) (s : State) : StepOut × State :=
  if v < 256 then (.ok, { s with window := writeLiteral (windowSize s.wbits) (BitVec.ofNat 8 v) s.window })
  else if v = 256 then (.ok, { s with dec := { s.dec with decState := afterBlock s.dec } })
  else if v ≤ 285 then (.ok, { s with dec := { s.dec with curSym := v, decState := .haveInitialLength } })
  else (.raised .invalidSymbol, s)

/-- State 8, DecodeTop (R142): 258 free window bytes are required first. -/
def decDecodeTop (s : State) : StepOut × State :=
  if freeBytes (windowSize s.wbits) s.window < maxMatch then (.needOut, s)
  else withSym s.dec.litTable litSymRead s

/-- State 9, HaveInitialLength (R143). -/
def decHaveInitialLength (s : State) : StepOut × State :=
  withBits (lenExtraOf s.dec.curSym)
    (fun v s => (.ok, { s with dec := { s.dec with curLen := lenBaseOf s.dec.curSym + v, decState := .haveFullLength } }))
    s

/-- State 10, HaveFullLength (R144). -/
def decHaveFullLength (s : State) : StepOut × State :=
  withSym s.dec.distTable
    (fun v s =>
      if 30 ≤ v then (.raised .invalidSymbol, s)
      else (.ok, { s with dec := { s.dec with curDsym := v, decState := .haveDistCode } }))
    s

/-- State 11 (R145), the distance D. -/
def copyMatch (dist : Nat) (s : State) : StepOut × State :=
  if s.window.winFilled < dist then (.raised .invalidDistance, s)
  else
    (.ok, { s with window := writeBackReference (windowSize s.wbits) s.dec.curLen dist s.window
                   dec := { s.dec with decState := .decodeTop } })

/-- State 11, HaveDistCode (R145). -/
def decHaveDistCode (s : State) : StepOut × State :=
  withBits (distExtraOf s.dec.curDsym) (fun v s => copyMatch (distBaseOf s.dec.curDsym + v) s) s

/-! ### Stored blocks -/

/-- State 12, UncompressedAligning (R146). -/
def decUncompressedAligning (s : State) : StepOut × State :=
  (.ok, { s with reader := skipToByteBoundary s.reader, dec := { s.dec with decState := .uncompressedByte1 } })

/-- State 13, UncompressedByte1 (R147): LEN[7:0]. -/
def decUncompressedByte1 (s : State) : StepOut × State :=
  withBits 8
    (fun v s => (.ok, { s with dec := { s.dec with lenLo := BitVec.ofNat 8 v, decState := .uncompressedByte2 } })) s

/-- State 14, UncompressedByte2 (R147): LEN[15:8]. -/
def decUncompressedByte2 (s : State) : StepOut × State :=
  withBits 8
    (fun v s =>
      (.ok, { s with dec := { s.dec with storedLen := BitVec.ofNat 8 v ++ s.dec.lenLo, decState := .uncompressedByte3 } }))
    s

/-- State 15, UncompressedByte3 (R147): NLEN[7:0]. -/
def decUncompressedByte3 (s : State) : StepOut × State :=
  withBits 8
    (fun v s => (.ok, { s with dec := { s.dec with nlenLo := BitVec.ofNat 8 v, decState := .uncompressedByte4 } })) s

/-- State 16, UncompressedByte4 (R147): NLEN[15:8], and NLEN must be the one's complement of LEN. -/
def decUncompressedByte4 (s : State) : StepOut × State :=
  withBits 8
    (fun v s =>
      if (BitVec.ofNat 8 v ++ s.dec.nlenLo : BitVec 16) ≠ ~~~ s.dec.storedLen then (.raised .invalidStoredBlockLength, s)
      else
        (.ok, { s with dec := { s.dec with storedRem := s.dec.storedLen.toNat, decState := .decodingUncompressed } }))
    s

/-- State 17, DecodingUncompressed (R148): one byte a step, and the end test. -/
def decDecodingUncompressed (s : State) : StepOut × State :=
  if s.dec.storedRem = 0 then (.ok, { s with dec := { s.dec with decState := afterBlock s.dec } })
  else if freeBytes (windowSize s.wbits) s.window = 0 then (.needOut, s)
  else
    withBits 8
      (fun v s =>
        (.ok, { s with window := writeLiteral (windowSize s.wbits) (BitVec.ofNat 8 v) s.window
                       dec := { s.dec with storedRem := s.dec.storedRem - 1 } }))
      s

/-! ### The step and the driver -/

/-- `DecStep()` (R131, R132): the rule of the current state, once. State 18 changes nothing (R149). -/
def decStep (s : State) : StepOut × State :=
  match s.dec.decState with
  | .readingBFinal => decReadingBFinal s
  | .readingBType => decReadingBType s
  | .readingNumLitCodes => decReadingNumLitCodes s
  | .readingNumDistCodes => decReadingNumDistCodes s
  | .readingNumCodeLenCodes => decReadingNumCodeLenCodes s
  | .readingCodeLenCodes => decReadingCodeLenCodes s
  | .readingTreeCodes => decReadingTreeCodes s
  | .readingTreeCodesExtra => decReadingTreeCodesExtra s
  | .decodeTop => decDecodeTop s
  | .haveInitialLength => decHaveInitialLength s
  | .haveFullLength => decHaveFullLength s
  | .haveDistCode => decHaveDistCode s
  | .uncompressedAligning => decUncompressedAligning s
  | .uncompressedByte1 => decUncompressedByte1 s
  | .uncompressedByte2 => decUncompressedByte2 s
  | .uncompressedByte3 => decUncompressedByte3 s
  | .uncompressedByte4 => decUncompressedByte4 s
  | .decodingUncompressed => decDecodingUncompressed s
  | .done => (.done, s)

/-- The stream bits not yet read: those cached and those of the unconsumed input (R16, R17). -/
def unreadBits (s : State) : Nat := s.reader.brCount + 8 * (s.input.inLen - s.input.inPos)

/-- R150: "Every OK step consumes a bit, writes a byte or changes `dec_state`". Between two steps that consume a bit at most
one step consumes none, so so many steps, or turns of the driver, are enough. -/
def decBound (s : State) : Nat := 2 * unreadBits s + 4

/-- `repeat r <- DecStep() until r != OK` (R150), at most `fuel` steps; `none` if it has not ended by then. -/
def runSteps : (fuel : Nat) → State → Option (StepOut × State)
  | 0, _ => none
  | fuel + 1, s =>
    let r := decStep s
    if r.1 = .ok then runSteps fuel r.2 else some r

/-- How a decoder run ends: the bytes written to OUT_BUF, the error raised (`Err.none` if none), and the state. -/
structure RunEnd where
  written : Nat
  raised : Err
  state : State
deriving DecidableEq, Repr

/-- The loop of `DecodeRun(cap)` (R150), at most `fuel` turns; `none` if it has not ended by then. A raise ends it before
the drain of its turn. -/
def decodeLoop (cap : Nat) : (fuel written : Nat) → State → Option RunEnd
  | 0, _, _ => none
  | fuel + 1, written, s =>
    if written < cap ∧ s.dec.decState ≠ .done then
      match runSteps (decBound s) s with
      | none => none
      | some (.raised e, s) => some { written := written, raised := e, state := s }
      | some (r, s) =>
        let d := drainWindow cap written s
        if r = .needIn then
          some { written := d.1, raised := if d.2.dec.eoi then .malformedHuffmanCode else .none, state := d.2 }
        else decodeLoop cap fuel d.1 d.2
    else some { written := written, raised := .none, state := s }

/-- `DecodeRun(cap)` (R150). -/
def decodeRun (cap : Nat) (s : State) : Option RunEnd :=
  let d := drainWindow cap 0 s
  decodeLoop cap (decBound s) d.1 d.2

end Sys2Proof.Machine
end

