-- ==== Sys2Proof/Machine/MatchFinder.lean ====
section
/-! DEFINITION. The LZ77 match detector (`spec/43_match_detector.md`, R100 to R104). -/

namespace Sys2Proof.Machine

/-- How many leading bytes of two sequences agree, at most n. -/
def commonPrefix : (n : Nat) → List Byte → List Byte → Nat
  | 0, _, _ => 0
  | _, [], _ => 0
  | _, _, [] => 0
  | n + 1, a :: as, b :: bs => if a = b then commonPrefix n as bs + 1 else 0

/-- How many bytes at p agree with those at p − dist, at most maxlen (R101 property 3, R102): the compared ranges may
overlap, and the comparison is byte by byte. -/
def matchLength (hist : List Byte) (p maxlen dist : Nat) : Nat :=
  commonPrefix maxlen (hist.drop (p - dist)) (hist.drop p)

/-- The loop of `RefFinder` (R102) over D, nearest first, `fuel` distances from `dist` on; only a strictly longer match
replaces the best, and the loop stops at `maxlen`. -/
def refLoop (hist : List Byte) (p maxlen : Nat) : (fuel dist bestL bestD : Nat) → Nat × Nat
  | 0, _, bestL, bestD => (bestL, bestD)
  | fuel + 1, dist, bestL, bestD =>
    let l := matchLength hist p maxlen dist
    let best := if bestL < l then (l, dist) else (bestL, bestD)
    if best.1 = maxlen then best else refLoop hist p maxlen fuel (dist + 1) best.1 best.2

/-- `RefFinder` (R102), the default MATCH_FINDER. -/
def refFinder (hist : List Byte) (p maxlen maxdist : Nat) : Option (Nat × Nat) :=
  let best := refLoop hist p maxlen maxdist 1 0 0
  if minMatch ≤ best.1 then some best else none

/-- R101, properties 1 to 3, of an answer (L, D). -/
def admissible (hist : List Byte) (p maxlen maxdist : Nat) (m : Nat × Nat) : Bool :=
  decide (minMatch ≤ m.1) && decide (m.1 ≤ maxlen) && decide (1 ≤ m.2) && decide (m.2 ≤ maxdist) &&
    matchLength hist p m.1 m.2 == m.1

/-- MATCH_FINDER (R5, R101). A custom finder is given `hist[0 .. p + maxlen)` and no more (property 4), and an answer of
it that is not admissible counts as NONE: so `custom k` ranges over the admissible finders and no others. Assumption
log 3. -/
def matchFinder (f : Finder) (hist : List Byte) (p maxlen maxdist : Nat) : Option (Nat × Nat) :=
  match f with
  | .reference => refFinder hist p maxlen maxdist
  | .custom k => (Config.customFinder k (hist.take (p + maxlen)) p maxlen maxdist).filter (admissible hist p maxlen maxdist)

/-- `FindMatch(p, maxlen)` (R100), with maxdist = min(p, MAX_DIST): NONE without a search if maxlen < MIN_MATCH. -/
def findMatch (f : Finder) (wbits : BitVec 4) (hist : List Byte) (p maxlen : Nat) : Option (Nat × Nat) :=
  if maxlen < minMatch then none else matchFinder f hist p maxlen (min p (maxDist wbits))

end Sys2Proof.Machine
end

