-- ==== Sys2Proof/Machine/Encoder.lean ====
section
/-! DEFINITION. The block encode state machine (`spec/44_encoder.md`, R106 to R122). -/

namespace Sys2Proof.Machine

/-! ### Initialisation -/

/-- `InitBlock()` (R107). -/
def initBlock (e : Encoder) : Encoder :=
  { e with
    litFreq := initialLitFreq
    distFreq := List.replicate 30 0
    tally := []
    blockStart := e.encPos }

/-- `EncInit()` (R106), the encoder's part. -/
def encInit (e : Encoder) : Encoder := initBlock { e with hist := [], encPos := 0, phase := .running }

/-- `EncInit()` (R106), the bit writer's part. -/
def emptyWriter : BitWriter := { bwAcc := 0#8, bwCount := 0, pending := [] }

/-! ### The code-length alphabet's run-length coding -/

/-- One symbol of the code-length alphabet with its extra field (R58). -/
structure ClItem where
  sym : Nat
  extra : Nat
  extraBits : Nat
deriving DecidableEq, Repr

/-- R115, R121: what a finished run of `count` lengths `cur` is written as; prev is the previous run's length. -/
def runItems (prev : Option Nat) (cur count minCount : Nat) : List ClItem :=
  if count < minCount then List.replicate count { sym := cur, extra := 0, extraBits := 0 }
  else if cur ≠ 0 then
    if prev ≠ some cur then
      [{ sym := cur, extra := 0, extraBits := 0 }, { sym := 16, extra := count - 1 - 3, extraBits := 2 }]
    else [{ sym := 16, extra := count - 3, extraBits := 2 }]
  else if count ≤ 10 then [{ sym := 17, extra := count - 3, extraBits := 3 }]
  else [{ sym := 18, extra := count - 11, extraBits := 7 }]

/-- R115: (max_count, min_count) after a run of `cur` that is followed by `next`. -/
def runBounds (cur : Nat) (next : Option Nat) : Nat × Nat :=
  if next = some 0 then (138, 3) else if next = some cur then (6, 3) else (7, 4)

/-- The run logic that `ScanTree` (R115) and `SendTree` (R121) share, over the lengths still to scan. The sentinel after
the last length, and `prevlen` before the first, equal no length: they are `none`. -/
def scanRuns : List Nat → (prev : Option Nat) → (count maxCount minCount : Nat) → List ClItem
  | [], _, _, _, _ => []
  | cur :: rest, prev, count, maxCount, minCount =>
    let count := count + 1
    if count < maxCount ∧ rest.head? = some cur then scanRuns rest prev count maxCount minCount
    else
      let bounds := runBounds cur rest.head?
      runItems prev cur count minCount ++ scanRuns rest (some cur) 0 bounds.1 bounds.2

/-- The code-length symbols of the lengths `len[0..max_code]` (R115, R121). -/
def clItems (lens : List Nat) (maxCode : Nat) : List ClItem :=
  let ls := lens.take (maxCode + 1)
  if ls.head? = some 0 then scanRuns ls none 0 138 3 else scanRuns ls none 0 7 4

/-- `ScanTree` (R115): count the code-length symbols. -/
def scanTree (lens : List Nat) (maxCode : Nat) (blFreq : List Nat) : List Nat :=
  (clItems lens maxCode).foldl (fun f it => addAt f it.sym 1) blFreq

/-- `SendTree` (R121): write the code-length symbols in the code `bt`, each with its extra field. -/
def sendTree (lens : List Nat) (maxCode : Nat) (bt : CodeTable) (w : BitWriter) : BitWriter :=
  (clItems lens maxCode).foldl (fun w it => putBits it.extra it.extraBits (putCode bt it.sym w)) w

/-! ### The block's trees and its type -/

/-- What `BlockTrees()` computes (R114). It is transient: only one emission uses it. -/
structure BlockTrees where
  lt : TreeResult
  dt : TreeResult
  bt : TreeResult
  maxBlIndex : Nat
  optLen : Word
  staticLen : Word
deriving DecidableEq, Repr

/-- R114: `while max_blindex >= 3 and bt.len[BL_ORDER[max_blindex]] = 0: max_blindex <- max_blindex − 1`. -/
def trimBlIndex (lens : List Nat) : (idx : Nat) → Nat
  | 0 => 0
  | idx + 1 =>
    if 3 ≤ idx + 1 ∧ at0 lens (at0 blOrder (idx + 1)) = 0 then trimBlIndex lens idx else idx + 1

/-- `BlockTrees()` (R114), from the block's frequencies. -/
def blockTrees (litFreq distFreq : List Nat) : BlockTrees :=
  let lt := buildTree litFreq .lit 0#32 0#32
  let dt := buildTree distFreq .dist lt.optLen lt.staticLen
  let blFreq := scanTree dt.table.len dt.maxCode (scanTree lt.table.len lt.maxCode (List.replicate 19 0))
  let bt := buildTree blFreq .cl dt.optLen dt.staticLen
  let maxBlIndex := trimBlIndex bt.table.len 18
  { lt := lt, dt := dt, bt := bt, maxBlIndex := maxBlIndex
    optLen := bt.optLen + BitVec.ofNat 32 (3 * (maxBlIndex + 1) + 14)
    staticLen := bt.staticLen }

/-- A block's encoding (R54). -/
inductive BlockType where
  | stored | static | dynamic
deriving DecidableEq, Repr

/-- `ChooseType()` (R116) for a block that is not in STORE_ONLY mode: unbounded arithmetic on the two 32-bit costs; on a
tie the order is stored, then static, then dynamic. -/
def chooseType (optLen staticLen : Word) (storedLen : Nat) : BlockType :=
  let optLenb := (optLen.toNat + 3 + 7) / 8
  let staticLenb := (staticLen.toNat + 3 + 7) / 8
  let optLenb := if staticLenb ≤ optLenb then staticLenb else optLenb
  if storedLen + 4 ≤ optLenb ∧ storedLen ≤ maxStored then .stored
  else if staticLenb = optLenb then .static
  else .dynamic

/-! ### Writing the block -/

/-- The 3-bit block header `BFINAL | BTYPE<<1` (R54). -/
def putHeader (last : Bool) (btype : Nat) (w : BitWriter) : BitWriter := putBits (last.toNat + 2 * btype) 3 w

/-- `hist[block_start .. enc_pos)` (R81, R118). -/
def blockBytes (e : Encoder) : List Byte := (e.hist.drop e.blockStart).take (e.encPos - e.blockStart)

/-- LEN and NLEN of a stored block, little-endian (R32, R55, R118). -/
def storedHeader (n : Nat) : List Byte :=
  let len := BitVec.ofNat 16 n
  leBytes 2 len.toNat ++ leBytes 2 (~~~len).toNat

/-- `WriteStored(last)` (R118). -/
def writeStored (last : Bool) (e : Encoder) (w : BitWriter) : BitWriter :=
  let w := alignWriter (putHeader last 0 w)
  putByteList (blockBytes e) (putByteList (storedHeader (e.encPos - e.blockStart)) w)

/-- One tallied symbol in the codes LT and DT (R122, R63). -/
def putSymbol (lt dt : CodeTable) (w : BitWriter) (y : Sym) : BitWriter :=
  match y with
  | .lit b => putCode lt b.toNat w
  | .backRef len dist =>
    let s := lenCode len
    let w := putBits (len - lenBaseOf s) (lenExtraOf s) (putCode lt s w)
    let c := distCode dist
    putBits (dist - distBaseOf c) (distExtraOf c) (putCode dt c w)

/-- `Compress(LT, DT)` (R122): every tallied symbol in order, then the end-of-block symbol 256. -/
def compress (lt dt : CodeTable) (tally : List Sym) (w : BitWriter) : BitWriter :=
  putCode lt 256 (tally.foldl (putSymbol lt dt) w)

/-- `WriteStatic(last)` (R119). -/
def writeStatic (last : Bool) (tally : List Sym) (w : BitWriter) : BitWriter :=
  compress staticLitCode staticDistCode tally (putHeader last 1 w)

/-- R120: the code-length code lengths `bt.len[BL_ORDER[r]]` for r = 0..max_blindex, 3 bits each. -/
def putClLens (lens : List Nat) (maxBlIndex : Nat) (w : BitWriter) : BitWriter :=
  (blOrder.take (maxBlIndex + 1)).foldl (fun w s => putBits (at0 lens s) 3 w) w

/-- `WriteDynamic(last)` (R120). -/
def writeDynamic (last : Bool) (t : BlockTrees) (tally : List Sym) (w : BitWriter) : BitWriter :=
  let w := putHeader last 2 w
  let w := putBits (t.lt.maxCode + 1 - 257) 5 w
  let w := putBits (t.dt.maxCode + 1 - 1) 5 w
  let w := putBits (t.maxBlIndex + 1 - 4) 4 w
  let w := putClLens t.bt.table.len t.maxBlIndex w
  let w := sendTree t.lt.table.len t.lt.maxCode t.bt.table w
  let w := sendTree t.dt.table.len t.dt.maxCode t.bt.table w
  compress t.lt.table t.dt.table tally w

/-- R114, R116 to R120: the block in the encoding chosen; in STORE_ONLY mode it is stored, and no tree is built. -/
def writeBlock (storeOnly last : Bool) (e : Encoder) (w : BitWriter) : BitWriter :=
  if storeOnly then writeStored last e w
  else
    let t := blockTrees e.litFreq e.distFreq
    match chooseType t.optLen t.staticLen (e.encPos - e.blockStart) with
    | .stored => writeStored last e w
    | .static => writeStatic last e.tally w
    | .dynamic => writeDynamic last t e.tally w

/-- `EmitBlock(last)` (R117). -/
def emitBlock (last : Bool) (s : State) : State :=
  let w := writeBlock s.storeOnly last s.enc s.writer
  { s with writer := if last then alignWriter w else w, enc := initBlock s.enc }

/-! ### One step -/

/-- `|hist| − enc_pos`, the lookahead (R110). -/
def lookahead (e : Encoder) : Nat := e.hist.length - e.encPos

/-- `PullByte()` (R108). -/
def pullByte (s : State) : State :=
  { s with enc := { s.enc with hist := s.enc.hist ++ [inByte s.mem s.input.inPos] }
           input := { s.input with inPos := s.input.inPos + 1 } }

/-- R109: the match the finder gives at `enc_pos`, none in STORE_ONLY mode. -/
def matchAt (s : State) : Option (Nat × Nat) :=
  if s.storeOnly then none
  else findMatch s.params.finder s.wbits s.enc.hist s.enc.encPos (min maxMatch (lookahead s.enc))

/-- R109: the symbol tallied, and both frequency tables counted up. DEDUCED, unsafe if wrong: the rule's example says that
Match(9, 1) counts `lit_freq[265]`; its pseudocode, with R60's and R62's `len_code(9)` = 263, and the figures of R116 and R125
say 263, and the model follows those. Assumption log 17. -/
def tallySymbol (m : Option (Nat × Nat)) (e : Encoder) : Encoder :=
  match m with
  | some (len, dist) =>
    { e with
      tally := e.tally ++ [.backRef len dist]
      litFreq := addAt e.litFreq (lenCode len) 1
      distFreq := addAt e.distFreq (distCode dist) 1
      encPos := e.encPos + len }
  | none =>
    let b := e.hist.getD e.encPos 0#8
    { e with
      tally := e.tally ++ [.lit b]
      litFreq := addAt e.litFreq b.toNat 1
      encPos := e.encPos + 1 }

/-- `TallyStep()` (R109): the block is emitted when the tally buffer fills. -/
def tallyStep (s : State) : State :=
  let s := { s with enc := tallySymbol (matchAt s) s.enc }
  if s.enc.tally.length = s.params.tallyCap then emitBlock false s else s

/-- Flush completion (R111): a non-empty tally is written as a block that is not final. -/
def flushComplete (s : State) : State :=
  let s := if 0 < s.enc.tally.length then emitBlock false s else s
  { s with enc := { s.enc with phase := .running } }

/-- Finish completion (R112): the final block is written, even when its tally is empty. -/
def finishComplete (s : State) : State :=
  let s := emitBlock true s
  { s with enc := { s.enc with phase := .finished } }

/-- `EncStep()` (R110): the first enabled action, `none` if none is enabled. -/
def encStep (s : State) : Option State :=
  let la := lookahead s.enc
  let exhausted := needsInput s
  let closing := s.enc.phase = .flushing ∨ s.enc.phase = .finishing
  if la < minLookahead ∧ ¬ exhausted then some (pullByte s)
  else if minLookahead ≤ la ∨ (0 < la ∧ closing ∧ exhausted) then some (tallyStep s)
  else if s.enc.phase = .flushing ∧ la = 0 ∧ exhausted then some (flushComplete s)
  else if s.enc.phase = .finishing ∧ la = 0 ∧ exhausted then some (finishComplete s)
  else none

/-! ### The driver -/

/-- R113: "every step consumes an input byte, advances `enc_pos`, or changes `phase` towards Running or Finished". So many
turns of the loop are enough: two for each input byte left (its pull and its tally), one for each lookahead byte, one for
the phase, and one to find no step enabled. -/
def encBound (s : State) : Nat := 2 * (s.input.inLen - s.input.inPos) + lookahead s.enc + 2

/-- The loop of `DeflateRun(cap)` (R113), at most `fuel` turns; `none` if it has not ended by then. -/
def deflateLoop (cap : Nat) : (fuel written : Nat) → State → Option (Nat × State)
  | 0, _, _ => none
  | fuel + 1, written, s =>
    let d := drainPending cap written s
    let s := d.2
    if s.writer.pending ≠ [] ∨ s.enc.phase = .finished then some (d.1, s)
    else
      match encStep s with
      | none => some (d.1, s)
      | some s => deflateLoop cap fuel d.1 s

/-- `DeflateRun(cap)` (R113): the bytes written to OUT_BUF[0..) and the state the run ends in. -/
def deflateRun (cap : Nat) (s : State) : Option (Nat × State) := deflateLoop cap (encBound s) 0 s

end Sys2Proof.Machine
end

