-- ==== Sys2Proof/Machine/Stream.lean ====
section
/-! DEFINITION. The stream set-up commands CONFIGURE, SET_INPUT and END_OF_INPUT (`spec/47_commands.md`, R155 to R157). -/

namespace Sys2Proof.Machine

/-- R155: CONFIGURE's effect common to both directions. -/
def openStream (m : Mode) (storeOnly : Bool) (wbits : BitVec 4) (s : State) : State :=
  { s with mode := m, storeOnly := storeOnly, wbits := wbits, result := 0#32, reader := { brCache := 0#32, brCount := 0 } }

/-- R155 with MODE = ENCODE: `EncInit()` (R106). -/
def openEncoder (s : State) : State := { s with enc := encInit s.enc, writer := emptyWriter }

/-- R155 with MODE = DECODE: the window cursors and the decoder elements take the values of R19 and R21; the window's
bytes are not written. -/
def openDecoder (s : State) : State :=
  { s with window := { s.window with winEnd := 0, winUsed := 0, winFilled := 0 }, dec := Decoder.reset }

/-- R155: the legality of CONFIGURE. -/
def configureLegal (mode : BitVec 2) (storeOnly : Bool) (wbits : BitVec 4) (s : State) : Bool :=
  decide (s.mode = .idle) && configureFieldsLegal mode storeOnly wbits

/-- R155: the effect of a legal CONFIGURE. -/
def configureEffect (mode : BitVec 2) (storeOnly : Bool) (wbits : BitVec 4) (s : State) : State :=
  match modeOfField mode with
  | some .encode => openEncoder (openStream .encode storeOnly wbits s)
  | some .decode => openDecoder (openStream .decode storeOnly wbits s)
  | some .idle => s
  | none => s

/-- CONFIGURE (R155). -/
def execConfigure (mode : BitVec 2) (storeOnly : Bool) (wbits : BitVec 4) (s : State) : Result :=
  runCommand (configureLegal mode storeOnly wbits s) (fun s => .next (configureEffect mode storeOnly wbits s)) s

/-- R156: the legality of SET_INPUT. -/
def setInputLegal (s : State) : Bool :=
  decide (s.mode ≠ .idle) && needsInput s && (decide (s.mode ≠ .encode) || decide (s.enc.phase = .running)) &&
    (decide (s.mode ≠ .decode) || !s.dec.eoi)

/-- R156: the effect of a legal SET_INPUT; a LEN above IN_CAP raises OutputBufferOverrun and changes nothing else. -/
def setInputEffect (len : Arg) (s : State) : State :=
  if s.params.inCap < byteCount len then raiseError .outputBufferOverrun s
  else { s with input := { inLen := byteCount len, inPos := 0 } }

/-- SET_INPUT (R156). -/
def execSetInput (len : Arg) (s : State) : Result :=
  runCommand (setInputLegal s) (fun s => .next (setInputEffect len s)) s

/-- END_OF_INPUT (R157): `eoi` = 1, legal only in DECODE. Its ARG is 0: the decoder of commands refuses any other. -/
def execEndOfInput (s : State) : Result :=
  runCommand (decide (s.mode = .decode)) (fun s => .next { s with dec := { s.dec with eoi := true } }) s

end Sys2Proof.Machine
end

