-- ==== Sys2Proof/Machine/Output.lean ====
section
/-! DEFINITION. The output commands PRODUCE_OUTPUT, FLUSH and FINISH (`spec/47_commands.md`, R158 to R161). -/

namespace Sys2Proof.Machine

/-- The encoder's part of an output command (R113) with its RESULT (R158). -/
def encodeOutput (cap : Arg) (s : State) : Result :=
  match deflateRun (byteCount cap) s with
  | none => .fault .driverBound
  | some (n, s) => .next (outputEnd n s)

/-- The state in which a decoder run leaves the block: ERR is written by a raise and by nothing else (R166). -/
def endRun (r : RunEnd) : State := if r.raised = .none then r.state else raiseError r.raised r.state

/-- The decoder's part of PRODUCE_OUTPUT (R150) with its RESULT, which it writes also when it ends in an error (R158). -/
def decodeOutput (cap : Arg) (s : State) : Result :=
  match decodeRun (byteCount cap) s with
  | none => .fault .driverBound
  | some r => .next (outputEnd r.written (endRun r))

/-- R158, R159: the legality of PRODUCE_OUTPUT. -/
def produceOutputLegal (cap : Arg) (s : State) : Bool := decide (s.mode ≠ .idle) && capLegal s.params cap

/-- R159: the effect of a legal PRODUCE_OUTPUT. -/
def produceOutputEffect (cap : Arg) (s : State) : Result :=
  match s.mode with
  | .idle => .next s
  | .encode => encodeOutput cap s
  | .decode => decodeOutput cap s

/-- PRODUCE_OUTPUT (R159). -/
def execProduceOutput (cap : Arg) (s : State) : Result :=
  runCommand (produceOutputLegal cap s) (produceOutputEffect cap) s

/-- R160: the legality of FLUSH. -/
def flushLegal (cap : Arg) (s : State) : Bool :=
  decide (s.mode = .encode) && (decide (s.enc.phase = .running) || decide (s.enc.phase = .flushing)) && capLegal s.params cap

/-- FLUSH (R160). -/
def execFlush (cap : Arg) (s : State) : Result :=
  runCommand (flushLegal cap s) (fun s => encodeOutput cap { s with enc := { s.enc with phase := .flushing } }) s

/-- R161: the legality of FINISH. -/
def finishLegal (cap : Arg) (s : State) : Bool := decide (s.mode = .encode) && capLegal s.params cap

/-- R161: `if phase != Finished: phase <- Finishing`. -/
def beginFinish (s : State) : State :=
  if s.enc.phase = .finished then s else { s with enc := { s.enc with phase := .finishing } }

/-- FINISH (R161). -/
def execFinish (cap : Arg) (s : State) : Result :=
  runCommand (finishLegal cap s) (fun s => encodeOutput cap (beginFinish s)) s

end Sys2Proof.Machine
end

