-- ==== Sys2Proof/Machine/TreeCommand.lean ====
section
/-! DEFINITION. BUILD_TREE (`spec/47_commands.md`, R162). -/

namespace Sys2Proof.Machine

/-- FREQ_TAB[0..n), zero-extended (R162). -/
def frequencies (m : Memory) (n : Nat) : List Nat := (List.range n).map (freqEntry m)

/-- The bytes of a table of 16-bit entries, in address order (R29, R30). -/
def halfBytes (xs : List Nat) : List Byte := xs.flatMap (leBytes 2)

/-- Entries 0..285 of LEN_TAB or CODE_TAB: those of the alphabet, and 0 from n on (R162, D41). -/
def padEntries (xs : List Nat) : List Nat := (xs ++ List.replicate tabEntries 0).take tabEntries

/-- R162: LEN_TAB, CODE_TAB and BLCOUNT_TAB take the results of the build. -/
def writeTree (t : TreeResult) (m : Memory) : Memory :=
  let m := Memory.writeBytes m lenTabBase ((padEntries t.table.len).map (BitVec.ofNat 8))
  let m := Memory.writeBytes m codeTabBase (halfBytes (padEntries t.table.code))
  Memory.writeBytes m blcountBase (halfBytes t.blCount)

/-- R162: the effect of a legal BUILD_TREE for alphabet α. -/
def buildTreeEffect (alpha : Alphabet) (s : State) : State :=
  let t := buildTree (frequencies s.mem alpha.size) alpha 0#32 0#32
  { s with mem := writeTree t s.mem
           tree := { maxCode := BitVec.ofNat 32 t.maxCode, optLen := t.optLen, staticLen := t.staticLen } }

/-- BUILD_TREE (R162): legal only in IDLE with ALPHA ≠ 3. Its ARG[23:2] is 0: the decoder of commands refuses any
other. -/
def execBuildTree (alpha : BitVec 2) (s : State) : Result :=
  runCommand (decide (s.mode = .idle) && (alphabetOfField alpha).isSome)
    (fun s =>
      match alphabetOfField alpha with
      | some a => .next (buildTreeEffect a s)
      | none => .next (illegalCommand s))
    s

end Sys2Proof.Machine
end

