-- ==== Sys2Proof/Machine/Dispatch.lean ====
section
/-! DEFINITION. The meaning of every command (R152 of `spec/47_commands.md`): one arm per constructor of `Instr`. -/

namespace Sys2Proof.Machine

def exec (i : Instr) (s : State) : Host.Outcome State Fault Refusal :=
  match i with
  | .nop arg => Sys2Proof.Machine.execNop arg s
  | .reset arg => Sys2Proof.Machine.execReset arg s
  | .configure mode storeOnly wbits => Sys2Proof.Machine.execConfigure mode storeOnly wbits s
  | .setInput len => Sys2Proof.Machine.execSetInput len s
  | .produceOutput cap => Sys2Proof.Machine.execProduceOutput cap s
  | .flush cap => Sys2Proof.Machine.execFlush cap s
  | .finish cap => Sys2Proof.Machine.execFinish cap s
  | .endOfInput => Sys2Proof.Machine.execEndOfInput s
  | .buildTree alpha => Sys2Proof.Machine.execBuildTree alpha s

end Sys2Proof.Machine
end

