-- ==== Sys2Proof/Machine/Step.lean ====
section
/-! DEFINITION. One step of the machine: the block has no program counter and fetches no instructions (R14); it performs
the host's oldest access (R35, R39, R182), and a write to CMD executes the command written (R152). -/

namespace Sys2Proof.Machine

/-- A write of the word w to CMD (R152): the command it encodes runs; a word that encodes none is refused while ERR ≠ 0
and otherwise illegal (R152 step 4, R163). -/
def runWord (w : Word) (s : State) : Host.Outcome State Fault Refusal :=
  match decode w with
  | .ok i => exec i s
  | .error _ => runCommand false (fun s => .next s) s

/-- Perform one host access on the block. -/
def perform (a : HostAccess) (s : State) : Host.Outcome State Fault Refusal :=
  match commandOf a with
  | some w => runWord w s
  | none => .next (hostAccess a s)

/-- One step. With parameters that no DEFLATE CORE has, the model refuses (R5); with no access issued, the block holds its
state and does nothing (R173, "Power states"); otherwise the oldest access is performed, atomically (R35). -/
def step (s : State) : Host.Outcome State Fault Refusal :=
  if paramsLegal s.params then
    match s.bus with
    | [] => .next s
    | a :: rest => perform a { s with bus := rest }
  else .refused .illegalParameters

/-- The state in which the very next step executes the command whose word is a row of the opcode table: the host's next
access is its write to CMD. -/
def State.withFetchWord (s : State) (nbits w : Nat) : State := pushCommand nbits w s

end Sys2Proof.Machine
end

