-- ==== Sys2Proof/Safety.lean ====
section
/-! DEFINITION. The terms claims are stated in: the invariants of the machine (the widths, ranges and invariants of
`spec/10_state.md`), the bit sequences a reader and a writer stand for (R31), and what a safe step is. -/

namespace Sys2Proof.Machine

/-! ### Safe steps -/

/-- A step that neither faults nor refuses. -/
def StepsOn (s : State) : Prop := ∃ t, step s = .next t

/-- `s` with the input consumed that `s'` has consumed. -/
def State.consuming (s s' : State) : State := { s with input := s'.input, reader := s'.reader }

/-! ### Invariants -/

/-- The two byte memories are in their canonical form. -/
structure MemoryCanonical (s : State) : Prop where
  mem : Memory.wf s.mem = true
  win : Memory.wf s.window.win = true

/-- R16: `in_pos` lies in 0..`in_len`, and `in_len` in 0..IN_CAP. -/
structure InputInRange (s : State) : Prop where
  pos : s.input.inPos ≤ s.input.inLen
  len : s.input.inLen ≤ s.params.inCap

/-- R15: WBITS is 0 while IDLE and 9..15 after CONFIGURE; STORE_ONLY is in effect in ENCODE only. -/
structure StreamConfigured (s : State) : Prop where
  idle : s.mode = .idle → s.wbits = 0#4
  opened : s.mode ≠ .idle → 9 ≤ s.wbits.toNat
  store : s.storeOnly = true → s.mode = .encode

/-- R18: `bw_count` is 0..7, and the bits `bw_acc[7:bw_count]` are 0. -/
structure WriterInRange (s : State) : Prop where
  count : s.writer.bwCount < 8
  acc : s.writer.bwAcc.toNat < 2 ^ s.writer.bwCount

/-- R17, R66: `br_count` never exceeds 23 between commands and the bits `br_cache[31:br_count]` are 0; R21, R126: every
code length held is at most 15, and so is every decode table's `lmax`. -/
structure ReaderInRange (s : State) : Prop where
  count : s.reader.brCount ≤ 23
  cache : s.reader.brCache.toNat < 2 ^ s.reader.brCount
  lens : ∀ l ∈ s.dec.lens, l ≤ 15
  clLens : ∀ l ∈ s.dec.clLens, l ≤ 15
  clTable : s.dec.clTable.lmax ≤ 15
  litTable : s.dec.litTable.lmax ≤ 15
  distTable : s.dec.distTable.lmax ≤ 15

/-- The decoder is inside a back-reference: states 9, 10 and 11 (R142 to R145). -/
def DecState.inMatch (d : DecState) : Bool :=
  decide (d = .haveInitialLength) || decide (d = .haveFullLength) || decide (d = .haveDistCode)

/-- R19, R77: in a DECODE stream the cursor lies in the ring and `win_used` ≤ `win_filled` ≤ W; R142: inside a
back-reference 258 bytes are free, and the length read is at most 258. Outside a DECODE stream the ring lists nothing. -/
structure WindowInRange (s : State) : Prop where
  closed : s.mode ≠ .decode → s.window.win = []
  cells : s.mode = .decode → ∀ c ∈ s.window.win, c.1 < windowSize s.wbits
  wbits : s.mode = .decode → 9 ≤ s.wbits.toNat
  cursor : s.mode = .decode → s.window.winEnd < windowSize s.wbits
  used : s.mode = .decode → s.window.winUsed ≤ s.window.winFilled
  filled : s.mode = .decode → s.window.winFilled ≤ windowSize s.wbits
  room : s.mode = .decode → s.dec.decState.inMatch = true → s.window.winUsed + maxMatch ≤ windowSize s.wbits
  curSym : s.mode = .decode → s.dec.decState = .haveInitialLength → 257 ≤ s.dec.curSym ∧ s.dec.curSym ≤ 285
  curLen : s.mode = .decode → (s.dec.decState = .haveFullLength ∨ s.dec.decState = .haveDistCode) →
    minMatch ≤ s.dec.curLen ∧ s.dec.curLen ≤ maxMatch

/-- A tallied symbol is in the ranges of R20: L 3..258, D 1..MAX_DIST. -/
def Sym.inRange (bound : Nat) : Sym → Prop
  | .lit _ => True
  | .backRef len dist => minMatch ≤ len ∧ len ≤ maxMatch ∧ 1 ≤ dist ∧ dist ≤ bound

/-- `len` bytes copied one by one from `dist` bytes back: what a match stands for (R79, R101 property 3). -/
def copyBack : (len dist : Nat) → List Byte → List Byte
  | 0, _, out => out
  | len + 1, dist, out => copyBack len dist (out ++ [out.getD (out.length - dist) 0#8])

/-- What tallied symbols stand for after the bytes `out` (R109): a literal is its byte, a match its copy. -/
def expandSymbols : (out : List Byte) → List Sym → List Byte
  | out, [] => out
  | out, .lit b :: rest => expandSymbols (out ++ [b]) rest
  | out, .backRef len dist :: rest => expandSymbols (copyBack len dist out) rest

/-- The literal/length symbol that a tallied symbol counts (R109; a match of length L counts `len_code(L)`, as the pseudocode
says: assumption log 17). -/
def Sym.litSymbol : Sym → Nat
  | .lit b => b.toNat
  | .backRef len _ => lenCode len

/-- The distance symbol that a tallied symbol counts, if it is a match (R109). -/
def Sym.distSymbol : Sym → Option Nat
  | .lit _ => none
  | .backRef _ dist => some (distCode dist)

/-- R20, R108, R109: in an ENCODE stream the positions are in order, at most 262 bytes are looked ahead, the tally is below
TALLY_CAP with its symbols in range, and in STORE_ONLY mode a block's bytes equal its symbols. The tally stands for the block's
bytes `hist[block_start .. enc_pos)` after what precedes them (R109, R124). The frequencies are the counts
of the tally's symbols, the end-of-block symbol once besides (R107, R109), so none exceeds the tally's length by more than
that one (R20: "No count ever exceeds TALLY_CAP + 1"). -/
structure EncoderInRange (s : State) : Prop where
  pos : s.mode = .encode → s.enc.encPos ≤ s.enc.hist.length
  block : s.mode = .encode → s.enc.blockStart ≤ s.enc.encPos
  ahead : s.mode = .encode → lookahead s.enc ≤ minLookahead
  tally : s.mode = .encode → s.enc.tally.length < s.params.tallyCap
  syms : s.mode = .encode → ∀ y ∈ s.enc.tally, y.inRange (maxDist s.wbits)
  litFreq : s.mode = .encode → s.enc.litFreq.length = 286
  distFreq : s.mode = .encode → s.enc.distFreq.length = 30
  stored : s.mode = .encode → s.storeOnly = true → s.enc.encPos = s.enc.blockStart + s.enc.tally.length
  history : s.mode = .encode →
    expandSymbols (s.enc.hist.take s.enc.blockStart) s.enc.tally = s.enc.hist.take s.enc.encPos
  litCounts : s.mode = .encode → ∀ x, x < 286 →
    at0 s.enc.litFreq x = (s.enc.tally.map Sym.litSymbol).count x + (if x = 256 then 1 else 0)
  distCounts : s.mode = .encode → ∀ x, x < 30 →
    at0 s.enc.distFreq x = (s.enc.tally.map Sym.distSymbol).count (some x)
  litBound : s.mode = .encode → ∀ n ∈ s.enc.litFreq, n ≤ s.enc.tally.length + 1
  distBound : s.mode = .encode → ∀ n ∈ s.enc.distFreq, n ≤ s.enc.tally.length

/-- R21: the ranges of the decoder's elements in a DECODE stream; `lens` holds at most the declared number of lengths
while they are read (R140, R141), and the repeat symbol is 16, 17 or 18, with a length to repeat behind a 16. -/
structure DecoderInRange (s : State) : Prop where
  hlit : s.mode = .decode → s.dec.hlitN ≤ 286
  hdist : s.mode = .decode → s.dec.hdistN ≤ 30
  hclen : s.mode = .decode → s.dec.hclenN ≤ 19
  clCount : s.mode = .decode → s.dec.clLens.length = 19
  clIdx : s.mode = .decode → s.dec.clIdx ≤ 19
  entry : s.mode = .decode → s.err = .none → s.dec.decState = .readingCodeLenCodes → s.dec.clIdx < s.dec.hclenN
  lens : s.mode = .decode → (s.dec.decState = .readingTreeCodes ∨ s.dec.decState = .readingTreeCodesExtra) →
    s.dec.lens.length ≤ s.dec.hlitN + s.dec.hdistN
  clSyms : s.mode = .decode → ∀ x ∈ s.dec.clTable.sym, x < 19
  repSym : s.mode = .decode → s.dec.decState = .readingTreeCodesExtra →
    (s.dec.repSym = 16 ∧ s.dec.lens ≠ []) ∨ s.dec.repSym = 17 ∨ s.dec.repSym = 18
  curDsym : s.mode = .decode → s.dec.curDsym ≤ 29
  storedRem : s.mode = .decode → s.dec.storedRem ≤ maxStored

/-- R51, R53: the bits RESULT[31:25] and TREE_MAX_CODE[31:9] are 0. -/
structure RegistersInRange (s : State) : Prop where
  result : s.result.toNat < 2 ^ 25
  maxCode : s.tree.maxCode.toNat < 2 ^ 9

/-- Every invariant together, with legal parameters (R5). -/
structure State.wf (s : State) : Prop where
  params : paramsLegal s.params = true
  memory : MemoryCanonical s
  input : InputInRange s
  config : StreamConfigured s
  writer : WriterInRange s
  reader : ReaderInRange s
  window : WindowInRange s
  encoder : EncoderInRange s
  decoder : DecoderInRange s
  regs : RegistersInRange s

/-! ### Bit sequences (R31) -/

/-- The n low bits of a value, bit 0 first. -/
def bitsOf : (n v : Nat) → List Bool
  | 0, _ => []
  | n + 1, v => (v % 2 == 1) :: bitsOf n (v / 2)

/-- The stream bits of a byte sequence: "Stream bit k is bit k mod 8 of stream byte k div 8". -/
def byteBits (bytes : List Byte) : List Bool := bytes.flatMap (fun b => bitsOf 8 b.toNat)

/-- The bits the writer holds: the pending bytes, then the valid low bits of `bw_acc` (R18). -/
def writerBits (w : BitWriter) : List Bool := byteBits w.pending ++ bitsOf w.bwCount w.bwAcc.toNat

/-- The unconsumed input bytes `IN_BUF[in_pos..in_len)` (R16). -/
def unreadBytes (s : State) : List Byte :=
  (List.range (s.input.inLen - s.input.inPos)).map (fun j => inByte s.mem (s.input.inPos + j))

/-- The stream bits not yet read: the cached bits, then those of the unconsumed input (R17, R66). -/
def unreadStream (s : State) : List Bool := bitsOf s.reader.brCount s.reader.brCache.toNat ++ byteBits (unreadBytes s)

/-- The bytes of a stored block that starts on a byte boundary (R55, R118): the byte of its header and padding, LEN and
NLEN little-endian (R32), and the raw bytes. NLEN is the one's complement 65535 − LEN. -/
def storedBlockBytes (first : Byte) (raw : List Byte) : List Byte :=
  [first, BitVec.ofNat 8 raw.length, BitVec.ofNat 8 (raw.length / 256), BitVec.ofNat 8 (65535 - raw.length),
    BitVec.ofNat 8 ((65535 - raw.length) / 256)] ++ raw

/-- The n low bits of a value, the most significant of them first: how a canonical code is sent (R31). -/
def msbFirst (n v : Nat) : List Bool := (bitsOf n v).reverse

/-- The static literal/length code of a symbol, in the ranges of R64's table. -/
def staticLitBits (s : Nat) : List Bool :=
  if s < 144 then msbFirst 8 (0x30 + s)
  else if s < 256 then msbFirst 9 (0x190 + (s - 144))
  else if s < 280 then msbFirst 7 (s - 256)
  else msbFirst 8 (0xC0 + (s - 280))

/-- The static distance code of a symbol (R64): the symbol's value in 5 bits. -/
def staticDistBits (c : Nat) : List Bool := msbFirst 5 c

/-- What `PutCode` sends for symbol s of a code table (R72): its stored code, bit 0 first. -/
def codeBits (t : CodeTable) (s : Nat) : List Bool := bitsOf (at0 t.len s) (at0 t.code s)

/-- The bits of a tallied symbol (R63) under a literal/length code and a distance code: the literal's code; or the length's
code with its extra field and the distance's code with its extra field. -/
def symbolBits (litBits distBits : Nat → List Bool) : Sym → List Bool
  | .lit b => litBits b.toNat
  | .backRef len dist =>
    litBits (lenCode len) ++ bitsOf (lenExtraOf (lenCode len)) (len - lenBaseOf (lenCode len)) ++
      distBits (distCode dist) ++ bitsOf (distExtraOf (distCode dist)) (dist - distBaseOf (distCode dist))

/-- The compressed data of a block (R63): its symbols in order, then the end-of-block symbol 256. -/
def compressedBits (litBits distBits : Nat → List Bool) (tally : List Sym) : List Bool :=
  tally.flatMap (symbolBits litBits distBits) ++ litBits 256

/-- The bits of a sequence of code-length symbols (R58): each symbol's code, then its extra field. -/
def clItemBits (bt : CodeTable) (items : List ClItem) : List Bool :=
  items.flatMap (fun it => codeBits bt it.sym ++ bitsOf it.extraBits it.extra)

/-- The first n bytes of OUT_BUF. -/
def outBytes (m : Memory) (n : Nat) : List Byte := (List.range n).map (fun i => Memory.read m (outBase + i))

/-! ### Code lengths -/

/-- What a sequence of code-length symbols with their extra fields stands for (R58), `out` being the lengths so far: a
length, or the previous length repeated, or a run of zeros. -/
def expandItems : (out : List Nat) → List ClItem → List Nat
  | out, [] => out
  | out, it :: rest =>
    if it.sym = 16 then expandItems (out ++ List.replicate (3 + it.extra) (at0 out (out.length - 1))) rest
    else if it.sym = 17 then expandItems (out ++ List.replicate (3 + it.extra) 0) rest
    else if it.sym = 18 then expandItems (out ++ List.replicate (11 + it.extra) 0) rest
    else expandItems (out ++ [it.sym]) rest

/-- The canonical code of symbol s, MSB first, before the bit reversal (R95): the first code of its length plus the number
of smaller symbols of that length. -/
def canonicalCode (lens : List Nat) (s : Nat) : Nat :=
  at0 (nextCodes (histogram lens)) (at0 lens s) + (lens.take s).count (at0 lens s)

/-! ### The host's tables (R23) -/

/-- LEN_TAB[0..n). -/
def lenTable (m : Memory) (n : Nat) : List Nat := (List.range n).map (fun i => (Memory.read m (0x1400 + i)).toNat)

/-- CODE_TAB[i]. -/
def codeEntry (m : Memory) (i : Nat) : Nat := leValue (Memory.readBytes m (0x1800 + 2 * i) 2)

/-- BLCOUNT_TAB[l]. -/
def blcountEntry (m : Memory) (l : Nat) : Nat := leValue (Memory.readBytes m (0x1C00 + 2 * l) 2)

/-! ### Runs of the interface -/

/-- The COUNT field of RESULT (R51). -/
def resultCount (r : Word) : Nat := (r.extractLsb' 0 24).toNat

/-- The DONE field of RESULT (R51). -/
def resultDone (r : Word) : Bool := r.getLsbD 24

end Sys2Proof.Machine
end

