-- ==== Sys2Proof/Certificates/Slice0/Obligations.lean ====
section
/-! DEFINITION. The statements about the DEFLATE CORE that the provers are given. Each docstring names the rule of `spec/`
the statement formalises. -/

open Sys2Proof Sys2Proof.Machine

/-! ### Command words -/

/-- R44 to R46: every instruction is read back from its word, whatever its operands. -/
def Obligations.DecodeOfEncodeIsTheInstruction : Prop :=
  ∀ i : Instr, decode (encode i) = .ok i

/-- R44, R45, R47: a word that decodes is the word of the instruction it decodes to: no bit of it is dropped, the ignored
ARG of a NOP or RESET included. -/
def Obligations.EncodeOfDecodeIsTheWord : Prop :=
  ∀ (w : Word) (i : Instr), decode w = .ok i → encode i = w

/-- The words that decode to no instruction. R47 lists all illegal encodings alike; which of them are no instruction and
which are an ill-formed one is the MODEL'S CHOICE (assumption log 10, DESIGN CHOICE): those that no operand expresses are
none. -/
def Obligations.IllegalEncodingsAreNoInstruction : Prop :=
  ∀ w : Word, (∃ e, decode w = .error e) ↔
    (9 ≤ w.toNat % 256 ∨
      (w.toNat % 256 = 2 ∧ (w.getLsbD 11 = true ∨ w.toNat / 2 ^ 16 ≠ 0)) ∨
      (w.toNat % 256 = 7 ∧ w.toNat / 2 ^ 8 ≠ 0) ∨
      (w.toNat % 256 = 8 ∧ w.toNat / 2 ^ 10 ≠ 0))

/-- R48: the command words of the spec's syntax table, for every operand value the syntax has. -/
def Obligations.SyntaxWordsDecode : Prop :=
  decode 0x00000000#32 = .ok (.nop 0#24) ∧ decode 0x00000001#32 = .ok (.reset 0#24) ∧
  decode 0x00000007#32 = .ok .endOfInput ∧
  (∀ w : BitVec 4,
    decode (BitVec.ofNat 32 (0x02 + 1 * 2 ^ 8 + w.toNat * 2 ^ 12)) = .ok (.configure 1#2 false w) ∧
    decode (BitVec.ofNat 32 (0x02 + 1 * 2 ^ 8 + 1 * 2 ^ 10 + w.toNat * 2 ^ 12)) = .ok (.configure 1#2 true w) ∧
    decode (BitVec.ofNat 32 (0x02 + 2 * 2 ^ 8 + w.toNat * 2 ^ 12)) = .ok (.configure 2#2 false w)) ∧
  (∀ n : Arg,
    decode (BitVec.ofNat 32 (0x03 + n.toNat * 2 ^ 8)) = .ok (.setInput n) ∧
    decode (BitVec.ofNat 32 (0x04 + n.toNat * 2 ^ 8)) = .ok (.produceOutput n) ∧
    decode (BitVec.ofNat 32 (0x05 + n.toNat * 2 ^ 8)) = .ok (.flush n) ∧
    decode (BitVec.ofNat 32 (0x06 + n.toNat * 2 ^ 8)) = .ok (.finish n)) ∧
  decode 0x00000008#32 = .ok (.buildTree 0#2) ∧ decode 0x00000108#32 = .ok (.buildTree 1#2) ∧
  decode 0x00000208#32 = .ok (.buildTree 2#2)

/-! ### Steps and the host interface -/

/-- R152, R163, R167: a 32-bit host write to CMD (address 0) executes the command the word decodes to; a word that is no
command raises IllegalCommand and changes nothing else, and with ERR ≠ 0 it is refused and changes nothing. (The queue of
host accesses is the model's own: assumption log 1.) -/
def Obligations.StepRunsTheDecodedCommand : Prop :=
  ∀ (s : State) (rest : List HostAccess) (w : Word),
    paramsLegal s.params = true → s.bus = .write 32 0#32 w :: rest →
    (∀ i, decode w = .ok i → step s = exec i { s with bus := rest }) ∧
    (∀ e, decode w = .error e →
      (s.err = .none → step s = .next { s with bus := rest, err := .illegalCommand }) ∧
      (s.err ≠ .none → step s = .next { s with bus := rest }))

/-- R34, R35, R173: an access that is no accepted write to CMD is one transition of its own, and with no access issued
the block holds its state; R5: outside the legal ranges of the parameters the model refuses. -/
def Obligations.StepPerformsOneAccess : Prop :=
  ∀ s : State,
    (paramsLegal s.params = false → step s = .refused .illegalParameters) ∧
    (paramsLegal s.params = true → s.bus = [] → step s = .next s) ∧
    (∀ a rest, paramsLegal s.params = true → s.bus = a :: rest → (∀ v, a ≠ .write 32 0#32 v) →
      step s = .next (hostAccess a { s with bus := rest }))

/-- R34: "Reads of every address have no side effect and are idempotent": a read changes no state element, and a second
read of the same address and width returns the same value. -/
def Obligations.HostReadsAreIdempotent : Prop :=
  ∀ (s : State) (bits : Nat) (addr : BitVec 32) (rest : List HostAccess),
    paramsLegal s.params = true → s.bus = .read bits addr :: .read bits addr :: rest →
    ∃ v : Word,
      step s = .next { s with bus := .read bits addr :: rest, readData := v } ∧
      step { s with bus := .read bits addr :: rest, readData := v } = .next { s with bus := rest, readData := v }

/-- R29, R30, R34, R39: the accepted accesses, little-endian. A write that FREQ_TAB, IN_BUF or OUT_BUF accepts stores bits
[8i+7:8i] of the value at the i-th byte and changes nothing else, and the same read afterwards returns the value written (its
low bits, for a width below 32). A read that a table or a buffer accepts returns, zero-extended, the value whose bits
[8i+7:8i] are the i-th byte, and changes no state element of the block. -/
def Obligations.AcceptedAccessesAreLittleEndian : Prop :=
  ∀ (s : State) (bits : Nat) (addr : BitVec 32), paramsLegal s.params = true → Memory.wf s.mem = true →
    (∀ v : Word,
      ((bits = 16 ∧ 0x1000 ≤ addr.toNat ∧ addr.toNat + 2 ≤ 0x123C ∧ addr.toNat % 2 = 0) ∨
       ((bits = 8 ∨ bits = 16 ∨ bits = 32) ∧ addr.toNat % (bits / 8) = 0 ∧
         ((0x100000 ≤ addr.toNat ∧ addr.toNat + bits / 8 ≤ 0x100000 + s.params.inCap) ∨
          (0x200000 ≤ addr.toNat ∧ addr.toNat + bits / 8 ≤ 0x200000 + s.params.outCap)))) →
      ∃ m, hostAccess (.write bits addr v) s = { s with mem := m } ∧
        (∀ i, i < bits / 8 → Memory.read m (addr.toNat + i) = v.extractLsb' (8 * i) 8) ∧
        (∀ a, ¬ (addr.toNat ≤ a ∧ a < addr.toNat + bits / 8) → Memory.read m a = Memory.read s.mem a) ∧
        (hostAccess (.read bits addr) { s with mem := m }).readData.toNat = v.toNat % 2 ^ bits) ∧
    ((bits = 16 ∧ addr.toNat % 2 = 0 ∧
         ((0x1000 ≤ addr.toNat ∧ addr.toNat ≤ 0x123B) ∨ (0x1800 ≤ addr.toNat ∧ addr.toNat ≤ 0x1A3B) ∨
          (0x1C00 ≤ addr.toNat ∧ addr.toNat ≤ 0x1C1F))) ∨
       (bits = 8 ∧ 0x1400 ≤ addr.toNat ∧ addr.toNat ≤ 0x151D) ∨
       ((bits = 8 ∨ bits = 16 ∨ bits = 32) ∧ addr.toNat % (bits / 8) = 0 ∧
         ((0x100000 ≤ addr.toNat ∧ addr.toNat + bits / 8 ≤ 0x100000 + s.params.inCap) ∨
          (0x200000 ≤ addr.toNat ∧ addr.toNat + bits / 8 ≤ 0x200000 + s.params.outCap))) →
      ∃ d : Word, hostAccess (.read bits addr) s = { s with readData := d } ∧ d.toNat < 2 ^ bits ∧
        ∀ i, i < bits / 8 → d.extractLsb' (8 * i) 8 = Memory.read s.mem (addr.toNat + i))

/-- R33, R34: where a host write may store at all: only into FREQ_TAB (16 bits, even addresses), IN_BUF and OUT_BUF (8, 16
or 32 bits, aligned), entirely inside the space; every other write changes nothing. -/
def Obligations.HostWritesStoreOnlyWhereAccepted : Prop :=
  ∀ (s : State) (bits : Nat) (addr : BitVec 32) (v : Word), paramsLegal s.params = true →
    ¬ ((bits = 16 ∧ 0x1000 ≤ addr.toNat ∧ addr.toNat + 2 ≤ 0x123C ∧ addr.toNat % 2 = 0) ∨
       ((bits = 8 ∨ bits = 16 ∨ bits = 32) ∧ addr.toNat % (bits / 8) = 0 ∧
         ((0x100000 ≤ addr.toNat ∧ addr.toNat + bits / 8 ≤ 0x100000 + s.params.inCap) ∨
          (0x200000 ≤ addr.toNat ∧ addr.toNat + bits / 8 ≤ 0x200000 + s.params.outCap)))) →
    hostAccess (.write bits addr v) s = s

/-- R33: a refused read, one that no space of the map accepts, returns 0 and changes nothing else: an unmapped address, a
wrong width, a misaligned address, or a range that crosses the end of a space. -/
def Obligations.RefusedReadsReturnZero : Prop :=
  ∀ (s : State) (bits : Nat) (addr : BitVec 32), paramsLegal s.params = true →
    ¬ ((bits = 32 ∧ addr.toNat % 4 = 0 ∧ addr.toNat < 0x20) ∨
       (bits = 16 ∧ addr.toNat % 2 = 0 ∧
         ((0x1000 ≤ addr.toNat ∧ addr.toNat ≤ 0x123B) ∨ (0x1800 ≤ addr.toNat ∧ addr.toNat ≤ 0x1A3B) ∨
          (0x1C00 ≤ addr.toNat ∧ addr.toNat ≤ 0x1C1F))) ∨
       (bits = 8 ∧ 0x1400 ≤ addr.toNat ∧ addr.toNat ≤ 0x151D) ∨
       ((bits = 8 ∨ bits = 16 ∨ bits = 32) ∧ addr.toNat % (bits / 8) = 0 ∧
         ((0x100000 ≤ addr.toNat ∧ addr.toNat + bits / 8 ≤ 0x100000 + s.params.inCap) ∨
          (0x200000 ≤ addr.toNat ∧ addr.toNat + bits / 8 ≤ 0x200000 + s.params.outCap)))) →
    hostAccess (.read bits addr) s = { s with readData := 0#32 }

/-! ### Registers -/

/-- R50, R26: the fields of STATUS, computed from state on each read; a write to STATUS is refused. -/
def Obligations.StatusFieldsAreAsLaidOut : Prop :=
  ∀ s : State,
    (statusReg s).extractLsb' 0 2 = s.mode.code ∧ (statusReg s).extractLsb' 2 4 = s.err.code ∧
    ((statusReg s).getLsbD 6 = true ↔ s.input.inPos = s.input.inLen) ∧
    ((statusReg s).getLsbD 7 = true ↔
      (s.mode = .encode ∧ s.enc.phase = .finished ∧ s.writer.pending = []) ∨
      (s.mode = .decode ∧ s.dec.decState = .done ∧ s.window.winUsed = 0)) ∧
    (s.mode = .decode → (statusReg s).extractLsb' 8 5 = s.dec.decState.code) ∧
    (s.mode = .encode → (statusReg s).extractLsb' 8 5 = s.enc.phase.code) ∧
    (s.mode = .idle → (statusReg s).extractLsb' 8 5 = 0#5) ∧
    (statusReg s).getLsbD 13 = false ∧
    ((statusReg s).getLsbD 14 = true ↔ s.mode = .decode ∧ s.dec.eoi = true) ∧
    (statusReg s).extractLsb' 15 17 = 0#17 ∧
    (hostAccess (.read 32 0x04#32) s).readData = statusReg s ∧
    (∀ bits v, hostAccess (.write bits 0x04#32 v) s = s)

/-- R49, R51, R52: what the eight registers read at their addresses, with CONFIG's and RESULT's fields; a write to one of
them other than CMD changes nothing. -/
def Obligations.RegistersReadAsLaidOut : Prop :=
  ∀ s : State,
    (∀ k, k < 8 → (hostAccess (.read 32 (BitVec.ofNat 32 (4 * k))) s).readData = readReg s k) ∧
    (∀ k bits v, 1 ≤ k → k < 8 → hostAccess (.write bits (BitVec.ofNat 32 (4 * k)) v) s = s) ∧
    (readReg s 0 = 0#32 ∧ readReg s 1 = statusReg s ∧ readReg s 2 = s.result ∧ readReg s 4 = s.tree.maxCode ∧
      readReg s 5 = s.tree.optLen ∧ readReg s 6 = s.tree.staticLen ∧ readReg s 7 = 0#32) ∧
    ((readReg s 3).extractLsb' 0 2 = s.mode.code ∧ ((readReg s 3).getLsbD 2 = s.storeOnly) ∧
      (readReg s 3).getLsbD 3 = false ∧ (readReg s 3).extractLsb' 4 4 = s.wbits ∧ (readReg s 3).extractLsb' 8 24 = 0#24) ∧
    (∀ n : Nat, n < 2 ^ 24 →
      resultCount (outputEnd n s).result = n ∧ resultDone (outputEnd n s).result = finished s ∧
      (outputEnd n s).result.extractLsb' 25 7 = 0#7)

/-! ### Control and stream set-up -/

/-- R153: NOP does nothing, in every mode and also when ERR ≠ 0, whatever its ARG. -/
def Obligations.NopDoesNothing : Prop :=
  ∀ (arg : Arg) (s : State), exec (.nop arg) s = .next s

/-- R154, R27: RESET is legal in every state, whatever its ARG, and gives every state element its reset value; STATUS then
reads 0x0000_0040 and CONFIG 0. (IN_BUF, OUT_BUF and the window's bytes, which the spec leaves unspecified, are left out.) -/
def Obligations.ResetGivesTheResetValues : Prop :=
  ∀ empty : DecTable,
    empty = { cnt := List.replicate 16 0, first := List.replicate 16 0, offs := List.replicate 16 0, sym := [], lmax := 0 } →
    ∀ (arg : Arg) (s : State), ∃ t, exec (.reset arg) s = .next t ∧
    t.mode = .idle ∧ t.storeOnly = false ∧ t.wbits = 0#4 ∧ t.err = .none ∧ t.result = 0#32 ∧
    t.input = { inLen := 0, inPos := 0 } ∧ t.reader = { brCache := 0#32, brCount := 0 } ∧
    t.writer = { bwAcc := 0#8, bwCount := 0, pending := [] } ∧
    t.window.winEnd = 0 ∧ t.window.winUsed = 0 ∧ t.window.winFilled = 0 ∧
    t.enc = { hist := [], encPos := 0, blockStart := 0, tally := [], phase := .running,
              litFreq := List.replicate 256 0 ++ [1] ++ List.replicate 29 0, distFreq := List.replicate 30 0 } ∧
    t.dec = { decState := .readingBFinal, bfinal := false, hlitN := 0, hdistN := 0, hclenN := 0, clIdx := 0,
              clLens := List.replicate 19 0, lens := [], repSym := 0, clTable := empty, litTable := empty, distTable := empty,
              curSym := 0, curLen := 0, curDsym := 0, lenLo := 0#8, nlenLo := 0#8, storedLen := 0#16, storedRem := 0,
              eoi := false } ∧
    t.tree = { maxCode := 0#32, optLen := 0#32, staticLen := 0#32 } ∧
    (∀ a, a < inBase → Memory.read t.mem a = 0#8) ∧
    statusReg t = 0x00000040#32 ∧ configReg t = 0#32

/-- R155, R106, R107, R20, R21: CONFIGURE. A legal one opens an encode stream or a decode stream: the elements that its
pseudocode names take the values listed. That it leaves the other direction's elements alone, in every state, is the MODEL'S
reading (assumption log 11, DEDUCED). With an illegal field, a non-zero reserved bit, or MODE ≠ IDLE it is an illegal
command. -/
def Obligations.ConfigureOpensAStream : Prop :=
  ∀ empty : DecTable,
    empty = { cnt := List.replicate 16 0, first := List.replicate 16 0, offs := List.replicate 16 0, sym := [], lmax := 0 } →
    ∀ s : State, s.err = .none →
    (∀ (storeOnly : Bool) (wbits : BitVec 4), s.mode = .idle → 9 ≤ wbits.toNat →
      exec (.configure 1#2 storeOnly wbits) s = .next
        { s with
          mode := .encode, storeOnly := storeOnly, wbits := wbits, result := 0#32
          reader := { brCache := 0#32, brCount := 0 }
          writer := { bwAcc := 0#8, bwCount := 0, pending := [] }
          enc := { hist := [], encPos := 0, blockStart := 0, tally := [], phase := .running,
                   litFreq := List.replicate 256 0 ++ [1] ++ List.replicate 29 0, distFreq := List.replicate 30 0 } }) ∧
    (∀ wbits : BitVec 4, s.mode = .idle → 9 ≤ wbits.toNat →
      exec (.configure 2#2 false wbits) s = .next
        { s with
          mode := .decode, storeOnly := false, wbits := wbits, result := 0#32
          reader := { brCache := 0#32, brCount := 0 }
          window := { win := s.window.win, winEnd := 0, winUsed := 0, winFilled := 0 }
          dec := { decState := .readingBFinal, bfinal := false, hlitN := 0, hdistN := 0, hclenN := 0, clIdx := 0,
                   clLens := List.replicate 19 0, lens := [], repSym := 0, clTable := empty, litTable := empty, distTable := empty,
                   curSym := 0, curLen := 0, curDsym := 0, lenLo := 0#8, nlenLo := 0#8, storedLen := 0#16, storedRem := 0,
                   eoi := false } }) ∧
    (∀ m st w, ¬ (s.mode = .idle ∧ (m = 1#2 ∨ m = 2#2) ∧ (st = false ∨ m = 1#2) ∧ 9 ≤ w.toNat) →
      exec (.configure m st w) s = .next { s with err := .illegalCommand }) ∧
    (∀ w : Word, w.toNat % 256 = 2 → (w.getLsbD 11 = true ∨ w.toNat / 2 ^ 16 ≠ 0) →
      runWord w s = .next { s with err := .illegalCommand })

/-- R156: a legal SET_INPUT with LEN ≤ IN_CAP declares LEN new input bytes; with LEN above IN_CAP it raises
OutputBufferOverrun; where a condition of its legality fails it is an illegal command. Nothing else changes. -/
def Obligations.SetInputDeclaresTheInput : Prop :=
  ∀ (len : Arg) (s : State), s.err = .none →
    (s.mode ≠ .idle → s.input.inPos = s.input.inLen →
      (s.mode = .encode → s.enc.phase = .running) → (s.mode = .decode → s.dec.eoi = false) →
      (len.toNat ≤ s.params.inCap →
        exec (.setInput len) s = .next { s with input := { inLen := len.toNat, inPos := 0 } }) ∧
      (s.params.inCap < len.toNat → exec (.setInput len) s = .next { s with err := .outputBufferOverrun })) ∧
    (s.mode = .idle ∨ s.input.inPos ≠ s.input.inLen ∨ (s.mode = .encode ∧ s.enc.phase ≠ .running) ∨
        (s.mode = .decode ∧ s.dec.eoi = true) →
      exec (.setInput len) s = .next { s with err := .illegalCommand })

/-- R157: END_OF_INPUT in DECODE sets `eoi`, whatever it was, and changes nothing else; in another mode, and with ARG ≠ 0,
it is an illegal command. -/
def Obligations.EndOfInputSetsEoi : Prop :=
  ∀ s : State, s.err = .none →
    (s.mode = .decode → exec .endOfInput s = .next { s with dec := { s.dec with eoi := true } }) ∧
    (s.mode ≠ .decode → exec .endOfInput s = .next { s with err := .illegalCommand }) ∧
    (∀ w : Word, w.toNat % 256 = 7 → w.toNat / 256 ≠ 0 → runWord w s = .next { s with err := .illegalCommand })

/-! ### Errors -/

/-- R163: with ERR = 0, a word that is no command and a command whose legality condition fails raise IllegalCommand and
change no other state: the table of R163, command by command. -/
def Obligations.IllegalCommandsOnlySetErr : Prop :=
  ∀ s : State, s.err = .none →
    (∀ m st w, ¬ (s.mode = .idle ∧ (m = 1#2 ∨ m = 2#2) ∧ (st = false ∨ m = 1#2) ∧ 9 ≤ w.toNat) →
      exec (.configure m st w) s = .next { s with err := .illegalCommand }) ∧
    (∀ len, ¬ (s.mode ≠ .idle ∧ s.input.inPos = s.input.inLen ∧ (s.mode = .encode → s.enc.phase = .running) ∧
        (s.mode = .decode → s.dec.eoi = false)) →
      exec (.setInput len) s = .next { s with err := .illegalCommand }) ∧
    (∀ cap, ¬ (s.mode ≠ .idle ∧ cap.toNat ≤ s.params.outCap) →
      exec (.produceOutput cap) s = .next { s with err := .illegalCommand }) ∧
    (∀ cap, ¬ (s.mode = .encode ∧ (s.enc.phase = .running ∨ s.enc.phase = .flushing) ∧ cap.toNat ≤ s.params.outCap) →
      exec (.flush cap) s = .next { s with err := .illegalCommand }) ∧
    (∀ cap, ¬ (s.mode = .encode ∧ cap.toNat ≤ s.params.outCap) →
      exec (.finish cap) s = .next { s with err := .illegalCommand }) ∧
    (s.mode ≠ .decode → exec .endOfInput s = .next { s with err := .illegalCommand }) ∧
    (∀ al, ¬ (s.mode = .idle ∧ al ≠ 3#2) → exec (.buildTree al) s = .next { s with err := .illegalCommand }) ∧
    (∀ w : Word, (9 ≤ w.toNat % 256 ∨ ∃ e, decode w = .error e) → runWord w s = .next { s with err := .illegalCommand })

/-- R167, R152: while ERR ≠ 0 every command other than NOP and RESET is refused: it changes no state, an illegal word's
included; RESET clears the error. -/
def Obligations.ErrorRefusesEveryCommand : Prop :=
  ∀ s : State, s.err ≠ .none →
    (∀ i : Instr, (∀ arg, i ≠ .nop arg) → (∀ arg, i ≠ .reset arg) → exec i s = .next s) ∧
    (∀ w : Word, w.toNat % 256 ≠ 1 → runWord w s = .next s) ∧
    (∀ w : Word, w.toNat % 256 = 1 → ∃ t, runWord w s = .next t ∧ t.err = .none ∧ t.mode = .idle)

/-- R47: in a state without an error every illegal encoding records IllegalCommand and changes nothing else, as the word of an
ill-formed instruction does; every NOP word executes as NOP and every RESET word as RESET; no other word is a hint or
custom. -/
def Obligations.IllegalEncodingsRecordIllegalCommand : Prop :=
  ∀ (s : State) (w : Word), s.err = .none →
    ((9 ≤ w.toNat % 256 ∨
        (w.toNat % 256 = 2 ∧
          ((w.toNat / 2 ^ 8) % 4 = 0 ∨ (w.toNat / 2 ^ 8) % 4 = 3 ∨ (w.getLsbD 10 = true ∧ (w.toNat / 2 ^ 8) % 4 ≠ 1) ∨
            (w.toNat / 2 ^ 12) % 16 < 9 ∨ w.getLsbD 11 = true ∨ w.toNat / 2 ^ 16 ≠ 0)) ∨
        (w.toNat % 256 = 7 ∧ w.toNat / 2 ^ 8 ≠ 0) ∨
        (w.toNat % 256 = 8 ∧ ((w.toNat / 2 ^ 8) % 4 = 3 ∨ w.toNat / 2 ^ 10 ≠ 0))) →
      runWord w s = .next { s with err := .illegalCommand }) ∧
    (∀ i : Instr, i.wellFormed = false → exec i s = .next { s with err := .illegalCommand }) ∧
    (w.toNat % 256 = 0 → runWord w s = .next s) ∧
    (w.toNat % 256 = 1 → runWord w s = runWord 0x00000001#32 s)

/-- R132, R134 to R148, R165, R166, R169: when a decoder step raises, with which error and in which state. For each state and each
of its errors the cause is given, in the order of R169; there is no other raise. `dec_state` stays at the state that raised,
what it read stays consumed, and what it wrote before the raise stays written. -/
def Obligations.DecoderRaisesExactlyOnItsCauses : Prop :=
  ∀ (s t : State) (e : Err),
    (decStep s = (.raised e, t) → t.dec.decState = s.dec.decState) ∧
    (decStep s = (.raised e, t) ↔
      -- Block header
      (s.dec.decState = .readingBType ∧ e = .invalidBlockType ∧ getBits 2 s = (some 3, t)) ∨
      -- Dynamic header
      (s.dec.decState = .readingNumLitCodes ∧ e = .invalidHeaderCount ∧ ∃ v, 29 < v ∧ getBits 5 s = (some v, t)) ∨
      (s.dec.decState = .readingNumDistCodes ∧ e = .invalidHeaderCount ∧ ∃ v, 29 < v ∧ getBits 5 s = (some v, t)) ∨
      (s.dec.decState = .readingCodeLenCodes ∧ e = .invalidHuffmanTable ∧ s.dec.clIdx + 1 = s.dec.hclenN ∧
        ∃ v s' lens, getBits 3 s = (some v, s') ∧
          lens = s.dec.clLens.set
            (at0 [16, 17, 18, 0, 8, 7, 9, 6, 10, 5, 11, 4, 12, 3, 13, 2, 14, 1, 15] s.dec.clIdx) v ∧
          makeTable lens = none ∧
          t = { s.consuming s' with dec := { s.dec with clLens := lens, clIdx := s.dec.clIdx + 1 } }) ∨
      (s.dec.decState = .readingTreeCodes ∧ e = .missingEndOfBlockCode ∧
        s.dec.lens.length = s.dec.hlitN + s.dec.hdistN ∧ at0 s.dec.lens 256 = 0 ∧ t = s) ∨
      (s.dec.decState = .readingTreeCodes ∧ e = .invalidHuffmanTable ∧
        s.dec.lens.length = s.dec.hlitN + s.dec.hdistN ∧ at0 s.dec.lens 256 ≠ 0 ∧
        makeTable (s.dec.lens.take s.dec.hlitN) = none ∧ t = s) ∨
      (s.dec.decState = .readingTreeCodes ∧ e = .invalidHuffmanTable ∧
        s.dec.lens.length = s.dec.hlitN + s.dec.hdistN ∧ at0 s.dec.lens 256 ≠ 0 ∧
        ∃ lt, makeTable (s.dec.lens.take s.dec.hlitN) = some lt ∧
          makeTable ((s.dec.lens.drop s.dec.hlitN).take s.dec.hdistN) = none ∧
          t = { s with dec := { s.dec with litTable := lt } }) ∨
      (s.dec.decState = .readingTreeCodes ∧ e = .invalidHuffmanTable ∧
        s.dec.lens.length ≠ s.dec.hlitN + s.dec.hdistN ∧ decodeSym s.dec.clTable s = (.badCode, t)) ∨
      (s.dec.decState = .readingTreeCodes ∧ e = .invalidCodeLengthSequence ∧
        s.dec.lens.length ≠ s.dec.hlitN + s.dec.hdistN ∧ s.dec.lens = [] ∧
        decodeSym s.dec.clTable s = (.symbol 16, t)) ∨
      (s.dec.decState = .readingTreeCodesExtra ∧ e = .invalidCodeLengthSequence ∧
        ∃ v, getBits (if s.dec.repSym = 16 then 2 else if s.dec.repSym = 17 then 3 else 7) s = (some v, t) ∧
          s.dec.hlitN + s.dec.hdistN <
            s.dec.lens.length + (v + if s.dec.repSym = 16 ∨ s.dec.repSym = 17 then 3 else 11)) ∨
      -- Compressed data
      (s.dec.decState = .decodeTop ∧ e = .invalidHuffmanTable ∧ 258 ≤ windowSize s.wbits - s.window.winUsed ∧
        decodeSym s.dec.litTable s = (.badCode, t)) ∨
      (s.dec.decState = .decodeTop ∧ e = .invalidSymbol ∧ 258 ≤ windowSize s.wbits - s.window.winUsed ∧
        ∃ v, 286 ≤ v ∧ decodeSym s.dec.litTable s = (.symbol v, t)) ∨
      (s.dec.decState = .haveFullLength ∧ e = .invalidHuffmanTable ∧ decodeSym s.dec.distTable s = (.badCode, t)) ∨
      (s.dec.decState = .haveFullLength ∧ e = .invalidSymbol ∧
        ∃ v, 30 ≤ v ∧ decodeSym s.dec.distTable s = (.symbol v, t)) ∨
      (s.dec.decState = .haveDistCode ∧ e = .invalidDistance ∧
        ∃ v, getBits (distExtraOf s.dec.curDsym) s = (some v, t) ∧
          s.window.winFilled < distBaseOf s.dec.curDsym + v) ∨
      -- Stored blocks
      (s.dec.decState = .uncompressedByte4 ∧ e = .invalidStoredBlockLength ∧
        ∃ v, getBits 8 s = (some v, t) ∧ s.dec.nlenLo.toNat + 256 * v ≠ 65535 - s.dec.storedLen.toNat))

/-! ### The tree builder -/

/-- R162: a legal BUILD_TREE completes, leaves everything but the tables and the TREE_ registers as it was, writes the
TREE_ registers, and changes no byte outside LEN_TAB, CODE_TAB and BLCOUNT_TAB: FREQ_TAB, IN_BUF and OUT_BUF keep
theirs. -/
def Obligations.BuildTreeWritesOnlyItsResults : Prop :=
  ∀ (alpha : BitVec 2) (s : State), s.err = .none → s.mode = .idle → alpha ≠ 3#2 →
    ∃ t, exec (.buildTree alpha) s = .next t ∧ t = { s with mem := t.mem, tree := t.tree } ∧
      ∀ a, ¬ (0x1400 ≤ a ∧ a < 0x1400 + 286) → ¬ (0x1800 ≤ a ∧ a < 0x1800 + 572) → ¬ (0x1C00 ≤ a ∧ a < 0x1C00 + 32) →
        Memory.read t.mem a = Memory.read s.mem a

/-- R162, D41: after BUILD_TREE the entries of LEN_TAB and CODE_TAB from the alphabet's element count to 285 are 0; R94: a
length is at most the alphabet's maximum; R23: CODE_TAB values are below 2^15. -/
def Obligations.BuiltTablesAreInRange : Prop :=
  ∀ (alpha : BitVec 2) (a : Alphabet) (s t : State), s.err = .none → s.mode = .idle → Memory.wf s.mem = true →
    alphabetOfField alpha = some a → exec (.buildTree alpha) s = .next t →
    (∀ i, a.size ≤ i → i < 286 →
      Memory.read t.mem (0x1400 + i) = 0#8 ∧ leValue (Memory.readBytes t.mem (0x1800 + 2 * i) 2) = 0) ∧
    (∀ i, i < 286 →
      (Memory.read t.mem (0x1400 + i)).toNat ≤ a.maxLen ∧ leValue (Memory.readBytes t.mem (0x1800 + 2 * i) 2) < 2 ^ 15)

/-- R162: "The result is a pure function of FREQ_TAB[0..n) and ALPHA": two blocks that agree there get the same TREE_
registers and the same table bytes, whatever else differs. -/
def Obligations.BuildTreeDependsOnFreqTabOnly : Prop :=
  ∀ (alpha : BitVec 2) (a : Alphabet) (s s' t t' : State),
    s.err = .none → s'.err = .none → s.mode = .idle → s'.mode = .idle → Memory.wf s.mem = true → Memory.wf s'.mem = true →
    alphabetOfField alpha = some a → (∀ i, i < a.size → freqEntry s.mem i = freqEntry s'.mem i) →
    exec (.buildTree alpha) s = .next t → exec (.buildTree alpha) s' = .next t' →
    t.tree = t'.tree ∧
    ∀ x, ((0x1400 ≤ x ∧ x < 0x1400 + 286) ∨ (0x1800 ≤ x ∧ x < 0x1800 + 572) ∨ (0x1C00 ≤ x ∧ x < 0x1C00 + 32)) →
      Memory.read t.mem x = Memory.read t'.mem x

/-- R94, R85, R86, R95, R162: what BUILD_TREE builds. BLCOUNT_TAB is the histogram of the lengths, and the code is complete. With
two or more non-zero frequencies the symbols that have a code are those of non-zero frequency; with fewer, two symbols have
one, the forced ones included. TREE_MAX_CODE is the largest symbol with a code. CODE_TAB holds the bit reversal of the
canonical code of each symbol that has one, and 0 for the others. -/
def Obligations.BuildTreeBuildsACompleteCode : Prop :=
  ∀ (alpha : BitVec 2) (a : Alphabet) (s t : State), s.err = .none → s.mode = .idle → Memory.wf s.mem = true →
    alphabetOfField alpha = some a → exec (.buildTree alpha) s = .next t →
    ∀ lens : List Nat, lens = lenTable t.mem a.size →
    (blcountEntry t.mem 0 = 0 ∧ ∀ l, 1 ≤ l → l ≤ 15 → blcountEntry t.mem l = lens.count l) ∧
    ((List.range' 1 15).map (fun l => blcountEntry t.mem l * 2 ^ (15 - l))).sum = 2 ^ 15 ∧
    (∀ x, x < a.size → freqEntry s.mem x ≠ 0 → at0 lens x ≠ 0) ∧
    (∀ x y, x < y → y < a.size → freqEntry s.mem x ≠ 0 → freqEntry s.mem y ≠ 0 →
      ∀ z, z < a.size → at0 lens z ≠ 0 → freqEntry s.mem z ≠ 0) ∧
    (∀ x, x < a.size → freqEntry s.mem x ≠ 0 → (∀ y, y < a.size → y ≠ x → freqEntry s.mem y = 0) →
      ∀ z, z < a.size → (at0 lens z ≠ 0 ↔ z = x ∨ z = (if x = 0 then 1 else if x = 1 then 2 else 0))) ∧
    ((∀ y, y < a.size → freqEntry s.mem y = 0) → ∀ z, z < a.size → (at0 lens z ≠ 0 ↔ z = 0 ∨ z = 1)) ∧
    (t.tree.maxCode.toNat < a.size ∧ at0 lens t.tree.maxCode.toNat ≠ 0 ∧
      ∀ z, z < a.size → at0 lens z ≠ 0 → z ≤ t.tree.maxCode.toNat) ∧
    (∀ z, z < a.size →
      codeEntry t.mem z = if at0 lens z = 0 then 0 else revBits (at0 lens z) (canonicalCode lens z))

/-- R91, R93, R86, R162: TREE_OPT_LEN is the cost in bits of the alphabet's occurrences in the code built, the extra bits
included, and TREE_STATIC_LEN their cost in the static code (0 for the alphabet that has none); a forced symbol costs
nothing. -/
def Obligations.BuildTreeCountsTheCost : Prop :=
  ∀ (alpha : BitVec 2) (a : Alphabet) (s t : State), s.err = .none → s.mode = .idle → Memory.wf s.mem = true →
    alphabetOfField alpha = some a → exec (.buildTree alpha) s = .next t →
    t.tree.optLen.toNat =
      ((List.range a.size).map (fun x =>
        freqEntry s.mem x * (at0 (lenTable t.mem a.size) x + a.extraBits x))).sum ∧
    t.tree.staticLen.toNat =
      ((List.range a.size).map (fun x =>
        match a.staticLen x with
        | some l => freqEntry s.mem x * (l + a.extraBits x)
        | none => 0)).sum

/-- R96: bit i of `rev_n(v)` is bit n−1−i of v for i < n, and bits n and up are 0; so reversing the n bits of an n-bit value
twice gives it back. -/
def Obligations.BitReversalReversesTheBits : Prop :=
  ∀ n v : Nat,
    (∀ i, i < n → (revBits n v).testBit i = v.testBit (n - 1 - i)) ∧ (∀ i, n ≤ i → (revBits n v).testBit i = false) ∧
    (v < 2 ^ n → revBits n (revBits n v) = v)

/-- R95, R97: the code stored for a symbol is the bit reversal of its canonical code; a shorter code sorts before a longer
one, and codes of equal length are in symbol order. -/
def Obligations.CanonicalCodesAreOrdered : Prop :=
  ∀ (lens : List Nat), (∀ l ∈ lens, l ≤ 15) →
    (∀ s, s < lens.length → at0 lens s ≠ 0 →
      at0 (genCodes lens (histogram lens)) s = revBits (at0 lens s) (canonicalCode lens s)) ∧
    (∀ a b, a < lens.length → b < lens.length → at0 lens a ≠ 0 → at0 lens a < at0 lens b →
      canonicalCode lens a * 2 ^ (at0 lens b - at0 lens a) < canonicalCode lens b) ∧
    (∀ a b, a < b → b < lens.length → at0 lens a ≠ 0 → at0 lens a = at0 lens b →
      canonicalCode lens a < canonicalCode lens b)

/-! ### The match detector -/

/-- R102: the reference finder answers a true match that is the longest and, among the longest, the nearest; it answers NONE
only if no distance matches three bytes. -/
def Obligations.ReferenceFinderIsLongestAndNearest : Prop :=
  ∀ (hist : List Byte) (p maxlen maxdist : Nat), maxdist ≤ p → p + maxlen ≤ hist.length →
    (∀ L D, refFinder hist p maxlen maxdist = some (L, D) →
      3 ≤ L ∧ L ≤ maxlen ∧ 1 ≤ D ∧ D ≤ maxdist ∧ (∀ i, i < L → hist.getD (p - D + i) 0#8 = hist.getD (p + i) 0#8) ∧
      ∀ L' D', 1 ≤ D' → D' ≤ maxdist → L' ≤ maxlen →
        (∀ i, i < L' → hist.getD (p - D' + i) 0#8 = hist.getD (p + i) 0#8) → L' ≤ L ∧ (L' = L → D ≤ D')) ∧
    (refFinder hist p maxlen maxdist = none →
      ∀ D', 1 ≤ D' → D' ≤ maxdist → 3 ≤ maxlen →
        ∃ i, i < 3 ∧ hist.getD (p - D' + i) 0#8 ≠ hist.getD (p + i) 0#8)

/-- R101, R100: whatever the finder, a match at position p is a true prior occurrence within the maximum distance and the
lookahead (properties 1 to 3), and the answer depends on p, `maxlen`, the window size and the first p + `maxlen` bytes of
the history only (property 4). -/
def Obligations.EveryMatchIsAdmissible : Prop :=
  ∀ (f : Finder) (wbits : BitVec 4) (hist : List Byte) (p maxlen : Nat),
    (∀ L D, findMatch f wbits hist p maxlen = some (L, D) →
      3 ≤ L ∧ L ≤ maxlen ∧ 1 ≤ D ∧ D ≤ p ∧ D ≤ 2 ^ wbits.toNat - 262 ∧
      ∀ i, i < L → hist.getD (p - D + i) 0#8 = hist.getD (p + i) 0#8) ∧
    (∀ hist' : List Byte, hist'.take (p + maxlen) = hist.take (p + maxlen) →
      findMatch f wbits hist' p maxlen = findMatch f wbits hist p maxlen)

/-! ### Bit input and output -/

/-- R71, R73, R31: PutBits appends the n low bits of v to the stream, bit 0 first, and moves each completed byte to `pending`
at once; AlignWriter appends zero bits up to the next byte boundary. (With R18's invariant, which both keep, the bits held
determine the writer.) -/
def Obligations.WriterAppendsTheBits : Prop :=
  ∀ (w : BitWriter) (v n : Nat), w.bwCount < 8 → w.bwAcc.toNat < 2 ^ w.bwCount →
    (writerBits (putBits v n w) = writerBits w ++ bitsOf n v ∧
      (putBits v n w).bwCount < 8 ∧ (putBits v n w).bwAcc.toNat < 2 ^ (putBits v n w).bwCount) ∧
    (writerBits (alignWriter w) = writerBits w ++ List.replicate ((8 - w.bwCount) % 8) false ∧
      (alignWriter w).bwCount = 0 ∧ (alignWriter w).bwAcc = 0#8)

/-- R68, R66: GetBits(n) returns the next n stream bits and consumes exactly those; where it returns NONE fewer than n bits
are left, all the input is in the cache, and no bit is lost. It changes the bit cache and `in_pos` only. -/
def Obligations.GetBitsReadsTheNextBits : Prop :=
  ∀ (n : Nat) (s : State), n ≤ 16 → s.reader.brCount ≤ 23 → s.reader.brCache.toNat < 2 ^ s.reader.brCount →
    (∀ v t, getBits n s = (some v, t) → v < 2 ^ n ∧ unreadStream s = bitsOf n v ++ unreadStream t) ∧
    (∀ t, getBits n s = (none, t) →
      unreadStream t = unreadStream s ∧ (unreadStream s).length < n ∧ t.input.inLen ≤ t.input.inPos) ∧
    (∀ o t, getBits n s = (o, t) →
      t = { s with reader := t.reader, input := { s.input with inPos := t.input.inPos } } ∧
      t.reader.brCount ≤ 23 ∧ t.reader.brCache.toNat < 2 ^ t.reader.brCount)

/-! ### The decode window -/

/-- R78: WriteLiteral writes at the cursor and advances it; the other bytes of the ring keep their values. R79: the i-th byte
that a back-reference (L, D) writes is the byte D − (i mod D) before the old cursor: an overlapping copy repeats the last D
bytes. It writes L bytes at the cursor, through the ring's end, and no other byte of the ring. -/
def Obligations.WindowWritesAppendTheirBytes : Prop :=
  ∀ (w : Nat) (x : Window), Memory.wf x.win = true →
    (∀ b : Byte,
      (writeLiteral w b x).winEnd = (x.winEnd + 1) % w ∧ (writeLiteral w b x).winUsed = x.winUsed + 1 ∧
      (writeLiteral w b x).winFilled = min (x.winFilled + 1) w ∧
      Memory.read (writeLiteral w b x).win x.winEnd = b ∧
      ∀ i, i ≠ x.winEnd → Memory.read (writeLiteral w b x).win i = Memory.read x.win i) ∧
    (∀ len dist : Nat, x.winEnd < w → 1 ≤ dist → dist ≤ x.winFilled → x.winFilled ≤ w → len ≤ w - x.winUsed →
      (writeBackReference w len dist x).winEnd = (x.winEnd + len) % w ∧
      (writeBackReference w len dist x).winUsed = x.winUsed + len ∧
      (writeBackReference w len dist x).winFilled = min (x.winFilled + len) w ∧
      (∀ i, i < len →
        Memory.read (writeBackReference w len dist x).win ((x.winEnd + i) % w) = windowByte w x (dist - i % dist)) ∧
      (∀ a, (∀ i, i < len → a ≠ (x.winEnd + i) % w) →
        Memory.read (writeBackReference w len dist x).win a = Memory.read x.win a))

/-! ### The block decoder -/

/-- R131, R134 to R148: a decoder step that makes progress is a transition of the diagram, and it has the effect that its
state's rule gives: the bits read, the elements and the window written, and nothing else changed. So the window is written by
a literal (8 → 8), a back-reference (11 → 8) and a stored byte (17 → 17) only, and a block ends in Done exactly if it is the
final one. -/
def Obligations.DecoderStepsFollowTheDiagram : Prop :=
  ∀ s t : State, decStep s = (.ok, t) →
    (s.dec.decState.code.toNat, t.dec.decState.code.toNat) ∈
      [(0, 1), (1, 2), (1, 8), (1, 12), (2, 3), (3, 4), (4, 5), (5, 5), (5, 6), (6, 6), (6, 7), (6, 8), (7, 6),
       (8, 8), (8, 9), (8, 0), (8, 18), (9, 10), (10, 11), (11, 8), (12, 13), (13, 14), (14, 15), (15, 16), (16, 17),
       (17, 17), (17, 0), (17, 18)] ∧
    -- Block header
    (s.dec.decState = .readingBFinal → ∃ v s', getBits 1 s = (some v, s') ∧
      t = { s.consuming s' with dec := { s.dec with bfinal := decide (v = 1), decState := .readingBType } }) ∧
    (s.dec.decState = .readingBType → ∃ v s', getBits 2 s = (some v, s') ∧
      ((v = 0 ∧ t = { s.consuming s' with dec := { s.dec with decState := .uncompressedAligning } }) ∨
       (v = 1 ∧ t = { s.consuming s' with
          dec := { s.dec with litTable := staticLitTable, distTable := staticDistTable, decState := .decodeTop } }) ∨
       (v = 2 ∧ t = { s.consuming s' with dec := { s.dec with decState := .readingNumLitCodes } }))) ∧
    -- Dynamic header
    (s.dec.decState = .readingNumLitCodes → ∃ v s', getBits 5 s = (some v, s') ∧ v ≤ 29 ∧
      t = { s.consuming s' with dec := { s.dec with hlitN := v + 257, decState := .readingNumDistCodes } }) ∧
    (s.dec.decState = .readingNumDistCodes → ∃ v s', getBits 5 s = (some v, s') ∧ v ≤ 29 ∧
      t = { s.consuming s' with dec := { s.dec with hdistN := v + 1, decState := .readingNumCodeLenCodes } }) ∧
    (s.dec.decState = .readingNumCodeLenCodes → ∃ v s', getBits 4 s = (some v, s') ∧
      t = { s.consuming s' with dec := { s.dec with hclenN := v + 4, clLens := List.replicate 19 0, clIdx := 0,
                                                    decState := .readingCodeLenCodes } }) ∧
    (s.dec.decState = .readingCodeLenCodes → ∃ v s' lens, getBits 3 s = (some v, s') ∧
      lens = s.dec.clLens.set
        (at0 [16, 17, 18, 0, 8, 7, 9, 6, 10, 5, 11, 4, 12, 3, 13, 2, 14, 1, 15] s.dec.clIdx) v ∧
      ((s.dec.clIdx + 1 ≠ s.dec.hclenN ∧
          t = { s.consuming s' with dec := { s.dec with clLens := lens, clIdx := s.dec.clIdx + 1 } }) ∨
       (s.dec.clIdx + 1 = s.dec.hclenN ∧ ∃ table, makeTable lens = some table ∧
          t = { s.consuming s' with dec := { s.dec with clLens := lens, clIdx := s.dec.clIdx + 1, clTable := table,
                                                        lens := [], decState := .readingTreeCodes } }))) ∧
    (s.dec.decState = .readingTreeCodes → s.dec.lens.length = s.dec.hlitN + s.dec.hdistN →
      at0 s.dec.lens 256 ≠ 0 ∧ ∃ lt dt, makeTable (s.dec.lens.take s.dec.hlitN) = some lt ∧
        makeTable ((s.dec.lens.drop s.dec.hlitN).take s.dec.hdistN) = some dt ∧
        t = { s with dec := { s.dec with litTable := lt, distTable := dt, decState := .decodeTop } }) ∧
    (s.dec.decState = .readingTreeCodes → s.dec.lens.length ≠ s.dec.hlitN + s.dec.hdistN →
      ∃ c s', decodeSym s.dec.clTable s = (.symbol c, s') ∧
        ((c ≤ 15 ∧ t = { s.consuming s' with dec := { s.dec with lens := s.dec.lens ++ [c] } }) ∨
         (16 ≤ c ∧ (c = 16 → s.dec.lens ≠ []) ∧
            t = { s.consuming s' with dec := { s.dec with repSym := c, decState := .readingTreeCodesExtra } }))) ∧
    (s.dec.decState = .readingTreeCodesExtra → ∃ v s' n val,
      getBits (if s.dec.repSym = 16 then 2 else if s.dec.repSym = 17 then 3 else 7) s = (some v, s') ∧
      (s.dec.repSym = 16 → n = v + 3 ∧ val = at0 s.dec.lens (s.dec.lens.length - 1)) ∧
      (s.dec.repSym = 17 → n = v + 3 ∧ val = 0) ∧
      (s.dec.repSym ≠ 16 → s.dec.repSym ≠ 17 → n = v + 11 ∧ val = 0) ∧
      s.dec.lens.length + n ≤ s.dec.hlitN + s.dec.hdistN ∧
      t = { s.consuming s' with dec := { s.dec with lens := s.dec.lens ++ List.replicate n val,
                                                    decState := .readingTreeCodes } }) ∧
    -- Compressed data
    (s.dec.decState = .decodeTop → 258 ≤ windowSize s.wbits - s.window.winUsed ∧
      ∃ v s', decodeSym s.dec.litTable s = (.symbol v, s') ∧
        ((v < 256 ∧ t = { s.consuming s' with
            window := writeLiteral (windowSize s.wbits) (BitVec.ofNat 8 v) s.window }) ∨
         (v = 256 ∧ t = { s.consuming s' with
            dec := { s.dec with decState := if s.dec.bfinal then .done else .readingBFinal } }) ∨
         (257 ≤ v ∧ v ≤ 285 ∧
            t = { s.consuming s' with dec := { s.dec with curSym := v, decState := .haveInitialLength } }))) ∧
    (s.dec.decState = .haveInitialLength → ∃ v s', getBits (lenExtraOf s.dec.curSym) s = (some v, s') ∧
      t = { s.consuming s' with
              dec := { s.dec with curLen := lenBaseOf s.dec.curSym + v, decState := .haveFullLength } }) ∧
    (s.dec.decState = .haveFullLength → ∃ v s', decodeSym s.dec.distTable s = (.symbol v, s') ∧ v < 30 ∧
      t = { s.consuming s' with dec := { s.dec with curDsym := v, decState := .haveDistCode } }) ∧
    (s.dec.decState = .haveDistCode → ∃ v s' dist, getBits (distExtraOf s.dec.curDsym) s = (some v, s') ∧
      dist = distBaseOf s.dec.curDsym + v ∧ dist ≤ s.window.winFilled ∧
      t = { s.consuming s' with
              window := writeBackReference (windowSize s.wbits) s.dec.curLen dist s.window
              dec := { s.dec with decState := .decodeTop } }) ∧
    -- Stored blocks
    (s.dec.decState = .uncompressedAligning →
      t = { s with reader := { brCache := s.reader.brCache >>> (s.reader.brCount % 8),
                               brCount := s.reader.brCount - s.reader.brCount % 8 }
                   dec := { s.dec with decState := .uncompressedByte1 } }) ∧
    (s.dec.decState = .uncompressedByte1 → ∃ v s', getBits 8 s = (some v, s') ∧
      t = { s.consuming s' with dec := { s.dec with lenLo := BitVec.ofNat 8 v, decState := .uncompressedByte2 } }) ∧
    (s.dec.decState = .uncompressedByte2 → ∃ v s', getBits 8 s = (some v, s') ∧
      t = { s.consuming s' with dec := { s.dec with storedLen := BitVec.ofNat 16 (s.dec.lenLo.toNat + 256 * v),
                                                    decState := .uncompressedByte3 } }) ∧
    (s.dec.decState = .uncompressedByte3 → ∃ v s', getBits 8 s = (some v, s') ∧
      t = { s.consuming s' with dec := { s.dec with nlenLo := BitVec.ofNat 8 v, decState := .uncompressedByte4 } }) ∧
    (s.dec.decState = .uncompressedByte4 → ∃ v s', getBits 8 s = (some v, s') ∧
      s.dec.nlenLo.toNat + 256 * v = 65535 - s.dec.storedLen.toNat ∧
      t = { s.consuming s' with dec := { s.dec with storedRem := s.dec.storedLen.toNat,
                                                    decState := .decodingUncompressed } }) ∧
    (s.dec.decState = .decodingUncompressed → s.dec.storedRem = 0 →
      t = { s with dec := { s.dec with decState := if s.dec.bfinal then .done else .readingBFinal } }) ∧
    (s.dec.decState = .decodingUncompressed → s.dec.storedRem ≠ 0 →
      1 ≤ windowSize s.wbits - s.window.winUsed ∧ ∃ v s', getBits 8 s = (some v, s') ∧
        t = { s.consuming s' with window := writeLiteral (windowSize s.wbits) (BitVec.ofNat 8 v) s.window
                                  dec := { s.dec with storedRem := s.dec.storedRem - 1 } })

/-- R133: a step that returns IN changes nothing but the bit cache and `in_pos`, and it returns IN only with the input
exhausted; with the bit cache in range it loses no bit: what is unread stays unread. One that returns OUT changes nothing, and
it returns OUT only in state 8 with fewer than 258 window bytes free (R142) and in state 17 with none free (R148); R149: Done
changes nothing. -/
def Obligations.StallsChangeNoDecoderState : Prop :=
  ∀ s t : State, s.input.inPos ≤ s.input.inLen →
    (decStep s = (.needIn, t) →
      t = { s with reader := t.reader, input := { s.input with inPos := s.input.inLen } } ∧
      (ReaderInRange s → unreadStream t = unreadStream s)) ∧
    (decStep s = (.needOut, t) → t = s ∧
      ((s.dec.decState = .decodeTop ∧ windowSize s.wbits - s.window.winUsed < 258) ∨
       (s.dec.decState = .decodingUncompressed ∧ s.dec.storedRem ≠ 0 ∧ windowSize s.wbits - s.window.winUsed = 0))) ∧
    (decStep s = (.done, t) → t = s ∧ s.dec.decState = .done)

/-- R129, R130: DecodeSym with the table made of a set of code lengths returns symbol s when the stream goes on with the
code that PutCode writes for s, and it consumes exactly that code. -/
def Obligations.DecodeSymInvertsPutCode : Prop :=
  ∀ (lens : List Nat) (t : DecTable) (s : Nat) (st : State) (rest : List Bool),
    (∀ l ∈ lens, l ≤ 15) → makeTable lens = some t → s < lens.length → at0 lens s ≠ 0 →
    st.reader.brCount ≤ 23 → st.reader.brCache.toNat < 2 ^ st.reader.brCount →
    unreadStream st = bitsOf (at0 lens s) (at0 (genCodes lens (histogram lens)) s) ++ rest →
    ∃ st', decodeSym t st = (.symbol s, st') ∧ unreadStream st' = rest

/-- R127: CheckKraft rejects exactly the sets of lengths that ask for more codes than the code space holds, and MakeTable
makes no table of such a set and one of every other. -/
def Obligations.CheckKraftRejectsOversubscribed : Prop :=
  ∀ lens : List Nat,
    (makeTable lens = none ↔ 2 ^ 15 < ((List.range' 1 15).map (fun l => lens.count l * 2 ^ (15 - l))).sum) ∧
    (∀ t, makeTable lens = some t → t.cnt = histogram lens ∧ ∀ l, 1 ≤ l → l ≤ 15 →
      at0 t.first l + at0 t.cnt l ≤ 2 ^ l)

/-- R55, R146 to R150: a final stored block given whole decodes to its raw bytes, whatever its padding bits: the whole
block, through a window of any legal size, and DONE is 1. -/
def Obligations.StoredFinalBlockDecodesToItsBytes : Prop :=
  ∀ (s : State) (cap : Arg) (first : Byte) (raw : List Byte),
    s.wf → s.err = .none → s.mode = .decode → s.dec.decState = .readingBFinal → s.reader.brCount = 0 →
    s.window.winUsed = 0 → first.toNat % 8 = 1 → raw.length ≤ 65535 → unreadBytes s = storedBlockBytes first raw →
    raw.length ≤ cap.toNat → 1 ≤ cap.toNat → cap.toNat ≤ s.params.outCap →
    ∃ t, exec (.produceOutput cap) s = .next t ∧ t.err = .none ∧ t.dec.decState = .done ∧
      t.input.inPos = t.input.inLen ∧ t.result = resultReg raw.length true ∧ outBytes t.mem raw.length = raw

/-- R150, R158, R166: PRODUCE_OUTPUT in DECODE completes, whatever the stream holds. It writes RESULT, at most CAP bytes of
OUT_BUF and no other byte of memory, and ERR only with an error that the decoder raises; it consumes input and changes the
decoder, the bit cache and the window, and nothing else. With EOI set it ends without an error only if OUT_BUF is full or the
stream is done: a run of steps that ends with an input stall raises MalformedHuffmanCode exactly if EOI is set. R80: where CAP
is at most `win_used`, and in Done, it runs no step: the oldest bytes of the window go to OUT_BUF, as far as CAP allows, and
the others stay. With CAP = 0 it drains nothing, runs no step and raises nothing, even with EOI set. -/
def Obligations.DecodeOutputCompletes : Prop :=
  (∀ (cap : Arg) (s : State), s.err = .none → s.mode = .decode → cap.toNat ≤ s.params.outCap →
    InputInRange s → 9 ≤ s.wbits.toNat →
    ∃ t n, exec (.produceOutput cap) s = .next t ∧ n ≤ cap.toNat ∧ t.result = resultReg n (finished t) ∧
      t = { s with mem := t.mem, input := { s.input with inPos := t.input.inPos }, reader := t.reader,
                   window := t.window, dec := t.dec, result := t.result, err := t.err } ∧
      t.dec.eoi = s.dec.eoi ∧ s.input.inPos ≤ t.input.inPos ∧ t.input.inPos ≤ t.input.inLen ∧
      (t.err = .malformedHuffmanCode → s.dec.eoi = true) ∧
      (t.err = .none → s.dec.eoi = true → n = cap.toNat ∨ t.dec.decState = .done) ∧
      t.err ≠ .outputBufferOverrun ∧ t.err ≠ .illegalCommand ∧
      ∀ a, ¬ (outBase ≤ a ∧ a < outBase + n) → Memory.read t.mem a = Memory.read s.mem a) ∧
  (∀ (cap : Arg) (s u : State) (steps : Nat), s.err = .none → s.mode = .decode → cap.toNat ≤ s.params.outCap →
    InputInRange s → 9 ≤ s.wbits.toNat → s.window.winUsed < cap.toNat → s.dec.decState ≠ .done →
    runSteps steps (drainWindow cap.toNat 0 s).2 = some (.needIn, u) →
    ∃ t n, exec (.produceOutput cap) s = .next t ∧ n = min cap.toNat (s.window.winUsed + u.window.winUsed) ∧
      t = { u with mem := t.mem
                   window := { u.window with winUsed := s.window.winUsed + u.window.winUsed - n }
                   result := resultReg n (finished t)
                   err := if s.dec.eoi then .malformedHuffmanCode else .none }) ∧
  (∀ (cap : Arg) (s : State) (n : Nat), s.err = .none → s.mode = .decode → cap.toNat ≤ s.params.outCap →
    (cap.toNat ≤ s.window.winUsed ∨ s.dec.decState = .done) → n = min cap.toNat s.window.winUsed →
    exec (.produceOutput cap) s = .next
      { s with
        mem := writeOut s.mem 0 ((List.range n).map (fun j =>
          Memory.read s.window.win
            ((s.window.winEnd + windowSize s.wbits - s.window.winUsed + j) % windowSize s.wbits)))
        window := { s.window with winUsed := s.window.winUsed - n }
        result := resultReg n (decide (s.dec.decState = .done) && decide (s.window.winUsed ≤ cap.toNat)) }) ∧
  (∀ s : State, s.err = .none → s.mode = .decode →
    exec (.produceOutput 0#24) s = .next { s with result := resultReg 0 (finished s) })

/-! ### The block encoder -/

/-- R113, R158, R159 to R161: the output commands of an ENCODE stream complete. Each writes RESULT, at most CAP bytes of
OUT_BUF and no other byte of memory; it consumes input and changes the encoder and the bit writer, and nothing else: it
raises no error. -/
def Obligations.EncodeOutputCompletes : Prop :=
  ∀ (i : Instr) (cap : Arg) (s : State), s.err = .none → s.mode = .encode → cap.toNat ≤ s.params.outCap → InputInRange s →
    (i = .produceOutput cap ∨ (i = .flush cap ∧ (s.enc.phase = .running ∨ s.enc.phase = .flushing)) ∨ i = .finish cap) →
    ∃ t n, exec i s = .next t ∧ n ≤ cap.toNat ∧ t.result = resultReg n (finished t) ∧
      t = { s with mem := t.mem, input := { s.input with inPos := t.input.inPos }, writer := t.writer, enc := t.enc,
                   result := t.result } ∧
      s.input.inPos ≤ t.input.inPos ∧ t.input.inPos ≤ t.input.inLen ∧
      ∀ a, ¬ (outBase ≤ a ∧ a < outBase + n) → Memory.read t.mem a = Memory.read s.mem a

/-- R161, R75: in Finished, FINISH only drains pending bytes: the oldest go to OUT_BUF[0..), as far as CAP allows. -/
def Obligations.FinishInFinishedOnlyDrains : Prop :=
  ∀ (cap : Arg) (s : State), s.err = .none → s.mode = .encode → cap.toNat ≤ s.params.outCap → s.enc.phase = .finished →
    exec (.finish cap) s = .next
      { s with
        mem := writeOut s.mem 0 (s.writer.pending.take cap.toNat)
        writer := { s.writer with pending := s.writer.pending.drop cap.toNat }
        result := resultReg (min cap.toNat s.writer.pending.length) (s.writer.pending.length ≤ cap.toNat) }

/-- R114, R91, R115, R119 to R122: with the frequencies of a tally, `opt_len` is the exact bit count of the dynamic block without
its 3 header bits, and `static_len` that of the static block; every symbol that WriteDynamic writes has a code; and every field
of the dynamic header fits its width, with no code-length code left out. -/
def Obligations.BlockCostsAreExact : Prop :=
  ∀ (tally : List Sym) (litFreq distFreq : List Nat) (last : Bool) (w : BitWriter) (t : BlockTrees),
    w.bwCount < 8 → w.bwAcc.toNat < 2 ^ w.bwCount → tally.length ≤ 65535 → (∀ y ∈ tally, y.inRange 32768) →
    litFreq.length = 286 → distFreq.length = 30 →
    (∀ x, x < 286 → at0 litFreq x = (tally.map Sym.litSymbol).count x + (if x = 256 then 1 else 0)) →
    (∀ x, x < 30 → at0 distFreq x = (tally.map Sym.distSymbol).count (some x)) →
    t = blockTrees litFreq distFreq →
    (writerBits (writeDynamic last t tally w)).length = (writerBits w).length + 3 + t.optLen.toNat ∧
    (writerBits (writeStatic last tally w)).length = (writerBits w).length + 3 + t.staticLen.toNat ∧
    (∀ it ∈ clItems t.lt.table.len t.lt.maxCode ++ clItems t.dt.table.len t.dt.maxCode,
      at0 t.bt.table.len it.sym ≠ 0) ∧
    (at0 t.lt.table.len 256 ≠ 0 ∧ ∀ y ∈ tally, at0 t.lt.table.len y.litSymbol ≠ 0 ∧
      ∀ c, y.distSymbol = some c → at0 t.dt.table.len c ≠ 0) ∧
    (256 ≤ t.lt.maxCode ∧ t.lt.maxCode ≤ 285 ∧ 1 ≤ t.dt.maxCode ∧ t.dt.maxCode ≤ 29 ∧
      3 ≤ t.maxBlIndex ∧ t.maxBlIndex ≤ 18 ∧
      ∀ j, t.maxBlIndex < j → j < 19 →
        at0 t.bt.table.len (at0 [16, 17, 18, 0, 8, 7, 9, 6, 10, 5, 11, 4, 12, 3, 13, 2, 14, 1, 15] j) = 0)

/-- R111, R160: a FLUSH with no input left, nothing tallied and nothing pending writes no block and returns to Running. R110,
R113: in Running, with fewer than 262 bytes of lookahead and input together and nothing pending, PRODUCE_OUTPUT pulls all the
input into the history, tallies nothing and writes nothing. -/
def Obligations.IdleFlushAndShortInputWriteNothing : Prop :=
  (∀ (cap : Arg) (s : State), s.err = .none → s.mode = .encode → cap.toNat ≤ s.params.outCap →
    (s.enc.phase = .running ∨ s.enc.phase = .flushing) → s.input.inPos = s.input.inLen →
    s.enc.encPos = s.enc.hist.length → s.enc.tally = [] → s.writer.pending = [] →
    exec (.flush cap) s = .next { s with enc := { s.enc with phase := .running }, result := 0#32 }) ∧
  (∀ (cap : Arg) (s : State), s.err = .none → s.mode = .encode → cap.toNat ≤ s.params.outCap → InputInRange s →
    s.enc.phase = .running → s.writer.pending = [] →
    lookahead s.enc + (s.input.inLen - s.input.inPos) < 262 → s.enc.encPos ≤ s.enc.hist.length →
    exec (.produceOutput cap) s = .next
      { s with
        enc := { s.enc with hist := s.enc.hist ++ unreadBytes s }
        input := { s.input with inPos := s.input.inLen }
        result := 0#32 })

/-- R160, R111, R161, R112: when a FLUSH is complete (`phase` is back at Running) every byte given has been tallied and the
tally written; when a stream reaches Finished, every byte given has been written and the bit writer is on a byte
boundary. -/
def Obligations.CompletedFlushAndFinishLeaveNothing : Prop :=
  ∀ (cap : Arg) (s t : State), s.err = .none → s.mode = .encode → cap.toNat ≤ s.params.outCap → InputInRange s →
    (exec (.flush cap) s = .next t → t.err = .none → t.enc.phase = .running →
      t.input.inPos = t.input.inLen ∧ t.enc.hist.length ≤ t.enc.encPos ∧ t.enc.tally = []) ∧
    (exec (.finish cap) s = .next t → s.enc.phase ≠ .finished → t.enc.phase = .finished →
      t.input.inPos = t.input.inLen ∧ t.enc.hist.length ≤ t.enc.encPos ∧ t.enc.tally = [] ∧ t.writer.bwCount = 0)

/-- R110, R108, R109, R100, R104, R111, R112: EncStep takes the first enabled action, with these effects and no other. With fewer
than 262 bytes of lookahead and input left it pulls a byte. With 262, or with some in Flushing or Finishing once the input is
exhausted, it asks the finder (but not in STORE_ONLY mode, nor with fewer than three bytes ahead), tallies the match it
answers, or else a literal, counts it, moves on past it, and emits the block if the tally is full. With nothing left it
completes a flush or a finish. Otherwise no action is enabled. (That a match of length L counts `len_code(L)`, against R109's
example, is the MODEL'S reading: assumption log 17, DEDUCED.) -/
def Obligations.EncoderStepsTakeTheFirstEnabledAction : Prop :=
  (∀ hist p maxlen maxdist, matchFinder .reference hist p maxlen maxdist = refFinder hist p maxlen maxdist) ∧
  ∀ (s : State) (la maxlen : Nat) (m : Option (Nat × Nat)),
    la = s.enc.hist.length - s.enc.encPos → maxlen = min 258 la →
    m = (if s.storeOnly = true ∨ maxlen < 3 then none
         else matchFinder s.params.finder s.enc.hist s.enc.encPos maxlen (min s.enc.encPos (2 ^ s.wbits.toNat - 262))) →
    (la < 262 → s.input.inPos ≠ s.input.inLen →
      encStep s = some
        { s with
          enc := { s.enc with hist := s.enc.hist ++ [inByte s.mem s.input.inPos] }
          input := { s.input with inPos := s.input.inPos + 1 } }) ∧
    ((262 ≤ la ∨ (0 < la ∧ s.input.inPos = s.input.inLen ∧ (s.enc.phase = .flushing ∨ s.enc.phase = .finishing))) →
      ∃ e : Encoder,
        (m = none →
          e = { s.enc with
                tally := s.enc.tally ++ [.lit (s.enc.hist.getD s.enc.encPos 0#8)]
                litFreq := addAt s.enc.litFreq (s.enc.hist.getD s.enc.encPos 0#8).toNat 1
                encPos := s.enc.encPos + 1 }) ∧
        (∀ len dist, m = some (len, dist) →
          e = { s.enc with
                tally := s.enc.tally ++ [.backRef len dist]
                litFreq := addAt s.enc.litFreq (lenCode len) 1
                distFreq := addAt s.enc.distFreq (distCode dist) 1
                encPos := s.enc.encPos + len }) ∧
        encStep s = some
          (if s.enc.tally.length + 1 = s.params.tallyCap then emitBlock false { s with enc := e } else { s with enc := e })) ∧
    (la = 0 → s.input.inPos = s.input.inLen → s.enc.phase = .flushing →
      ∃ u, u = (if s.enc.tally = [] then s else emitBlock false s) ∧
        encStep s = some { u with enc := { u.enc with phase := .running } }) ∧
    (la = 0 → s.input.inPos = s.input.inLen → s.enc.phase = .finishing →
      ∃ u, u = emitBlock true s ∧ encStep s = some { u with enc := { u.enc with phase := .finished } }) ∧
    (la < 262 → s.input.inPos = s.input.inLen → (s.enc.phase = .running ∨ s.enc.phase = .finished) → encStep s = none)

/-- R54, R55, R56, R63, R64, R72, R118 to R122: the bits of a block in each of the three encodings, whatever the writer holds. A
stored block is its header, the padding to a byte boundary, LEN, NLEN and the raw bytes. A static block is its header, each
symbol's static code with its extra fields, in order, and the code of 256. A dynamic block is its header, HLIT, HDIST and
HCLEN, the code-length code lengths in the order of R57, the code-length symbols of both trees with their extra fields, and
the symbols and the end-of-block symbol in the two codes. -/
def Obligations.BlocksAreLaidOutBitByBit : Prop :=
  ∀ (last : Bool) (w : BitWriter), w.bwCount < 8 → w.bwAcc.toNat < 2 ^ w.bwCount →
    (∀ (e : Encoder) (raw : List Byte), e.blockStart ≤ e.encPos → e.encPos ≤ e.hist.length →
      raw = (e.hist.drop e.blockStart).take (e.encPos - e.blockStart) → raw.length ≤ 65535 →
      writerBits (writeStored last e w) =
        writerBits w ++ [last, false, false] ++ List.replicate ((16 - (w.bwCount + 3)) % 8) false ++
          byteBits ((storedBlockBytes 0#8 raw).drop 1)) ∧
    (∀ tally : List Sym,
      writerBits (writeStatic last tally w) =
        writerBits w ++ [last, true, false] ++ compressedBits staticLitBits staticDistBits tally) ∧
    (∀ (t : BlockTrees) (tally : List Sym),
      writerBits (writeDynamic last t tally w) =
        writerBits w ++ [last, false, true] ++
          bitsOf 5 (t.lt.maxCode - 256) ++ bitsOf 5 t.dt.maxCode ++ bitsOf 4 (t.maxBlIndex - 3) ++
          ([16, 17, 18, 0, 8, 7, 9, 6, 10, 5, 11, 4, 12, 3, 13, 2, 14, 1, 15].take (t.maxBlIndex + 1)).flatMap
            (fun x => bitsOf 3 (at0 t.bt.table.len x)) ++
          clItemBits t.bt.table (clItems t.lt.table.len t.lt.maxCode) ++
          clItemBits t.bt.table (clItems t.dt.table.len t.dt.maxCode) ++
          compressedBits (codeBits t.lt.table) (codeBits t.dt.table) tally)

/-- R117, R116, R114, R107: EmitBlock writes the block in the encoding that ChooseType takes and starts the next block; a last
block is padded to a byte boundary. In STORE_ONLY mode the block is stored. Otherwise, of the three byte lengths, the
dynamic and the static one rounded up from their bits and the stored one with its 4 bytes, the least wins; on a tie the
order is stored, static, dynamic; and a block above 65535 bytes is not stored. R118, R55, R32: in STORE_ONLY mode with the
writer on a byte boundary and a block of at most 65535 bytes, EmitBlock appends to the pending bytes the header byte, LEN,
NLEN and the raw bytes `hist[block_start .. enc_pos)`. -/
def Obligations.EmitBlockWritesTheChosenEncoding : Prop :=
  (∀ (last : Bool) (s : State) (dynamicLen staticLen storedLen : Nat),
    dynamicLen = ((blockTrees s.enc.litFreq s.enc.distFreq).optLen.toNat + 3 + 7) / 8 →
    staticLen = ((blockTrees s.enc.litFreq s.enc.distFreq).staticLen.toNat + 3 + 7) / 8 →
    storedLen = s.enc.encPos - s.enc.blockStart →
    ∃ w : BitWriter,
      emitBlock last s =
        { s with
          writer := if last then alignWriter w else w
          enc := { s.enc with
                   litFreq := List.replicate 256 0 ++ [1] ++ List.replicate 29 0, distFreq := List.replicate 30 0
                   tally := [], blockStart := s.enc.encPos } } ∧
      (s.storeOnly = true → w = writeStored last s.enc s.writer) ∧
      (s.storeOnly = false →
        (storedLen ≤ 65535 → storedLen + 4 ≤ staticLen → storedLen + 4 ≤ dynamicLen →
          w = writeStored last s.enc s.writer) ∧
        (¬ (storedLen ≤ 65535 ∧ storedLen + 4 ≤ staticLen ∧ storedLen + 4 ≤ dynamicLen) →
          (staticLen ≤ dynamicLen → w = writeStatic last s.enc.tally s.writer) ∧
          (dynamicLen < staticLen →
            w = writeDynamic last (blockTrees s.enc.litFreq s.enc.distFreq) s.enc.tally s.writer)))) ∧
  (∀ (last : Bool) (s : State), s.storeOnly = true → s.writer.bwCount = 0 → s.writer.bwAcc = 0#8 →
    s.enc.encPos ≤ s.enc.hist.length → s.enc.blockStart ≤ s.enc.encPos → s.enc.encPos - s.enc.blockStart ≤ 65535 →
    emitBlock last s =
      { s with
        writer := { bwAcc := 0#8, bwCount := 0,
                    pending := s.writer.pending ++
                      storedBlockBytes (if last then 1#8 else 0#8)
                        ((s.enc.hist.drop s.enc.blockStart).take (s.enc.encPos - s.enc.blockStart)) }
        enc := { s.enc with
                 litFreq := List.replicate 256 0 ++ [1] ++ List.replicate 29 0, distFreq := List.replicate 30 0
                 tally := [], blockStart := s.enc.encPos } })

/-- R118, R161, R112: FINISH of a fresh STORE_ONLY stream whose input is shorter than TALLY_CAP writes one final stored
block that holds the input, and DONE is 1. -/
def Obligations.StoreOnlyFinishWritesOneStoredBlock : Prop :=
  ∀ (s : State) (cap : Arg) (raw : List Byte),
    s.wf → s.err = .none → s.mode = .encode → s.storeOnly = true → s.enc.phase = .running →
    s.enc.encPos = s.enc.hist.length → s.enc.tally = [] → s.writer.bwCount = 0 → s.writer.pending = [] →
    unreadBytes s = raw → raw.length < s.params.tallyCap → raw.length + 5 ≤ cap.toNat → cap.toNat ≤ s.params.outCap →
    ∃ t, exec (.finish cap) s = .next t ∧ t.err = .none ∧ t.enc.phase = .finished ∧
      t.result = resultReg (raw.length + 5) true ∧ outBytes t.mem (raw.length + 5) = storedBlockBytes 1#8 raw

/-- R58, R115, R121: the code-length symbols that the encoder counts and writes for `len[0..max_code]` stand for exactly
those lengths, every extra field fits its width, and the first symbol is no 16. -/
def Obligations.CodeLengthSymbolsStandForTheLengths : Prop :=
  ∀ (lens : List Nat) (maxCode : Nat), (∀ l ∈ lens, l ≤ 15) →
    expandItems [] (clItems lens maxCode) = lens.take (maxCode + 1) ∧
    (∀ it ∈ clItems lens maxCode,
      it.sym < 19 ∧ it.extraBits = Alphabet.cl.extraBits it.sym ∧ it.extra < 2 ^ it.extraBits) ∧
    (clItems lens maxCode).head?.map ClItem.sym ≠ some 16

/-- R62: `len_code(L)` is 285 for L = 258 and otherwise the largest code of 257..284 whose base is at most L; `dist_code(D)` is
the largest code whose base is at most D; the extra value fits the code's extra bits. R60, R61: the extra-bit counts are those
listed, and each base is the previous base plus 2 to the power of the previous extra-bit count, but for code 285, whose base is
258. -/
def Obligations.LengthAndDistanceCodesCoverTheRanges : Prop :=
  lenCode 258 = 285 ∧
  (∀ len, 3 ≤ len → len ≤ 257 →
    257 ≤ lenCode len ∧ lenCode len ≤ 284 ∧ lenBaseOf (lenCode len) ≤ len ∧
    ∀ s, 257 ≤ s → s ≤ 284 → lenBaseOf s ≤ len → s ≤ lenCode len) ∧
  (∀ len, 3 ≤ len → len ≤ 258 → len - lenBaseOf (lenCode len) < 2 ^ lenExtraOf (lenCode len)) ∧
  (∀ dist, 1 ≤ dist → dist ≤ 32768 →
    distCode dist ≤ 29 ∧ distBaseOf (distCode dist) ≤ dist ∧
    (∀ c, c ≤ 29 → distBaseOf c ≤ dist → c ≤ distCode dist) ∧
    dist - distBaseOf (distCode dist) < 2 ^ distExtraOf (distCode dist)) ∧
  (∀ s, 257 ≤ s → s ≤ 285 → lenExtraOf s =
    ([0, 0, 0, 0, 0, 0, 0, 0, 1, 1, 1, 1, 2, 2, 2, 2, 3, 3, 3, 3, 4, 4, 4, 4, 5, 5, 5, 5, 0] : List Nat).getD (s - 257) 0) ∧
  (lenBaseOf 257 = 3 ∧ lenBaseOf 285 = 258 ∧
    ∀ s, 257 ≤ s → s ≤ 283 → lenBaseOf (s + 1) = lenBaseOf s + 2 ^ lenExtraOf s) ∧
  (∀ c, c ≤ 29 → distExtraOf c = if c < 4 then 0 else c / 2 - 1) ∧
  (distBaseOf 0 = 1 ∧ ∀ c, c ≤ 28 → distBaseOf (c + 1) = distBaseOf c + 2 ^ distExtraOf c)

/-! ### Whole-machine rules -/

/-- R38, R53: no command but BUILD_TREE and RESET changes a byte of FREQ_TAB, LEN_TAB, CODE_TAB or BLCOUNT_TAB or a TREE_
register; R36: no command but RESET changes a byte of IN_BUF. No command, RESET included, changes the parameters, the
accesses still to come or the datum last read (the model's own elements: assumption logs 1 and 4). -/
def Obligations.CommandsLeaveTablesAndInputAlone : Prop :=
  ∀ (i : Instr) (s t : State), paramsLegal s.params = true → exec i s = .next t →
    ((∀ arg, i ≠ .reset arg) → (∀ al, i ≠ .buildTree al) →
      t.tree = s.tree ∧ ∀ a, a < inBase → Memory.read t.mem a = Memory.read s.mem a) ∧
    ((∀ arg, i ≠ .reset arg) →
      ∀ a, inBase ≤ a → a < inBase + s.params.inCap → Memory.read t.mem a = Memory.read s.mem a) ∧
    t.params = s.params ∧ t.bus = s.bus ∧ t.readData = s.readData

/-- R51: RESULT is written by the output commands, CONFIGURE and RESET only; R52, R15: MODE, STORE_ONLY and WBITS by
CONFIGURE and RESET only; R37: OUT_BUF by the output commands only (RESET leaves it unspecified). -/
def Obligations.OnlyTheNamedCommandsWriteTheRegisters : Prop :=
  ∀ (i : Instr) (s t : State), (∀ arg, i ≠ .reset arg) → exec i s = .next t →
    ((∀ m st w, i ≠ .configure m st w) → t.mode = s.mode ∧ t.storeOnly = s.storeOnly ∧ t.wbits = s.wbits) ∧
    ((∀ cap, i ≠ .produceOutput cap) → (∀ cap, i ≠ .flush cap) → (∀ cap, i ≠ .finish cap) →
      ((∀ m st w, i ≠ .configure m st w) → t.result = s.result) ∧
      ∀ a, outBase ≤ a → Memory.read t.mem a = Memory.read s.mem a)

/-- R154, R167: RESET is the only way out of an error: a step after which ERR is not what it was, from a state with an
error, executed a RESET word. -/
def Obligations.OnlyResetLeavesAnError : Prop :=
  ∀ s t : State, s.err ≠ .none → step s = .next t → t.err ≠ s.err →
    ∃ w rest, s.bus = .write 32 0#32 w :: rest ∧ w.toNat % 256 = 1 ∧ t.err = .none

/-- R33, R43, R113, R150, R182: the block never traps and every command completes: with legal parameters, from every state
whose input counters and configuration are in range, a step answers a next state. -/
def Obligations.NoStepStops : Prop :=
  ∀ s : State, paramsLegal s.params = true → InputInRange s → StreamConfigured s → StepsOn s

/-! ### Invariants -/

/-- R27, R175: every invariant holds of the reset state. -/
def Obligations.ResetMeetsEveryInvariant : Prop := State.reset.wf

/-- R16, R15, R51, R53: every step keeps the input counters in range, the configuration legal, and the reserved bits of RESULT
and TREE_MAX_CODE 0; R18: it keeps the bit writer's count below 8 and its unused bits 0. It keeps the two byte memories in
their canonical form, which is the model's own (assumption log 2). -/
def Obligations.StepKeepsInputConfigurationWriterAndMemory : Prop :=
  ∀ s t : State, step s = .next t →
    (InputInRange s → InputInRange t) ∧ (StreamConfigured s → StreamConfigured t) ∧
    (RegistersInRange s → RegistersInRange t) ∧ (WriterInRange s → WriterInRange t) ∧
    (MemoryCanonical s → MemoryCanonical t)

/-- R17, R66: every step keeps the bit cache's count and its unused bits, and the code lengths the decoder holds at most
15. -/
def Obligations.StepKeepsTheBitReader : Prop :=
  ∀ s t : State, ReaderInRange s → step s = .next t → ReaderInRange t

/-- R19, R77, R142: every step keeps `win_used` ≤ `win_filled` ≤ W, the cursor in the ring, and room for the back-reference
being read: the window's assertion cannot fire (R170). That outside a DECODE stream the ring lists nothing, so that no byte is
left outside the next stream's ring, is the MODEL'S CHOICE (assumption log 2, DESIGN CHOICE): R19 and R175 leave the contents
of `win` after RESET unspecified. -/
def Obligations.StepKeepsTheWindow : Prop :=
  ∀ s t : State, WindowInRange s → step s = .next t → WindowInRange t

/-- R20, R108, R109, R101: every step keeps the encoder's positions in order, the lookahead at most 262, the tally below
TALLY_CAP with every match in range, and a STORE_ONLY block's bytes equal to its symbols; and the frequencies equal to the
counts of the tally's symbols, so that none exceeds the tally's length by more than the end-of-block symbol's one. R109, R124,
R101, R104: it keeps the tally true to the history: the symbols tallied stand for the bytes `hist[block_start .. enc_pos)`. (That
a match of length L counts `len_code(L)` is assumption log 17, DEDUCED.) -/
def Obligations.StepKeepsTheEncoder : Prop :=
  ∀ s t : State, EncoderInRange s → step s = .next t → EncoderInRange t

/-- R21, R139 to R141: every step keeps the decoder's elements in their ranges. -/
def Obligations.StepKeepsTheDecoder : Prop :=
  ∀ s t : State, DecoderInRange s → step s = .next t → DecoderInRange t
end

