-- ==== Sys2Proof/Laws/State.lean ====
section
/-! SUPPORT. What each named update of the state leaves in each field, so that no proof unfolds a record update. -/

namespace Sys2Proof.Machine

/-! ### Errors and RESULT -/

@[simp] theorem raiseError_params (e : Err) (s : State) : (raiseError e s).params = s.params := rfl
@[simp] theorem raiseError_mode (e : Err) (s : State) : (raiseError e s).mode = s.mode := rfl
@[simp] theorem raiseError_storeOnly (e : Err) (s : State) : (raiseError e s).storeOnly = s.storeOnly := rfl
@[simp] theorem raiseError_wbits (e : Err) (s : State) : (raiseError e s).wbits = s.wbits := rfl
@[simp] theorem raiseError_err (e : Err) (s : State) : (raiseError e s).err = e := rfl
@[simp] theorem raiseError_result (e : Err) (s : State) : (raiseError e s).result = s.result := rfl
@[simp] theorem raiseError_input (e : Err) (s : State) : (raiseError e s).input = s.input := rfl
@[simp] theorem raiseError_reader (e : Err) (s : State) : (raiseError e s).reader = s.reader := rfl
@[simp] theorem raiseError_writer (e : Err) (s : State) : (raiseError e s).writer = s.writer := rfl
@[simp] theorem raiseError_window (e : Err) (s : State) : (raiseError e s).window = s.window := rfl
@[simp] theorem raiseError_enc (e : Err) (s : State) : (raiseError e s).enc = s.enc := rfl
@[simp] theorem raiseError_dec (e : Err) (s : State) : (raiseError e s).dec = s.dec := rfl
@[simp] theorem raiseError_tree (e : Err) (s : State) : (raiseError e s).tree = s.tree := rfl
@[simp] theorem raiseError_mem (e : Err) (s : State) : (raiseError e s).mem = s.mem := rfl
@[simp] theorem raiseError_bus (e : Err) (s : State) : (raiseError e s).bus = s.bus := rfl
@[simp] theorem raiseError_readData (e : Err) (s : State) : (raiseError e s).readData = s.readData := rfl

@[simp] theorem illegalCommand_params (s : State) : (illegalCommand s).params = s.params := rfl
@[simp] theorem illegalCommand_mode (s : State) : (illegalCommand s).mode = s.mode := rfl
@[simp] theorem illegalCommand_storeOnly (s : State) : (illegalCommand s).storeOnly = s.storeOnly := rfl
@[simp] theorem illegalCommand_wbits (s : State) : (illegalCommand s).wbits = s.wbits := rfl
@[simp] theorem illegalCommand_err (s : State) : (illegalCommand s).err = .illegalCommand := rfl
@[simp] theorem illegalCommand_result (s : State) : (illegalCommand s).result = s.result := rfl
@[simp] theorem illegalCommand_input (s : State) : (illegalCommand s).input = s.input := rfl
@[simp] theorem illegalCommand_reader (s : State) : (illegalCommand s).reader = s.reader := rfl
@[simp] theorem illegalCommand_writer (s : State) : (illegalCommand s).writer = s.writer := rfl
@[simp] theorem illegalCommand_window (s : State) : (illegalCommand s).window = s.window := rfl
@[simp] theorem illegalCommand_enc (s : State) : (illegalCommand s).enc = s.enc := rfl
@[simp] theorem illegalCommand_dec (s : State) : (illegalCommand s).dec = s.dec := rfl
@[simp] theorem illegalCommand_tree (s : State) : (illegalCommand s).tree = s.tree := rfl
@[simp] theorem illegalCommand_mem (s : State) : (illegalCommand s).mem = s.mem := rfl
@[simp] theorem illegalCommand_bus (s : State) : (illegalCommand s).bus = s.bus := rfl
@[simp] theorem illegalCommand_readData (s : State) : (illegalCommand s).readData = s.readData := rfl

@[simp] theorem outputEnd_params (n : Nat) (s : State) : (outputEnd n s).params = s.params := rfl
@[simp] theorem outputEnd_mode (n : Nat) (s : State) : (outputEnd n s).mode = s.mode := rfl
@[simp] theorem outputEnd_storeOnly (n : Nat) (s : State) : (outputEnd n s).storeOnly = s.storeOnly := rfl
@[simp] theorem outputEnd_wbits (n : Nat) (s : State) : (outputEnd n s).wbits = s.wbits := rfl
@[simp] theorem outputEnd_err (n : Nat) (s : State) : (outputEnd n s).err = s.err := rfl
@[simp] theorem outputEnd_result (n : Nat) (s : State) : (outputEnd n s).result = resultReg n (finished s) := rfl
@[simp] theorem outputEnd_input (n : Nat) (s : State) : (outputEnd n s).input = s.input := rfl
@[simp] theorem outputEnd_reader (n : Nat) (s : State) : (outputEnd n s).reader = s.reader := rfl
@[simp] theorem outputEnd_writer (n : Nat) (s : State) : (outputEnd n s).writer = s.writer := rfl
@[simp] theorem outputEnd_window (n : Nat) (s : State) : (outputEnd n s).window = s.window := rfl
@[simp] theorem outputEnd_enc (n : Nat) (s : State) : (outputEnd n s).enc = s.enc := rfl
@[simp] theorem outputEnd_dec (n : Nat) (s : State) : (outputEnd n s).dec = s.dec := rfl
@[simp] theorem outputEnd_tree (n : Nat) (s : State) : (outputEnd n s).tree = s.tree := rfl
@[simp] theorem outputEnd_mem (n : Nat) (s : State) : (outputEnd n s).mem = s.mem := rfl
@[simp] theorem outputEnd_bus (n : Nat) (s : State) : (outputEnd n s).bus = s.bus := rfl
@[simp] theorem outputEnd_readData (n : Nat) (s : State) : (outputEnd n s).readData = s.readData := rfl

/-! ### RESET and CONFIGURE -/

@[simp] theorem resetBlock_params (s : State) : (resetBlock s).params = s.params := rfl
@[simp] theorem resetBlock_mode (s : State) : (resetBlock s).mode = .idle := rfl
@[simp] theorem resetBlock_storeOnly (s : State) : (resetBlock s).storeOnly = false := rfl
@[simp] theorem resetBlock_wbits (s : State) : (resetBlock s).wbits = 0#4 := rfl
@[simp] theorem resetBlock_err (s : State) : (resetBlock s).err = .none := rfl
@[simp] theorem resetBlock_result (s : State) : (resetBlock s).result = 0#32 := rfl
@[simp] theorem resetBlock_input (s : State) : (resetBlock s).input = { inLen := 0, inPos := 0 } := rfl
@[simp] theorem resetBlock_reader (s : State) : (resetBlock s).reader = { brCache := 0#32, brCount := 0 } := rfl
@[simp] theorem resetBlock_writer (s : State) : (resetBlock s).writer = emptyWriter := rfl
@[simp] theorem resetBlock_window (s : State) :
    (resetBlock s).window = { win := [], winEnd := 0, winUsed := 0, winFilled := 0 } := rfl
@[simp] theorem resetBlock_enc (s : State) : (resetBlock s).enc = Encoder.reset := rfl
@[simp] theorem resetBlock_dec (s : State) : (resetBlock s).dec = Decoder.reset := rfl
@[simp] theorem resetBlock_tree (s : State) :
    (resetBlock s).tree = { maxCode := 0#32, optLen := 0#32, staticLen := 0#32 } := rfl
@[simp] theorem resetBlock_mem (s : State) : (resetBlock s).mem = [] := rfl
@[simp] theorem resetBlock_bus (s : State) : (resetBlock s).bus = s.bus := rfl
@[simp] theorem resetBlock_readData (s : State) : (resetBlock s).readData = s.readData := rfl

@[simp] theorem openStream_params (m : Mode) (st : Bool) (w : BitVec 4) (s : State) :
    (openStream m st w s).params = s.params := rfl
@[simp] theorem openStream_mode (m : Mode) (st : Bool) (w : BitVec 4) (s : State) : (openStream m st w s).mode = m := rfl
@[simp] theorem openStream_storeOnly (m : Mode) (st : Bool) (w : BitVec 4) (s : State) :
    (openStream m st w s).storeOnly = st := rfl
@[simp] theorem openStream_wbits (m : Mode) (st : Bool) (w : BitVec 4) (s : State) : (openStream m st w s).wbits = w := rfl
@[simp] theorem openStream_err (m : Mode) (st : Bool) (w : BitVec 4) (s : State) : (openStream m st w s).err = s.err := rfl
@[simp] theorem openStream_result (m : Mode) (st : Bool) (w : BitVec 4) (s : State) :
    (openStream m st w s).result = 0#32 := rfl
@[simp] theorem openStream_input (m : Mode) (st : Bool) (w : BitVec 4) (s : State) :
    (openStream m st w s).input = s.input := rfl
@[simp] theorem openStream_reader (m : Mode) (st : Bool) (w : BitVec 4) (s : State) :
    (openStream m st w s).reader = { brCache := 0#32, brCount := 0 } := rfl
@[simp] theorem openStream_writer (m : Mode) (st : Bool) (w : BitVec 4) (s : State) :
    (openStream m st w s).writer = s.writer := rfl
@[simp] theorem openStream_window (m : Mode) (st : Bool) (w : BitVec 4) (s : State) :
    (openStream m st w s).window = s.window := rfl
@[simp] theorem openStream_enc (m : Mode) (st : Bool) (w : BitVec 4) (s : State) : (openStream m st w s).enc = s.enc := rfl
@[simp] theorem openStream_dec (m : Mode) (st : Bool) (w : BitVec 4) (s : State) : (openStream m st w s).dec = s.dec := rfl
@[simp] theorem openStream_tree (m : Mode) (st : Bool) (w : BitVec 4) (s : State) :
    (openStream m st w s).tree = s.tree := rfl
@[simp] theorem openStream_mem (m : Mode) (st : Bool) (w : BitVec 4) (s : State) : (openStream m st w s).mem = s.mem := rfl
@[simp] theorem openStream_bus (m : Mode) (st : Bool) (w : BitVec 4) (s : State) : (openStream m st w s).bus = s.bus := rfl
@[simp] theorem openStream_readData (m : Mode) (st : Bool) (w : BitVec 4) (s : State) :
    (openStream m st w s).readData = s.readData := rfl

@[simp] theorem openEncoder_params (s : State) : (openEncoder s).params = s.params := rfl
@[simp] theorem openEncoder_mode (s : State) : (openEncoder s).mode = s.mode := rfl
@[simp] theorem openEncoder_storeOnly (s : State) : (openEncoder s).storeOnly = s.storeOnly := rfl
@[simp] theorem openEncoder_wbits (s : State) : (openEncoder s).wbits = s.wbits := rfl
@[simp] theorem openEncoder_err (s : State) : (openEncoder s).err = s.err := rfl
@[simp] theorem openEncoder_result (s : State) : (openEncoder s).result = s.result := rfl
@[simp] theorem openEncoder_input (s : State) : (openEncoder s).input = s.input := rfl
@[simp] theorem openEncoder_reader (s : State) : (openEncoder s).reader = s.reader := rfl
@[simp] theorem openEncoder_writer (s : State) : (openEncoder s).writer = emptyWriter := rfl
@[simp] theorem openEncoder_window (s : State) : (openEncoder s).window = s.window := rfl
@[simp] theorem openEncoder_enc (s : State) : (openEncoder s).enc = encInit s.enc := rfl
@[simp] theorem openEncoder_dec (s : State) : (openEncoder s).dec = s.dec := rfl
@[simp] theorem openEncoder_tree (s : State) : (openEncoder s).tree = s.tree := rfl
@[simp] theorem openEncoder_mem (s : State) : (openEncoder s).mem = s.mem := rfl
@[simp] theorem openEncoder_bus (s : State) : (openEncoder s).bus = s.bus := rfl
@[simp] theorem openEncoder_readData (s : State) : (openEncoder s).readData = s.readData := rfl

@[simp] theorem openDecoder_params (s : State) : (openDecoder s).params = s.params := rfl
@[simp] theorem openDecoder_mode (s : State) : (openDecoder s).mode = s.mode := rfl
@[simp] theorem openDecoder_storeOnly (s : State) : (openDecoder s).storeOnly = s.storeOnly := rfl
@[simp] theorem openDecoder_wbits (s : State) : (openDecoder s).wbits = s.wbits := rfl
@[simp] theorem openDecoder_err (s : State) : (openDecoder s).err = s.err := rfl
@[simp] theorem openDecoder_result (s : State) : (openDecoder s).result = s.result := rfl
@[simp] theorem openDecoder_input (s : State) : (openDecoder s).input = s.input := rfl
@[simp] theorem openDecoder_reader (s : State) : (openDecoder s).reader = s.reader := rfl
@[simp] theorem openDecoder_writer (s : State) : (openDecoder s).writer = s.writer := rfl
@[simp] theorem openDecoder_window (s : State) :
    (openDecoder s).window = { s.window with winEnd := 0, winUsed := 0, winFilled := 0 } := rfl
@[simp] theorem openDecoder_enc (s : State) : (openDecoder s).enc = s.enc := rfl
@[simp] theorem openDecoder_dec (s : State) : (openDecoder s).dec = Decoder.reset := rfl
@[simp] theorem openDecoder_tree (s : State) : (openDecoder s).tree = s.tree := rfl
@[simp] theorem openDecoder_mem (s : State) : (openDecoder s).mem = s.mem := rfl
@[simp] theorem openDecoder_bus (s : State) : (openDecoder s).bus = s.bus := rfl
@[simp] theorem openDecoder_readData (s : State) : (openDecoder s).readData = s.readData := rfl

/-! ### The bit reader and the drains -/

@[simp] theorem load_params (n : Nat) (s : State) : (load n s).params = s.params := rfl
@[simp] theorem load_mode (n : Nat) (s : State) : (load n s).mode = s.mode := rfl
@[simp] theorem load_storeOnly (n : Nat) (s : State) : (load n s).storeOnly = s.storeOnly := rfl
@[simp] theorem load_wbits (n : Nat) (s : State) : (load n s).wbits = s.wbits := rfl
@[simp] theorem load_err (n : Nat) (s : State) : (load n s).err = s.err := rfl
@[simp] theorem load_result (n : Nat) (s : State) : (load n s).result = s.result := rfl
theorem load_input (n : Nat) (s : State) : (load n s).input = (loadLoop s.mem n n s.input s.reader).1 := rfl
theorem load_reader (n : Nat) (s : State) : (load n s).reader = (loadLoop s.mem n n s.input s.reader).2 := rfl
@[simp] theorem load_writer (n : Nat) (s : State) : (load n s).writer = s.writer := rfl
@[simp] theorem load_window (n : Nat) (s : State) : (load n s).window = s.window := rfl
@[simp] theorem load_enc (n : Nat) (s : State) : (load n s).enc = s.enc := rfl
@[simp] theorem load_dec (n : Nat) (s : State) : (load n s).dec = s.dec := rfl
@[simp] theorem load_tree (n : Nat) (s : State) : (load n s).tree = s.tree := rfl
@[simp] theorem load_mem (n : Nat) (s : State) : (load n s).mem = s.mem := rfl
@[simp] theorem load_bus (n : Nat) (s : State) : (load n s).bus = s.bus := rfl
@[simp] theorem load_readData (n : Nat) (s : State) : (load n s).readData = s.readData := rfl

@[simp] theorem drainPending_params (cap written : Nat) (s : State) :
    (drainPending cap written s).2.params = s.params := rfl
@[simp] theorem drainPending_mode (cap written : Nat) (s : State) : (drainPending cap written s).2.mode = s.mode := rfl
@[simp] theorem drainPending_storeOnly (cap written : Nat) (s : State) :
    (drainPending cap written s).2.storeOnly = s.storeOnly := rfl
@[simp] theorem drainPending_wbits (cap written : Nat) (s : State) : (drainPending cap written s).2.wbits = s.wbits := rfl
@[simp] theorem drainPending_err (cap written : Nat) (s : State) : (drainPending cap written s).2.err = s.err := rfl
@[simp] theorem drainPending_result (cap written : Nat) (s : State) :
    (drainPending cap written s).2.result = s.result := rfl
@[simp] theorem drainPending_input (cap written : Nat) (s : State) : (drainPending cap written s).2.input = s.input := rfl
@[simp] theorem drainPending_reader (cap written : Nat) (s : State) :
    (drainPending cap written s).2.reader = s.reader := rfl
@[simp] theorem drainPending_writer (cap written : Nat) (s : State) :
    (drainPending cap written s).2.writer = { s.writer with pending := s.writer.pending.drop (min (cap - written) s.writer.pending.length) } := rfl
@[simp] theorem drainPending_window (cap written : Nat) (s : State) :
    (drainPending cap written s).2.window = s.window := rfl
@[simp] theorem drainPending_enc (cap written : Nat) (s : State) : (drainPending cap written s).2.enc = s.enc := rfl
@[simp] theorem drainPending_dec (cap written : Nat) (s : State) : (drainPending cap written s).2.dec = s.dec := rfl
@[simp] theorem drainPending_tree (cap written : Nat) (s : State) : (drainPending cap written s).2.tree = s.tree := rfl
@[simp] theorem drainPending_mem (cap written : Nat) (s : State) :
    (drainPending cap written s).2.mem = writeOut s.mem written (s.writer.pending.take (min (cap - written) s.writer.pending.length)) := rfl
@[simp] theorem drainPending_bus (cap written : Nat) (s : State) : (drainPending cap written s).2.bus = s.bus := rfl
@[simp] theorem drainPending_readData (cap written : Nat) (s : State) :
    (drainPending cap written s).2.readData = s.readData := rfl

@[simp] theorem drainWindow_params (cap written : Nat) (s : State) : (drainWindow cap written s).2.params = s.params := rfl
@[simp] theorem drainWindow_mode (cap written : Nat) (s : State) : (drainWindow cap written s).2.mode = s.mode := rfl
@[simp] theorem drainWindow_storeOnly (cap written : Nat) (s : State) :
    (drainWindow cap written s).2.storeOnly = s.storeOnly := rfl
@[simp] theorem drainWindow_wbits (cap written : Nat) (s : State) : (drainWindow cap written s).2.wbits = s.wbits := rfl
@[simp] theorem drainWindow_err (cap written : Nat) (s : State) : (drainWindow cap written s).2.err = s.err := rfl
@[simp] theorem drainWindow_result (cap written : Nat) (s : State) : (drainWindow cap written s).2.result = s.result := rfl
@[simp] theorem drainWindow_input (cap written : Nat) (s : State) : (drainWindow cap written s).2.input = s.input := rfl
@[simp] theorem drainWindow_reader (cap written : Nat) (s : State) : (drainWindow cap written s).2.reader = s.reader := rfl
@[simp] theorem drainWindow_writer (cap written : Nat) (s : State) : (drainWindow cap written s).2.writer = s.writer := rfl
@[simp] theorem drainWindow_window (cap written : Nat) (s : State) :
    (drainWindow cap written s).2.window = { s.window with winUsed := s.window.winUsed - min (cap - written) s.window.winUsed } := rfl
@[simp] theorem drainWindow_enc (cap written : Nat) (s : State) : (drainWindow cap written s).2.enc = s.enc := rfl
@[simp] theorem drainWindow_dec (cap written : Nat) (s : State) : (drainWindow cap written s).2.dec = s.dec := rfl
@[simp] theorem drainWindow_tree (cap written : Nat) (s : State) : (drainWindow cap written s).2.tree = s.tree := rfl
@[simp] theorem drainWindow_mem (cap written : Nat) (s : State) : (drainWindow cap written s).2.mem = writeOut s.mem written
      (oldestBytes (windowSize s.wbits) s.window (min (cap - written) s.window.winUsed)) := rfl
@[simp] theorem drainWindow_bus (cap written : Nat) (s : State) : (drainWindow cap written s).2.bus = s.bus := rfl
@[simp] theorem drainWindow_readData (cap written : Nat) (s : State) :
    (drainWindow cap written s).2.readData = s.readData := rfl

/-! ### The encoder -/

@[simp] theorem pullByte_params (s : State) : (pullByte s).params = s.params := rfl
@[simp] theorem pullByte_mode (s : State) : (pullByte s).mode = s.mode := rfl
@[simp] theorem pullByte_storeOnly (s : State) : (pullByte s).storeOnly = s.storeOnly := rfl
@[simp] theorem pullByte_wbits (s : State) : (pullByte s).wbits = s.wbits := rfl
@[simp] theorem pullByte_err (s : State) : (pullByte s).err = s.err := rfl
@[simp] theorem pullByte_result (s : State) : (pullByte s).result = s.result := rfl
@[simp] theorem pullByte_input (s : State) : (pullByte s).input = { s.input with inPos := s.input.inPos + 1 } := rfl
@[simp] theorem pullByte_reader (s : State) : (pullByte s).reader = s.reader := rfl
@[simp] theorem pullByte_writer (s : State) : (pullByte s).writer = s.writer := rfl
@[simp] theorem pullByte_window (s : State) : (pullByte s).window = s.window := rfl
@[simp] theorem pullByte_enc (s : State) :
    (pullByte s).enc = { s.enc with hist := s.enc.hist ++ [inByte s.mem s.input.inPos] } := rfl
@[simp] theorem pullByte_dec (s : State) : (pullByte s).dec = s.dec := rfl
@[simp] theorem pullByte_tree (s : State) : (pullByte s).tree = s.tree := rfl
@[simp] theorem pullByte_mem (s : State) : (pullByte s).mem = s.mem := rfl
@[simp] theorem pullByte_bus (s : State) : (pullByte s).bus = s.bus := rfl
@[simp] theorem pullByte_readData (s : State) : (pullByte s).readData = s.readData := rfl

@[simp] theorem emitBlock_params (last : Bool) (s : State) : (emitBlock last s).params = s.params := rfl
@[simp] theorem emitBlock_mode (last : Bool) (s : State) : (emitBlock last s).mode = s.mode := rfl
@[simp] theorem emitBlock_storeOnly (last : Bool) (s : State) : (emitBlock last s).storeOnly = s.storeOnly := rfl
@[simp] theorem emitBlock_wbits (last : Bool) (s : State) : (emitBlock last s).wbits = s.wbits := rfl
@[simp] theorem emitBlock_err (last : Bool) (s : State) : (emitBlock last s).err = s.err := rfl
@[simp] theorem emitBlock_result (last : Bool) (s : State) : (emitBlock last s).result = s.result := rfl
@[simp] theorem emitBlock_input (last : Bool) (s : State) : (emitBlock last s).input = s.input := rfl
@[simp] theorem emitBlock_reader (last : Bool) (s : State) : (emitBlock last s).reader = s.reader := rfl
@[simp] theorem emitBlock_window (last : Bool) (s : State) : (emitBlock last s).window = s.window := rfl
@[simp] theorem emitBlock_enc (last : Bool) (s : State) : (emitBlock last s).enc = initBlock s.enc := rfl
@[simp] theorem emitBlock_dec (last : Bool) (s : State) : (emitBlock last s).dec = s.dec := rfl
@[simp] theorem emitBlock_tree (last : Bool) (s : State) : (emitBlock last s).tree = s.tree := rfl
@[simp] theorem emitBlock_mem (last : Bool) (s : State) : (emitBlock last s).mem = s.mem := rfl
@[simp] theorem emitBlock_bus (last : Bool) (s : State) : (emitBlock last s).bus = s.bus := rfl
@[simp] theorem emitBlock_readData (last : Bool) (s : State) : (emitBlock last s).readData = s.readData := rfl

@[simp] theorem finishComplete_params (s : State) : (finishComplete s).params = s.params := rfl
@[simp] theorem finishComplete_mode (s : State) : (finishComplete s).mode = s.mode := rfl
@[simp] theorem finishComplete_storeOnly (s : State) : (finishComplete s).storeOnly = s.storeOnly := rfl
@[simp] theorem finishComplete_wbits (s : State) : (finishComplete s).wbits = s.wbits := rfl
@[simp] theorem finishComplete_err (s : State) : (finishComplete s).err = s.err := rfl
@[simp] theorem finishComplete_result (s : State) : (finishComplete s).result = s.result := rfl
@[simp] theorem finishComplete_input (s : State) : (finishComplete s).input = s.input := rfl
@[simp] theorem finishComplete_reader (s : State) : (finishComplete s).reader = s.reader := rfl
@[simp] theorem finishComplete_writer (s : State) : (finishComplete s).writer = (emitBlock true s).writer := rfl
@[simp] theorem finishComplete_window (s : State) : (finishComplete s).window = s.window := rfl
@[simp] theorem finishComplete_enc (s : State) : (finishComplete s).enc = { initBlock s.enc with phase := .finished } := rfl
@[simp] theorem finishComplete_dec (s : State) : (finishComplete s).dec = s.dec := rfl
@[simp] theorem finishComplete_tree (s : State) : (finishComplete s).tree = s.tree := rfl
@[simp] theorem finishComplete_mem (s : State) : (finishComplete s).mem = s.mem := rfl
@[simp] theorem finishComplete_bus (s : State) : (finishComplete s).bus = s.bus := rfl
@[simp] theorem finishComplete_readData (s : State) : (finishComplete s).readData = s.readData := rfl

/-! ### BUILD_TREE and the host accesses -/

@[simp] theorem buildTreeEffect_params (alpha : Alphabet) (s : State) : (buildTreeEffect alpha s).params = s.params := rfl
@[simp] theorem buildTreeEffect_mode (alpha : Alphabet) (s : State) : (buildTreeEffect alpha s).mode = s.mode := rfl
@[simp] theorem buildTreeEffect_storeOnly (alpha : Alphabet) (s : State) :
    (buildTreeEffect alpha s).storeOnly = s.storeOnly := rfl
@[simp] theorem buildTreeEffect_wbits (alpha : Alphabet) (s : State) : (buildTreeEffect alpha s).wbits = s.wbits := rfl
@[simp] theorem buildTreeEffect_err (alpha : Alphabet) (s : State) : (buildTreeEffect alpha s).err = s.err := rfl
@[simp] theorem buildTreeEffect_result (alpha : Alphabet) (s : State) : (buildTreeEffect alpha s).result = s.result := rfl
@[simp] theorem buildTreeEffect_input (alpha : Alphabet) (s : State) : (buildTreeEffect alpha s).input = s.input := rfl
@[simp] theorem buildTreeEffect_reader (alpha : Alphabet) (s : State) : (buildTreeEffect alpha s).reader = s.reader := rfl
@[simp] theorem buildTreeEffect_writer (alpha : Alphabet) (s : State) : (buildTreeEffect alpha s).writer = s.writer := rfl
@[simp] theorem buildTreeEffect_window (alpha : Alphabet) (s : State) : (buildTreeEffect alpha s).window = s.window := rfl
@[simp] theorem buildTreeEffect_enc (alpha : Alphabet) (s : State) : (buildTreeEffect alpha s).enc = s.enc := rfl
@[simp] theorem buildTreeEffect_dec (alpha : Alphabet) (s : State) : (buildTreeEffect alpha s).dec = s.dec := rfl
@[simp] theorem buildTreeEffect_bus (alpha : Alphabet) (s : State) : (buildTreeEffect alpha s).bus = s.bus := rfl
@[simp] theorem buildTreeEffect_readData (alpha : Alphabet) (s : State) :
    (buildTreeEffect alpha s).readData = s.readData := rfl

@[simp] theorem hostAccess_read (bits : Nat) (addr : BitVec 32) (s : State) :
    hostAccess (.read bits addr) s = { s with readData := readDatum s bits addr } := rfl

@[simp] theorem hostAccess_write (bits : Nat) (addr : BitVec 32) (v : Word) (s : State) :
    hostAccess (.write bits addr v) s = { s with mem := storeDatum s bits addr v } := rfl

@[simp] theorem withFetchWord_bus (s : State) (nbits w : Nat) :
    (s.withFetchWord nbits w).bus = .write 32 0#32 (tableWord nbits w) :: s.bus := rfl

/-! ### Parts of the state -/

@[simp] theorem initBlock_hist (e : Encoder) : (initBlock e).hist = e.hist := rfl
@[simp] theorem initBlock_encPos (e : Encoder) : (initBlock e).encPos = e.encPos := rfl
@[simp] theorem initBlock_blockStart (e : Encoder) : (initBlock e).blockStart = e.encPos := rfl
@[simp] theorem initBlock_tally (e : Encoder) : (initBlock e).tally = [] := rfl
@[simp] theorem initBlock_litFreq (e : Encoder) : (initBlock e).litFreq = initialLitFreq := rfl
@[simp] theorem initialLitFreq_length : initialLitFreq.length = 286 := List.length_set.trans List.length_replicate
theorem initialLitFreq_eq : initialLitFreq = List.replicate 256 0 ++ [1] ++ List.replicate 29 0 := by decide +kernel
@[simp] theorem initBlock_distFreq (e : Encoder) : (initBlock e).distFreq = List.replicate 30 0 := rfl
@[simp] theorem initBlock_phase (e : Encoder) : (initBlock e).phase = e.phase := rfl
@[simp] theorem encInit_eq_reset (e : Encoder) : encInit e = Encoder.reset := rfl

@[simp] theorem dropBits_brCache (n : Nat) (r : BitReader) : (dropBits n r).brCache = r.brCache >>> n := rfl
@[simp] theorem dropBits_brCount (n : Nat) (r : BitReader) : (dropBits n r).brCount = r.brCount - n := rfl

@[simp] theorem writeLiteral_winEnd (w : Nat) (b : Byte) (x : Window) :
    (writeLiteral w b x).winEnd = (x.winEnd + 1) % w := rfl
@[simp] theorem writeLiteral_winUsed (w : Nat) (b : Byte) (x : Window) : (writeLiteral w b x).winUsed = x.winUsed + 1 := rfl
@[simp] theorem writeLiteral_winFilled (w : Nat) (b : Byte) (x : Window) :
    (writeLiteral w b x).winFilled = min (x.winFilled + 1) w := rfl
@[simp] theorem writeLiteral_win (w : Nat) (b : Byte) (x : Window) :
    (writeLiteral w b x).win = Memory.write x.win x.winEnd b := rfl

@[simp] theorem putByte_bwCount (b : Byte) (w : BitWriter) : (putByte b w).bwCount = w.bwCount := rfl
@[simp] theorem putByteList_pending (bytes : List Byte) (w : BitWriter) :
    (putByteList bytes w).pending = w.pending ++ bytes := rfl
@[simp] theorem putByteList_bwCount (bytes : List Byte) (w : BitWriter) : (putByteList bytes w).bwCount = w.bwCount := rfl
@[simp] theorem putByteList_bwAcc (bytes : List Byte) (w : BitWriter) : (putByteList bytes w).bwAcc = w.bwAcc := rfl

end Sys2Proof.Machine
end

