-- ==== Sys2Proof/Laws/BitIO.lean ====
section
/-! SUPPORT. What the bit reader's operations can do: how many bits and bytes they take, and what they leave alone. -/

namespace Sys2Proof.Machine

/-- `Load` declares no new input. -/
theorem loadLoop_inLen (mem : Memory) (n : Nat) : ∀ (fuel : Nat) (inp : Input) (r : BitReader),
    (loadLoop mem n fuel inp r).1.inLen = inp.inLen := by
  intro fuel
  induction fuel with
  | zero => exact fun _ _ => rfl
  | succ fuel ih =>
    intro inp r
    simp only [loadLoop]
    split
    · rw [ih]
    · rfl

/-- `Load` only moves `in_pos` forward, and not past `in_len`. -/
theorem loadLoop_inPos (mem : Memory) (n : Nat) : ∀ (fuel : Nat) (inp : Input) (r : BitReader),
    inp.inPos ≤ (loadLoop mem n fuel inp r).1.inPos ∧
    (inp.inPos ≤ inp.inLen → (loadLoop mem n fuel inp r).1.inPos ≤ inp.inLen) := by
  intro fuel
  induction fuel with
  | zero => exact fun _ _ => ⟨Nat.le_refl _, id⟩
  | succ fuel ih =>
    intro inp r
    simp only [loadLoop]
    split
    · rename_i h
      have := ih { inp with inPos := inp.inPos + 1 }
        { brCache := r.brCache ||| ((inByte mem inp.inPos).setWidth 32 <<< r.brCount), brCount := r.brCount + 8 }
      have h1 : inp.inPos + 1 ≤ _ := this.1
      exact ⟨by omega, fun _ => this.2 h.2⟩
    · exact ⟨Nat.le_refl _, id⟩

/-- `Load` loses no bit and gains none: what it caches it consumes. -/
theorem loadLoop_bits (mem : Memory) (n : Nat) : ∀ (fuel : Nat) (inp : Input) (r : BitReader),
    (loadLoop mem n fuel inp r).2.brCount + 8 * (inp.inLen - (loadLoop mem n fuel inp r).1.inPos) =
      r.brCount + 8 * (inp.inLen - inp.inPos) := by
  intro fuel
  induction fuel with
  | zero => exact fun _ _ => rfl
  | succ fuel ih =>
    intro inp r
    simp only [loadLoop]
    split
    · rename_i h
      have := ih { inp with inPos := inp.inPos + 1 }
        { brCache := r.brCache ||| ((inByte mem inp.inPos).setWidth 32 <<< r.brCount), brCount := r.brCount + 8 }
      simp only at this
      omega
    · rfl

/-- R66: the cache never holds more than n + 7 bits after a pull. -/
theorem loadLoop_brCount_le (mem : Memory) (n : Nat) : ∀ (fuel : Nat) (inp : Input) (r : BitReader),
    r.brCount ≤ (loadLoop mem n fuel inp r).2.brCount ∧
    (loadLoop mem n fuel inp r).2.brCount ≤ max r.brCount (n + 7) := by
  intro fuel
  induction fuel with
  | zero => exact fun _ _ => ⟨Nat.le_refl _, Nat.le_max_left _ _⟩
  | succ fuel ih =>
    intro inp r
    simp only [loadLoop]
    split
    · rename_i h
      have := ih { inp with inPos := inp.inPos + 1 }
        { brCache := r.brCache ||| ((inByte mem inp.inPos).setWidth 32 <<< r.brCount), brCount := r.brCount + 8 }
      simp only at this
      omega
    · exact ⟨Nat.le_refl _, Nat.le_max_left _ _⟩

/-- `Load(n)` ends with n bits in the cache or with the input exhausted, as long as its turns reach that far. -/
theorem loadLoop_enough (mem : Memory) (n : Nat) : ∀ (fuel : Nat) (inp : Input) (r : BitReader),
    n ≤ r.brCount + 8 * fuel →
    n ≤ (loadLoop mem n fuel inp r).2.brCount ∨ inp.inLen ≤ (loadLoop mem n fuel inp r).1.inPos := by
  intro fuel
  induction fuel with
  | zero => exact fun _ _ h => .inl h
  | succ fuel ih =>
    intro inp r h
    simp only [loadLoop]
    split
    · exact ih { inp with inPos := inp.inPos + 1 }
        { brCache := r.brCache ||| ((inByte mem inp.inPos).setWidth 32 <<< r.brCount), brCount := r.brCount + 8 }
        (by simp only; omega)
    · rename_i hn
      simp only
      omega

/-- `Load(n)` as one statement about the state (R66). -/
theorem load_spec (n : Nat) (s : State) :
    (load n s).input.inLen = s.input.inLen ∧ s.input.inPos ≤ (load n s).input.inPos ∧
    (s.input.inPos ≤ s.input.inLen → (load n s).input.inPos ≤ s.input.inLen) ∧
    unreadBits (load n s) = unreadBits s ∧ s.reader.brCount ≤ (load n s).reader.brCount ∧
    (load n s).reader.brCount ≤ max s.reader.brCount (n + 7) ∧
    (n ≤ (load n s).reader.brCount ∨ s.input.inLen ≤ (load n s).input.inPos) := by
  have hb := loadLoop_bits s.mem n n s.input s.reader
  have hl := loadLoop_inLen s.mem n n s.input s.reader
  have hp := loadLoop_inPos s.mem n n s.input s.reader
  have hc := loadLoop_brCount_le s.mem n n s.input s.reader
  have he := loadLoop_enough s.mem n n s.input s.reader (by omega)
  refine ⟨hl, hp.1, hp.2, ?_, hc.1, hc.2, he⟩
  simp only [unreadBits, load_reader, load_input, hl]
  exact hb

/-- `Load(n)` with n bits already cached does nothing (R66). -/
theorem load_of_cached {n : Nat} {s : State} (h : n ≤ s.reader.brCount) : load n s = s := by
  cases n with
  | zero => rfl
  | succ n =>
    have : ¬ (s.reader.brCount < n + 1 ∧ s.input.inPos < s.input.inLen) := by omega
    simp only [load, loadLoop, if_neg this]

/-- Everything `GetBits(n)` can do (R68): take n bits, or find too few and keep what `Load(n)` cached. -/
theorem getBits_cases (n : Nat) (s : State) :
    (n ≤ (load n s).reader.brCount ∧
      getBits n s = (some ((load n s).reader.brCache.toNat % 2 ^ n),
        { load n s with reader := dropBits n (load n s).reader })) ∨
    ((load n s).reader.brCount < n ∧ getBits n s = (none, load n s)) := by
  unfold getBits
  by_cases h : n ≤ (load n s).reader.brCount
  · exact .inl ⟨h, if_pos h⟩
  · exact .inr ⟨by omega, if_neg h⟩

/-- The value `GetBits(n)` returns has n bits. -/
theorem getBits_lt {n v : Nat} {s t : State} (h : getBits n s = (some v, t)) : v < 2 ^ n := by
  rcases getBits_cases n s with ⟨-, he⟩ | ⟨-, he⟩
  · rw [he] at h
    cases h
    exact Nat.mod_lt _ (Nat.two_pow_pos n)
  · rw [he] at h
    cases h

/-- `GetBits(0)` returns 0, consumes nothing and never returns NONE (R68). -/
theorem getBits_zero (s : State) : getBits 0 s = (some 0, s) := by
  simp [getBits, load_of_cached, dropBits, Nat.mod_one]

/-- Everything `DecodeSym(T)` can do (R129). -/
theorem decodeSym_cases (t : DecTable) (s : State) :
    (∃ l sym, findCode t (load t.lmax s).reader (min (load t.lmax s).reader.brCount 15) 1 0 = some (l, sym) ∧
      decodeSym t s = (.symbol sym, { load t.lmax s with reader := dropBits l (load t.lmax s).reader })) ∨
    (findCode t (load t.lmax s).reader (min (load t.lmax s).reader.brCount 15) 1 0 = none ∧
      ((t.lmax ≤ (load t.lmax s).reader.brCount ∧ decodeSym t s = (.badCode, load t.lmax s)) ∨
       ((load t.lmax s).reader.brCount < t.lmax ∧ decodeSym t s = (.needIn, load t.lmax s)))) := by
  unfold decodeSym
  cases hf : findCode t (load t.lmax s).reader (min (load t.lmax s).reader.brCount 15) 1 0 with
  | some p => exact .inl ⟨p.1, p.2, rfl, by simp [hf]⟩
  | none =>
    refine .inr ⟨rfl, ?_⟩
    by_cases h : t.lmax ≤ (load t.lmax s).reader.brCount
    · exact .inl ⟨h, by simp [hf, h]⟩
    · exact .inr ⟨by omega, by simp [hf, h]⟩

/-- A code found takes at least one bit, and no more than are cached. -/
theorem findCode_length (t : DecTable) (r : BitReader) : ∀ (fuel l c : Nat) {l' sym : Nat},
    findCode t r fuel l c = some (l', sym) → l ≤ l' ∧ l' < l + fuel := by
  intro fuel
  induction fuel with
  | zero => intro l c l' sym h; simp [findCode] at h
  | succ fuel ih =>
    intro l c l' sym h
    simp only [findCode] at h
    split at h
    · cases h
      omega
    · have := ih _ _ h
      omega

end Sys2Proof.Machine
end

