-- ==== Sys2Proof/Laws/Decoder.lean ====
section
/-! SUPPORT. What one step of the decoder can do (R131 to R149), what it leaves alone, and the inductions over its driver
(R150). -/

namespace Sys2Proof.Machine

/-- `GetBits` consumes input and changes nothing else. -/
theorem getBits_consuming {n : Nat} {o : Option Nat} {s t : State} (h : getBits n s = (o, t)) : t = s.consuming t := by
  rcases getBits_cases n s with ⟨-, he⟩ | ⟨-, he⟩ <;> (rw [he] at h; cases h; rfl)

/-- `DecodeSym` consumes input and changes nothing else. -/
theorem decodeSym_consuming {table : DecTable} {o : SymOut} {s t : State} (h : decodeSym table s = (o, t)) :
    t = s.consuming t := by
  rcases decodeSym_cases table s with ⟨_, _, -, he⟩ | ⟨-, ⟨-, he⟩ | ⟨-, he⟩⟩ <;> (rw [he] at h; cases h; rfl)

/-- A state that reads bits makes progress only with its bits read. -/
theorem withBits_ok {n : Nat} {f : Nat → State → StepOut × State} {s t : State} (h : withBits n f s = (.ok, t)) :
    ∃ v s', getBits n s = (some v, s') ∧ f v (s.consuming s') = (.ok, t) := by
  unfold withBits at h
  split at h
  · cases h
  · rename_i v s' hg
    exact ⟨v, s', hg, getBits_consuming hg ▸ h⟩

/-- A state that reads a symbol makes progress only with its symbol read. -/
theorem withSym_ok {table : DecTable} {f : Nat → State → StepOut × State} {s t : State}
    (h : withSym table f s = (.ok, t)) :
    ∃ v s', decodeSym table s = (.symbol v, s') ∧ f v (s.consuming s') = (.ok, t) := by
  unfold withSym at h
  split at h
  · cases h
  · cases h
  · rename_i v s' hg
    exact ⟨v, s', hg, decodeSym_consuming hg ▸ h⟩

/-- Everything a state that reads bits can do (R133): stall, or go on with the bits read. -/
theorem withBits_cases (n : Nat) (f : Nat → State → StepOut × State) (s : State) :
    ((load n s).reader.brCount < n ∧ withBits n f s = (.needIn, load n s)) ∨
    (n ≤ (load n s).reader.brCount ∧ ∃ v, v < 2 ^ n ∧
      withBits n f s = f v { load n s with reader := dropBits n (load n s).reader }) := by
  rcases getBits_cases n s with ⟨hn, he⟩ | ⟨hn, he⟩
  · exact .inr ⟨hn, _, getBits_lt he, by rw [withBits, he]⟩
  · exact .inl ⟨hn, by rw [withBits, he]⟩

/-- Everything a state that reads a symbol can do (R129, R133). -/
theorem withSym_cases (t : DecTable) (f : Nat → State → StepOut × State) (s : State) :
    ((load t.lmax s).reader.brCount < t.lmax ∧ withSym t f s = (.needIn, load t.lmax s)) ∨
    (withSym t f s = (.raised .invalidHuffmanTable, load t.lmax s)) ∨
    (∃ l v, 1 ≤ l ∧ l ≤ (load t.lmax s).reader.brCount ∧
      withSym t f s = f v { load t.lmax s with reader := dropBits l (load t.lmax s).reader }) := by
  rcases decodeSym_cases t s with ⟨l, v, hf, he⟩ | ⟨-, ⟨-, he⟩ | ⟨hn, he⟩⟩
  · have hl := findCode_length t _ _ _ _ hf
    exact .inr (.inr ⟨l, v, hl.1, by omega, by rw [withSym, he]⟩)
  · exact .inr (.inl (by rw [withSym, he]))
  · exact .inl ⟨hn, by rw [withSym, he]⟩

/-- What a step of the decoder leaves alone: everything but `in_pos`, the bit cache, the window and the decoder, and of the
decoder `eoi`. -/
def DecoderFrame (s t : State) : Prop :=
  t = { s with input := { s.input with inPos := t.input.inPos }, reader := t.reader, window := t.window, dec := t.dec } ∧
  t.dec.eoi = s.dec.eoi

theorem DecoderFrame.refl (s : State) : DecoderFrame s s := ⟨rfl, rfl⟩

theorem DecoderFrame.trans {s t u : State} (h : DecoderFrame s t) (h' : DecoderFrame t u) : DecoderFrame s u := by
  refine ⟨?_, h'.2.trans h.2⟩
  rw [h'.1, h.1]

theorem load_frame (n : Nat) (s : State) : DecoderFrame s (load n s) := by
  refine ⟨?_, rfl⟩
  have hl : (load n s).input = { s.input with inPos := (load n s).input.inPos } := by
    have := (load_spec n s).1
    cases h : (load n s).input
    simp_all
  exact congrArg (fun i => ({ s with input := i, reader := (load n s).reader } : State)) hl

/-- A change of the reader, the window and the decoder that keeps `eoi` is inside the frame. -/
theorem DecoderFrame.of_update (s : State) (r : BitReader) (w : Window) (d : Decoder) (h : d.eoi = s.dec.eoi) :
    DecoderFrame s { s with reader := r, window := w, dec := d } := ⟨rfl, h⟩

theorem withBits_frame {n : Nat} {f : Nat → State → StepOut × State} (hf : ∀ v s, DecoderFrame s (f v s).2) (s : State) :
    DecoderFrame s (withBits n f s).2 := by
  rcases withBits_cases n f s with ⟨-, he⟩ | ⟨-, v, -, he⟩
  · rw [he]
    exact load_frame n s
  · rw [he]
    exact ((load_frame n s).trans (DecoderFrame.of_update _ _ _ _ rfl)).trans (hf v _)

theorem withSym_frame {t : DecTable} {f : Nat → State → StepOut × State} (hf : ∀ v s, DecoderFrame s (f v s).2) (s : State) :
    DecoderFrame s (withSym t f s).2 := by
  rcases withSym_cases t f s with ⟨-, he⟩ | he | ⟨l, v, -, -, he⟩
  · rw [he]
    exact load_frame _ s
  · rw [he]
    exact load_frame _ s
  · rw [he]
    exact ((load_frame _ s).trans (DecoderFrame.of_update _ _ _ _ rfl)).trans (hf v _)

theorem blockTypeRead_frame (v : Nat) (s : State) : DecoderFrame s (blockTypeRead v s).2 := by
  unfold blockTypeRead
  split
  · exact ⟨rfl, rfl⟩
  · split
    · exact ⟨rfl, rfl⟩
    · split <;> exact ⟨rfl, rfl⟩

theorem codeLenTable_frame (s : State) : DecoderFrame s (codeLenTable s).2 := by
  unfold codeLenTable
  split <;> exact ⟨rfl, rfl⟩

theorem buildTables_frame (s : State) : DecoderFrame s (buildTables s).2 := by
  unfold buildTables
  split
  · exact ⟨rfl, rfl⟩
  · split
    · exact ⟨rfl, rfl⟩
    · simp only
      split <;> exact ⟨rfl, rfl⟩

theorem treeCodeRead_frame (v : Nat) (s : State) : DecoderFrame s (treeCodeRead v s).2 := by
  unfold treeCodeRead
  split
  · exact ⟨rfl, rfl⟩
  · split <;> exact ⟨rfl, rfl⟩

theorem litSymRead_frame (v : Nat) (s : State) : DecoderFrame s (litSymRead v s).2 := by
  unfold litSymRead
  split
  · exact ⟨rfl, rfl⟩
  · split
    · exact ⟨rfl, rfl⟩
    · split <;> exact ⟨rfl, rfl⟩

theorem copyMatch_frame (dist : Nat) (s : State) : DecoderFrame s (copyMatch dist s).2 := by
  unfold copyMatch
  split <;> exact ⟨rfl, rfl⟩

/-- The frame of `DecStep()`. -/
theorem decStep_frame (s : State) : DecoderFrame s (decStep s).2 := by
  unfold decStep
  split
  · exact withBits_frame (fun _ _ => ⟨rfl, rfl⟩) s
  · exact withBits_frame blockTypeRead_frame s
  · exact withBits_frame (fun v s => by dsimp only; split <;> exact ⟨rfl, rfl⟩) s
  · exact withBits_frame (fun v s => by dsimp only; split <;> exact ⟨rfl, rfl⟩) s
  · exact withBits_frame (fun _ _ => ⟨rfl, rfl⟩) s
  · refine withBits_frame (fun v s => ?_) s
    dsimp only
    split
    · exact (DecoderFrame.of_update s s.reader s.window _ rfl).trans (codeLenTable_frame _)
    · exact ⟨rfl, rfl⟩
  · unfold decReadingTreeCodes
    split
    · exact buildTables_frame s
    · exact withSym_frame treeCodeRead_frame s
  · exact withBits_frame (fun v s => by dsimp only; split <;> exact ⟨rfl, rfl⟩) s
  · unfold decDecodeTop
    split
    · exact DecoderFrame.refl s
    · exact withSym_frame litSymRead_frame s
  · exact withBits_frame (fun _ _ => ⟨rfl, rfl⟩) s
  · exact withSym_frame (fun v s => by dsimp only; split <;> exact ⟨rfl, rfl⟩) s
  · exact withBits_frame (fun v s => copyMatch_frame _ s) s
  · exact ⟨rfl, rfl⟩
  · exact withBits_frame (fun _ _ => ⟨rfl, rfl⟩) s
  · exact withBits_frame (fun _ _ => ⟨rfl, rfl⟩) s
  · exact withBits_frame (fun _ _ => ⟨rfl, rfl⟩) s
  · exact withBits_frame (fun v s => by dsimp only; split <;> exact ⟨rfl, rfl⟩) s
  · unfold decDecodingUncompressed
    split
    · exact ⟨rfl, rfl⟩
    · split
      · exact DecoderFrame.refl s
      · exact withBits_frame (fun _ _ => ⟨rfl, rfl⟩) s
  · exact DecoderFrame.refl s

/-- The induction over `repeat r <- DecStep() until r != OK`: what every step keeps, the steps keep. -/
theorem runSteps_induction (P : State → Prop) (hstep : ∀ s, P s → P (decStep s).2) :
    ∀ (fuel : Nat) (s : State) (r : StepOut × State), P s → runSteps fuel s = some r → P r.2 := by
  intro fuel
  induction fuel with
  | zero => intro _ _ _ h; cases h
  | succ fuel ih =>
    intro s r hs h
    simp only [runSteps] at h
    split at h
    · exact ih _ _ (hstep s hs) h
    · cases h
      exact hstep s hs

/-- `runSteps` never ends with OK. -/
theorem runSteps_ne_ok : ∀ (fuel : Nat) (s : State) (r : StepOut × State), runSteps fuel s = some r → r.1 ≠ .ok := by
  intro fuel
  induction fuel with
  | zero => intro _ _ h; cases h
  | succ fuel ih =>
    intro s r h
    simp only [runSteps] at h
    split at h
    · exact ih _ _ h
    · rename_i hne
      cases h
      exact hne

/-- The induction over `DecodeRun`: what every drain and every step keeps, the run keeps. -/
theorem decodeLoop_induction (cap : Nat) (P : State → Prop)
    (hdrain : ∀ written s, P s → P (drainWindow cap written s).2) (hstep : ∀ s, P s → P (decStep s).2) :
    ∀ (fuel written : Nat) (s : State) (e : RunEnd), P s → decodeLoop cap fuel written s = some e → P e.state := by
  intro fuel
  induction fuel with
  | zero => intro _ _ _ _ h; cases h
  | succ fuel ih =>
    intro written s e hs h
    simp only [decodeLoop] at h
    split at h
    · split at h
      · cases h
      · rename_i hr
        cases h
        exact runSteps_induction P hstep _ _ _ hs hr
      · rename_i r u _ hr
        have hu : P u := runSteps_induction P hstep _ _ _ hs hr
        split at h
        · cases h
          exact hdrain _ _ hu
        · exact ih _ _ _ (hdrain _ _ hu) h
    · cases h
      exact hs

end Sys2Proof.Machine
end

