-- ==== Sys2Proof/Laws/Encoder.lean ====
section
/-! SUPPORT. What one step of the encoder can do (R110), what it leaves alone, and the induction over its driver (R113). -/

namespace Sys2Proof.Machine

/-! ### Frequencies -/

@[simp] theorem addAt_length (xs : List Nat) (i n : Nat) : (addAt xs i n).length = xs.length := List.length_set

/-- A count inside the array grows by what is added to it, and by nothing if something is added elsewhere. -/
theorem at0_addAt {xs : List Nat} {i : Nat} (h : i < xs.length) (n x : Nat) :
    at0 (addAt xs i n) x = at0 xs x + if x = i then n else 0 := by
  simp only [at0, addAt, List.getD_eq_getElem?_getD, List.getElem?_set]
  by_cases hx : x = i
  · subst hx
    simp [h]
  · simp [hx, Ne.symm hx]

/-- An addition raises no count above the old bound plus what is added. -/
theorem addAt_le {xs : List Nat} {b : Nat} (h : ∀ x ∈ xs, x ≤ b) (i n : Nat) : ∀ x ∈ addAt xs i n, x ≤ b + n := by
  intro x hx
  rcases List.mem_or_eq_of_mem_set hx with hx | rfl
  · exact Nat.le_add_right_of_le (h x hx)
  · refine Nat.add_le_add_right ?_ n
    by_cases hi : i < xs.length
    · have he : at0 xs i = xs[i] := by simp [at0, hi]
      exact he ▸ h _ (List.getElem_mem hi)
    · have he : at0 xs i = 0 := by simp [at0, Nat.le_of_not_lt hi]
      omega

/-- The counts at the start of a block: 1 for the end-of-block symbol, 0 for the others. -/
theorem at0_initialLitFreq (x : Nat) : at0 initialLitFreq x = if x = 256 then 1 else 0 := by
  simp only [at0, initialLitFreq, List.getD_eq_getElem?_getD, List.getElem?_set, List.length_replicate]
  by_cases hx : 256 = x
  · subst hx
    simp
  · rw [if_neg hx, if_neg (Ne.symm hx), List.getElem?_replicate]
    split <;> rfl

/-- No count is above 1 at the start of a block. -/
theorem initialLitFreq_le : ∀ x ∈ initialLitFreq, x ≤ 1 := by
  intro x hx
  rcases List.mem_or_eq_of_mem_set hx with hx | rfl
  · exact (List.eq_of_mem_replicate hx).le.trans (Nat.zero_le 1)
  · exact Nat.le_refl 1

/-! ### What a tally stands for -/

/-- One symbol more stands for its bytes after those of the others. -/
theorem expandSymbols_append (ys zs : List Sym) : ∀ out : List Byte,
    expandSymbols out (ys ++ zs) = expandSymbols (expandSymbols out ys) zs := by
  induction ys with
  | nil => intro out; rfl
  | cons y ys ih => intro out; cases y <;> exact ih _

/-- A true match extends a prefix of the history by its length. -/
theorem copyBack_take {hist : List Byte} {dist : Nat} (hd : 1 ≤ dist) : ∀ (len p : Nat), dist ≤ p →
    p + len ≤ hist.length → (∀ i, i < len → hist.getD (p - dist + i) 0#8 = hist.getD (p + i) 0#8) →
    copyBack len dist (hist.take p) = hist.take (p + len) := by
  intro len
  induction len with
  | zero => intro p _ _ _; rfl
  | succ len ih =>
    intro p hp hl hm
    have hlt : p < hist.length := by omega
    have h0 : hist.getD (p - dist) 0#8 = hist[p] := by simpa [hlt] using hm 0 (Nat.succ_pos len)
    have hb : (hist.take p).getD ((hist.take p).length - dist) 0#8 = hist[p] := by
      rw [← h0, List.length_take_of_le hlt.le]
      simp only [List.getD_eq_getElem?_getD]
      rw [List.getElem?_take_of_lt (by omega)]
    have hs : ∀ i, i < len → hist.getD (p + 1 - dist + i) 0#8 = hist.getD (p + 1 + i) 0#8 := by
      intro i hi
      have := hm (i + 1) (Nat.succ_lt_succ hi)
      rwa [show p - dist + (i + 1) = p + 1 - dist + i by omega, show p + (i + 1) = p + 1 + i by omega] at this
    rw [copyBack, hb, List.take_concat_get' hist p hlt, ih (p + 1) (by omega) (by omega) hs]
    exact congrArg hist.take (by omega)

/-! ### One step -/

/-- Everything `EncStep()` can do (R110), with the guards of each action. -/
theorem encStep_cases {s t : State} (h : encStep s = some t) :
    (lookahead s.enc < minLookahead ∧ s.input.inPos ≠ s.input.inLen ∧ t = pullByte s) ∨
    (0 < lookahead s.enc ∧ (minLookahead ≤ lookahead s.enc ∨ s.input.inPos = s.input.inLen) ∧ t = tallyStep s) ∨
    (s.enc.phase = .flushing ∧ lookahead s.enc = 0 ∧ s.input.inPos = s.input.inLen ∧ t = flushComplete s) ∨
    (s.enc.phase = .finishing ∧ lookahead s.enc = 0 ∧ s.input.inPos = s.input.inLen ∧ t = finishComplete s) := by
  simp only [encStep] at h
  split at h
  · rename_i hg
    refine .inl ⟨hg.1, ?_, by simpa using h.symm⟩
    simpa [needsInput] using hg.2
  · split at h
    · rename_i hg
      refine .inr (.inl ⟨?_, ?_, by simpa using h.symm⟩)
      · rcases hg with hg | hg
        · exact Nat.lt_of_lt_of_le (by decide) hg
        · exact hg.1
      · rcases hg with hg | hg
        · exact .inl hg
        · exact .inr (by simpa [needsInput] using hg.2.2)
    · split at h
      · rename_i hg
        exact .inr (.inr (.inl ⟨hg.1, hg.2.1, by simpa [needsInput] using hg.2.2, by simpa using h.symm⟩))
      · split at h
        · rename_i hg
          exact .inr (.inr (.inr ⟨hg.1, hg.2.1, by simpa [needsInput] using hg.2.2, by simpa using h.symm⟩))
        · cases h

/-- What a step of the encoder leaves alone: everything but `in_pos`, the bit writer and the encoder. -/
def EncoderFrame (s t : State) : Prop :=
  t = { s with input := { s.input with inPos := t.input.inPos }, writer := t.writer, enc := t.enc }

theorem EncoderFrame.refl (s : State) : EncoderFrame s s := rfl

theorem EncoderFrame.trans {s t u : State} (h : EncoderFrame s t) (h' : EncoderFrame t u) : EncoderFrame s u := by
  unfold EncoderFrame at *
  rw [h'] at ⊢
  rw [h]

theorem pullByte_frame (s : State) : EncoderFrame s (pullByte s) := rfl

theorem emitBlock_frame (last : Bool) (s : State) : EncoderFrame s (emitBlock last s) := rfl

theorem tallyStep_frame (s : State) : EncoderFrame s (tallyStep s) := by
  unfold tallyStep
  simp only
  split <;> rfl

theorem flushComplete_frame (s : State) : EncoderFrame s (flushComplete s) := by
  unfold flushComplete
  simp only
  split <;> rfl

theorem finishComplete_frame (s : State) : EncoderFrame s (finishComplete s) := rfl

/-- The frame of `EncStep()`. -/
theorem encStep_frame {s t : State} (h : encStep s = some t) : EncoderFrame s t := by
  rcases encStep_cases h with ⟨-, -, rfl⟩ | ⟨-, -, rfl⟩ | ⟨-, -, -, rfl⟩ | ⟨-, -, -, rfl⟩
  · exact pullByte_frame s
  · exact tallyStep_frame s
  · exact flushComplete_frame s
  · exact finishComplete_frame s

/-- The induction over `DeflateRun`: what every drain and every step keeps, the run keeps. -/
theorem deflateLoop_induction (cap : Nat) (P : State → Prop)
    (hdrain : ∀ written s, P s → P (drainPending cap written s).2) (hstep : ∀ s t, P s → encStep s = some t → P t) :
    ∀ (fuel written : Nat) (s : State) (n : Nat) (t : State), P s → deflateLoop cap fuel written s = some (n, t) → P t := by
  intro fuel
  induction fuel with
  | zero => intro _ _ _ _ _ h; cases h
  | succ fuel ih =>
    intro written s n t hs h
    have hd := hdrain written s hs
    simp only [deflateLoop] at h
    split at h
    · cases h
      exact hd
    · split at h
      · cases h
        exact hd
      · rename_i u hu
        exact ih _ _ _ _ (hstep _ _ hd hu) h

end Sys2Proof.Machine
end

