-- ==== Sys2Proof/Laws/Memory.lean ====
section
/-! SUPPORT. The laws of byte memory: every operation keeps the canonical form, a read after a write to the same address
gives the byte written, and a write leaves every other address alone. -/

namespace Sys2Proof.Machine

/-- The addresses of a canonical memory rise strictly, as a pairwise statement. -/
theorem Memory.rising_iff (m : Memory) : Memory.rising m = true ↔ m.Pairwise (fun c d => c.1 < d.1) := by
  induction m with
  | nil => simp [Memory.rising]
  | cons c rest ih =>
    cases rest with
    | nil => simp [Memory.rising]
    | cons d rest =>
      rw [Memory.rising, Bool.and_eq_true, ih]
      constructor
      · rintro ⟨hcd, hp⟩
        refine List.pairwise_cons.2 ⟨fun e he => ?_, hp⟩
        have hcd := of_decide_eq_true hcd
        rcases List.mem_cons.1 he with rfl | he
        · exact hcd
        · exact Nat.lt_trans hcd ((List.pairwise_cons.1 hp).1 e he)
      · intro h
        have h := List.pairwise_cons.1 h
        exact ⟨decide_eq_true (h.1 d (by simp)), h.2⟩

/-- The canonical form, as two statements. -/
theorem Memory.wf_iff (m : Memory) :
    Memory.wf m = true ↔ m.Pairwise (fun c d => c.1 < d.1) ∧ ∀ c ∈ m, c.2 ≠ unlistedByte := by
  simp [Memory.wf, Memory.rising_iff]

@[simp] theorem Memory.wf_nil : Memory.wf [] = true := rfl

@[simp] theorem Memory.read_nil (a : Nat) : Memory.read [] a = unlistedByte := rfl

/-- An address below every listed one is unlisted. -/
theorem Memory.read_unlisted (m : Memory) (a : Nat) (h : ∀ c ∈ m, a ≠ c.1) : Memory.read m a = unlistedByte := by
  induction m with
  | nil => rfl
  | cons c rest ih =>
    have hc : ¬ c.1 = a := fun he => h c (by simp) he.symm
    simp only [Memory.read, if_neg hc]
    exact ih fun d hd => h d (by simp [hd])

/-! ### Entries -/

/-- The entries after an insertion are the one inserted and old ones. -/
theorem Memory.mem_insert {m : Memory} {a : Nat} {v : Byte} {c : Host.Cell} (h : c ∈ Memory.insert m a v) :
    c = (a, v) ∨ c ∈ m := by
  induction m with
  | nil => exact .inl (by simpa [Memory.insert] using h)
  | cons d rest ih =>
    simp only [Memory.insert] at h
    split at h
    · rcases List.mem_cons.1 h with h | h
      · exact .inl h
      · exact .inr h
    · split at h
      · rcases List.mem_cons.1 h with h | h
        · exact .inl h
        · exact .inr (List.mem_cons_of_mem _ h)
      · rcases List.mem_cons.1 h with h | h
        · exact .inr (by simp [h])
        · rcases ih h with h | h
          · exact .inl h
          · exact .inr (List.mem_cons_of_mem _ h)

/-- The entries after an erasure are old ones. -/
theorem Memory.mem_erase {m : Memory} {a : Nat} {c : Host.Cell} (h : c ∈ Memory.erase m a) : c ∈ m := by
  induction m with
  | nil => exact h
  | cons d rest ih =>
    simp only [Memory.erase] at h
    split at h
    · exact List.mem_cons_of_mem _ h
    · rcases List.mem_cons.1 h with h | h
      · simp [h]
      · exact List.mem_cons_of_mem _ (ih h)

/-- The entries after a write are the one written and old ones. -/
theorem Memory.mem_write {m : Memory} {a : Nat} {v : Byte} {c : Host.Cell} (h : c ∈ Memory.write m a v) :
    c = (a, v) ∨ c ∈ m := by
  simp only [Memory.write] at h
  split at h
  · exact .inr (Memory.mem_erase h)
  · exact Memory.mem_insert h

/-! ### The canonical form is kept -/

theorem Memory.insert_pairwise {m : Memory} (a : Nat) (v : Byte) (h : m.Pairwise (fun c d => c.1 < d.1)) :
    (Memory.insert m a v).Pairwise (fun c d => c.1 < d.1) := by
  induction m with
  | nil => simp [Memory.insert]
  | cons c rest ih =>
    have hc := List.pairwise_cons.1 h
    simp only [Memory.insert]
    split
    · rename_i hlt
      refine List.pairwise_cons.2 ⟨fun d hd => ?_, h⟩
      rcases List.mem_cons.1 hd with rfl | hd
      · exact hlt
      · exact Nat.lt_trans hlt (hc.1 d hd)
    · split
      · rename_i heq
        exact List.pairwise_cons.2 ⟨fun d hd => heq ▸ hc.1 d hd, hc.2⟩
      · rename_i hnlt hne
        refine List.pairwise_cons.2 ⟨fun d hd => ?_, ih hc.2⟩
        rcases Memory.mem_insert hd with rfl | hd
        · show c.1 < a
          omega
        · exact hc.1 d hd

theorem Memory.erase_pairwise {m : Memory} (a : Nat) (h : m.Pairwise (fun c d => c.1 < d.1)) :
    (Memory.erase m a).Pairwise (fun c d => c.1 < d.1) := by
  induction m with
  | nil => simp [Memory.erase]
  | cons c rest ih =>
    have hc := List.pairwise_cons.1 h
    simp only [Memory.erase]
    split
    · exact hc.2
    · exact List.pairwise_cons.2 ⟨fun d hd => hc.1 d (Memory.mem_erase hd), ih hc.2⟩

/-- A write keeps the canonical form. -/
theorem Memory.write_wf {m : Memory} (a : Nat) (v : Byte) (h : Memory.wf m = true) :
    Memory.wf (Memory.write m a v) = true := by
  rw [Memory.wf_iff] at h ⊢
  unfold Memory.write
  split
  · exact ⟨Memory.erase_pairwise a h.1, fun c hc => h.2 c (Memory.mem_erase hc)⟩
  · rename_i hv
    refine ⟨Memory.insert_pairwise a v h.1, fun c hc => ?_⟩
    rcases Memory.mem_insert hc with rfl | hc
    · exact hv
    · exact h.2 c hc

/-- Writing bytes keeps the canonical form. -/
theorem Memory.writeBytes_wf (bs : List Byte) : ∀ {m : Memory} (a : Nat), Memory.wf m = true →
    Memory.wf (Memory.writeBytes m a bs) = true := by
  induction bs with
  | nil => exact fun _ h => h
  | cons b rest ih => exact fun a h => ih (a + 1) (Memory.write_wf a b h)

/-- The core's writes to OUT_BUF keep the canonical form. -/
theorem writeOut_wf {m : Memory} (n : Nat) (bs : List Byte) (h : Memory.wf m = true) : Memory.wf (writeOut m n bs) = true :=
  Memory.writeBytes_wf bs _ h

/-! ### Reading after writing -/

theorem Memory.read_insert_self (m : Memory) (a : Nat) (v : Byte) : Memory.read (Memory.insert m a v) a = v := by
  induction m with
  | nil => simp [Memory.insert, Memory.read]
  | cons c rest ih =>
    simp only [Memory.insert]
    split
    · simp [Memory.read]
    · split
      · simp [Memory.read]
      · rename_i hne
        simp only [Memory.read]
        rw [if_neg fun h => hne h.symm, ih]

theorem Memory.read_insert_other {m : Memory} {a b : Nat} (v : Byte) (h : b ≠ a) :
    Memory.read (Memory.insert m a v) b = Memory.read m b := by
  induction m with
  | nil => simp [Memory.insert, Memory.read, Ne.symm h]
  | cons c rest ih =>
    simp only [Memory.insert]
    split
    · simp [Memory.read, Ne.symm h]
    · split
      · rename_i heq
        simp [Memory.read, Ne.symm h, ← heq]
      · simp only [Memory.read, ih]

theorem Memory.read_erase_self {m : Memory} {a : Nat} (h : m.Pairwise (fun c d => c.1 < d.1)) :
    Memory.read (Memory.erase m a) a = unlistedByte := by
  induction m with
  | nil => rfl
  | cons c rest ih =>
    have hc := List.pairwise_cons.1 h
    simp only [Memory.erase]
    split
    · rename_i heq
      exact Memory.read_unlisted rest a fun d hd => Nat.ne_of_lt (heq ▸ hc.1 d hd)
    · rename_i hne
      simp only [Memory.read, if_neg hne]
      exact ih hc.2

theorem Memory.read_erase_other {m : Memory} {a b : Nat} (h : b ≠ a) :
    Memory.read (Memory.erase m a) b = Memory.read m b := by
  induction m with
  | nil => rfl
  | cons c rest ih =>
    simp only [Memory.erase]
    split
    · rename_i heq
      simp [Memory.read, heq, Ne.symm h]
    · simp only [Memory.read, ih]

/-- A read after a write to the same address gives the byte written. -/
theorem Memory.read_write_self {m : Memory} (a : Nat) (v : Byte) (h : Memory.wf m = true) :
    Memory.read (Memory.write m a v) a = v := by
  unfold Memory.write
  split
  · rename_i hv
    rw [Memory.read_erase_self ((Memory.wf_iff m).1 h).1, hv]
  · exact Memory.read_insert_self m a v

/-- A write leaves every other address alone, in any memory. -/
theorem Memory.read_write_other {m : Memory} {a b : Nat} (v : Byte) (h : b ≠ a) :
    Memory.read (Memory.write m a v) b = Memory.read m b := by
  unfold Memory.write
  split
  · exact Memory.read_erase_other h
  · exact Memory.read_insert_other v h

/-- Writing bytes leaves every address outside them alone, in any memory. -/
theorem Memory.read_writeBytes_outside (bs : List Byte) : ∀ (m : Memory) (a b : Nat), ¬ (a ≤ b ∧ b < a + bs.length) →
    Memory.read (Memory.writeBytes m a bs) b = Memory.read m b := by
  induction bs with
  | nil => exact fun _ _ _ _ => rfl
  | cons v rest ih =>
    intro m a b h
    rw [List.length_cons] at h
    simp only [Memory.writeBytes]
    rw [ih _ (a + 1) b (by omega), Memory.read_write_other v (by omega)]

/-- Each byte written reads back at its address. -/
theorem Memory.read_writeBytes_inside (bs : List Byte) : ∀ (m : Memory) (a i : Nat), Memory.wf m = true → i < bs.length →
    Memory.read (Memory.writeBytes m a bs) (a + i) = bs.getD i 0#8 := by
  induction bs with
  | nil => intro _ _ i _ h; exact absurd h (Nat.not_lt_zero i)
  | cons v rest ih =>
    intro m a i hm hi
    simp only [Memory.writeBytes]
    cases i with
    | zero =>
      rw [Memory.read_writeBytes_outside rest _ _ _ (by omega)]
      simpa using Memory.read_write_self a v hm
    | succ i =>
      have := ih (Memory.write m a v) (a + 1) i (Memory.write_wf a v hm) (by simpa using hi)
      rw [show a + (i + 1) = a + 1 + i by omega, this]
      simp

/-- Two canonical memories that read alike are equal: the form is canonical. -/
theorem Memory.wf_ext {m m' : Memory} (h : Memory.wf m = true) (h' : Memory.wf m' = true)
    (hr : ∀ a, Memory.read m a = Memory.read m' a) : m = m' := by
  rw [Memory.wf_iff] at h h'
  induction m generalizing m' with
  | nil =>
    cases m' with
    | nil => rfl
    | cons d rest' =>
      exact absurd (by simpa [Memory.read] using (hr d.1).symm) (h'.2 d (by simp))
  | cons c rest ih =>
    cases m' with
    | nil => exact absurd (by simpa [Memory.read] using hr c.1) (h.2 c (by simp))
    | cons d rest' =>
      have hc := List.pairwise_cons.1 h.1
      have hd := List.pairwise_cons.1 h'.1
      have key : c.1 = d.1 := by
        rcases Nat.lt_trichotomy c.1 d.1 with hlt | heq | hgt
        · have h1 := hr c.1
          rw [Memory.read_unlisted (d :: rest') c.1 fun e he => ?_] at h1
          · exact absurd (by simpa [Memory.read] using h1) (h.2 c (by simp))
          · rcases List.mem_cons.1 he with rfl | he
            · exact Nat.ne_of_lt hlt
            · exact Nat.ne_of_lt (Nat.lt_trans hlt (hd.1 e he))
        · exact heq
        · have h1 := hr d.1
          rw [Memory.read_unlisted (c :: rest) d.1 fun e he => ?_] at h1
          · exact absurd (by simpa [Memory.read] using h1.symm) (h'.2 d (by simp))
          · rcases List.mem_cons.1 he with rfl | he
            · exact Nat.ne_of_lt hgt
            · exact Nat.ne_of_lt (Nat.lt_trans hgt (hc.1 e he))
      have hval : c.2 = d.2 := by simpa [Memory.read, key] using hr c.1
      have hcd : c = d := Prod.ext key hval
      subst hcd
      refine congrArg _ (ih ⟨hc.2, fun e he => h.2 e (by simp [he])⟩ ⟨hd.2, fun e he => h'.2 e (by simp [he])⟩ fun a => ?_)
      rcases Nat.lt_trichotomy c.1 a with hlt | heq | hgt
      · simpa [Memory.read, Nat.ne_of_lt hlt] using hr a
      · rw [Memory.read_unlisted rest a fun e he => Nat.ne_of_lt (heq ▸ hc.1 e he),
          Memory.read_unlisted rest' a fun e he => Nat.ne_of_lt (heq ▸ hd.1 e he)]
      · rw [Memory.read_unlisted rest a fun e he => Nat.ne_of_lt (Nat.lt_trans hgt (hc.1 e he)),
          Memory.read_unlisted rest' a fun e he => Nat.ne_of_lt (Nat.lt_trans hgt (hd.1 e he))]

/-! ### Multi-byte values -/

/-- The n low bytes of a value, read back as a number, give its n low bytes. -/
theorem leValue_leBytes (n v : Nat) : leValue (leBytes n v) = v % 256 ^ n := by
  induction n generalizing v with
  | zero => simp [leBytes, leValue, Nat.mod_one]
  | succ n ih =>
    have h : v % (256 * 256 ^ n) = v % 256 + 256 * (v / 256 % 256 ^ n) := Nat.mod_mul
    rw [leBytes, leValue, ih, BitVec.toNat_ofNat, Nat.pow_succ' (m := 256), h]

@[simp] theorem leBytes_length (n v : Nat) : (leBytes n v).length = n := by
  induction n generalizing v with
  | zero => rfl
  | succ n ih => simp [leBytes, ih]

/-- A value of n bytes is below 256^n. -/
theorem leValue_lt (bs : List Byte) : leValue bs < 256 ^ bs.length := by
  induction bs with
  | nil => simp [leValue]
  | cons b rest ih =>
    have := b.isLt
    simp only [leValue, List.length_cons, Nat.pow_succ]
    omega

/-! ### Commands -/

/-- Everything the dispatch of a command can do (R152): refuse it, find it illegal, or run its effect. -/
theorem runCommand_cases (legal : Bool) (effect : State → Result) (s : State) :
    (s.err ≠ .none ∧ runCommand legal effect s = .next s) ∨
    (s.err = .none ∧ legal = false ∧ runCommand legal effect s = .next (illegalCommand s)) ∨
    (s.err = .none ∧ legal = true ∧ runCommand legal effect s = effect s) := by
  unfold runCommand
  by_cases h : s.err = .none
  · cases legal <;> simp [h]
  · exact .inl ⟨h, by simp [h]⟩

end Sys2Proof.Machine
end

