-- ==== Sys2Proof/Laws/PerInstr.lean ====
section
/-! SUPPORT. Statements made instruction by instruction: the word of an instruction matches its own row of
`spec/opcode_table.json`. -/

namespace Sys2Proof.Laws.EncodeMatchesRow

/-- The mask and the match of an instruction's row of the opcode table. -/
def row : Instr → Word × Word
  | .nop _ => (0x000000FF#32, 0x00000000#32)
  | .reset _ => (0x000000FF#32, 0x00000001#32)
  | .configure _ _ _ => (0xFFFF08FF#32, 0x00000002#32)
  | .setInput _ => (0x000000FF#32, 0x00000003#32)
  | .produceOutput _ => (0x000000FF#32, 0x00000004#32)
  | .flush _ => (0x000000FF#32, 0x00000005#32)
  | .finish _ => (0x000000FF#32, 0x00000006#32)
  | .endOfInput => (0xFFFFFFFF#32, 0x00000007#32)
  | .buildTree _ => (0xFFFFFCFF#32, 0x00000008#32)

/-- The bits that the row of i fixes are those of its match. -/
def Statement (i : Instr) : Prop := encode i &&& (row i).1 = (row i).2

/-- A word of opcode `op` has `op` as its low byte. -/
theorem commandWord_op (op : Byte) (arg : Arg) : commandWord op arg &&& 0x000000FF#32 = op.setWidth 32 := by
  apply BitVec.eq_of_getLsbD_eq
  intro i hi
  have h : (0x000000FF#32).getLsbD i = decide (i < 8) := by
    have : ∀ j : Fin 32, (0x000000FF#32).getLsbD j.1 = decide (j.1 < 8) := by decide
    exact this ⟨i, hi⟩
  rw [BitVec.getLsbD_and, h, commandWord, BitVec.getLsbD_append, BitVec.getLsbD_setWidth]
  by_cases hlt : i < 8 <;> simp [hlt, hi]
  exact BitVec.getLsbD_of_ge _ _ (by omega)

theorem nop (arg : Arg) : Statement (.nop arg) := commandWord_op 0x00#8 arg
theorem reset (arg : Arg) : Statement (.reset arg) := commandWord_op 0x01#8 arg
theorem configure (mode : BitVec 2) (storeOnly : Bool) (wbits : BitVec 4) : Statement (.configure mode storeOnly wbits) := by
  revert mode storeOnly wbits
  unfold Statement
  decide
theorem setInput (len : Arg) : Statement (.setInput len) := commandWord_op 0x03#8 len
theorem produceOutput (cap : Arg) : Statement (.produceOutput cap) := commandWord_op 0x04#8 cap
theorem flush (cap : Arg) : Statement (.flush cap) := commandWord_op 0x05#8 cap
theorem finish (cap : Arg) : Statement (.finish cap) := commandWord_op 0x06#8 cap
theorem endOfInput : Statement .endOfInput := by
  unfold Statement
  decide
theorem buildTree (alpha : BitVec 2) : Statement (.buildTree alpha) := by
  revert alpha
  unfold Statement
  decide

end Sys2Proof.Laws.EncodeMatchesRow
end

