-- ==== Sys2Proof/Laws/Step.lean ====
section
/-! SUPPORT. What a command and a step can do, as inversions that an invariant's proof starts from. -/

namespace Sys2Proof.Machine

/-- Everything an encoder's output command can do after its legality check. -/
theorem encodeOutput_cases (cap : Arg) (s : State) :
    (deflateRun (byteCount cap) s = none ∧ encodeOutput cap s = .fault .driverBound) ∨
    (∃ n t, deflateRun (byteCount cap) s = some (n, t) ∧ encodeOutput cap s = .next (outputEnd n t)) := by
  unfold encodeOutput
  cases h : deflateRun (byteCount cap) s with
  | none => exact .inl ⟨rfl, rfl⟩
  | some p => exact .inr ⟨p.1, p.2, rfl, rfl⟩

/-- Everything PRODUCE_OUTPUT in DECODE can do after its legality check. -/
theorem decodeOutput_cases (cap : Arg) (s : State) :
    (decodeRun (byteCount cap) s = none ∧ decodeOutput cap s = .fault .driverBound) ∨
    (∃ e, decodeRun (byteCount cap) s = some e ∧ decodeOutput cap s = .next (outputEnd e.written (endRun e))) := by
  unfold decodeOutput
  cases h : decodeRun (byteCount cap) s with
  | none => exact .inl ⟨rfl, rfl⟩
  | some e => exact .inr ⟨e, rfl, rfl⟩

/-- How a decoder run's state goes on: as it is, or with the error raised. -/
theorem endRun_cases (e : RunEnd) :
    (e.raised = .none ∧ endRun e = e.state) ∨ (e.raised ≠ .none ∧ endRun e = raiseError e.raised e.state) := by
  unfold endRun
  by_cases h : e.raised = .none
  · exact .inl ⟨h, if_pos h⟩
  · exact .inr ⟨h, if_neg h⟩

/-- The induction over an encoder's output command. -/
theorem encodeOutput_induction (P : State → Prop) (hdrain : ∀ cap written s, P s → P (drainPending cap written s).2)
    (hstep : ∀ s t, P s → encStep s = some t → P t) (hend : ∀ n s, P s → P (outputEnd n s))
    {cap : Arg} {s t : State} (hs : P s) (h : encodeOutput cap s = .next t) : P t := by
  rcases encodeOutput_cases cap s with ⟨-, he⟩ | ⟨n, u, hr, he⟩
  · rw [he] at h
    cases h
  · rw [he] at h
    cases h
    exact hend _ _ (deflateLoop_induction _ P (hdrain _) hstep _ _ _ _ _ hs hr)

/-- The induction over PRODUCE_OUTPUT in DECODE. -/
theorem decodeOutput_induction (P : State → Prop) (hdrain : ∀ cap written s, P s → P (drainWindow cap written s).2)
    (hstep : ∀ s, P s → P (decStep s).2) (hraise : ∀ e s, P s → P (raiseError e s)) (hend : ∀ n s, P s → P (outputEnd n s))
    {cap : Arg} {s t : State} (hs : P s) (h : decodeOutput cap s = .next t) : P t := by
  rcases decodeOutput_cases cap s with ⟨-, he⟩ | ⟨e, hr, he⟩
  · rw [he] at h
    cases h
  · rw [he] at h
    cases h
    have hp : P e.state := decodeLoop_induction _ P (hdrain _) hstep _ _ _ _ (hdrain _ _ _ hs) hr
    rcases endRun_cases e with ⟨-, hq⟩ | ⟨-, hq⟩
    · exact hend _ _ (by rw [hq]; exact hp)
    · exact hend _ _ (by rw [hq]; exact hraise _ _ hp)

/-- Everything a host access can do: run the command of a word written to CMD, or be performed as a plain access. -/
theorem perform_cases (a : HostAccess) (s : State) :
    (∃ w, a = .write 32 0#32 w ∧ perform a s = runWord w s) ∨
    (commandOf a = none ∧ perform a s = .next (hostAccess a s)) := by
  cases a with
  | read bits addr => exact .inr ⟨rfl, rfl⟩
  | write bits addr value =>
    by_cases h : bits = 32 ∧ addr = 0#32
    · obtain ⟨rfl, rfl⟩ := h
      exact .inl ⟨value, rfl, rfl⟩
    · exact .inr ⟨if_neg h, by rw [perform, commandOf, if_neg h]⟩

/-- Everything a word written to CMD can do (R152). -/
theorem runWord_cases (w : Word) (s : State) :
    (∃ i, decode w = .ok i ∧ runWord w s = exec i s) ∨
    (∃ e, decode w = .error e ∧ s.err ≠ .none ∧ runWord w s = .next s) ∨
    (∃ e, decode w = .error e ∧ s.err = .none ∧ runWord w s = .next (illegalCommand s)) := by
  unfold runWord
  cases h : decode w with
  | ok i => exact .inl ⟨i, rfl, rfl⟩
  | error e =>
    rcases runCommand_cases false (fun s => .next s) s with ⟨he, hr⟩ | ⟨he, -, hr⟩ | ⟨-, hl, -⟩
    · exact .inr (.inl ⟨e, rfl, he, hr⟩)
    · exact .inr (.inr ⟨e, rfl, he, hr⟩)
    · cases hl

/-- Everything a step that answers a next state can do. -/
theorem step_cases {s t : State} (h : step s = .next t) :
    paramsLegal s.params = true ∧
    ((s.bus = [] ∧ t = s) ∨
     (∃ a rest, s.bus = a :: rest ∧ commandOf a = none ∧ t = hostAccess a { s with bus := rest }) ∨
     (∃ w rest, s.bus = .write 32 0#32 w :: rest ∧ runWord w { s with bus := rest } = .next t)) := by
  unfold step at h
  by_cases hp : paramsLegal s.params = true
  · rw [if_pos hp] at h
    refine ⟨hp, ?_⟩
    cases hb : s.bus with
    | nil =>
      rw [hb] at h
      cases h
      exact .inl ⟨rfl, rfl⟩
    | cons a rest =>
      rw [hb] at h
      rcases perform_cases a { s with bus := rest } with ⟨w, rfl, he⟩ | ⟨hc, he⟩
      · exact .inr (.inr ⟨w, rest, rfl, he.symm.trans h⟩)
      · have h : perform a { s with bus := rest } = .next t := h
        rw [he] at h
        cases h
        exact .inr (.inl ⟨a, rest, rfl, hc, rfl⟩)
  · rw [if_neg hp] at h
    cases h

end Sys2Proof.Machine
end

