-- ==== Sys2Proof/Tests/Slice0.lean ====
section
/-! SUPPORT. The model's own tests (expected values from `spec/95_test_vectors.md` or worked by hand from the encodings of
`spec/30_encoding.md`), the smoke test of WellFormed, and a witness for the hypotheses of every obligation. -/

namespace Sys2Proof.Tests

open Sys2Proof.Machine

/-! ### Small states -/

/-- The state with these bytes given as input: IN_BUF holds them, and SET_INPUT has declared them. -/
def withInput (bytes : List Byte) (s : State) : State :=
  { s with mem := Memory.writeBytes s.mem inBase bytes, input := { inLen := bytes.length, inPos := 0 } }

/-- An ENCODE stream just opened. -/
def encodeStream (storeOnly : Bool) (wbits : BitVec 4) : State :=
  { State.reset with mode := .encode, storeOnly := storeOnly, wbits := wbits }

/-- A DECODE stream just opened. -/
def decodeStream (wbits : BitVec 4) : State := { State.reset with mode := .decode, wbits := wbits }

/-- A DECODE stream in a given decoder state, with n bits of value v cached. -/
def decodeAt (d : DecState) (n : Nat) (v : BitVec 32) : State :=
  { decodeStream 9#4 with dec := { Decoder.reset with decState := d }, reader := { brCache := v, brCount := n } }

/-- A DECODE stream with given decoder elements, with n bits of value v cached. -/
def decodeWith (d : Decoder) (n : Nat) (v : BitVec 32) : State :=
  { decodeStream 9#4 with dec := d, reader := { brCache := v, brCount := n } }

/-- The host's next access is a write of w to CMD. -/
def withCmd (w : Word) (s : State) : State := { s with bus := [.write 32 0x00000000#32 w] }

/-- A result is a next state that passes a check. -/
def nextWith (p : State → Bool) : Result → Bool
  | .next t => p t
  | .fault _ => false
  | .refused _ => false

/-! ### WellFormed: an ill-formed term for each check -/

theorem test_wellFormed_mode_idle : (Instr.configure 0#2 false 15#4).wellFormed = false := by decide
theorem test_wellFormed_mode_three : (Instr.configure 3#2 false 15#4).wellFormed = false := by decide
theorem test_wellFormed_store_decode : (Instr.configure 2#2 true 15#4).wellFormed = false := by decide
theorem test_wellFormed_wbits_eight : (Instr.configure 1#2 false 8#4).wellFormed = false := by decide
theorem test_wellFormed_alpha_three : (Instr.buildTree 3#2).wellFormed = false := by decide
theorem test_wellFormed_accepts :
    (Instr.configure 1#2 true 9#4).wellFormed = true ∧ (Instr.configure 2#2 false 15#4).wellFormed = true ∧
    (Instr.buildTree 2#2).wellFormed = true := by decide

/-! ### Decoding: the words of R44 to R48, OP in [7:0] and ARG in [31:8] -/

theorem test_decode_nop : decode 0xFFFFFF00#32 = .ok (.nop 0xFFFFFF#24) := by decide
theorem test_decode_reset : decode 0x00000001#32 = .ok (.reset 0#24) := by decide
theorem test_decode_configure :
    decode 0b0000000000000000_1111_0_0_01_00000010#32 = .ok (.configure 1#2 false 15#4) ∧
    decode 0b0000000000000000_1001_0_1_01_00000010#32 = .ok (.configure 1#2 true 9#4) ∧
    decode 0b0000000000000000_1111_0_0_10_00000010#32 = .ok (.configure 2#2 false 15#4) := by decide
theorem test_decode_setInput : decode 0b000000000000000000001010_00000011#32 = .ok (.setInput 10#24) := by decide
theorem test_decode_produceOutput : decode 0x01000104#32 = .ok (.produceOutput 65537#24) := by decide
theorem test_decode_flush : decode 0x00000A05#32 = .ok (.flush 10#24) := by decide
theorem test_decode_finish : decode 0x00006406#32 = .ok (.finish 100#24) := by decide
theorem test_decode_endOfInput : decode 0x00000007#32 = .ok .endOfInput := by decide
theorem test_decode_buildTree :
    decode 0x00000008#32 = .ok (.buildTree 0#2) ∧ decode 0x00000108#32 = .ok (.buildTree 1#2) ∧
    decode 0x00000208#32 = .ok (.buildTree 2#2) := by decide

theorem test_decode_rejects_by_name :
    decode 0x00000009#32 = .error (.illegalOp 0x09#8) ∧ decode 0x000000FF#32 = .error (.illegalOp 0xFF#8) ∧
    decode 0x0000F902#32 = .error .configureReserved ∧ decode 0x0001F102#32 = .error .configureReserved ∧
    decode 0x00000107#32 = .error .endOfInputArg ∧ decode 0x00000408#32 = .error .buildTreeReserved := by decide

/-- R30: the byte at the lowest address is bits [7:0]. -/
theorem test_decodeBytes_little_endian :
    decodeBytes [0x02#8, 0xF1#8, 0x00#8, 0x00#8, 0x07#8] = some (.ok (.configure 1#2 false 15#4), [0x07#8]) ∧
    decodeBytes [0x02#8, 0xF1#8, 0x00#8] = none := by decide

/-- Each row of the opcode table, by its match. -/
theorem test_decodeTableWord :
    decodeTableWord 32 0x02 = some (.configure 0#2 false 0#4) ∧ decodeTableWord 8 0x03 = some (.setInput 0#24) ∧
    decodeTableWord 32 0x09 = none := by decide

/-- The step performs the command placed by `withFetchWord` (vector CMD1: 0x0000_F102, STATUS 0x41). -/
theorem test_withFetchWord :
    nextWith (fun t => statusReg t == 0x00000041#32 && t.bus.isEmpty) (step (State.reset.withFetchWord 32 0xF102)) = true := by
  decide

/-! ### Commands: section 2.8 and 2.9 of the vectors -/

/-- CMD22: a NOP with ARG 0xFFFFFF changes nothing. -/
theorem test_nop : nextWith (fun t => statusReg t == 0x00000040#32) (step (withCmd 0xFFFFFF00#32 State.reset)) = true := by
  decide

/-- CMD17: after OP 0xFF, RESET gives STATUS 0x40. -/
theorem test_illegal_op : nextWith (fun t => statusReg t == 0x0000006C#32) (step (withCmd 0x000000FF#32 State.reset)) = true := by
  decide
theorem test_reset :
    nextWith (fun t => statusReg t == 0x00000040#32) (step (withCmd 0x00000001#32 { State.reset with err := .illegalCommand })) =
      true := by
  decide

/-- CMD3: `CONFIGURE ENCODE, 15, STORE`. -/
theorem test_configure :
    nextWith (fun t => statusReg t == 0x00000041#32 && readReg t 3 == 0x000000F5#32) (step (withCmd 0x0000F502#32 State.reset)) =
      true := by
  decide

/-- CMD4: DECODE with STORE_ONLY. -/
theorem test_configure_illegal :
    nextWith (fun t => statusReg t == 0x0000006C#32) (step (withCmd 0x0000F602#32 State.reset)) = true := by
  decide

/-- CMD10: the SET_INPUT of `FEED 61 62 63`. -/
theorem test_setInput :
    nextWith (fun t => statusReg t == 0x00000001#32) (step (withCmd 0x00000303#32 (encodeStream false 15#4))) = true := by
  decide

/-- EX2: `SET_INPUT 65537` raises OutputBufferOverrun. -/
theorem test_setInput_overrun :
    nextWith (fun t => statusReg t == 0x0000005A#32) (step (withCmd 0x01000103#32 (decodeStream 15#4))) = true := by
  decide

/-- P2: END_OF_INPUT sets STATUS.EOI, bit 14. -/
theorem test_endOfInput :
    nextWith (fun t => statusReg t == 0x00004042#32) (step (withCmd 0x00000007#32 (decodeStream 15#4))) = true := by
  decide

/-- CMD14: END_OF_INPUT with ARG = 1. -/
theorem test_endOfInput_arg :
    nextWith (fun t => statusReg t == 0x0000006E#32) (step (withCmd 0x00000107#32 (decodeStream 15#4))) = true := by
  decide

/-- Section 1.8: decode `03 00`: STATUS 0x12C2 without EOI, RESULT 0x0100_0000. -/
theorem test_produceOutput_decode :
    nextWith (fun t => statusReg t == 0x000012C2#32 && t.result == 0x01000000#32)
      (step (withCmd 0x00001004#32 (withInput [0x03#8, 0x00#8] (decodeStream 15#4)))) = true := by
  decide +kernel

/-- DEC2 and R166: `01 0a 00 f4 ff` and one byte more: InvalidStoredBlockLength in state 16, the byte unread. -/
theorem test_produceOutput_error :
    nextWith (fun t => statusReg t == 0x0000100A#32 && t.result == 0#32)
      (step (withCmd 0x00006404#32
        (withInput [0x01#8, 0x0A#8, 0x00#8, 0xF4#8, 0xFF#8, 0x61#8] (decodeStream 15#4)))) = true := by
  decide

/-- EC11: FLUSH 100 with no input since CONFIGURE writes nothing. -/
theorem test_flush :
    nextWith (fun t => statusReg t == 0x00000041#32 && t.result == 0#32) (step (withCmd 0x00006405#32 (encodeStream false 15#4))) =
      true := by
  decide

/-- EC6: STORE_ONLY, the empty input: `01 00 00 ff ff`. -/
theorem test_finish_stored :
    nextWith (fun t => t.result == 0x01000005#32 && outBytes t.mem 5 == [0x01#8, 0x00#8, 0x00#8, 0xFF#8, 0xFF#8])
      (step (withCmd 0x00006406#32 (encodeStream true 15#4))) = true := by
  decide

/-- EC1: the empty input: `03 00`. -/
theorem test_finish_static :
    nextWith (fun t => statusReg t == 0x000003C1#32 && t.result == 0x01000002#32 && outBytes t.mem 2 == [0x03#8, 0x00#8])
      (step (withCmd 0x00001006#32 (encodeStream false 15#4))) = true := by
  decide +kernel

/-- P4: FREQ_TAB[0..3] = 1, 1, 2, 4, then `BUILD_TREE CL`. -/
theorem test_buildTree :
    nextWith (fun t => Memory.readBytes t.mem 0x1400 5 == [3#8, 3#8, 2#8, 1#8, 0#8] &&
        Memory.readBytes t.mem 0x1800 8 == [3#8, 0#8, 7#8, 0#8, 1#8, 0#8, 0#8, 0#8] &&
        Memory.readBytes t.mem 0x1C00 8 == [0#8, 0#8, 1#8, 0#8, 1#8, 0#8, 2#8, 0#8] &&
        t.tree == { maxCode := 3#32, optLen := 14#32, staticLen := 0#32 })
      (step (withCmd 0x00000208#32
        { State.reset with mem := [(0x1000, 1#8), (0x1002, 1#8), (0x1004, 2#8), (0x1006, 4#8)] })) = true := by
  decide +kernel

/-- CMD19: BUILD_TREE with ALPHA = 3. -/
theorem test_buildTree_illegal :
    nextWith (fun t => statusReg t == 0x0000006C#32) (step (withCmd 0x00000308#32 State.reset)) = true := by
  decide

/-! ### Parts: sections 2.1 and 2.2, R70, R96, R102, R126, R129 -/

/-- BIO1 and BIO2. -/
theorem test_putBits :
    putBits 0x0C 8 (putBits 3 3 emptyWriter) = { bwAcc := 0#8, bwCount := 3, pending := [0x63#8] } ∧
    putBits 0x89 8 (putBits 1 2 (putBits 1 1 emptyWriter)) = { bwAcc := 0b100#8, bwCount := 3, pending := [0x4B#8] } := by
  decide

/-- BIO3 and BIO6. -/
theorem test_alignWriter :
    alignWriter { bwAcc := 0b100#8, bwCount := 3, pending := [0x4B#8] } =
      { bwAcc := 0#8, bwCount := 0, pending := [0x4B#8, 0x04#8] } ∧
    alignWriter emptyWriter = emptyWriter := by decide

/-- BIO8: input `4b 84`, GetBits(16) then GetBits(1). -/
theorem test_getBits :
    (getBits 16 (withInput [0x4B#8, 0x84#8] (decodeStream 15#4))).1 = some 0x844B ∧
    (getBits 1 (getBits 16 (withInput [0x4B#8, 0x84#8] (decodeStream 15#4))).2).1 = none := by decide

/-- BIO11. -/
theorem test_skipToByteBoundary : (skipToByteBoundary { brCache := 0x1FFF#32, brCount := 13 }).brCount = 8 := by decide

/-- WIN3. -/
theorem test_writeLiteral :
    writeLiteral 512 0x41#8 { win := [], winEnd := 511, winUsed := 3, winFilled := 3 } =
      { win := [(511, 0x41#8)], winEnd := 0, winUsed := 4, winFilled := 4 } := by decide

/-- R79: after "ab", WriteBackReference(5, 1) gives "abbbbbb". -/
theorem test_writeBackReference :
    (writeBackReference 512 5 1 { win := [(0, 0x61#8), (1, 0x62#8)], winEnd := 2, winUsed := 2, winFilled := 2 }).win =
      [(0, 0x61#8), (1, 0x62#8), (2, 0x62#8), (3, 0x62#8), (4, 0x62#8), (5, 0x62#8), (6, 0x62#8)] := by decide

/-- R96: rev_8(0x91) = 0x89 and rev_5(1) = 0x10. -/
theorem test_revBits : revBits 8 0x91 = 0x89 ∧ revBits 5 1 = 0x10 := by decide

/-- R102: hist = "abcabcabcd", p = 3 and maxlen = 7 give (6, 3). -/
theorem test_refFinder :
    refFinder [0x61#8, 0x62#8, 0x63#8, 0x61#8, 0x62#8, 0x63#8, 0x61#8, 0x62#8, 0x63#8, 0x64#8] 3 7 3 = some (6, 3) := by
  decide

/-- R126: the table of the lengths (3, 3, 2, 1). -/
theorem test_makeTable :
    (makeTable [3, 3, 2, 1]).map (fun t => (t.sym, t.lmax, t.first.take 4, t.cnt.take 4)) =
      some ([3, 2, 0, 1], 3, [0, 0, 2, 6], [0, 1, 1, 2]) := by decide

/-- R127's corner cases. -/
theorem test_checkKraft :
    makeTable [1, 1, 1] = none ∧ (makeTable [1, 1]).isSome ∧ (makeTable [1]).isSome ∧ (makeTable [0, 0]).isSome := by
  decide

/-- R129: the table (3, 3, 2, 1) on input 0x03 gives symbol 0 with 5 bits left. -/
theorem test_decodeSym :
    (makeTable [3, 3, 2, 1]).map (fun t =>
      let r := decodeSym t (withInput [0x03#8] (decodeStream 15#4))
      (r.1, r.2.reader.brCount)) = some (SymOut.symbol 0, 5) := by decide

/-! ### Witnesses: states and operands that meet the hypotheses of each obligation -/

theorem witness_EncodeOfDecodeIsTheWord : decode 0x0000F102#32 = .ok (.configure 1#2 false 15#4) := by decide

theorem witness_IllegalEncodingsAreNoInstruction :
    (∃ e, decode 0x00000009#32 = .error e) ∧ (∃ e, decode 0x00000802#32 = .error e) ∧
    (∃ e, decode 0x00010002#32 = .error e) ∧ (∃ e, decode 0x00000107#32 = .error e) ∧
    (∃ e, decode 0x00000408#32 = .error e) ∧ decode 0x00000308#32 = .ok (.buildTree 3#2) :=
  ⟨⟨_, rfl⟩, ⟨_, rfl⟩, ⟨_, rfl⟩, ⟨_, rfl⟩, ⟨_, rfl⟩, rfl⟩

theorem witness_StepRunsTheDecodedCommand :
    paramsLegal (withCmd 0x0000F102#32 State.reset).params = true ∧
    (withCmd 0x0000F102#32 State.reset).bus = .write 32 0#32 0x0000F102#32 :: [] ∧
    decode 0x0000F102#32 = .ok (.configure 1#2 false 15#4) ∧
    (withCmd 0x00000009#32 State.reset).bus = .write 32 0#32 0x00000009#32 :: [] ∧
    decode 0x00000009#32 = .error (.illegalOp 0x09#8) ∧ (withCmd 0x00000009#32 State.reset).err = .none ∧
    ({ withCmd 0x00000009#32 State.reset with err := .invalidBlockType } : State).err ≠ .none := by decide

theorem witness_StepPerformsOneAccess :
    paramsLegal ({ State.reset with params := { Params.default with inCap := 0 } } : State).params = false ∧
    paramsLegal State.reset.params = true ∧ State.reset.bus = [] ∧
    (∀ v, HostAccess.read 32 0x04#32 ≠ .write 32 0#32 v) ∧ (∀ v, HostAccess.write 16 0#32 5#32 ≠ .write 32 0#32 v) :=
  ⟨by decide, by decide, rfl, fun _ h => (by cases h), fun _ h => (by cases h)⟩

theorem witness_HostReadsAreIdempotent :
    ∃ s : State, paramsLegal s.params = true ∧ s.bus = [.read 32 0x04#32, .read 32 0x04#32] :=
  ⟨{ State.reset with bus := [.read 32 0x04#32, .read 32 0x04#32] }, by decide, rfl⟩

/-- The last entry of FREQ_TAB, the last byte of IN_BUF and the last word of OUT_BUF, written; the last entries of LEN_TAB,
CODE_TAB and BLCOUNT_TAB, read. -/
theorem witness_AcceptedAccessesAreLittleEndian :
    paramsLegal State.reset.params = true ∧ Memory.wf State.reset.mem = true ∧
    (0x1000 ≤ (0x123A#32).toNat ∧ (0x123A#32).toNat + 2 ≤ 0x123C ∧ (0x123A#32).toNat % 2 = 0) ∧
    (0x100000 ≤ (0x10FFFF#32).toNat ∧ (0x10FFFF#32).toNat + 8 / 8 ≤ 0x100000 + State.reset.params.inCap) ∧
    ((0x20FFFC#32).toNat % (32 / 8) = 0 ∧ 0x200000 ≤ (0x20FFFC#32).toNat ∧
      (0x20FFFC#32).toNat + 32 / 8 ≤ 0x200000 + State.reset.params.outCap) ∧
    (0x1400 ≤ (0x151D#32).toNat ∧ (0x151D#32).toNat ≤ 0x151D) ∧
    ((0x1A3A#32).toNat % 2 = 0 ∧ 0x1800 ≤ (0x1A3A#32).toNat ∧ (0x1A3A#32).toNat ≤ 0x1A3B) ∧
    ((0x1C1E#32).toNat % 2 = 0 ∧ 0x1C00 ≤ (0x1C1E#32).toNat ∧ (0x1C1E#32).toNat ≤ 0x1C1F) := by decide

/-- R30: the byte at the lowest address is bits [7:0]. -/
theorem test_host_little_endian :
    (hostAccess (.write 32 0x200004#32 0x44332211#32) State.reset).mem =
      [(0x200004, 0x11#8), (0x200005, 0x22#8), (0x200006, 0x33#8), (0x200007, 0x44#8)] ∧
    (hostAccess (.read 16 0x1802#32) { State.reset with mem := [(0x1802, 0x34#8), (0x1803, 0x12#8)] }).readData = 0x1234#32 := by
  decide

/-- Past the end of FREQ_TAB, misaligned in IN_BUF, and across the end of OUT_BUF. -/
theorem witness_HostWritesStoreOnlyWhereAccepted :
    paramsLegal State.reset.params = true ∧
    ¬ ((16 = 16 ∧ 0x1000 ≤ (0x123C#32).toNat ∧ (0x123C#32).toNat + 2 ≤ 0x123C ∧ (0x123C#32).toNat % 2 = 0) ∨
       ((16 = 8 ∨ 16 = 16 ∨ 16 = 32) ∧ (0x123C#32).toNat % (16 / 8) = 0 ∧
         ((0x100000 ≤ (0x123C#32).toNat ∧ (0x123C#32).toNat + 16 / 8 ≤ 0x100000 + State.reset.params.inCap) ∨
          (0x200000 ≤ (0x123C#32).toNat ∧ (0x123C#32).toNat + 16 / 8 ≤ 0x200000 + State.reset.params.outCap)))) ∧
    regionFor Params.default 16 0x100001 = none ∧ regionFor Params.default 32 0x20FFFE = none := by decide

theorem witness_RefusedReadsReturnZero :
    paramsLegal State.reset.params = true ∧
    ¬ ((16 = 32 ∧ (0x20#32).toNat % 4 = 0 ∧ (0x20#32).toNat < 0x20) ∨
       (16 = 16 ∧ (0x20#32).toNat % 2 = 0 ∧
         ((0x1000 ≤ (0x20#32).toNat ∧ (0x20#32).toNat ≤ 0x123B) ∨ (0x1800 ≤ (0x20#32).toNat ∧ (0x20#32).toNat ≤ 0x1A3B) ∨
          (0x1C00 ≤ (0x20#32).toNat ∧ (0x20#32).toNat ≤ 0x1C1F))) ∨
       (16 = 8 ∧ 0x1400 ≤ (0x20#32).toNat ∧ (0x20#32).toNat ≤ 0x151D) ∨
       ((16 = 8 ∨ 16 = 16 ∨ 16 = 32) ∧ (0x20#32).toNat % (16 / 8) = 0 ∧
         ((0x100000 ≤ (0x20#32).toNat ∧ (0x20#32).toNat + 16 / 8 ≤ 0x100000 + State.reset.params.inCap) ∨
          (0x200000 ≤ (0x20#32).toNat ∧ (0x20#32).toNat + 16 / 8 ≤ 0x200000 + State.reset.params.outCap)))) ∧
    regionFor Params.default 8 0x151E = none ∧ regionFor Params.default 8 0x151D ≠ none ∧
    regionFor Params.default 16 0x1A3C = none ∧ regionFor Params.default 32 0x00 ≠ none := by decide

theorem witness_StatusFieldsAreAsLaidOut :
    State.reset.mode = .idle ∧ (encodeStream false 15#4).mode = .encode ∧ (decodeStream 15#4).mode = .decode ∧
    finished { decodeStream 15#4 with dec := { Decoder.reset with decState := .done } } = true ∧
    finished { encodeStream false 15#4 with enc := { Encoder.reset with phase := .finished } } = true := by decide

theorem witness_RegistersReadAsLaidOut : (7 : Nat) < 8 ∧ 1 ≤ (7 : Nat) ∧ 2 ^ 24 - 1 < 2 ^ 24 := by decide

theorem witness_ResetGivesTheResetValues :
    DecTable.empty = { cnt := List.replicate 16 0, first := List.replicate 16 0, offs := List.replicate 16 0, sym := [],
                       lmax := 0 } := rfl

theorem witness_ConfigureOpensAStream :
    DecTable.empty = { cnt := List.replicate 16 0, first := List.replicate 16 0, offs := List.replicate 16 0, sym := [],
                       lmax := 0 } ∧
    State.reset.err = .none ∧ State.reset.mode = .idle ∧ 9 ≤ (9#4).toNat ∧
    ¬ (State.reset.mode = .idle ∧ (1#2 = 1#2 ∨ 1#2 = 2#2) ∧ (false = false ∨ 1#2 = 1#2) ∧ 9 ≤ (8#4).toNat) ∧
    ((0x0000F902#32).toNat % 256 = 2 ∧ (0x0000F902#32).getLsbD 11 = true) ∧
    ((0x0001F102#32).toNat % 256 = 2 ∧ (0x0001F102#32).toNat / 2 ^ 16 ≠ 0) := by decide

theorem witness_SetInputDeclaresTheInput :
    (encodeStream false 15#4).err = .none ∧ (encodeStream false 15#4).mode ≠ .idle ∧
    (encodeStream false 15#4).input.inPos = (encodeStream false 15#4).input.inLen ∧
    (encodeStream false 15#4).enc.phase = .running ∧
    (65536#24).toNat ≤ (encodeStream false 15#4).params.inCap ∧ (encodeStream false 15#4).params.inCap < (65537#24).toNat ∧
    State.reset.mode = .idle ∧
    (withInput [0#8] (encodeStream false 15#4)).input.inPos ≠ (withInput [0#8] (encodeStream false 15#4)).input.inLen := by
  decide

theorem witness_EndOfInputSetsEoi :
    (decodeStream 15#4).err = .none ∧ (decodeStream 15#4).mode = .decode ∧ State.reset.err = .none ∧
    State.reset.mode ≠ .decode ∧ (0x00000107#32).toNat % 256 = 7 ∧ (0x00000107#32).toNat / 256 ≠ 0 := by decide

theorem witness_IllegalCommandsOnlySetErr :
    State.reset.err = .none ∧ (encodeStream false 15#4).mode ≠ .idle ∧ State.reset.mode = .idle ∧
    ¬ ((65537#24).toNat ≤ (decodeStream 15#4).params.outCap) ∧ (decodeStream 15#4).mode ≠ .encode ∧
    ¬ (State.reset.mode = .idle ∧ 3#2 ≠ 3#2) ∧ 9 ≤ (0x00000009#32).toNat % 256 := by decide

theorem witness_ErrorRefusesEveryCommand :
    ({ State.reset with err := .illegalCommand } : State).err ≠ .none ∧
    (∀ arg, Instr.endOfInput ≠ .nop arg) ∧ (∀ arg, Instr.endOfInput ≠ .reset arg) ∧
    (0x00000009#32).toNat % 256 ≠ 1 ∧ (0xFFFFFF01#32).toNat % 256 = 1 :=
  ⟨by decide, fun _ h => (by cases h), fun _ h => (by cases h), by decide, by decide⟩

/-- One word for each line of R47's list, at the boundary of its field. -/
theorem witness_IllegalEncodingsRecordIllegalCommand :
    State.reset.err = .none ∧ 9 ≤ (0x00000009#32).toNat % 256 ∧
    ((0x0000F002#32).toNat / 2 ^ 8) % 4 = 0 ∧ ((0x0000F302#32).toNat / 2 ^ 8) % 4 = 3 ∧
    ((0x0000F602#32).getLsbD 10 = true ∧ ((0x0000F602#32).toNat / 2 ^ 8) % 4 ≠ 1) ∧
    ((0x00008102#32).toNat / 2 ^ 12) % 16 < 9 ∧ (0x0000F902#32).getLsbD 11 = true ∧ (0x0001F102#32).toNat / 2 ^ 16 ≠ 0 ∧
    (0x00000107#32).toNat / 2 ^ 8 ≠ 0 ∧ ((0x00000308#32).toNat / 2 ^ 8) % 4 = 3 ∧ (0x00000408#32).toNat / 2 ^ 10 ≠ 0 ∧
    (Instr.buildTree 3#2).wellFormed = false ∧ (0xFFFFFF00#32).toNat % 256 = 0 ∧ (0xFFFFFF01#32).toNat % 256 = 1 := by
  decide

/-- Every cause of every state, at the boundary of its range. -/
theorem witness_DecoderRaisesExactlyOnItsCauses :
    (decStep (decodeAt .readingBType 2 3#32)).1 = .raised .invalidBlockType ∧
    (decStep (decodeAt .readingNumLitCodes 5 30#32)).1 = .raised .invalidHeaderCount ∧
    (decStep (decodeAt .readingNumDistCodes 5 30#32)).1 = .raised .invalidHeaderCount ∧
    (decStep (decodeWith { Decoder.reset with decState := .readingCodeLenCodes, clIdx := 3, hclenN := 4,
                                              clLens := List.replicate 16 0 ++ [1, 1, 1] } 3 1#32)).1 =
      .raised .invalidHuffmanTable ∧
    (decStep (decodeWith { Decoder.reset with decState := .readingTreeCodes, hlitN := 257, lens := List.replicate 256 1 ++ [0] }
                0 0#32)).1 = .raised .missingEndOfBlockCode ∧
    (decStep (decodeWith { Decoder.reset with decState := .readingTreeCodes, hlitN := 257, lens := List.replicate 257 1 }
                0 0#32)).1 = .raised .invalidHuffmanTable ∧
    (decStep (decodeWith { Decoder.reset with decState := .readingTreeCodes, hlitN := 257, hdistN := 3,
                                              lens := List.replicate 257 9 ++ [1, 1, 1] } 0 0#32)).1 =
      .raised .invalidHuffmanTable ∧
    (decStep (decodeWith { Decoder.reset with decState := .readingTreeCodes, hlitN := 257,
                                              clTable := (makeTable [1]).getD .empty } 1 1#32)).1 =
      .raised .invalidHuffmanTable ∧
    (decStep (decodeWith { Decoder.reset with decState := .readingTreeCodes, hlitN := 257,
                                              clTable := (makeTable (List.replicate 16 0 ++ [1])).getD .empty } 1 0#32)).1 =
      .raised .invalidCodeLengthSequence ∧
    (decStep (decodeWith { Decoder.reset with decState := .readingTreeCodesExtra, hlitN := 257, repSym := 18,
                                              lens := List.replicate 247 0 } 7 0#32)).1 = .raised .invalidCodeLengthSequence ∧
    (decStep (decodeWith { Decoder.reset with decState := .decodeTop, litTable := (makeTable [1]).getD .empty } 1 1#32)).1 =
      .raised .invalidHuffmanTable ∧
    (decStep (decodeWith { Decoder.reset with decState := .decodeTop, litTable := staticLitTable } 8 0x63#32)).1 =
      .raised .invalidSymbol ∧
    (decStep (decodeWith { Decoder.reset with decState := .haveFullLength, distTable := (makeTable [1]).getD .empty }
                1 1#32)).1 = .raised .invalidHuffmanTable ∧
    (decStep (decodeWith { Decoder.reset with decState := .haveFullLength, distTable := staticDistTable } 5 15#32)).1 =
      .raised .invalidSymbol ∧
    (decStep (decodeWith { Decoder.reset with decState := .haveDistCode, curLen := 3 } 0 0#32)).1 = .raised .invalidDistance ∧
    (decStep (decodeAt .uncompressedByte4 8 0#32)).1 = .raised .invalidStoredBlockLength := by decide +kernel

theorem witness_BuildTreeWritesOnlyItsResults :
    State.reset.err = .none ∧ State.reset.mode = .idle ∧ (2#2) ≠ 3#2 ∧ (0#2) ≠ 3#2 := by decide

theorem witness_BuiltTablesAreInRange :
    State.reset.err = .none ∧ State.reset.mode = .idle ∧ Memory.wf State.reset.mem = true ∧
    alphabetOfField 2#2 = some .cl ∧ ∃ t, exec (.buildTree 2#2) State.reset = .next t :=
  ⟨rfl, rfl, rfl, rfl, _, rfl⟩

/-- Two states with the same FREQ_TAB and different OUT_BUF. -/
theorem witness_BuildTreeDependsOnFreqTabOnly :
    Memory.wf [(0x1000, 5#8)] = true ∧ Memory.wf [(0x1000, 5#8), (0x200000, 1#8)] = true ∧
    (∀ i, i < Alphabet.cl.size → freqEntry [(0x1000, 5#8)] i = freqEntry [(0x1000, 5#8), (0x200000, 1#8)] i) ∧
    (∃ t, exec (.buildTree 2#2) { State.reset with mem := [(0x1000, 5#8)] } = .next t) ∧
    (∃ t, exec (.buildTree 2#2) { State.reset with mem := [(0x1000, 5#8), (0x200000, 1#8)] } = .next t) :=
  ⟨by decide, by decide, by decide, ⟨_, rfl⟩, ⟨_, rfl⟩⟩

/-- R99's case of one symbol, 1, and the cases of none and of two. -/
theorem witness_BuildTreeBuildsACompleteCode :
    State.reset.err = .none ∧ State.reset.mode = .idle ∧ alphabetOfField 2#2 = some .cl ∧
    Memory.wf State.reset.mem = true ∧ Memory.wf [(0x1002, 3#8)] = true ∧ Memory.wf [(0x1002, 3#8), (0x1024, 5#8)] = true ∧
    nextWith (fun t => (lenTable t.mem 4, t.tree.maxCode) == ([1, 1, 0, 0], 1#32)) (exec (.buildTree 2#2) State.reset) = true ∧
    nextWith (fun t => (lenTable t.mem 4, t.tree.maxCode) == ([0, 1, 1, 0], 2#32))
      (exec (.buildTree 2#2) { State.reset with mem := [(0x1002, 3#8)] }) = true ∧
    nextWith (fun t => (lenTable t.mem 4, t.tree.maxCode) == ([0, 1, 0, 0], 18#32))
      (exec (.buildTree 2#2) { State.reset with mem := [(0x1002, 3#8), (0x1024, 5#8)] }) = true := by decide +kernel

theorem witness_BuildTreeCountsTheCost :
    State.reset.err = .none ∧ State.reset.mode = .idle ∧ Memory.wf State.reset.mem = true ∧
    alphabetOfField 1#2 = some .dist ∧ ∃ t, exec (.buildTree 1#2) State.reset = .next t :=
  ⟨rfl, rfl, rfl, rfl, _, rfl⟩

theorem witness_BitReversalReversesTheBits : (7 : Nat) < 8 ∧ 8 ≤ (8 : Nat) ∧ 0xFF < 2 ^ 8 := by decide

theorem witness_CanonicalCodesAreOrdered :
    (∀ l ∈ [3, 3, 2, 15], l ≤ 15) ∧ at0 [3, 3, 2, 15] 2 ≠ 0 ∧ at0 [3, 3, 2, 15] 2 < at0 [3, 3, 2, 15] 3 ∧
    at0 [3, 3, 2, 15] 0 = at0 [3, 3, 2, 15] 1 := by decide

theorem witness_ReferenceFinderIsLongestAndNearest :
    refFinder [1#8, 2#8, 3#8, 1#8, 2#8, 3#8] 3 3 3 = some (3, 3) ∧ refFinder [1#8, 2#8, 3#8, 1#8, 2#8, 4#8] 3 3 3 = none := by
  decide

theorem witness_EveryMatchIsAdmissible :
    findMatch .reference 9#4 [1#8, 2#8, 3#8, 1#8, 2#8, 3#8] 3 3 = some (3, 3) ∧
    ([1#8, 2#8, 3#8, 1#8, 2#8, 3#8, 9#8] : List Byte).take (3 + 3) = [1#8, 2#8, 3#8, 1#8, 2#8, 3#8].take (3 + 3) := by
  decide

theorem witness_WriterAppendsTheBits :
    ({ bwAcc := 0x7F#8, bwCount := 7, pending := [] } : BitWriter).bwCount < 8 ∧
    ({ bwAcc := 0x7F#8, bwCount := 7, pending := [] } : BitWriter).bwAcc.toNat <
      2 ^ ({ bwAcc := 0x7F#8, bwCount := 7, pending := [] } : BitWriter).bwCount := by decide

theorem witness_GetBitsReadsTheNextBits :
    (decodeAt .readingBType 2 3#32).reader.brCount ≤ 23 ∧ (decodeAt .readingBType 2 3#32).reader.brCache.toNat < 2 ^ 2 ∧
    (getBits 2 (decodeAt .readingBType 2 3#32)).1 = some 3 ∧ (getBits 16 (decodeAt .readingBType 2 3#32)).1 = none := by
  decide

/-- A cursor at the ring's end, and the largest distance. -/
theorem witness_WindowWritesAppendTheirBytes :
    ∃ x : Window, Memory.wf x.win = true ∧ x.winEnd < 512 ∧ 1 ≤ 512 ∧ 512 ≤ x.winFilled ∧ x.winFilled ≤ 512 ∧
      258 ≤ 512 - x.winUsed :=
  ⟨{ win := [(511, 0x41#8)], winEnd := 511, winUsed := 254, winFilled := 512 }, by decide⟩

/-- One progress from each of the states 0 to 17, the two exits of states 6 and 17 and the three of state 8 included. -/
theorem witness_DecoderStepsFollowTheDiagram :
    (decStep (decodeAt .readingBFinal 1 1#32)).1 = .ok ∧ (decStep (decodeAt .readingBType 2 0#32)).1 = .ok ∧
    (decStep (decodeAt .readingNumLitCodes 5 29#32)).1 = .ok ∧ (decStep (decodeAt .readingNumDistCodes 5 29#32)).1 = .ok ∧
    (decStep (decodeAt .readingNumCodeLenCodes 4 15#32)).1 = .ok ∧
    (decStep (decodeAt .readingCodeLenCodes 3 1#32)).1 = .ok ∧
    (decStep (decodeWith { Decoder.reset with decState := .readingTreeCodes, hlitN := 257, lens := List.replicate 257 9 } 0 0#32)).1 = .ok ∧
    (decStep (decodeWith { Decoder.reset with decState := .readingTreeCodes, hlitN := 257, clTable := (makeTable [1, 1]).getD .empty } 1 1#32)).1 =
      .ok ∧
    (decStep (decodeWith { Decoder.reset with decState := .readingTreeCodesExtra, hlitN := 257, repSym := 18 } 7 127#32)).1 = .ok ∧
    (decStep (decodeWith { Decoder.reset with decState := .decodeTop, litTable := staticLitTable } 8 0x0C#32)).1 = .ok ∧
    (decStep (decodeWith { Decoder.reset with decState := .decodeTop, litTable := staticLitTable } 7 0#32)).1 = .ok ∧
    (decStep (decodeWith { Decoder.reset with decState := .decodeTop, litTable := staticLitTable } 7 0x40#32)).1 = .ok ∧
    (decStep (decodeWith { Decoder.reset with decState := .haveInitialLength, curSym := 285 } 0 0#32)).1 = .ok ∧
    (decStep (decodeWith { Decoder.reset with decState := .haveFullLength, distTable := staticDistTable } 5 0#32)).1 = .ok ∧
    (decStep { decodeWith { Decoder.reset with decState := .haveDistCode, curLen := 258 } 0 0#32 with
                window := { win := [], winEnd := 1, winUsed := 1, winFilled := 1 } }).1 = .ok ∧
    (decStep (decodeAt .uncompressedAligning 5 0#32)).1 = .ok ∧ (decStep (decodeAt .uncompressedByte1 8 0xFF#32)).1 = .ok ∧
    (decStep (decodeAt .uncompressedByte2 8 0xFF#32)).1 = .ok ∧ (decStep (decodeAt .uncompressedByte3 8 0xFF#32)).1 = .ok ∧
    (decStep (decodeWith { Decoder.reset with decState := .uncompressedByte4, nlenLo := 0xFF#8 } 8 0xFF#32)).1 = .ok ∧
    (decStep (decodeAt .decodingUncompressed 0 0#32)).1 = .ok ∧
    (decStep (decodeWith { Decoder.reset with decState := .decodingUncompressed, storedRem := 1 } 8 0xFF#32)).1 = .ok := by decide +kernel

theorem witness_StallsChangeNoDecoderState :
    (decStep (decodeAt .readingBType 1 1#32)).1 = .needIn ∧ (decStep (decodeAt .done 0 0#32)).1 = .done ∧
    (decStep { decodeAt .decodeTop 0 0#32 with window := { win := [], winEnd := 255, winUsed := 255, winFilled := 255 } }).1 =
      .needOut ∧
    (decStep { decodeWith { Decoder.reset with decState := .decodingUncompressed, storedRem := 1 } 0 0#32 with
                window := { win := [], winEnd := 0, winUsed := 512, winFilled := 512 } }).1 = .needOut ∧
    (decodeAt .readingBType 1 1#32).input.inPos ≤ (decodeAt .readingBType 1 1#32).input.inLen := by decide

/-- The bit cache of a stall with one bit cached is in range. -/
theorem witness_StallsChangeNoDecoderState_reader : ReaderInRange (decodeAt .readingBType 1 1#32) :=
  ⟨by decide, by decide, fun _ h => (by cases h), by decide, by decide, by decide, by decide⟩

/-- Symbol 0 of the lengths (3, 3, 2, 1): its code 110 is stored as 3. -/
theorem witness_DecodeSymInvertsPutCode :
    (∀ l ∈ [3, 3, 2, 1], l ≤ 15) ∧ (makeTable [3, 3, 2, 1]).isSome = true ∧ at0 [3, 3, 2, 1] 0 ≠ 0 ∧
    (decodeAt .decodeTop 4 0x3#32).reader.brCache.toNat < 2 ^ 4 ∧
    unreadStream (decodeAt .decodeTop 4 0x3#32) =
      bitsOf 3 (at0 (genCodes [3, 3, 2, 1] (histogram [3, 3, 2, 1])) 0) ++ [false] := by decide

theorem witness_CheckKraftRejectsOversubscribed : makeTable [1, 1, 1] = none ∧ (makeTable [15, 1]).isSome = true := by
  decide

/-! A stream just opened, with input given, meets every invariant. -/

theorem decodeStream_wf : (decodeStream 9#4).wf where
  params := by decide
  memory := ⟨rfl, rfl⟩
  input := ⟨by decide, by decide⟩
  config := ⟨fun h => (by cases h), fun _ => by decide, fun h => (by cases h)⟩
  writer := ⟨by decide, by decide⟩
  reader := ⟨by decide, by decide, fun l h => (by cases h), by decide, by decide, by decide, by decide⟩
  window := ⟨fun h => absurd rfl h, fun _ c h => (by cases h), fun _ => by decide, fun _ => by decide, fun _ => by decide,
    fun _ => by decide, fun _ h => absurd h (by decide), fun _ h => absurd h (by decide), fun _ h => absurd h (by decide)⟩
  encoder := ⟨fun h => (by cases h), fun h => (by cases h), fun h => (by cases h), fun h => (by cases h),
    fun h => (by cases h), fun h => (by cases h), fun h => (by cases h), fun h => (by cases h), fun h => (by cases h),
    fun h => (by cases h), fun h => (by cases h), fun h => (by cases h), fun h => (by cases h)⟩
  decoder := ⟨fun _ => by decide, fun _ => by decide, fun _ => by decide, fun _ => rfl, fun _ => by decide,
    fun _ _ h => (by cases h), fun _ h => absurd h (by decide), fun _ x h => (by cases h), fun _ h => (by cases h),
    fun _ => by decide, fun _ => by decide⟩
  regs := ⟨by decide, by decide⟩

theorem encodeStream_wf : (encodeStream true 15#4).wf where
  params := by decide
  memory := ⟨rfl, rfl⟩
  input := ⟨by decide, by decide⟩
  config := ⟨fun h => (by cases h), fun _ => by decide, fun _ => rfl⟩
  writer := ⟨by decide, by decide⟩
  reader := ⟨by decide, by decide, fun l h => (by cases h), by decide, by decide, by decide, by decide⟩
  window := ⟨fun _ => rfl, fun h => (by cases h), fun h => (by cases h), fun h => (by cases h), fun h => (by cases h),
    fun h => (by cases h), fun h => (by cases h), fun h => (by cases h), fun h => (by cases h)⟩
  encoder := ⟨fun _ => by decide, fun _ => by decide, fun _ => by decide, fun _ => by decide,
    fun _ y h => (by cases h), fun _ => initialLitFreq_length, fun _ => List.length_replicate, fun _ _ => rfl,
    fun _ => rfl, fun _ x _ => (at0_initialLitFreq x).trans (Nat.zero_add _).symm, by decide, fun _ => initialLitFreq_le, by decide⟩
  decoder := ⟨fun h => (by cases h), fun h => (by cases h), fun h => (by cases h), fun h => (by cases h),
    fun h => (by cases h), fun h => (by cases h), fun h => (by cases h), fun h => (by cases h), fun h => (by cases h),
    fun h => (by cases h), fun h => (by cases h)⟩
  regs := ⟨by decide, by decide⟩

theorem withInput_wf {s : State} (h : s.wf) (bytes : List Byte) (hlen : bytes.length ≤ s.params.inCap) :
    (withInput bytes s).wf :=
  { params := h.params, memory := ⟨Memory.writeBytes_wf bytes _ h.memory.mem, h.memory.win⟩, input := ⟨Nat.zero_le _, hlen⟩
    config := ⟨h.config.idle, h.config.opened, h.config.store⟩, writer := ⟨h.writer.count, h.writer.acc⟩
    reader := ⟨h.reader.count, h.reader.cache, h.reader.lens, h.reader.clLens, h.reader.clTable, h.reader.litTable,
      h.reader.distTable⟩
    window := ⟨h.window.closed, h.window.cells, h.window.wbits, h.window.cursor, h.window.used, h.window.filled,
      h.window.room, h.window.curSym, h.window.curLen⟩
    encoder := ⟨h.encoder.pos, h.encoder.block, h.encoder.ahead, h.encoder.tally, h.encoder.syms, h.encoder.litFreq,
      h.encoder.distFreq, h.encoder.stored, h.encoder.history, h.encoder.litCounts, h.encoder.distCounts,
      h.encoder.litBound, h.encoder.distBound⟩
    decoder := ⟨h.decoder.hlit, h.decoder.hdist, h.decoder.hclen, h.decoder.clCount, h.decoder.clIdx, h.decoder.entry,
      h.decoder.lens, h.decoder.clSyms, h.decoder.repSym, h.decoder.curDsym, h.decoder.storedRem⟩
    regs := ⟨h.regs.result, h.regs.maxCode⟩ }

/-- A stored block of one byte (LEN = 1, NLEN = 0xFFFE). -/
theorem witness_StoredFinalBlockDecodesToItsBytes :
    ∃ s : State, s.wf ∧ s.err = .none ∧ s.mode = .decode ∧ s.dec.decState = .readingBFinal ∧ s.reader.brCount = 0 ∧
      s.window.winUsed = 0 ∧ (0x01#8).toNat % 8 = 1 ∧ unreadBytes s = storedBlockBytes 0x01#8 [0x61#8] ∧
      ([0x61#8] : List Byte).length ≤ (1#24).toNat ∧ 1 ≤ (1#24).toNat ∧ (1#24).toNat ≤ s.params.outCap :=
  ⟨withInput (storedBlockBytes 0x01#8 [0x61#8]) (decodeStream 9#4), withInput_wf decodeStream_wf _ (by decide), rfl, rfl, rfl, rfl, rfl,
    rfl, by decide, by decide, by decide, by decide⟩

theorem witness_DecodeOutputCompletes :
    ∃ s : State, s.err = .none ∧ s.mode = .decode ∧ (65536#24).toNat ≤ s.params.outCap ∧ InputInRange s ∧
      9 ≤ s.wbits.toNat :=
  ⟨decodeStream 9#4, rfl, rfl, by decide, ⟨by decide, by decide⟩, by decide⟩

/-- A run that ends with an input stall, with EOI set, and one byte in the window; the byte that CAP = 2 has room for is
drained, and MalformedHuffmanCode is raised. -/
theorem witness_DecodeOutputCompletes_stall :
    let s : State :=
      { decodeWith { Decoder.reset with decState := .readingBType, eoi := true } 1 1#32 with
        window := { win := [(0, 0x61#8)], winEnd := 1, winUsed := 1, winFilled := 1 } }
    s.err = .none ∧ s.mode = .decode ∧ (2#24).toNat ≤ s.params.outCap ∧ InputInRange s ∧ 9 ≤ s.wbits.toNat ∧
      s.window.winUsed < (2#24).toNat ∧ s.dec.decState ≠ .done ∧
      (runSteps 1 (drainWindow 2 0 s).2).map Prod.fst = some .needIn ∧
      nextWith (fun t => t.err == .malformedHuffmanCode && t.result == 1#32 && outBytes t.mem 1 == [0x61#8])
        (exec (.produceOutput 2#24) s) = true := by
  refine ⟨rfl, rfl, by decide, ⟨by decide, by decide⟩, by decide, by decide, by decide, by decide, by decide⟩

/-- Three window bytes and CAP = 2, in Done: the oldest two go to OUT_BUF, and the third stays. -/
theorem witness_DecodeOutputCompletes_drain :
    let s : State :=
      { decodeAt .done 0 0#32 with
        window := { win := [(0, 0x63#8), (510, 0x61#8), (511, 0x62#8)], winEnd := 1, winUsed := 3, winFilled := 3 } }
    s.err = .none ∧ s.mode = .decode ∧ (2#24).toNat ≤ s.params.outCap ∧ (2#24).toNat ≤ s.window.winUsed ∧
      s.dec.decState = .done ∧
      nextWith (fun t => t.window.winUsed == 1 && t.result == 2#32 && outBytes t.mem 3 == [0x61#8, 0x62#8, 0#8])
        (exec (.produceOutput 2#24) s) = true := by decide

/-- Every phase that each of the three commands takes. -/
theorem witness_EncodeOutputCompletes :
    ∃ s : State, s.err = .none ∧ s.mode = .encode ∧ (65536#24).toNat ≤ s.params.outCap ∧ InputInRange s ∧
      (s.enc.phase = .running ∨ s.enc.phase = .flushing) :=
  ⟨encodeStream false 15#4, rfl, rfl, by decide, ⟨by decide, by decide⟩, .inl rfl⟩

theorem witness_FinishInFinishedOnlyDrains :
    ∃ s : State, s.err = .none ∧ s.mode = .encode ∧ (1#24).toNat ≤ s.params.outCap ∧ s.enc.phase = .finished ∧
      s.writer.pending = [0x03#8, 0x00#8] :=
  ⟨{ encodeStream false 15#4 with
      enc := { Encoder.reset with phase := .finished }
      writer := { bwAcc := 0#8, bwCount := 0, pending := [0x03#8, 0x00#8] } }, rfl, rfl, by decide, rfl, rfl⟩

/-- R116's example without its other literals: one literal and one match, with the frequencies that R109 counts. -/
theorem witness_BlockCostsAreExact :
    ∃ (tally : List Sym) (litFreq distFreq : List Nat), tally ≠ [] ∧ tally.length ≤ 65535 ∧ (∀ y ∈ tally, y.inRange 32768) ∧
      litFreq.length = 286 ∧ distFreq.length = 30 ∧
      (∀ x, x < 286 → at0 litFreq x = (tally.map Sym.litSymbol).count x + (if x = 256 then 1 else 0)) ∧
      (∀ x, x < 30 → at0 distFreq x = (tally.map Sym.distSymbol).count (some x)) := by
  refine ⟨[.lit 0x61#8, .backRef 9 1], addAt (addAt initialLitFreq 0x61 1) 263 1, addAt (List.replicate 30 0) 0 1,
    by decide, by decide, ?_, by decide +kernel, by decide +kernel, by decide +kernel, by decide +kernel⟩
  simp [Sym.inRange, minMatch, maxMatch]

theorem witness_IdleFlushAndShortInputWriteNothing :
    (∃ s : State, s.err = .none ∧ s.mode = .encode ∧ (0#24).toNat ≤ s.params.outCap ∧
      (s.enc.phase = .running ∨ s.enc.phase = .flushing) ∧ s.input.inPos = s.input.inLen ∧
      s.enc.encPos = s.enc.hist.length ∧ s.enc.tally = [] ∧ s.writer.pending = []) ∧
    (∃ s : State, s.err = .none ∧ s.mode = .encode ∧ (0#24).toNat ≤ s.params.outCap ∧ InputInRange s ∧
      s.enc.phase = .running ∧ s.writer.pending = [] ∧ lookahead s.enc + (s.input.inLen - s.input.inPos) < 262 ∧
      s.enc.encPos ≤ s.enc.hist.length ∧ s.input.inPos < s.input.inLen) :=
  ⟨⟨encodeStream false 15#4, rfl, rfl, by decide, .inl rfl, rfl, rfl, rfl, rfl⟩,
    withInput [0x61#8] (encodeStream false 15#4), rfl, rfl, by decide, ⟨by decide, by decide⟩, rfl, rfl, by decide, by decide,
    by decide⟩

/-- A FLUSH and a FINISH that complete, in STORE_ONLY mode. -/
theorem witness_CompletedFlushAndFinishLeaveNothing :
    nextWith (fun t => t.err == .none && t.enc.phase == .running) (exec (.flush 16#24) (encodeStream true 15#4)) = true ∧
    nextWith (fun t => t.enc.phase == .finished) (exec (.finish 16#24) (encodeStream true 15#4)) = true ∧
    (encodeStream true 15#4).enc.phase ≠ .finished ∧ (encodeStream true 15#4).err = .none ∧
    (16#24).toNat ≤ (encodeStream true 15#4).params.outCap := by decide

/-- An ENCODE stream in a phase, with this history, of which n bytes are tallied. -/
def encodeAt (phase : Phase) (hist : List Byte) (n : Nat) : State :=
  { encodeStream false 15#4 with
    enc := { Encoder.reset with phase := phase, hist := hist, encPos := n, tally := (hist.take n).map Sym.lit } }

/-- A state for each clause, each at the boundary of its range: a pull, a literal, a match with the tally left and one that
fills it, a completed flush with and without a block, a completed finish, and no action. -/
theorem witness_EncoderStepsTakeTheFirstEnabledAction :
    (lookahead (encodeAt .running (List.replicate 261 0x61#8) 0).enc = 261 ∧
      (withInput [0x61#8] (encodeAt .running [] 0)).input.inPos ≠ (withInput [0x61#8] (encodeAt .running [] 0)).input.inLen) ∧
    lookahead (encodeAt .running (List.replicate 262 0x61#8) 0).enc = 262 ∧
    ((encStep (encodeAt .flushing [0x61#8] 0)).map fun t => t.enc.tally) = some [.lit 0x61#8] ∧
    ((encStep (encodeAt .finishing (List.replicate 10 0x61#8) 1)).map fun t => (t.enc.tally, t.enc.encPos)) =
      some ([.lit 0x61#8, .backRef 9 1], 10) ∧
    ((encStep { encodeAt .finishing (List.replicate 10 0x61#8) 1 with storeOnly := true }).map fun t => t.enc.tally) =
      some [.lit 0x61#8, .lit 0x61#8] ∧
    ((encStep { encodeAt .flushing [0x61#8, 0x62#8] 1 with
        storeOnly := true, params := { Params.default with tallyCap := 2 } }).map fun t => (t.enc.tally, t.enc.blockStart)) =
      some ([], 2) ∧
    ((encStep (encodeAt .flushing [] 0)).map fun t => t.enc.phase) = some .running ∧
    ((encStep { encodeAt .flushing [0x61#8] 1 with storeOnly := true }).map fun t => (t.enc.phase, t.enc.tally)) =
      some (.running, []) ∧
    ((encStep { encodeAt .finishing [] 0 with storeOnly := true }).map fun t => t.enc.phase) = some .finished ∧
    (encStep (encodeAt .running [0x61#8] 0)).isNone = true ∧ (encStep (encodeAt .finished [] 0)).isNone = true := by
  decide +kernel

/-- A writer with 7 bits held, and a block at the largest stored length. -/
theorem witness_BlocksAreLaidOutBitByBit :
    ∃ (w : BitWriter) (e : Encoder) (raw : List Byte), w.bwCount = 7 ∧ w.bwAcc.toNat < 2 ^ w.bwCount ∧
      e.blockStart ≤ e.encPos ∧ e.encPos ≤ e.hist.length ∧
      raw = (e.hist.drop e.blockStart).take (e.encPos - e.blockStart) ∧ raw.length = 65535 := by
  refine ⟨{ bwAcc := 0x7F#8, bwCount := 7, pending := [] },
    { Encoder.reset with hist := List.replicate 65535 0x61#8, encPos := 65535 }, _, rfl, by decide, Nat.zero_le _, ?_, rfl, ?_⟩
  · exact (List.length_replicate).ge
  · exact List.length_take.trans ((congrArg (min 65535) List.length_replicate).trans (Nat.min_self 65535))

/-- R64: 'a' is 10010001 and the end-of-block symbol 0000000; R63: a match of length 9 at distance 1 (the block of R116's example). -/
theorem test_compressedBits :
    compressedBits staticLitBits staticDistBits [.lit 0x61#8, .backRef 9 1] =
      [true, false, false, true, false, false, false, true,
       false, false, false, false, true, true, true, false, false, false, false, false,
       false, false, false, false, false, false, false] := by decide

/-- A STORE_ONLY stream, and another, and R116's example: 116 and 27 bits and 10 bytes make a static block; and a STORE_ONLY
block of one byte with the writer on a byte boundary. -/
theorem witness_EmitBlockWritesTheChosenEncoding :
    (encodeStream true 15#4).storeOnly = true ∧ (encodeStream false 15#4).storeOnly = false ∧
    chooseType 116#32 27#32 10 = .static ∧ chooseType 116#32 27#32 0 = .stored ∧ chooseType 26#32 100#32 10 = .dynamic ∧
    ∃ s : State, s.storeOnly = true ∧ s.writer.bwCount = 0 ∧ s.writer.bwAcc = 0#8 ∧ s.enc.encPos ≤ s.enc.hist.length ∧
      s.enc.blockStart ≤ s.enc.encPos ∧ s.enc.encPos - s.enc.blockStart ≤ 65535 ∧ s.enc.blockStart < s.enc.encPos :=
  ⟨by decide, by decide, by decide, by decide, by decide, { encodeAt .running [0x61#8] 1 with storeOnly := true }, rfl, rfl, rfl,
    by decide, by decide, by decide, by decide⟩

theorem witness_StoreOnlyFinishWritesOneStoredBlock :
    ∃ s : State, s.wf ∧ s.err = .none ∧ s.mode = .encode ∧ s.storeOnly = true ∧ s.enc.phase = .running ∧
      s.enc.encPos = s.enc.hist.length ∧ s.enc.tally = [] ∧ s.writer.bwCount = 0 ∧ s.writer.pending = [] ∧
      unreadBytes s = [0x61#8] ∧ ([0x61#8] : List Byte).length < s.params.tallyCap ∧
      ([0x61#8] : List Byte).length + 5 ≤ (6#24).toNat ∧ (6#24).toNat ≤ s.params.outCap :=
  ⟨withInput [0x61#8] (encodeStream true 15#4), withInput_wf encodeStream_wf _ (by decide), rfl, rfl, rfl, rfl, rfl, rfl, rfl, rfl,
    by decide, by decide, by decide, by decide⟩

theorem witness_CodeLengthSymbolsStandForTheLengths : ∀ l ∈ [0, 15, 15, 15, 15, 0, 0, 0], l ≤ 15 := by decide

/-- The ends of the ranges of R60 and R61. -/
theorem witness_LengthAndDistanceCodesCoverTheRanges :
    lenCode 3 = 257 ∧ lenCode 257 = 284 ∧ lenCode 258 = 285 ∧ distCode 1 = 0 ∧ distCode 32768 = 29 ∧
    (lenExtraOf 284, lenExtraOf 285) = (5, 0) ∧ (lenBaseOf 283, lenBaseOf 284) = (195, 227) ∧
    (distExtraOf 3, distExtraOf 4, distExtraOf 29) = (0, 1, 13) ∧ (distBaseOf 28, distBaseOf 29) = (16385, 24577) := by
  decide

theorem witness_CommandsLeaveTablesAndInputAlone :
    paramsLegal State.reset.params = true ∧ exec (.nop 0#24) State.reset = .next State.reset ∧
    (∃ t, exec (.buildTree 2#2) State.reset = .next t) ∧ (∃ t, exec (.reset 0#24) State.reset = .next t) :=
  ⟨by decide, rfl, ⟨_, rfl⟩, ⟨_, rfl⟩⟩

theorem witness_OnlyTheNamedCommandsWriteTheRegisters :
    (∃ t, exec (.configure 1#2 false 15#4) State.reset = .next t) ∧ (∃ t, exec (.flush 0#24) State.reset = .next t) ∧
    (∃ t, exec .endOfInput State.reset = .next t) := ⟨⟨_, rfl⟩, ⟨_, rfl⟩, ⟨_, rfl⟩⟩

theorem witness_OnlyResetLeavesAnError :
    ∃ s t : State, s.err ≠ .none ∧ step s = .next t ∧ t.err ≠ s.err :=
  ⟨withCmd 0x00000001#32 { State.reset with err := .illegalCommand }, State.reset, by decide, by rfl, by decide⟩

theorem witness_NoStepStops :
    ∃ s : State, paramsLegal s.params = true ∧ InputInRange s ∧ StreamConfigured s ∧ s.mode = .decode ∧ s.bus ≠ [] :=
  ⟨withCmd 0x00001004#32 (withInput [0x03#8, 0x00#8] (decodeStream 9#4)), by decide, ⟨by decide, by decide⟩,
    ⟨fun h => (by cases h), fun _ => by decide, fun h => (by cases h)⟩, rfl, by decide⟩

/-- A state that meets every invariant, and a step from it that answers a next state. -/
theorem witness_StepKeepsEveryInvariant :
    ∃ s t : State, s.wf ∧ s.mode = .decode ∧ step s = .next t :=
  ⟨withInput [0x03#8, 0x00#8] (decodeStream 9#4), _, withInput_wf decodeStream_wf _ (by decide), rfl, rfl⟩

/-- The same in ENCODE. -/
theorem witness_StepKeepsTheEncoder :
    ∃ s t : State, s.wf ∧ s.mode = .encode ∧ step s = .next t :=
  ⟨withInput [0x61#8] (encodeStream true 15#4), _, withInput_wf encodeStream_wf _ (by decide), rfl, rfl⟩

end Sys2Proof.Tests
end

section
/-! PROOF. The status register and the register column of the host address map (R26, R29, R33, R50). -/

namespace Sys2Proof.Machine

/-! ### The fields of STATUS (R50) -/

@[simp] theorem statusReg_mode (s : State) : (statusReg s).extractLsb' 0 2 = s.mode.code := BitVec.extractLsb'_append_eq_right

@[simp] theorem statusReg_err (s : State) : (statusReg s).extractLsb' 2 4 = s.err.code :=
  (BitVec.extractLsb'_append_eq_of_le (by decide)).trans BitVec.extractLsb'_append_eq_right

@[simp] theorem statusReg_state (s : State) : (statusReg s).extractLsb' 8 5 = stateField s := by
  unfold statusReg
  iterate 4 rw [BitVec.extractLsb'_append_eq_of_le (by decide)]
  exact BitVec.extractLsb'_append_eq_right

@[simp] theorem statusReg_high (s : State) : (statusReg s).extractLsb' 15 17 = 0#17 := by
  unfold statusReg
  iterate 6 rw [BitVec.extractLsb'_append_eq_of_le (by decide)]
  exact BitVec.extractLsb'_append_eq_left

theorem statusReg_needsInput (s : State) : (statusReg s).getLsbD 6 = needsInput s := by
  simp only [statusReg, BitVec.getLsbD_append]
  simp

theorem statusReg_finished (s : State) : (statusReg s).getLsbD 7 = finished s := by
  simp only [statusReg, BitVec.getLsbD_append]
  simp

theorem statusReg_reserved (s : State) : (statusReg s).getLsbD 13 = false := by
  simp only [statusReg, BitVec.getLsbD_append]
  simp

theorem statusReg_eoi (s : State) : (statusReg s).getLsbD 14 = eoiFlag s := by
  simp only [statusReg, BitVec.getLsbD_append]
  simp

/-! ### The flags (R26) -/

theorem needsInput_iff (s : State) : needsInput s = true ↔ s.input.inPos = s.input.inLen := decide_eq_true_iff

theorem finished_iff (s : State) :
    finished s = true ↔
      (s.mode = .encode ∧ s.enc.phase = .finished ∧ s.writer.pending = []) ∨
      (s.mode = .decode ∧ s.dec.decState = .done ∧ s.window.winUsed = 0) := by
  unfold finished
  cases s.mode <;> simp

theorem eoiFlag_iff (s : State) : eoiFlag s = true ↔ s.mode = .decode ∧ s.dec.eoi = true := by
  unfold eoiFlag
  cases s.mode <;> simp

theorem stateField_idle {s : State} (h : s.mode = .idle) : stateField s = 0#5 := by rw [stateField, h]

theorem stateField_encode {s : State} (h : s.mode = .encode) : stateField s = s.enc.phase.code := by rw [stateField, h]

theorem stateField_decode {s : State} (h : s.mode = .decode) : stateField s = s.dec.decState.code := by rw [stateField, h]

/-! ### Host accesses to the registers (R29, R33) -/

theorem regionFor_some {p : Params} {bits a : Nat} {r : Region} (h : regionFor p bits a = some r) :
    r ∈ regions p ∧ r.accepts bits a = true := by
  have hacc := List.find?_some h
  exact ⟨List.mem_of_find?_eq_some h, hacc⟩

/-- Every space the host may store to lies at FREQ_TAB or above. -/
theorem freqBase_le_base_of_writable {p : Params} {r : Region} (hr : r ∈ regions p) (hw : r.writable = true) :
    freqBase ≤ r.base := by
  simp only [regions, List.mem_cons, List.not_mem_nil, or_false] at hr
  rcases hr with rfl | rfl | rfl | rfl | rfl | rfl | rfl <;> simp [freqBase, inBase, outBase] at hw ⊢

/-- A write below FREQ_TAB, of any width, is refused or meets a register, which is no writable location. -/
theorem storeDatum_below_freqBase {s : State} {bits : Nat} {addr : BitVec 32} (v : Word) (ha : addr.toNat < freqBase) :
    storeDatum s bits addr v = s.mem := by
  unfold storeDatum
  cases h : regionFor s.params bits addr.toNat with
  | none => rfl
  | some r =>
    obtain ⟨hmem, hacc⟩ := regionFor_some h
    have hbase : r.base ≤ addr.toNat := by
      simp only [Region.accepts, Bool.and_eq_true, decide_eq_true_eq] at hacc
      omega
    have hro : ¬ r.writable = true := fun hw => by
      have := freqBase_le_base_of_writable hmem hw
      omega
    simp only [if_neg hro]

theorem hostAccess_write_below_freqBase (s : State) (bits : Nat) {addr : BitVec 32} (v : Word)
    (ha : addr.toNat < freqBase) : hostAccess (.write bits addr v) s = s := by
  rw [hostAccess_write, storeDatum_below_freqBase v ha]

/-- A 32-bit read at the address of register k returns the register. -/
theorem readDatum_register (s : State) {k : Nat} (hk : k < 8) :
    readDatum s 32 (BitVec.ofNat 32 (4 * k)) = readReg s k := by
  have ha : (BitVec.ofNat 32 (4 * k)).toNat = 4 * k := by
    rw [BitVec.toNat_ofNat]
    omega
  have hr : regionFor s.params 32 (4 * k) =
      some { space := .reg, base := 0, size := 32, widths := [32], writable := false } := by
    refine List.find?_cons_of_pos ?_
    simp [Region.accepts]
    omega
  rw [readDatum, ha, hr]
  simp [regionDatum]

/-- Settles O11: the fields of STATUS one by one, and the read and the refused write at 0x04. -/
theorem statusFieldsAreAsLaidOut : Obligations.StatusFieldsAreAsLaidOut := by
  unfold Obligations.StatusFieldsAreAsLaidOut
  intro s
  rw [statusReg_mode, statusReg_err, statusReg_state, statusReg_high, statusReg_needsInput, statusReg_finished,
    statusReg_reserved, statusReg_eoi]
  exact ⟨rfl, rfl, needsInput_iff s, finished_iff s, stateField_decode, stateField_encode, stateField_idle, rfl,
    eoiFlag_iff s, rfl, readDatum_register (k := 1) s (by decide),
    fun bits v => hostAccess_write_below_freqBase s bits v (by decide)⟩

end Sys2Proof.Machine
end

section
/-! PROOF. The length and distance codes (R60 to R62): in an increasing table, `countUpTo` finds the largest code whose base
is not above the value, and the next base bounds what the extra bits have to hold. -/

namespace Sys2Proof.Machine

/-! ### Increasing tables -/

theorem countUpTo_le_length (bases : List Nat) (v : Nat) : countUpTo bases v ≤ bases.length := List.length_filter_le _ _

/-- The entries that `countUpTo` counts are the first entries of an increasing table. -/
theorem lt_countUpTo_iff {v : Nat} {bases : List Nat} (hs : bases.Pairwise (· ≤ ·)) {i : Nat} (hi : i < bases.length) :
    i < countUpTo bases v ↔ bases.getD i 0 ≤ v := by
  induction bases generalizing i with
  | nil => exact absurd hi (Nat.not_lt_zero i)
  | cons b bs ih =>
    obtain ⟨hb, hbs⟩ := List.pairwise_cons.mp hs
    by_cases hv : b ≤ v
    · have hc : countUpTo (b :: bs) v = countUpTo bs v + 1 := by simp [countUpTo, hv]
      cases i with
      | zero => simp [hc, hv]
      | succ i => simpa [hc] using ih hbs (Nat.lt_of_succ_lt_succ hi)
    · have hgt : ∀ x ∈ b :: bs, v < x := by
        intro x hx
        rcases List.mem_cons.mp hx with rfl | hx
        · omega
        · exact Nat.lt_of_lt_of_le (Nat.lt_of_not_le hv) (hb x hx)
      have hc : countUpTo (b :: bs) v = 0 := by simpa [countUpTo] using hgt
      have hx := hgt _ (List.getElem_mem hi)
      rw [hc, List.getD_eq_getElem _ _ hi]
      omega

/-! ### The tables of R60 and R61 -/

theorem lenBase_increasing : (lenBase.take 28).Pairwise (· ≤ ·) := by decide

theorem distBase_increasing : distBase.Pairwise (· ≤ ·) := by decide

theorem lenBaseOf_succ : ∀ s, 257 ≤ s → s ≤ 283 → lenBaseOf (s + 1) = lenBaseOf s + 2 ^ lenExtraOf s := by decide

theorem distBaseOf_succ : ∀ c, c ≤ 28 → distBaseOf (c + 1) = distBaseOf c + 2 ^ distExtraOf c := by decide

theorem distExtraOf_eq : ∀ c, c ≤ 29 → distExtraOf c = if c < 4 then 0 else c / 2 - 1 := by decide

/-! ### `len_code` (R62) -/

theorem lenCode_of_ne {len : Nat} (h : len ≠ 258) : lenCode len = 256 + countUpTo (lenBase.take 28) len := if_neg h

/-- The codes up to `len_code(L)` are those whose base is at most L. -/
theorem le_lenCode_iff {len s : Nat} (hlen : len ≠ 258) (hs : 257 ≤ s) (hs' : s ≤ 284) :
    s ≤ lenCode len ↔ lenBaseOf s ≤ len := by
  have hi : s - 257 < (lenBase.take 28).length := by
    have : (lenBase.take 28).length = 28 := rfl
    omega
  have hbase : (lenBase.take 28).getD (s - 257) 0 = lenBaseOf s := by
    rw [List.getD_eq_getElem _ _ hi, List.getElem_take, lenBaseOf, List.getD_eq_getElem]
  rw [lenCode_of_ne hlen, ← hbase, ← lt_countUpTo_iff lenBase_increasing hi]
  omega

theorem lenCode_le {len : Nat} (hlen : len ≠ 258) : lenCode len ≤ 284 := by
  have : countUpTo (lenBase.take 28) len ≤ 28 := countUpTo_le_length _ _
  rw [lenCode_of_ne hlen]
  omega

theorem le_lenCode {len : Nat} (h : 3 ≤ len) (hlen : len ≠ 258) : 257 ≤ lenCode len :=
  (le_lenCode_iff hlen (by decide) (by decide)).mpr h

theorem lenBaseOf_lenCode_le {len : Nat} (h : 3 ≤ len) (hlen : len ≠ 258) : lenBaseOf (lenCode len) ≤ len :=
  (le_lenCode_iff hlen (le_lenCode h hlen) (lenCode_le hlen)).mp le_rfl

/-- A length is below its code's base plus what the code's extra bits can add: the next base, or 259 for code 284. -/
theorem lt_lenBaseOf_add {len : Nat} (h : 3 ≤ len) (h' : len ≤ 257) :
    len < lenBaseOf (lenCode len) + 2 ^ lenExtraOf (lenCode len) := by
  have hlen : len ≠ 258 := by omega
  have hlo := le_lenCode h hlen
  rcases Nat.lt_or_eq_of_le (lenCode_le hlen) with hlt | heq
  · rw [← lenBaseOf_succ _ hlo (by omega)]
    by_contra hge
    have := (le_lenCode_iff hlen (by omega) hlt).mpr (Nat.le_of_not_lt hge)
    omega
  · have : lenBaseOf 284 + 2 ^ lenExtraOf 284 = 259 := rfl
    rw [heq]
    omega

/-! ### `dist_code` (R62) -/

/-- The codes up to `dist_code(D)` are those whose base is at most D. -/
theorem le_distCode_iff {dist c : Nat} (hd : 1 ≤ dist) (hc : c ≤ 29) : c ≤ distCode dist ↔ distBaseOf c ≤ dist := by
  have hi : ∀ {i}, i ≤ 29 → (i < countUpTo distBase dist ↔ distBaseOf i ≤ dist) := fun hi =>
    lt_countUpTo_iff distBase_increasing (Nat.lt_succ_of_le hi)
  have h0 : 0 < countUpTo distBase dist := (hi (Nat.zero_le 29)).mpr hd
  rw [← hi hc, distCode]
  omega

theorem distCode_le (dist : Nat) : distCode dist ≤ 29 := by
  have : countUpTo distBase dist ≤ 30 := countUpTo_le_length _ _
  rw [distCode]
  omega

theorem distBaseOf_distCode_le {dist : Nat} (hd : 1 ≤ dist) : distBaseOf (distCode dist) ≤ dist :=
  (le_distCode_iff hd (distCode_le dist)).mp le_rfl

/-- A distance is below its code's base plus what the code's extra bits can add: the next base, or 32769 for code 29. -/
theorem lt_distBaseOf_add {dist : Nat} (hd : 1 ≤ dist) (hd' : dist ≤ 32768) :
    dist < distBaseOf (distCode dist) + 2 ^ distExtraOf (distCode dist) := by
  rcases Nat.lt_or_eq_of_le (distCode_le dist) with hlt | heq
  · rw [← distBaseOf_succ _ (Nat.le_of_lt_succ hlt)]
    by_contra hge
    have := (le_distCode_iff hd hlt).mpr (Nat.le_of_not_lt hge)
    omega
  · have : distBaseOf 29 + 2 ^ distExtraOf 29 = 32769 := rfl
    rw [heq]
    omega

/-- Settles O48: the codes are the largest with a base not above the value, since the tables are increasing; the extra values
fit because the next base is the base plus 2 to the extra-bit count. -/
theorem lengthAndDistanceCodesCoverTheRanges : Obligations.LengthAndDistanceCodesCoverTheRanges := by
  unfold Obligations.LengthAndDistanceCodesCoverTheRanges
  refine ⟨rfl, fun len h h' => ?_, fun len h h' => ?_, fun dist hd hd' => ?_, fun _ _ _ => rfl,
    ⟨rfl, rfl, lenBaseOf_succ⟩, distExtraOf_eq, rfl, distBaseOf_succ⟩
  · have hlen : len ≠ 258 := by omega
    exact ⟨le_lenCode h hlen, lenCode_le hlen, lenBaseOf_lenCode_le h hlen,
      fun s hs hs' hb => (le_lenCode_iff hlen hs hs').mpr hb⟩
  · rcases Nat.lt_or_eq_of_le h' with hlt | rfl
    · exact Nat.sub_lt_left_of_lt_add (lenBaseOf_lenCode_le h (Nat.ne_of_lt hlt)) (lt_lenBaseOf_add h (Nat.le_of_lt_succ hlt))
    · decide
  · exact ⟨distCode_le dist, distBaseOf_distCode_le hd, fun c hc hb => (le_distCode_iff hd hc).mpr hb,
      Nat.sub_lt_left_of_lt_add (distBaseOf_distCode_le hd) (lt_distBaseOf_add hd hd')⟩

end Sys2Proof.Machine
end

section
/-! PROOF. Illegal encodings (R44 to R47): the fields of a command word as numbers, the command a word decodes to by its OP,
and what an illegal word or an ill-formed instruction does. -/

namespace Sys2Proof

/-! ### Fields of a command word -/

@[simp] theorem opField_toNat (w : Word) : (opField w).toNat = w.toNat % 256 := by
  simp [opField]

theorem argField_toNat (w : Word) : (argField w).toNat = w.toNat / 2 ^ 8 := by
  have := w.isLt
  rw [argField, BitVec.extractLsb'_toNat, Nat.shiftRight_eq_div_pow]
  omega

theorem argField_getLsbD (w : Word) {i : Nat} (h : i < 24) : (argField w).getLsbD i = w.getLsbD (8 + i) := by
  simp [argField, h]

theorem argField_extractLsb'_toNat (w : Word) (start len : Nat) :
    ((argField w).extractLsb' start len).toNat = w.toNat / 2 ^ (8 + start) % 2 ^ len := by
  rw [BitVec.extractLsb'_toNat, argField_toNat, Nat.shiftRight_eq_div_pow, Nat.div_div_eq_div_mul, ← Nat.pow_add]

/-! ### Decoding by OP (R45) -/

theorem decode_nop {w : Word} (h : w.toNat % 256 = 0) : decode w = .ok (.nop (argField w)) := by
  simp only [decode, opField_toNat, h]

theorem decode_reset {w : Word} (h : w.toNat % 256 = 1) : decode w = .ok (.reset (argField w)) := by
  simp only [decode, opField_toNat, h]

theorem decode_configure {w : Word} (h : w.toNat % 256 = 2) : decode w = decodeConfigure (argField w) := by
  simp only [decode, opField_toNat, h]

theorem decode_endOfInput {w : Word} (h : w.toNat % 256 = 7) : decode w = decodeEndOfInput (argField w) := by
  simp only [decode, opField_toNat, h]

theorem decode_buildTree {w : Word} (h : w.toNat % 256 = 8) : decode w = decodeBuildTree (argField w) := by
  simp only [decode, opField_toNat, h]

theorem decode_illegalOp {w : Word} (h : 9 ≤ w.toNat % 256) : decode w = .error (.illegalOp (opField w)) := by
  unfold decode
  rw [opField_toNat]
  split
  case h_10 => rfl
  all_goals omega

/-! ### What an accepted word holds (R46, R47) -/

/-- A CONFIGURE word that is a command has its reserved bits 0, and its operands are its fields. -/
theorem decode_configure_ok {w : Word} {i : Instr} (h : w.toNat % 256 = 2) (hi : decode w = .ok i) :
    w.getLsbD 11 = false ∧ w.toNat / 2 ^ 16 = 0 ∧
    ∃ mode wbits, i = .configure mode (w.getLsbD 10) wbits ∧
      mode.toNat = w.toNat / 2 ^ 8 % 4 ∧ wbits.toNat = w.toNat / 2 ^ 12 % 16 := by
  rw [decode_configure h, decodeConfigure] at hi
  split at hi
  case isFalse => cases hi
  case isTrue hres =>
    cases hi
    obtain ⟨hbit, hhigh⟩ := hres
    have hbit : (argField w).getLsbD 3 = false := by
      have := congrArg (·.getLsbD 0) hbit
      simpa using this
    have hhigh : w.toNat / 2 ^ 16 % 2 ^ 16 = 0 := (argField_extractLsb'_toNat w 8 16).symm.trans (congrArg BitVec.toNat hhigh)
    rw [argField_getLsbD w (by decide)] at hbit
    have := w.isLt
    exact ⟨hbit, by omega, _, _, by rw [argField_getLsbD w (by decide)], argField_extractLsb'_toNat w 0 2,
      argField_extractLsb'_toNat w 4 4⟩

/-- An END_OF_INPUT word that is a command has ARG = 0. -/
theorem decode_endOfInput_ok {w : Word} {i : Instr} (h : w.toNat % 256 = 7) (hi : decode w = .ok i) :
    w.toNat / 2 ^ 8 = 0 := by
  rw [decode_endOfInput h, decodeEndOfInput] at hi
  split at hi
  case isFalse => cases hi
  case isTrue harg => rw [← argField_toNat, harg, BitVec.toNat_ofNat]

/-- A BUILD_TREE word that is a command has ARG[23:2] = 0, and its operand is ALPHA. -/
theorem decode_buildTree_ok {w : Word} {i : Instr} (h : w.toNat % 256 = 8) (hi : decode w = .ok i) :
    w.toNat / 2 ^ 10 = 0 ∧ ∃ alpha, i = .buildTree alpha ∧ alpha.toNat = w.toNat / 2 ^ 8 % 4 := by
  rw [decode_buildTree h, decodeBuildTree] at hi
  split at hi
  case isFalse => cases hi
  case isTrue hhigh =>
    cases hi
    have hhigh : w.toNat / 2 ^ 10 % 2 ^ 22 = 0 := (argField_extractLsb'_toNat w 2 22).symm.trans (congrArg BitVec.toNat hhigh)
    have := w.isLt
    exact ⟨by omega, _, rfl, argField_extractLsb'_toNat w 0 2⟩

/-! ### Legal operand fields (R46, R155) -/

theorem configure_wellFormed_iff (mode : BitVec 2) (storeOnly : Bool) (wbits : BitVec 4) :
    (Instr.configure mode storeOnly wbits).wellFormed = true ↔
      (mode.toNat = 1 ∨ mode.toNat = 2) ∧ (storeOnly = true → mode.toNat = 1) ∧ 9 ≤ wbits.toNat := by
  cases storeOnly <;>
    simp [Instr.wellFormed, modeFieldLegal, storeOnlyFieldLegal, wbitsFieldLegal, BitVec.toNat_eq, BitVec.le_def, and_assoc]

theorem buildTree_wellFormed_iff (alpha : BitVec 2) : (Instr.buildTree alpha).wellFormed = true ↔ alpha.toNat ≠ 3 := by
  simp [Instr.wellFormed, alphaFieldLegal, BitVec.toNat_eq]

/-- R47's list of illegal encodings, over the word as a number. -/
def IllegalEncoding (w : Word) : Prop :=
  9 ≤ w.toNat % 256 ∨
  (w.toNat % 256 = 2 ∧
    ((w.toNat / 2 ^ 8) % 4 = 0 ∨ (w.toNat / 2 ^ 8) % 4 = 3 ∨ (w.getLsbD 10 = true ∧ (w.toNat / 2 ^ 8) % 4 ≠ 1) ∨
      (w.toNat / 2 ^ 12) % 16 < 9 ∨ w.getLsbD 11 = true ∨ w.toNat / 2 ^ 16 ≠ 0)) ∨
  (w.toNat % 256 = 7 ∧ w.toNat / 2 ^ 8 ≠ 0) ∨
  (w.toNat % 256 = 8 ∧ ((w.toNat / 2 ^ 8) % 4 = 3 ∨ w.toNat / 2 ^ 10 ≠ 0))

/-- No word of R47's list decodes to an instruction with legal operands. -/
theorem IllegalEncoding.not_wellFormed {w : Word} {i : Instr} (h : IllegalEncoding w) (hi : decode w = .ok i) :
    i.wellFormed = false := by
  rcases h with hop | ⟨hop, hfields⟩ | ⟨hop, harg⟩ | ⟨hop, halpha⟩
  · rw [decode_illegalOp hop] at hi
    cases hi
  · obtain ⟨hbit, hhigh, mode, wbits, rfl, hmode, hwbits⟩ := decode_configure_ok hop hi
    rw [← Bool.not_eq_true, configure_wellFormed_iff]
    rintro ⟨hm, hst, hw⟩
    rcases hfields with hf | hf | ⟨hf, hf'⟩ | hf | hf | hf
    · omega
    · omega
    · exact hf' (hmode.symm.trans (hst hf))
    · omega
    · rw [hbit] at hf
      cases hf
    · exact hf hhigh
  · exact absurd (decode_endOfInput_ok hop hi) harg
  · obtain ⟨hhigh, alpha, rfl, ha⟩ := decode_buildTree_ok hop hi
    rw [← Bool.not_eq_true, buildTree_wellFormed_iff, not_not, ha]
    exact halpha.resolve_right (not_not.mpr hhigh)

end Sys2Proof

namespace Sys2Proof.Machine

/-! ### Illegal commands (R152, R163) -/

theorem runCommand_illegal {legal : Bool} (effect : State → Result) {s : State} (hs : s.err = .none) (hl : legal = false) :
    runCommand legal effect s = .next (illegalCommand s) := by
  rw [runCommand, if_neg (not_not.mpr hs), hl]
  rfl

/-- The legality check of CONFIGURE's operands is `Instr.wellFormed`. -/
theorem configureFieldsLegal_eq_wellFormed (mode : BitVec 2) (storeOnly : Bool) (wbits : BitVec 4) :
    configureFieldsLegal mode storeOnly wbits = (Instr.configure mode storeOnly wbits).wellFormed := by
  revert mode storeOnly wbits
  decide

/-- The legality check of BUILD_TREE's operand is `Instr.wellFormed`. -/
theorem alphabetOfField_isSome_eq_wellFormed (alpha : BitVec 2) :
    (alphabetOfField alpha).isSome = (Instr.buildTree alpha).wellFormed := by
  revert alpha
  decide

theorem exec_of_not_wellFormed {i : Instr} {s : State} (hs : s.err = .none) (h : i.wellFormed = false) :
    exec i s = .next (illegalCommand s) := by
  cases i with
  | configure mode storeOnly wbits =>
    rw [exec, execConfigure, runCommand_illegal _ hs]
    rw [configureLegal, configureFieldsLegal_eq_wellFormed, h, Bool.and_false]
  | buildTree alpha =>
    rw [exec, execBuildTree, runCommand_illegal _ hs]
    rw [alphabetOfField_isSome_eq_wellFormed, h, Bool.and_false]
  | nop | reset | setInput | produceOutput | flush | finish | endOfInput => cases h

/-- A word that decodes to no instruction with legal operands is an illegal command. -/
theorem runWord_of_not_wellFormed {w : Word} {s : State} (hs : s.err = .none)
    (h : ∀ i, decode w = .ok i → i.wellFormed = false) : runWord w s = .next (illegalCommand s) := by
  rcases runWord_cases w s with ⟨i, hi, hr⟩ | ⟨_, -, hne, -⟩ | ⟨_, -, -, hr⟩
  · exact hr.trans (exec_of_not_wellFormed hs (h i hi))
  · exact absurd hs hne
  · exact hr

theorem runWord_of_decode_ok {w : Word} {i : Instr} (h : decode w = .ok i) (s : State) : runWord w s = exec i s := by
  rw [runWord, h]

theorem runWord_nop {w : Word} (h : w.toNat % 256 = 0) (s : State) : runWord w s = .next s :=
  runWord_of_decode_ok (decode_nop h) s

theorem runWord_reset {w : Word} (h : w.toNat % 256 = 1) (s : State) : runWord w s = .next (resetBlock s) :=
  runWord_of_decode_ok (decode_reset h) s

/-- Settles O20: a word of R47's list decodes to nothing or to an ill-formed instruction, and both are illegal commands. -/
theorem illegalEncodingsRecordIllegalCommand : Obligations.IllegalEncodingsRecordIllegalCommand := by
  unfold Obligations.IllegalEncodingsRecordIllegalCommand
  intro s w hs
  exact ⟨fun h => runWord_of_not_wellFormed hs fun _ => IllegalEncoding.not_wellFormed h,
    fun _ => exec_of_not_wellFormed hs, fun h => runWord_nop h s,
    fun h => (runWord_reset h s).trans (runWord_reset rfl s).symm⟩

end Sys2Proof.Machine
end

section
/-! PROOF. The bit reader and the bit writer as bit sequences (R31, R66 to R73): `bitsOf` of two values side by side, what
one turn of `PutBits` appends, and that `Load` moves bytes from the input to the cache and leaves the stream as it was. -/

namespace Sys2Proof.Machine

/-! ### Bit sequences (R31) -/

@[simp] theorem bitsOf_zero_left (v : Nat) : bitsOf 0 v = [] := rfl

@[simp] theorem bitsOf_length (n v : Nat) : (bitsOf n v).length = n := by
  induction n generalizing v with
  | zero => rfl
  | succ n ih => rw [bitsOf, List.length_cons, ih]

@[simp] theorem bitsOf_zero_right (n : Nat) : bitsOf n 0 = List.replicate n false := by
  induction n with
  | zero => rfl
  | succ n ih => rw [bitsOf, Nat.zero_div, ih]; rfl

@[simp] theorem bitsOf_one_toNat (b : Bool) : bitsOf 1 b.toNat = [b] := by cases b <;> rfl

theorem bitsOf_add (m n v : Nat) : bitsOf (m + n) v = bitsOf m v ++ bitsOf n (v / 2 ^ m) := by
  induction m generalizing v with
  | zero => simp
  | succ m ih => rw [Nat.succ_add, bitsOf, bitsOf, ih, Nat.div_div_eq_div_mul, ← Nat.pow_succ', List.cons_append]

@[simp] theorem bitsOf_mod (n v : Nat) : bitsOf n (v % 2 ^ n) = bitsOf n v := by
  induction n generalizing v with
  | zero => rfl
  | succ n ih =>
    have hdiv : v % 2 ^ (n + 1) / 2 = v / 2 % 2 ^ n := by rw [Nat.pow_succ', Nat.mod_mul_right_div_self]
    rw [bitsOf, bitsOf, hdiv, ih, Nat.mod_mod_of_dvd v (Dvd.intro_left _ (Nat.pow_succ ..).symm)]

@[simp] theorem byteBits_nil : byteBits [] = [] := rfl

@[simp] theorem byteBits_cons (b : Byte) (bytes : List Byte) : byteBits (b :: bytes) = bitsOf 8 b.toNat ++ byteBits bytes :=
  rfl

@[simp] theorem byteBits_append (xs ys : List Byte) : byteBits (xs ++ ys) = byteBits xs ++ byteBits ys :=
  List.flatMap_append

/-! ### A word put in above the bits in use (R66, R71) -/

/-- A word of n bits shifted above m bits in use loses none of them, and OR is the sum. -/
theorem toNat_or_shiftLeft {k m n : Nat} {x y : BitVec k} (hx : x.toNat < 2 ^ m) (hy : y.toNat < 2 ^ n) (hk : m + n ≤ k) :
    (x ||| y <<< m).toNat = x.toNat + 2 ^ m * y.toNat := by
  have hfit : 2 ^ m * y.toNat < 2 ^ k :=
    calc 2 ^ m * y.toNat < 2 ^ m * 2 ^ n := Nat.mul_lt_mul_of_pos_left hy (Nat.two_pow_pos m)
      _ = 2 ^ (m + n) := (Nat.pow_add ..).symm
      _ ≤ 2 ^ k := Nat.pow_le_pow_right (by decide) hk
  rw [BitVec.toNat_or, BitVec.toNat_shiftLeft, Nat.shiftLeft_eq, Nat.mul_comm, Nat.mod_eq_of_lt hfit, Nat.lor_comm,
    ← Nat.two_pow_add_eq_or_of_lt hx, Nat.add_comm]

theorem toNat_or_shiftLeft_lt {k m n : Nat} {x y : BitVec k} (hx : x.toNat < 2 ^ m) (hy : y.toNat < 2 ^ n)
    (hk : m + n ≤ k) : (x ||| y <<< m).toNat < 2 ^ (m + n) := by
  rw [toNat_or_shiftLeft hx hy hk, Nat.pow_add]
  calc x.toNat + 2 ^ m * y.toNat < 2 ^ m * (y.toNat + 1) := by rw [Nat.mul_succ]; omega
    _ ≤ 2 ^ m * 2 ^ n := Nat.mul_le_mul_left _ hy

theorem bitsOf_or_shiftLeft {k m n : Nat} {x y : BitVec k} (hx : x.toNat < 2 ^ m) (hy : y.toNat < 2 ^ n)
    (hk : m + n ≤ k) : bitsOf (m + n) (x ||| y <<< m).toNat = bitsOf m x.toNat ++ bitsOf n y.toNat := by
  have hlow : (x.toNat + 2 ^ m * y.toNat) % 2 ^ m = x.toNat := by rw [Nat.add_mul_mod_self_left, Nat.mod_eq_of_lt hx]
  have hhigh : (x.toNat + 2 ^ m * y.toNat) / 2 ^ m = y.toNat := by
    rw [Nat.add_mul_div_left _ _ (Nat.two_pow_pos m), Nat.div_eq_of_lt hx, Nat.zero_add]
  rw [toNat_or_shiftLeft hx hy hk, bitsOf_add, hhigh, ← bitsOf_mod m, hlow]

/-! ### Bit writer (R71, R73) -/

/-- R18's invariant on the bit writer alone. -/
structure BitWriter.InRange (w : BitWriter) : Prop where
  count : w.bwCount < 8
  acc : w.bwAcc.toNat < 2 ^ w.bwCount

theorem writerInRange_iff (s : State) : WriterInRange s ↔ s.writer.InRange :=
  ⟨fun h => ⟨h.count, h.acc⟩, fun h => ⟨h.count, h.acc⟩⟩

/-- A writer whose accumulator has just gone to `pending` as a byte. -/
theorem writerBits_byteDone (pending : List Byte) (acc : Byte) :
    writerBits { bwAcc := 0#8, bwCount := 0, pending := pending ++ [acc] } = byteBits pending ++ bitsOf 8 acc.toNat := by
  rw [writerBits, byteBits_append, byteBits_cons]
  simp only [bitsOf_zero_left, byteBits_nil, List.append_nil]

theorem emptyAcc_inRange (pending : List Byte) : BitWriter.InRange { bwAcc := 0#8, bwCount := 0, pending := pending } :=
  ⟨by simp, by simp⟩

/-- One turn of `PutBits` appends its bit and keeps R18's invariant. -/
theorem putBit_spec {w : BitWriter} (h : w.InRange) (b : Bool) :
    writerBits (putBit b w) = writerBits w ++ [b] ∧ (putBit b w).InRange := by
  have hb : ((BitVec.ofBool b).setWidth 8).toNat = b.toNat := by cases b <;> rfl
  have hone : ((BitVec.ofBool b).setWidth 8).toNat < 2 ^ 1 := hb ▸ b.toNat_lt
  have hbits := bitsOf_or_shiftLeft h.acc hone h.count
  have hlt := toNat_or_shiftLeft_lt h.acc hone h.count
  rw [hb, bitsOf_one_toNat] at hbits
  unfold putBit
  by_cases hfull : w.bwCount + 1 = 8
  · rw [hfull] at hbits
    rw [if_pos hfull, writerBits_byteDone, hbits, ← List.append_assoc]
    exact ⟨rfl, emptyAcc_inRange _⟩
  · rw [if_neg hfull, writerBits, hbits, ← List.append_assoc]
    exact ⟨rfl, lt_of_le_of_ne h.count hfull, hlt⟩

theorem putBits_spec (n : Nat) : ∀ {w : BitWriter} (v : Nat), w.InRange →
    writerBits (putBits v n w) = writerBits w ++ bitsOf n v ∧ (putBits v n w).InRange := by
  induction n with
  | zero => exact fun _ h => ⟨(List.append_nil _).symm, h⟩
  | succ n ih =>
    intro w v h
    obtain ⟨hbit, hw⟩ := putBit_spec h (v % 2 == 1)
    obtain ⟨hbits, hw'⟩ := ih (v / 2) hw
    exact ⟨by rw [putBits, hbits, hbit, List.append_assoc]; rfl, hw'⟩

/-- The accumulator read as a whole byte: the bits in use, then zero bits. -/
theorem bitsOf_eight_acc {w : BitWriter} (h : w.InRange) :
    bitsOf 8 w.bwAcc.toNat = bitsOf w.bwCount w.bwAcc.toNat ++ List.replicate (8 - w.bwCount) false := by
  have hsplit := bitsOf_add w.bwCount (8 - w.bwCount) w.bwAcc.toNat
  rwa [Nat.add_sub_of_le h.count.le, Nat.div_eq_of_lt h.acc, bitsOf_zero_right] at hsplit

theorem alignWriter_spec {w : BitWriter} (h : w.InRange) :
    writerBits (alignWriter w) = writerBits w ++ List.replicate ((8 - w.bwCount) % 8) false ∧
    (alignWriter w).bwCount = 0 ∧ (alignWriter w).bwAcc = 0#8 := by
  unfold alignWriter
  by_cases hpos : 0 < w.bwCount
  · have hpad : (8 - w.bwCount) % 8 = 8 - w.bwCount := Nat.mod_eq_of_lt (by omega)
    rw [if_pos hpos, writerBits_byteDone, bitsOf_eight_acc h, hpad, ← List.append_assoc]
    exact ⟨rfl, rfl, rfl⟩
  · have hcount : w.bwCount = 0 := Nat.eq_zero_of_not_pos hpos
    have hacc : w.bwAcc.toNat < 1 := by simpa [hcount] using h.acc
    rw [if_neg hpos]
    exact ⟨by simp [hcount], hcount, BitVec.eq_of_toNat_eq (Nat.lt_one_iff.mp hacc)⟩

/-- Settles O29: bit by bit for `PutBits`; `AlignWriter` moves the accumulator out with its unused bits, which are 0. -/
theorem writerAppendsTheBits : Obligations.WriterAppendsTheBits := by
  unfold Obligations.WriterAppendsTheBits
  intro w v n hcount hacc
  obtain ⟨hbits, hw⟩ := putBits_spec n v ⟨hcount, hacc⟩
  exact ⟨⟨hbits, hw.count, hw.acc⟩, alignWriter_spec ⟨hcount, hacc⟩⟩

/-! ### Bit reader (R66, R68) -/

theorem unreadBytes_cons {s : State} (h : s.input.inPos < s.input.inLen) :
    unreadBytes s = inByte s.mem s.input.inPos ::
      unreadBytes { s with input := { s.input with inPos := s.input.inPos + 1 } } := by
  have hlen : s.input.inLen - s.input.inPos = s.input.inLen - (s.input.inPos + 1) + 1 := by omega
  simp only [unreadBytes, hlen, List.range_succ_eq_map, List.map_cons, List.map_map, Nat.add_zero, List.cons.injEq,
    true_and]
  exact List.map_congr_left fun j _ => congrArg (inByte s.mem) (Nat.succ_add_eq_add_succ s.input.inPos j).symm

theorem unreadBytes_exhausted {s : State} (h : s.input.inLen ≤ s.input.inPos) : unreadBytes s = [] := by
  rw [unreadBytes, Nat.sub_eq_zero_of_le h]
  rfl

/-- R66: with at most 25 bits asked for, `Load` moves bytes from the input to a valid cache, which stays valid, and the
stream left is the same. -/
theorem loadLoop_stream {n : Nat} (hn : n ≤ 25) (s : State) (fuel : Nat) : ∀ (inp : Input) (r : BitReader),
    r.brCache.toNat < 2 ^ r.brCount →
    unreadStream { s with input := (loadLoop s.mem n fuel inp r).1, reader := (loadLoop s.mem n fuel inp r).2 } =
      unreadStream { s with input := inp, reader := r } ∧
    (loadLoop s.mem n fuel inp r).2.brCache.toNat < 2 ^ (loadLoop s.mem n fuel inp r).2.brCount := by
  induction fuel with
  | zero => exact fun _ _ h => ⟨rfl, h⟩
  | succ fuel ih =>
    intro inp r h
    simp only [loadLoop]
    split
    · next hpull =>
      obtain ⟨hcount, hpos⟩ := hpull
      have hbyte : ((inByte s.mem inp.inPos).setWidth 32).toNat = (inByte s.mem inp.inPos).toNat :=
        BitVec.toNat_setWidth_of_le (by decide)
      have hy : ((inByte s.mem inp.inPos).setWidth 32).toNat < 2 ^ 8 := hbyte.trans_lt (BitVec.isLt _)
      have hbits := bitsOf_or_shiftLeft h hy (by omega)
      obtain ⟨hstream, hvalid⟩ := ih { inp with inPos := inp.inPos + 1 }
        { brCache := r.brCache ||| ((inByte s.mem inp.inPos).setWidth 32 <<< r.brCount), brCount := r.brCount + 8 }
        (toNat_or_shiftLeft_lt h hy (by omega))
      refine ⟨hstream.trans ?_, hvalid⟩
      simp only [unreadStream]
      rw [unreadBytes_cons (s := { s with input := inp, reader := r }) hpos, byteBits_cons, hbits, hbyte, List.append_assoc]
      rfl
    · exact ⟨rfl, h⟩

theorem load_stream {n : Nat} {s : State} (hn : n ≤ 25) (h : s.reader.brCache.toNat < 2 ^ s.reader.brCount) :
    unreadStream (load n s) = unreadStream s ∧ (load n s).reader.brCache.toNat < 2 ^ (load n s).reader.brCount :=
  loadLoop_stream hn s n s.input s.reader h

/-- R69: the n oldest cached bits are the next n bits of the stream, and `DropBits(n)` leaves the rest. -/
theorem unreadStream_dropBits {n : Nat} {s : State} (h : n ≤ s.reader.brCount) :
    unreadStream s = bitsOf n s.reader.brCache.toNat ++ unreadStream { s with reader := dropBits n s.reader } := by
  have hsplit := bitsOf_add n (s.reader.brCount - n) s.reader.brCache.toNat
  rw [Nat.add_sub_of_le h, ← Nat.shiftRight_eq_div_pow, ← BitVec.toNat_ushiftRight] at hsplit
  rw [unreadStream, hsplit, List.append_assoc]
  rfl

theorem dropBits_valid {n : Nat} {r : BitReader} (hn : n ≤ r.brCount) (h : r.brCache.toNat < 2 ^ r.brCount) :
    (dropBits n r).brCache.toNat < 2 ^ (dropBits n r).brCount := by
  rw [dropBits_brCache, dropBits_brCount, BitVec.toNat_ushiftRight, Nat.shiftRight_eq_div_pow]
  refine Nat.div_lt_of_lt_mul ?_
  rwa [← Nat.pow_add, Nat.add_sub_of_le hn]

theorem getBits_some {n v : Nat} {s t : State} (hn : n ≤ 25) (h : s.reader.brCache.toNat < 2 ^ s.reader.brCount)
    (hg : getBits n s = (some v, t)) : unreadStream s = bitsOf n v ++ unreadStream t := by
  rcases getBits_cases n s with ⟨hc, he⟩ | ⟨-, he⟩
  · cases he.symm.trans hg
    rw [bitsOf_mod, ← unreadStream_dropBits hc, (load_stream hn h).1]
  · cases he.symm.trans hg

theorem getBits_none {n : Nat} {s t : State} (hn : n ≤ 25) (h : s.reader.brCache.toNat < 2 ^ s.reader.brCount)
    (hg : getBits n s = (none, t)) :
    unreadStream t = unreadStream s ∧ (unreadStream s).length < n ∧ t.input.inLen ≤ t.input.inPos := by
  rcases getBits_cases n s with ⟨-, he⟩ | ⟨hc, he⟩
  · cases he.symm.trans hg
  · cases he.symm.trans hg
    have hs := (load_stream hn h).1
    obtain ⟨hlen, -, -, -, -, -, henough⟩ := load_spec n s
    have hend : (load n s).input.inLen ≤ (load n s).input.inPos := hlen ▸ henough.resolve_left (Nat.not_le_of_lt hc)
    refine ⟨hs, ?_, hend⟩
    rw [← hs, unreadStream, unreadBytes_exhausted hend]
    simpa using hc

theorem getBits_frame {n : Nat} {o : Option Nat} {s t : State} (hg : getBits n s = (o, t)) :
    t = { s with reader := t.reader, input := { s.input with inPos := t.input.inPos } } := by
  have hlen : t.input.inLen = s.input.inLen := by
    rcases getBits_cases n s with ⟨-, he⟩ | ⟨-, he⟩ <;> (cases he.symm.trans hg; exact (load_spec n s).1)
  have hinput : ({ inLen := s.input.inLen, inPos := t.input.inPos } : Input) = t.input := by rw [← hlen]
  rw [hinput]
  exact getBits_consuming hg

/-- R17, R66: `GetBits` keeps the cache valid and within 23 bits. -/
theorem getBits_reader {n : Nat} {o : Option Nat} {s t : State} (hn : n ≤ 16) (hcount : s.reader.brCount ≤ 23)
    (h : s.reader.brCache.toNat < 2 ^ s.reader.brCount) (hg : getBits n s = (o, t)) :
    t.reader.brCount ≤ 23 ∧ t.reader.brCache.toNat < 2 ^ t.reader.brCount := by
  obtain ⟨-, -, -, -, -, hmax, -⟩ := load_spec n s
  have hle : (load n s).reader.brCount ≤ 23 := hmax.trans (by omega)
  have hvalid := (load_stream (Nat.le_trans hn (by decide)) h).2
  rcases getBits_cases n s with ⟨hc, he⟩ | ⟨-, he⟩
  · cases he.symm.trans hg
    exact ⟨(Nat.sub_le ..).trans hle, dropBits_valid hc hvalid⟩
  · cases he.symm.trans hg
    exact ⟨hle, hvalid⟩

/-- Settles O30: `Load` leaves the stream as it was, and the value is its first n bits, taken off by `DropBits`. -/
theorem getBitsReadsTheNextBits : Obligations.GetBitsReadsTheNextBits := by
  unfold Obligations.GetBitsReadsTheNextBits
  intro n s hn hcount hvalid
  have hn' : n ≤ 25 := Nat.le_trans hn (by decide)
  exact ⟨fun v t hg => ⟨getBits_lt hg, getBits_some hn' hvalid hg⟩, fun t hg => getBits_none hn' hvalid hg,
    fun o t hg => ⟨getBits_frame hg, getBits_reader hn hcount hvalid hg⟩⟩

end Sys2Proof.Machine
end

section
/-! PROOF. The decode window as a ring (R77 to R79): which addresses of the ring differ, what the byte `back` positions before
the cursor is after one write, and from these, write by write, what a back-reference leaves. -/

namespace Sys2Proof.Machine

/-! ### Positions in the ring -/

/-- Fewer than W positions ahead of a position of the ring there is another position. -/
theorem ring_add_ne {w e j : Nat} (he : e < w) (hpos : 0 < j) (hlt : j < w) : (e + j) % w ≠ e := by
  rcases Nat.lt_or_ge (e + j) w with h | h
  · rw [Nat.mod_eq_of_lt h]
    omega
  · rw [Nat.mod_eq_sub_mod h, Nat.mod_eq_of_lt (by omega)]
    omega

/-- One position further before the advanced cursor is the same position of the ring. -/
theorem ring_back_succ {w e back : Nat} (he : e < w) (hback : back < w) :
    ((e + 1) % w + w - (back + 1)) % w = (e + w - back) % w := by
  rcases Nat.lt_or_ge (e + 1) w with h | h
  · rw [Nat.mod_eq_of_lt h]
    congr 1
    omega
  · obtain rfl : w = e + 1 := by omega
    rw [Nat.mod_self, ← Nat.add_mod_right]
    congr 1
    omega

/-- The i-th turn of the rest of a copy writes where turn i + 1 of the whole copy does. -/
theorem ring_cursor_succ (w e i : Nat) : ((e + 1) % w + i) % w = (e + (i + 1)) % w := by
  rw [Nat.mod_add_mod, Nat.add_assoc, Nat.add_comm 1]

/-! ### One write (R78) -/

/-- The byte just written is one before the cursor. -/
theorem windowByte_writeLiteral_one {w : Nat} {x : Window} (b : Byte) (hwf : Memory.wf x.win = true) (he : x.winEnd < w) :
    windowByte w (writeLiteral w b x) 1 = b := by
  rw [windowByte, writeLiteral_winEnd, writeLiteral_win, ring_back_succ he (Nat.zero_lt_of_lt he), Nat.sub_zero,
    Nat.add_mod_right, Nat.mod_eq_of_lt he, Memory.read_write_self _ b hwf]

/-- The last W − 1 bytes written before move one away from the cursor. -/
theorem windowByte_writeLiteral_succ {w back : Nat} {x : Window} (b : Byte) (he : x.winEnd < w) (hpos : 0 < back)
    (hlt : back < w) : windowByte w (writeLiteral w b x) (back + 1) = windowByte w x back := by
  have hne : (x.winEnd + w - back) % w ≠ x.winEnd := by
    rw [Nat.add_sub_assoc hlt.le]
    exact ring_add_ne he (by omega) (by omega)
  rw [windowByte, writeLiteral_winEnd, writeLiteral_win, ring_back_succ he hlt, Memory.read_write_other b hne, windowByte]

/-- The step of a copy's induction: in the window after its first byte, the source of turn i of the rest is the source of
turn i + 1 of the whole. At the end of a repetition that is the byte just written. -/
theorem windowByte_repeat_succ {w dist : Nat} {x : Window} (i : Nat) (hwf : Memory.wf x.win = true) (he : x.winEnd < w)
    (hpos : 1 ≤ dist) (hdist : dist ≤ w) :
    windowByte w (writeLiteral w (windowByte w x dist) x) (dist - i % dist) = windowByte w x (dist - (i + 1) % dist) := by
  have hlt : i % dist < dist := Nat.mod_lt i hpos
  rw [← Nat.mod_add_mod i dist 1]
  rcases Nat.lt_or_ge (i % dist + 1) dist with h | h
  · have hback : dist - i % dist = dist - (i % dist + 1) + 1 := by omega
    rw [Nat.mod_eq_of_lt h, hback, windowByte_writeLiteral_succ _ he (by omega) (by omega)]
  · have hlast : i % dist + 1 = dist := by omega
    have hone : dist - i % dist = 1 := by omega
    rw [hlast, Nat.mod_self, Nat.sub_zero, hone, windowByte_writeLiteral_one _ hwf he]

/-! ### A back-reference (R79) -/

theorem writeBackReference_winEnd {w : Nat} (len dist : Nat) {x : Window} (he : x.winEnd < w) :
    (writeBackReference w len dist x).winEnd = (x.winEnd + len) % w := by
  induction len generalizing x with
  | zero => exact (Nat.mod_eq_of_lt he).symm
  | succ len ih =>
    rw [writeBackReference, ih (Nat.mod_lt _ (Nat.zero_lt_of_lt he)), writeLiteral_winEnd, ring_cursor_succ]

theorem writeBackReference_winUsed (w len dist : Nat) (x : Window) :
    (writeBackReference w len dist x).winUsed = x.winUsed + len := by
  induction len generalizing x with
  | zero => rfl
  | succ len ih => rw [writeBackReference, ih, writeLiteral_winUsed, Nat.add_assoc, Nat.add_comm 1]

theorem writeBackReference_winFilled {w : Nat} (len dist : Nat) {x : Window} (hfilled : x.winFilled ≤ w) :
    (writeBackReference w len dist x).winFilled = min (x.winFilled + len) w := by
  induction len generalizing x with
  | zero => exact (Nat.min_eq_left hfilled).symm
  | succ len ih =>
    rw [writeBackReference, ih (Nat.min_le_right ..), writeLiteral_winFilled]
    omega

/-- A copy leaves every byte of the ring but its own. -/
theorem read_writeBackReference_outside {w len dist a : Nat} {x : Window}
    (ha : ∀ i < len, a ≠ (x.winEnd + i) % w) (he : x.winEnd < w) :
    Memory.read (writeBackReference w len dist x).win a = Memory.read x.win a := by
  induction len generalizing x with
  | zero => rfl
  | succ len ih =>
    have hfirst : a ≠ x.winEnd := by simpa [Nat.mod_eq_of_lt he] using ha 0 (Nat.zero_lt_succ len)
    rw [writeBackReference, ih _ (Nat.mod_lt _ (Nat.zero_lt_of_lt he)), writeLiteral_win, Memory.read_write_other _ hfirst]
    intro i hi
    rw [writeLiteral_winEnd, ring_cursor_succ]
    exact ha (i + 1) (Nat.succ_lt_succ hi)

/-- The bytes of a copy no longer than the ring: the last `dist` bytes, over and over. -/
theorem read_writeBackReference_inside {w len dist i : Nat} {x : Window} (hwf : Memory.wf x.win = true)
    (he : x.winEnd < w) (hpos : 1 ≤ dist) (hdist : dist ≤ w) (hlen : len ≤ w) (hi : i < len) :
    Memory.read (writeBackReference w len dist x).win ((x.winEnd + i) % w) = windowByte w x (dist - i % dist) := by
  induction len generalizing x i with
  | zero => exact absurd hi (Nat.not_lt_zero i)
  | succ len ih =>
    have hnext : (writeLiteral w (windowByte w x dist) x).winEnd < w := Nat.mod_lt _ (Nat.zero_lt_of_lt he)
    rw [writeBackReference]
    cases i with
    | zero =>
      rw [Nat.add_zero, Nat.mod_eq_of_lt he, Nat.zero_mod, Nat.sub_zero, read_writeBackReference_outside _ hnext,
        writeLiteral_win, Memory.read_write_self _ _ hwf]
      intro j hj
      rw [writeLiteral_winEnd, ring_cursor_succ]
      exact (ring_add_ne he (Nat.zero_lt_succ j) (by omega)).symm
    | succ i =>
      rw [← ring_cursor_succ, ← writeLiteral_winEnd w (windowByte w x dist),
        ih (Memory.write_wf _ _ hwf) hnext (by omega) (Nat.lt_of_succ_lt_succ hi), windowByte_repeat_succ i hwf he hpos hdist]

/-- Settles O32: one write by the laws of memory; a back-reference by induction on L, since after each write the last D bytes
have turned by one. -/
theorem windowWritesAppendTheirBytes : Obligations.WindowWritesAppendTheirBytes := by
  unfold Obligations.WindowWritesAppendTheirBytes
  intro w x hwf
  refine ⟨fun b => ⟨rfl, rfl, rfl, Memory.read_write_self _ b hwf, fun i hi => Memory.read_write_other b hi⟩, ?_⟩
  intro len dist he hpos hdist hfilled hlen
  exact ⟨writeBackReference_winEnd len dist he, writeBackReference_winUsed w len dist x,
    writeBackReference_winFilled len dist hfilled,
    fun i hi => read_writeBackReference_inside hwf he hpos (hdist.trans hfilled) (hlen.trans (Nat.sub_le ..)) hi,
    fun a ha => read_writeBackReference_outside ha he⟩

end Sys2Proof.Machine
end

section
/-! PROOF. Bit reversal and the canonical codes (R95 to R97): the bits of `rev_n`, the recurrence of the first codes, the code
each symbol takes from them, and the order of the codes. -/

namespace Sys2Proof.Machine

/-! ### Bit reversal (R96) -/

/-- The n bits taken from v lie below the bits reversed before, the lowest one highest. -/
theorem testBit_revLoop (n v r i : Nat) :
    (revLoop n v r).testBit i = if i < n then v.testBit (n - 1 - i) else r.testBit (i - n) := by
  induction n generalizing v r with
  | zero => rfl
  | succ n ih =>
    rw [revLoop, ih]
    rcases Nat.lt_trichotomy i n with h | rfl | h
    · have hidx : n + 1 - 1 - i = n - 1 - i + 1 := by omega
      rw [if_pos h, if_pos (Nat.lt_succ_of_lt h), hidx, Nat.testBit_succ]
    · have hlow : (2 * r + v % 2) % 2 = v % 2 := by omega
      rw [if_neg (Nat.lt_irrefl i), if_pos (Nat.lt_succ_self i), Nat.add_sub_cancel, Nat.sub_self, Nat.testBit_zero,
        Nat.testBit_zero, hlow]
    · have hidx : i - n = i - (n + 1) + 1 := by omega
      have hhigh : (2 * r + v % 2) / 2 = r := by omega
      rw [if_neg h.asymm, if_neg (Nat.not_lt_of_le h), hidx, Nat.testBit_succ, hhigh]

theorem testBit_revBits_of_lt {n i : Nat} (v : Nat) (h : i < n) : (revBits n v).testBit i = v.testBit (n - 1 - i) :=
  (testBit_revLoop n v 0 i).trans (if_pos h)

theorem testBit_revBits_of_le {n i : Nat} (v : Nat) (h : n ≤ i) : (revBits n v).testBit i = false := by
  rw [revBits, testBit_revLoop, if_neg (Nat.not_lt_of_le h), Nat.zero_testBit]

theorem revBits_revBits {n v : Nat} (hv : v < 2 ^ n) : revBits n (revBits n v) = v := by
  refine Nat.eq_of_testBit_eq fun i => ?_
  rcases Nat.lt_or_ge i n with h | h
  · have hidx : n - 1 - (n - 1 - i) = i := by omega
    rw [testBit_revBits_of_lt _ h, testBit_revBits_of_lt _ (by omega), hidx]
  · have hhigh : v < 2 ^ i := hv.trans_le (Nat.pow_le_pow_right Nat.two_pos h)
    rw [testBit_revBits_of_le _ h, Nat.testBit_lt_two_pow hhigh]

/-- Settles O25: the bits of the loop by induction on n; the involution bit by bit. -/
theorem bitReversalReversesTheBits : Obligations.BitReversalReversesTheBits := by
  unfold Obligations.BitReversalReversesTheBits
  exact fun n v => ⟨fun _ => testBit_revBits_of_lt v, fun _ => testBit_revBits_of_le v, revBits_revBits⟩

/-! ### Arrays of lengths -/

@[simp] theorem at0_cons_zero (x : Nat) (xs : List Nat) : at0 (x :: xs) 0 = x := rfl

@[simp] theorem at0_cons_succ (x : Nat) (xs : List Nat) (i : Nat) : at0 (x :: xs) (i + 1) = at0 xs i := rfl

theorem at0_eq_getElem {xs : List Nat} {i : Nat} (h : i < xs.length) : at0 xs i = xs[i] := List.getD_eq_getElem _ _ h

theorem at0_histogram (lens : List Nat) {l : Nat} (hpos : 1 ≤ l) (hl : l ≤ 15) : at0 (histogram lens) l = lens.count l := by
  obtain ⟨k, rfl⟩ := Nat.exists_eq_add_of_le' hpos
  have hk : k < ((List.range' 1 15).map fun l => lens.count l).length := hl
  rw [histogram, at0_cons_succ, at0_eq_getElem hk, List.getElem_map, List.getElem_range', Nat.one_mul, Nat.add_comm]

/-- Symbol a itself is one more symbol of its length. -/
theorem count_take_lt_count_take {lens : List Nat} {a b : Nat} (hab : a < b) (hb : b ≤ lens.length) :
    (lens.take a).count (at0 lens a) < (lens.take b).count (at0 lens a) := by
  have ha : a < lens.length := hab.trans_le hb
  calc (lens.take a).count (at0 lens a)
      < (lens.take (a + 1)).count (at0 lens a) := by
        rw [List.take_succ_eq_append_getElem ha, List.count_append, at0_eq_getElem ha, List.count_singleton_self]
        exact Nat.lt_succ_self _
    _ ≤ (lens.take b).count (at0 lens a) := (List.take_sublist_take_left hab).count_le _

/-! ### The first code of each length (R95) -/

@[simp] theorem nextCodesFrom_length (bl : List Nat) (fuel l c : Nat) : (nextCodesFrom bl fuel l c).length = fuel := by
  induction fuel generalizing l c with
  | zero => rfl
  | succ fuel ih => rw [nextCodesFrom, List.length_cons, ih]

@[simp] theorem nextCodes_length (bl : List Nat) : (nextCodes bl).length = 16 := by
  rw [nextCodes, List.length_cons, nextCodesFrom_length]

theorem at0_nextCodesFrom_succ (bl : List Nat) {fuel l i : Nat} (c : Nat) (hl : 1 ≤ l) (hi : i + 1 < fuel) :
    at0 (nextCodesFrom bl fuel l c) (i + 1) = 2 * (at0 (nextCodesFrom bl fuel l c) i + at0 bl (l + i)) := by
  induction i generalizing fuel l c with
  | zero =>
    obtain ⟨n, rfl⟩ := Nat.exists_eq_add_of_le' hi
    have hl' : l + 1 ≠ 1 := by omega
    simp only [nextCodesFrom, at0_cons_succ, at0_cons_zero, if_neg hl', Nat.add_sub_cancel, Nat.add_zero]
  | succ i ih =>
    obtain ⟨n, rfl⟩ := Nat.exists_eq_add_one_of_ne_zero (Nat.ne_zero_of_lt hi)
    rw [nextCodesFrom, at0_cons_succ, at0_cons_succ, ih _ (Nat.le_add_left 1 l) (Nat.lt_of_succ_lt_succ hi),
      Nat.add_assoc, Nat.add_comm 1]

theorem at0_nextCodes_succ (bl : List Nat) {l : Nat} (hpos : 1 ≤ l) (hl : l < 15) :
    at0 (nextCodes bl) (l + 1) = 2 * (at0 (nextCodes bl) l + at0 bl l) := by
  obtain ⟨k, rfl⟩ := Nat.exists_eq_add_of_le' hpos
  rw [nextCodes, at0_cons_succ, at0_cons_succ, at0_nextCodesFrom_succ bl 0 (Nat.le_refl 1) hl, Nat.add_comm 1]

/-- The codes of length l, extended by any d bits, end at or before the first code of length l + d. -/
theorem shifted_codes_le_next (bl : List Nat) {l d : Nat} (hpos : 1 ≤ l) (hd : 1 ≤ d) (hl : l + d ≤ 15) :
    (at0 (nextCodes bl) l + at0 bl l) * 2 ^ d ≤ at0 (nextCodes bl) (l + d) := by
  induction d, hd using Nat.le_induction with
  | base => rw [at0_nextCodes_succ bl hpos hl, Nat.pow_one, Nat.mul_comm]
  | succ d hd ih =>
    calc (at0 (nextCodes bl) l + at0 bl l) * 2 ^ (d + 1)
        = 2 * ((at0 (nextCodes bl) l + at0 bl l) * 2 ^ d) := by rw [Nat.pow_succ, ← Nat.mul_assoc, Nat.mul_comm]
      _ ≤ 2 * (at0 (nextCodes bl) (l + d) + at0 bl (l + d)) :=
        Nat.mul_le_mul_left 2 ((ih (Nat.le_of_succ_le hl)).trans (Nat.le_add_right ..))
      _ = at0 (nextCodes bl) (l + (d + 1)) := (at0_nextCodes_succ bl (Nat.le_add_right_of_le hpos) hl).symm

/-! ### The code of each symbol (R95) -/

/-- A symbol takes the next code of its length after the smaller symbols of that length have taken theirs. -/
theorem at0_assignCodes {lens next : List Nat} {s : Nat} (hlens : ∀ l ∈ lens, l < next.length) (hs : s < lens.length)
    (hcode : at0 lens s ≠ 0) :
    at0 (assignCodes lens next) s =
      revBits (at0 lens s) (at0 next (at0 lens s) + (lens.take s).count (at0 lens s)) := by
  induction lens generalizing next s with
  | nil => exact absurd hs (Nat.not_lt_zero s)
  | cons l rest ih =>
    obtain ⟨hl, hrest⟩ := List.forall_mem_cons.mp hlens
    cases s with
    | zero =>
      rw [at0_cons_zero] at hcode
      rw [assignCodes, if_pos hcode]
      rfl
    | succ s =>
      have hs' : s < rest.length := Nat.lt_of_succ_lt_succ hs
      rw [at0_cons_succ] at hcode ⊢
      rw [List.take_succ_cons, List.count_cons, assignCodes]
      by_cases hl0 : l = 0
      · have hne : ¬ (l == at0 rest s) = true := by simpa [hl0] using hcode.symm
        rw [if_neg (not_not.mpr hl0), at0_cons_succ, ih hrest hs' hcode, if_neg hne, Nat.add_zero]
      · have htaken : (if at0 rest s = l then 1 else 0) = if (l == at0 rest s) = true then 1 else 0 := by
          simp only [beq_iff_eq, eq_comm (a := l)]
        rw [if_pos hl0, at0_cons_succ, ih (by rwa [addAt_length]) hs' hcode, at0_addAt hl, htaken, Nat.add_assoc,
          Nat.add_comm (ite _ _ _)]

theorem at0_genCodes {lens : List Nat} {s : Nat} (hlens : ∀ l ∈ lens, l ≤ 15) (hs : s < lens.length)
    (hcode : at0 lens s ≠ 0) :
    at0 (genCodes lens (histogram lens)) s = revBits (at0 lens s) (canonicalCode lens s) := by
  refine at0_assignCodes (fun l hl => ?_) hs hcode
  rw [nextCodes_length]
  exact Nat.lt_succ_of_le (hlens l hl)

/-! ### The order of the codes (R97) -/

theorem canonicalCode_lt_of_length_eq {lens : List Nat} {a b : Nat} (hab : a < b) (hb : b < lens.length)
    (hlen : at0 lens a = at0 lens b) : canonicalCode lens a < canonicalCode lens b := by
  rw [canonicalCode, canonicalCode, ← hlen]
  exact Nat.add_lt_add_left (count_take_lt_count_take hab hb.le) _

/-- A code is one of the `bl_count` codes of its length. -/
theorem canonicalCode_lt {lens : List Nat} {a : Nat} (ha : a < lens.length) (hpos : 1 ≤ at0 lens a) (hle : at0 lens a ≤ 15) :
    canonicalCode lens a < at0 (nextCodes (histogram lens)) (at0 lens a) + at0 (histogram lens) (at0 lens a) := by
  have hrank := count_take_lt_count_take ha (Nat.le_refl _)
  rw [List.take_length] at hrank
  rw [canonicalCode, at0_histogram lens hpos hle]
  exact Nat.add_lt_add_left hrank _

theorem canonicalCode_lt_of_length_lt {lens : List Nat} {a b : Nat} (ha : a < lens.length) (hpos : 1 ≤ at0 lens a)
    (hlt : at0 lens a < at0 lens b) (hle : at0 lens b ≤ 15) :
    canonicalCode lens a * 2 ^ (at0 lens b - at0 lens a) < canonicalCode lens b := by
  have hcode := canonicalCode_lt ha hpos (hlt.le.trans hle)
  have hnext := shifted_codes_le_next (histogram lens) hpos (Nat.sub_pos_of_lt hlt) (by omega)
  rw [Nat.add_sub_of_le hlt.le] at hnext
  calc canonicalCode lens a * 2 ^ (at0 lens b - at0 lens a)
      < (at0 (nextCodes (histogram lens)) (at0 lens a) + at0 (histogram lens) (at0 lens a)) *
          2 ^ (at0 lens b - at0 lens a) := Nat.mul_lt_mul_of_pos_right hcode (Nat.two_pow_pos _)
    _ ≤ at0 (nextCodes (histogram lens)) (at0 lens b) := hnext
    _ ≤ canonicalCode lens b := Nat.le_add_right ..

/-- Settles O26: each symbol takes the next code of its length, and `bl_count` codes of a length fit before the longer ones. -/
theorem canonicalCodesAreOrdered : Obligations.CanonicalCodesAreOrdered := by
  unfold Obligations.CanonicalCodesAreOrdered
  intro lens hlens
  have hmax : ∀ {s : Nat}, s < lens.length → at0 lens s ≤ 15 := fun hs =>
    at0_eq_getElem hs ▸ hlens _ (List.getElem_mem hs)
  exact ⟨fun s => at0_genCodes hlens,
    fun a b ha hb hcode hlt => canonicalCode_lt_of_length_lt ha (Nat.one_le_iff_ne_zero.mpr hcode) hlt (hmax hb),
    fun a b hab hb _ => canonicalCode_lt_of_length_eq hab hb⟩

end Sys2Proof.Machine
end

section
/-! PROOF. The match detector (R100 to R102): what the length of a match says of the bytes, the invariant of the reference
finder's loop, and what an answer of any finder satisfies and depends on. -/

namespace Sys2Proof.Machine

/-! ### The length of a match (R101 properties 3 and 4) -/

theorem le_commonPrefix_iff {n l : Nat} {xs ys : List Byte} :
    l ≤ commonPrefix n xs ys ↔
      l ≤ n ∧ l ≤ xs.length ∧ l ≤ ys.length ∧ ∀ i, i < l → xs.getD i 0#8 = ys.getD i 0#8 := by
  induction n, xs, ys using commonPrefix.induct generalizing l with
  | case1 xs ys => cases l <;> simp [commonPrefix]
  | case2 n ys hn => cases l <;> simp [commonPrefix]
  | case3 n xs hxs hn => cases l <;> simp [commonPrefix]
  | case4 n xs x ys ih =>
    cases l with
    | zero => simp
    | succ l => simp only [commonPrefix, if_true, Nat.succ_eq_add_one, Nat.add_le_add_iff_right, List.length_cons,
        Nat.forall_lt_succ_left, List.getD_cons_zero, List.getD_cons_succ, ih, true_and]
  | case5 n x xs y ys hxy =>
    cases l with
    | zero => simp
    | succ l => simp only [commonPrefix, hxy, if_false, Nat.le_zero, Nat.add_one_ne_zero, Nat.forall_lt_succ_left,
        List.getD_cons_zero, false_and, and_false]

theorem commonPrefix_take (n : Nat) (xs ys : List Byte) :
    commonPrefix n (xs.take n) (ys.take n) = commonPrefix n xs ys := by
  induction n generalizing xs ys with
  | zero => rfl
  | succ n ih =>
    cases xs with
    | nil => simp [commonPrefix]
    | cons x xs =>
      cases ys with
      | nil => simp [commonPrefix]
      | cons y ys => simp [commonPrefix, ih]

/-- A match of l bytes lies in the history and repeats the bytes `dist` before, one by one. -/
theorem le_matchLength_iff {hist : List Byte} {p maxlen dist l : Nat} :
    l ≤ matchLength hist p maxlen dist ↔
      l ≤ maxlen ∧ l ≤ hist.length - p ∧ ∀ i, i < l → hist.getD (p - dist + i) 0#8 = hist.getD (p + i) 0#8 := by
  have hsource : l ≤ hist.length - p → l ≤ hist.length - (p - dist) := by omega
  simp only [matchLength, le_commonPrefix_iff, List.length_drop, List.getD_eq_getElem?_getD, List.getElem?_drop]
  tauto

theorem matchLength_le (hist : List Byte) (p maxlen dist : Nat) : matchLength hist p maxlen dist ≤ maxlen :=
  (le_matchLength_iff.mp le_rfl).1

/-- The lookahead bounds a match, and does not change which bytes match. -/
theorem le_matchLength_self_iff {hist : List Byte} {p maxlen dist l : Nat} (hl : l ≤ maxlen) :
    l ≤ matchLength hist p l dist ↔ l ≤ matchLength hist p maxlen dist := by
  simp only [le_matchLength_iff, le_rfl, hl]

/-- Property 4 of R101 for the length of a match: bytes from p + `maxlen` on are not looked at. -/
theorem matchLength_take {hist : List Byte} {p maxlen m : Nat} (dist : Nat) (h : p + maxlen ≤ m) :
    matchLength (hist.take m) p maxlen dist = matchLength hist p maxlen dist := by
  rw [matchLength, List.drop_take, List.drop_take, ← commonPrefix_take, List.take_take, List.take_take,
    Nat.min_eq_left (by omega), Nat.min_eq_left (by omega), commonPrefix_take, matchLength]

/-! ### The reference finder (R102) -/

/-- The invariant of the loop of `RefFinder` before it looks at `dist`: `best` is a longest match among the nearer
distances and, of the longest, the nearest; length 0 stands for none yet. -/
structure IsBestBelow (hist : List Byte) (p maxlen dist : Nat) (best : Nat × Nat) : Prop where
  below : best.2 < dist
  attained : 0 < best.1 → 1 ≤ best.2 ∧ matchLength hist p maxlen best.2 = best.1
  longest : ∀ d, 1 ≤ d → d < dist → matchLength hist p maxlen d ≤ best.1
  nearest : ∀ d, 1 ≤ d → d < dist → matchLength hist p maxlen d = best.1 → best.2 ≤ d

/-- What one turn of the loop of `RefFinder` makes of the best so far. -/
def betterOf (hist : List Byte) (p maxlen dist : Nat) (best : Nat × Nat) : Nat × Nat :=
  if best.1 < matchLength hist p maxlen dist then (matchLength hist p maxlen dist, dist) else best

theorem refLoop_succ (hist : List Byte) (p maxlen fuel dist : Nat) (best : Nat × Nat) :
    refLoop hist p maxlen (fuel + 1) dist best.1 best.2 =
      if (betterOf hist p maxlen dist best).1 = maxlen then betterOf hist p maxlen dist best
      else refLoop hist p maxlen fuel (dist + 1) (betterOf hist p maxlen dist best).1 (betterOf hist p maxlen dist best).2 :=
  rfl

section
variable {hist : List Byte} {p maxlen dist : Nat} {best : Nat × Nat}

theorem isBestBelow_one (hist : List Byte) (p maxlen : Nat) : IsBestBelow hist p maxlen 1 (0, 0) :=
  ⟨Nat.zero_lt_one, fun h => absurd h (Nat.lt_irrefl 0), fun _ _ _ => by omega, fun _ _ _ _ => Nat.zero_le _⟩

/-- A strictly longer match at `dist` is the new best. -/
theorem IsBestBelow.replace (h : IsBestBelow hist p maxlen dist best) (hdist : 1 ≤ dist)
    (hl : best.1 < matchLength hist p maxlen dist) :
    IsBestBelow hist p maxlen (dist + 1) (matchLength hist p maxlen dist, dist) where
  below := Nat.lt_succ_self dist
  attained _ := ⟨hdist, rfl⟩
  longest d hd hlt := by
    rcases Nat.lt_succ_iff_lt_or_eq.mp hlt with hlt | rfl
    · exact (h.longest d hd hlt).trans hl.le
    · exact le_rfl
  nearest d hd hlt heq := by
    rcases Nat.lt_succ_iff_lt_or_eq.mp hlt with hlt | rfl
    · exact absurd heq ((h.longest d hd hlt).trans_lt hl).ne
    · exact le_rfl

/-- A match at `dist` that is no longer leaves the best, which is nearer. -/
theorem IsBestBelow.keep (h : IsBestBelow hist p maxlen dist best) (hl : matchLength hist p maxlen dist ≤ best.1) :
    IsBestBelow hist p maxlen (dist + 1) best where
  below := Nat.lt_succ_of_lt h.below
  attained := h.attained
  longest d hd hlt := by
    rcases Nat.lt_succ_iff_lt_or_eq.mp hlt with hlt | rfl
    · exact h.longest d hd hlt
    · exact hl
  nearest d hd hlt heq := by
    rcases Nat.lt_succ_iff_lt_or_eq.mp hlt with hlt | rfl
    · exact h.nearest d hd hlt heq
    · exact h.below.le

/-- A match as long as allowed stays the best: the loop may stop early. -/
theorem IsBestBelow.extend (h : IsBestBelow hist p maxlen dist best) (hmax : best.1 = maxlen) (n : Nat) :
    IsBestBelow hist p maxlen (dist + n) best := by
  induction n with
  | zero => exact h
  | succ n ih => exact ih.keep (hmax ▸ matchLength_le ..)

/-- One turn of the loop keeps the invariant. -/
theorem IsBestBelow.turn (h : IsBestBelow hist p maxlen dist best) (hdist : 1 ≤ dist) :
    IsBestBelow hist p maxlen (dist + 1) (betterOf hist p maxlen dist best) := by
  rw [betterOf]
  split
  · exact h.replace hdist ‹_›
  · exact h.keep (Nat.le_of_not_lt ‹_›)

end

theorem refLoop_isBestBelow {hist : List Byte} {p maxlen : Nat} (fuel : Nat) {dist : Nat} {best : Nat × Nat}
    (h : IsBestBelow hist p maxlen dist best) (hdist : 1 ≤ dist) :
    IsBestBelow hist p maxlen (dist + fuel) (refLoop hist p maxlen fuel dist best.1 best.2) := by
  induction fuel generalizing dist best with
  | zero => exact h
  | succ fuel ih =>
    rw [refLoop_succ, Nat.add_comm fuel 1, ← Nat.add_assoc]
    split
    · exact (h.turn hdist).extend ‹_› fuel
    · exact ih (h.turn hdist) (Nat.le_add_left 1 dist)

/-- The search from distance 1 with nothing found leaves the best of the distances up to `maxdist`. -/
theorem refSearch_isBestBelow (hist : List Byte) (p maxlen maxdist : Nat) :
    IsBestBelow hist p maxlen (maxdist + 1) (refLoop hist p maxlen maxdist 1 0 0) :=
  Nat.add_comm 1 maxdist ▸ refLoop_isBestBelow maxdist (isBestBelow_one hist p maxlen) le_rfl

theorem refFinder_some {hist : List Byte} {p maxlen maxdist : Nat} {m : Nat × Nat}
    (h : refFinder hist p maxlen maxdist = some m) : 3 ≤ m.1 ∧ IsBestBelow hist p maxlen (maxdist + 1) m := by
  obtain ⟨hmin, hm⟩ := Option.ite_none_right_eq_some.mp h
  obtain rfl := Option.some.inj hm
  exact ⟨hmin, refSearch_isBestBelow hist p maxlen maxdist⟩

theorem refFinder_none {hist : List Byte} {p maxlen maxdist d : Nat} (h : refFinder hist p maxlen maxdist = none)
    (hd : 1 ≤ d) (hle : d ≤ maxdist) : matchLength hist p maxlen d < 3 := by
  have hshort : ¬ minMatch ≤ (refLoop hist p maxlen maxdist 1 0 0).1 := fun hmin => by simp [refFinder, hmin] at h
  exact ((refSearch_isBestBelow hist p maxlen maxdist).longest d hd (Nat.lt_succ_of_le hle)).trans_lt
    (Nat.lt_of_not_le hshort)

/-- Settles O27: the loop keeps the best of the distances it has looked at, and `maxdist` turns look at all of them. -/
theorem referenceFinderIsLongestAndNearest : Obligations.ReferenceFinderIsLongestAndNearest := by
  unfold Obligations.ReferenceFinderIsLongestAndNearest
  intro hist p maxlen maxdist hmaxdist hhist
  have hlength : ∀ {l d : Nat}, l ≤ maxlen → (∀ i, i < l → hist.getD (p - d + i) 0#8 = hist.getD (p + i) 0#8) →
      l ≤ matchLength hist p maxlen d := fun hl hbytes => le_matchLength_iff.mpr ⟨hl, by omega, hbytes⟩
  refine ⟨fun L D h => ?_, fun h D' hpos hle hmax => ?_⟩
  · obtain ⟨hmin, hbest⟩ := refFinder_some h
    obtain ⟨hpos, hlen⟩ := hbest.attained (Nat.zero_lt_of_lt hmin)
    obtain ⟨hle, -, hbytes⟩ := le_matchLength_iff.mp hlen.ge
    refine ⟨hmin, hle, hpos, Nat.le_of_lt_succ hbest.below, hbytes, fun L' D' hpos' hle' hL' hbytes' => ?_⟩
    have hlower := hlength hL' hbytes'
    have hupper := hbest.longest D' hpos' (Nat.lt_succ_of_le hle')
    exact ⟨hlower.trans hupper, fun heq =>
      hbest.nearest D' hpos' (Nat.lt_succ_of_le hle') (Nat.le_antisymm hupper (heq ▸ hlower))⟩
  · by_contra hno
    push Not at hno
    exact absurd (hlength hmax hno) (Nat.not_le_of_lt (refFinder_none h hpos hle))

/-! ### Any finder (R100, R101) -/

theorem admissible_iff {hist : List Byte} {p maxlen maxdist : Nat} {m : Nat × Nat} :
    admissible hist p maxlen maxdist m = true ↔
      3 ≤ m.1 ∧ 1 ≤ m.2 ∧ m.2 ≤ maxdist ∧ m.1 ≤ matchLength hist p maxlen m.2 := by
  have hself : matchLength hist p m.1 m.2 = m.1 ↔ m.1 ≤ matchLength hist p m.1 m.2 :=
    ⟨Eq.ge, Nat.le_antisymm (matchLength_le ..)⟩
  simp only [admissible, Bool.and_eq_true, decide_eq_true_iff, beq_iff_eq, hself]
  constructor
  · rintro ⟨⟨⟨⟨hmin, hmax⟩, hpos⟩, hle⟩, hlen⟩
    exact ⟨hmin, hpos, hle, (le_matchLength_self_iff hmax).mp hlen⟩
  · rintro ⟨hmin, hpos, hle, hlen⟩
    have hmax := hlen.trans (matchLength_le ..)
    exact ⟨⟨⟨⟨hmin, hmax⟩, hpos⟩, hle⟩, (le_matchLength_self_iff hmax).mpr hlen⟩

theorem matchFinder_admissible {f : Finder} {hist : List Byte} {p maxlen maxdist : Nat} {m : Nat × Nat}
    (h : matchFinder f hist p maxlen maxdist = some m) : admissible hist p maxlen maxdist m = true := by
  cases f with
  | reference =>
    obtain ⟨hmin, hbest⟩ := refFinder_some h
    obtain ⟨hpos, hlen⟩ := hbest.attained (Nat.zero_lt_of_lt hmin)
    exact admissible_iff.mpr ⟨hmin, hpos, Nat.le_of_lt_succ hbest.below, hlen.ge⟩
  | custom k => exact (Option.filter_eq_some_iff.mp h).2

theorem refLoop_take {hist : List Byte} {p maxlen m : Nat} (h : p + maxlen ≤ m) (fuel dist bestL bestD : Nat) :
    refLoop (hist.take m) p maxlen fuel dist bestL bestD = refLoop hist p maxlen fuel dist bestL bestD := by
  induction fuel generalizing dist bestL bestD with
  | zero => rfl
  | succ fuel ih => simp only [refLoop, matchLength_take dist h, ih]

theorem admissible_take {hist : List Byte} {p maxlen m : Nat} (h : p + maxlen ≤ m) (maxdist : Nat) :
    admissible (hist.take m) p maxlen maxdist = admissible hist p maxlen maxdist := by
  funext a
  rw [Bool.eq_iff_iff, admissible_iff, admissible_iff, matchLength_take a.2 h]

/-- Property 4 of R101: a finder's answer is the one for the readable history alone. -/
theorem matchFinder_take (f : Finder) (hist : List Byte) (p maxlen maxdist : Nat) :
    matchFinder f (hist.take (p + maxlen)) p maxlen maxdist = matchFinder f hist p maxlen maxdist := by
  cases f with
  | reference => simp only [matchFinder, refFinder, refLoop_take le_rfl]
  | custom k => simp only [matchFinder, List.take_take, Nat.min_self, admissible_take le_rfl]

theorem findMatch_take (f : Finder) (wbits : BitVec 4) (hist : List Byte) (p maxlen : Nat) :
    findMatch f wbits (hist.take (p + maxlen)) p maxlen = findMatch f wbits hist p maxlen := by
  simp only [findMatch, matchFinder_take]

/-- Settles O28: every answer is admissible at `min(p, MAX_DIST)`, and is the answer for the readable history alone. -/
theorem everyMatchIsAdmissible : Obligations.EveryMatchIsAdmissible := by
  unfold Obligations.EveryMatchIsAdmissible
  intro f wbits hist p maxlen
  refine ⟨fun L D h => ?_, fun hist' heq => ?_⟩
  · obtain ⟨-, hfound⟩ := Option.ite_none_left_eq_some.mp h
    obtain ⟨hmin, hpos, hle, hlen⟩ := admissible_iff.mp (matchFinder_admissible hfound)
    obtain ⟨hmax, -, hbytes⟩ := le_matchLength_iff.mp hlen
    exact ⟨hmin, hmax, hpos, hle.trans (Nat.min_le_left ..), hle.trans (Nat.min_le_right ..), hbytes⟩
  · rw [← findMatch_take, heq, findMatch_take]

end Sys2Proof.Machine
end

section
/-! PROOF. The commands NOP, RESET and SET_INPUT and the table of legality (R152 to R163): what RESET leaves, when each
command's legality condition holds, and what a legal and an illegal command do. -/

namespace Sys2Proof.Machine

/-! ### NOP and RESET (R153, R154) -/

theorem exec_nop (arg : Arg) (s : State) : exec (.nop arg) s = .next s := rfl

theorem exec_reset (arg : Arg) (s : State) : exec (.reset arg) s = .next (resetBlock s) := rfl

@[simp] theorem statusReg_resetBlock (s : State) : statusReg (resetBlock s) = 0x00000040#32 := by
  simp only [statusReg, eoiFlag, stateField, finished, needsInput, resetBlock_mode, resetBlock_err, resetBlock_input]
  decide

@[simp] theorem configReg_resetBlock (s : State) : configReg (resetBlock s) = 0#32 := by
  rw [configReg, resetBlock_mode, resetBlock_storeOnly, resetBlock_wbits]
  decide

theorem encoderReset_eq : Encoder.reset =
    { hist := [], encPos := 0, blockStart := 0, tally := [], phase := .running,
      litFreq := List.replicate 256 0 ++ [1] ++ List.replicate 29 0, distFreq := List.replicate 30 0 } := by
  rw [Encoder.reset, initialLitFreq_eq]

/-- Settles O13: the arm of NOP in the dispatch. -/
theorem nopDoesNothing : Obligations.NopDoesNothing := exec_nop

/-- Settles O14: element by element, by the laws of `resetBlock`; the tables read 0 since its memory lists nothing. -/
theorem resetGivesTheResetValues : Obligations.ResetGivesTheResetValues := by
  unfold Obligations.ResetGivesTheResetValues
  rintro _ rfl arg s
  refine ⟨resetBlock s, exec_reset arg s, ?_⟩
  have henc := (resetBlock_enc s).trans encoderReset_eq
  have hmem : ∀ a, a < inBase → Memory.read (resetBlock s).mem a = 0#8 := fun a _ => Memory.read_nil a
  exact ⟨resetBlock_mode s, resetBlock_storeOnly s, resetBlock_wbits s, resetBlock_err s, resetBlock_result s,
    resetBlock_input s, resetBlock_reader s, resetBlock_writer s, rfl, rfl, rfl, henc, resetBlock_dec s, resetBlock_tree s,
    hmem, statusReg_resetBlock s, configReg_resetBlock s⟩

/-! ### The table of legality (R163) -/

/-- The table of legality of R163, command by command; NOP and RESET are always legal (R152). -/
def CommandLegal (s : State) : Instr → Prop
  | .nop _ => True
  | .reset _ => True
  | .configure mode storeOnly wbits =>
    s.mode = .idle ∧ (mode = 1#2 ∨ mode = 2#2) ∧ (storeOnly = false ∨ mode = 1#2) ∧ 9 ≤ wbits.toNat
  | .setInput _ =>
    s.mode ≠ .idle ∧ s.input.inPos = s.input.inLen ∧ (s.mode = .encode → s.enc.phase = .running) ∧
      (s.mode = .decode → s.dec.eoi = false)
  | .produceOutput cap => s.mode ≠ .idle ∧ cap.toNat ≤ s.params.outCap
  | .flush cap => s.mode = .encode ∧ (s.enc.phase = .running ∨ s.enc.phase = .flushing) ∧ cap.toNat ≤ s.params.outCap
  | .finish cap => s.mode = .encode ∧ cap.toNat ≤ s.params.outCap
  | .endOfInput => s.mode = .decode
  | .buildTree alpha => s.mode = .idle ∧ alpha ≠ 3#2

theorem configureLegal_iff (mode : BitVec 2) (storeOnly : Bool) (wbits : BitVec 4) (s : State) :
    configureLegal mode storeOnly wbits s = true ↔ CommandLegal s (.configure mode storeOnly wbits) := by
  have hmax : wbits.toNat ≤ 15 := Nat.le_of_lt_succ wbits.isLt
  simp [CommandLegal, configureLegal, configureFieldsLegal, hmax, and_assoc]

theorem setInputLegal_iff (len : Arg) (s : State) : setInputLegal s = true ↔ CommandLegal s (.setInput len) := by
  simp [CommandLegal, setInputLegal, needsInput, and_assoc, imp_iff_not_or]

theorem capLegal_iff (p : Params) (cap : Arg) : capLegal p cap = true ↔ cap.toNat ≤ p.outCap := decide_eq_true_iff

theorem produceOutputLegal_iff (cap : Arg) (s : State) :
    produceOutputLegal cap s = true ↔ CommandLegal s (.produceOutput cap) := by
  simp [CommandLegal, produceOutputLegal, capLegal_iff]

theorem flushLegal_iff (cap : Arg) (s : State) : flushLegal cap s = true ↔ CommandLegal s (.flush cap) := by
  simp [CommandLegal, flushLegal, capLegal_iff, and_assoc]

theorem finishLegal_iff (cap : Arg) (s : State) : finishLegal cap s = true ↔ CommandLegal s (.finish cap) := by
  simp [CommandLegal, finishLegal, capLegal_iff]

theorem endOfInputLegal_iff (s : State) : decide (s.mode = .decode) = true ↔ CommandLegal s .endOfInput := decide_eq_true_iff

theorem alphabetOfField_isSome_iff (alpha : BitVec 2) : (alphabetOfField alpha).isSome = true ↔ alpha ≠ 3#2 := by
  rw [alphabetOfField_isSome_eq_wellFormed]
  exact bne_iff_ne

theorem buildTreeLegal_iff (alpha : BitVec 2) (s : State) :
    (decide (s.mode = .idle) && (alphabetOfField alpha).isSome) = true ↔ CommandLegal s (.buildTree alpha) := by
  rw [CommandLegal, Bool.and_eq_true, decide_eq_true_iff, alphabetOfField_isSome_iff]

/-! ### Legal and illegal commands (R152, R156, R163) -/

theorem runCommand_legal {legal : Bool} (effect : State → Result) {s : State} (hs : s.err = .none) (hl : legal = true) :
    runCommand legal effect s = effect s := by
  rw [runCommand, if_neg (not_not.mpr hs), if_pos hl]

/-- A command whose condition, written out as P, fails is illegal. -/
theorem runCommand_illegal_of_not {legal : Bool} {P : Prop} (hiff : legal = true ↔ P) (effect : State → Result) {s : State}
    (hs : s.err = .none) (hP : ¬ P) : runCommand legal effect s = .next (illegalCommand s) :=
  runCommand_illegal effect hs (Bool.eq_false_iff.mpr (mt hiff.mp hP))

theorem setInputEffect_of_le {len : Arg} {s : State} (h : len.toNat ≤ s.params.inCap) :
    setInputEffect len s = { s with input := { inLen := len.toNat, inPos := 0 } } := if_neg (Nat.not_lt.mpr h)

theorem setInputEffect_of_lt {len : Arg} {s : State} (h : s.params.inCap < len.toNat) :
    setInputEffect len s = { s with err := .outputBufferOverrun } := if_pos h

theorem exec_setInput_legal {len : Arg} {s : State} (hs : s.err = .none) (hl : CommandLegal s (.setInput len)) :
    exec (.setInput len) s = .next (setInputEffect len s) := by
  rw [exec, execSetInput, runCommand_legal _ hs ((setInputLegal_iff len s).mpr hl)]

/-- A command that its row of the table of legality does not allow is illegal. -/
theorem exec_of_not_commandLegal {i : Instr} {s : State} (hs : s.err = .none) (h : ¬ CommandLegal s i) :
    exec i s = .next (illegalCommand s) := by
  cases i with
  | nop | reset => exact absurd trivial h
  | configure mode storeOnly wbits =>
    rw [exec, execConfigure, runCommand_illegal_of_not (configureLegal_iff mode storeOnly wbits s) _ hs h]
  | setInput len => rw [exec, execSetInput, runCommand_illegal_of_not (setInputLegal_iff len s) _ hs h]
  | produceOutput cap => rw [exec, execProduceOutput, runCommand_illegal_of_not (produceOutputLegal_iff cap s) _ hs h]
  | flush cap => rw [exec, execFlush, runCommand_illegal_of_not (flushLegal_iff cap s) _ hs h]
  | finish cap => rw [exec, execFinish, runCommand_illegal_of_not (finishLegal_iff cap s) _ hs h]
  | endOfInput => rw [exec, execEndOfInput, runCommand_illegal_of_not (endOfInputLegal_iff s) _ hs h]
  | buildTree alpha => rw [exec, execBuildTree, runCommand_illegal_of_not (buildTreeLegal_iff alpha s) _ hs h]

/-- Settles O16: the effect of a legal SET_INPUT on either side of IN_CAP; each way to be illegal denies one condition. -/
theorem setInputDeclaresTheInput : Obligations.SetInputDeclaresTheInput := by
  unfold Obligations.SetInputDeclaresTheInput
  refine fun len s hs => ⟨fun hmode hpos hphase heoi => ?_, fun hill => exec_of_not_commandLegal hs ?_⟩
  · have hrun := exec_setInput_legal (len := len) hs ⟨hmode, hpos, hphase, heoi⟩
    exact ⟨fun h => by rw [hrun, setInputEffect_of_le h], fun h => by rw [hrun, setInputEffect_of_lt h]⟩
  · rintro ⟨hmode, hpos, hphase, heoi⟩
    rcases hill with h | h | ⟨henc, h⟩ | ⟨hdec, h⟩
    · exact hmode h
    · exact h hpos
    · exact h (hphase henc)
    · rw [heoi hdec] at h
      cases h

/-- Settles O18: each command's row of the table of legality, then the words that are no command. -/
theorem illegalCommandsOnlySetErr : Obligations.IllegalCommandsOnlySetErr := by
  unfold Obligations.IllegalCommandsOnlySetErr
  intro s hs
  have hill := fun i => exec_of_not_commandLegal (i := i) hs
  refine ⟨fun m st w => hill (.configure m st w), fun len => hill (.setInput len), fun cap => hill (.produceOutput cap),
    fun cap => hill (.flush cap), fun cap => hill (.finish cap), hill .endOfInput, fun al => hill (.buildTree al), ?_⟩
  intro w hw
  obtain ⟨_, he⟩ := hw.elim (fun hop => ⟨_, decode_illegalOp hop⟩) id
  exact runWord_of_not_wellFormed hs fun _ hi => nomatch he.symm.trans hi

end Sys2Proof.Machine
end

section
/-! PROOF. The command words (R44 to R48): a word is its OP and its ARG, and the operand of each command is its ARG's fields. -/

namespace Sys2Proof

/-! ### A word and its two fields (R44) -/

@[simp] theorem opField_commandWord (op : Byte) (arg : Arg) : opField (commandWord op arg) = op :=
  BitVec.extractLsb'_append_eq_right

@[simp] theorem argField_commandWord (op : Byte) (arg : Arg) : argField (commandWord op arg) = arg :=
  BitVec.extractLsb'_append_eq_left

theorem commandWord_fields (w : Word) : commandWord (opField w) (argField w) = w := by
  refine BitVec.eq_of_toNat_eq ?_
  have := w.isLt
  rw [commandWord, BitVec.toNat_append, opField_toNat, argField_toNat, ← Nat.shiftLeft_add_eq_or_of_lt (by omega),
    Nat.shiftLeft_eq]
  omega

theorem toNat_commandWord (op : Byte) (arg : Arg) : (commandWord op arg).toNat = op.toNat + arg.toNat * 2 ^ 8 := by
  rw [commandWord, BitVec.toNat_append, ← Nat.shiftLeft_add_eq_or_of_lt op.isLt, Nat.shiftLeft_eq, Nat.add_comm]

/-- A word written as a number, OP below ARG, is the word of the two. -/
theorem ofNat_eq_commandWord {op : Byte} {arg : Arg} {n : Nat} (h : n = op.toNat + arg.toNat * 2 ^ 8) :
    BitVec.ofNat 32 n = commandWord op arg := by
  rw [h, ← toNat_commandWord, BitVec.ofNat_toNat, BitVec.setWidth_eq]

/-! ### Operands (R46) -/

theorem decodeConfigure_configArg (mode : BitVec 2) (storeOnly : Bool) (wbits : BitVec 4) :
    decodeConfigure (configArg mode storeOnly wbits) = .ok (.configure mode storeOnly wbits) := by
  revert mode storeOnly wbits
  decide

theorem decodeBuildTree_alpha (alpha : BitVec 2) : decodeBuildTree (0#22 ++ alpha) = .ok (.buildTree alpha) := by
  revert alpha
  decide

/-- The CONFIGURE operand as a number: every reserved bit is 0. -/
theorem toNat_configArg (mode : BitVec 2) (storeOnly : Bool) (wbits : BitVec 4) :
    (configArg mode storeOnly wbits).toNat = mode.toNat + storeOnly.toNat * 2 ^ 2 + wbits.toNat * 2 ^ 4 := by
  revert mode storeOnly wbits
  decide

/-- A CONFIGURE operand with its reserved bits 0 is the operand of its fields. -/
theorem configArg_of_decode {arg : Arg} {i : Instr} (h : decodeConfigure arg = .ok i) :
    ∃ mode storeOnly wbits, i = .configure mode storeOnly wbits ∧ configArg mode storeOnly wbits = arg := by
  rw [decodeConfigure] at h
  split at h
  case isFalse => cases h
  case isTrue hres =>
    cases h
    refine ⟨_, _, _, rfl, BitVec.eq_of_toNat_eq ?_⟩
    obtain ⟨hbit, hhigh⟩ := hres
    have hbit : arg.toNat / 2 ^ 3 % 2 = 0 := by
      have := congrArg BitVec.toNat hbit
      rwa [BitVec.extractLsb'_toNat, Nat.shiftRight_eq_div_pow] at this
    have hhigh : arg.toNat / 2 ^ 8 % 2 ^ 16 = 0 := by
      have := congrArg BitVec.toNat hhigh
      rwa [BitVec.extractLsb'_toNat, Nat.shiftRight_eq_div_pow] at this
    have hst : (arg.getLsbD 2).toNat = arg.toNat / 2 ^ 2 % 2 := by
      rw [BitVec.getLsbD, Nat.toNat_testBit]
    rw [toNat_configArg, hst, BitVec.extractLsb'_toNat, BitVec.extractLsb'_toNat, Nat.shiftRight_eq_div_pow,
      Nat.shiftRight_eq_div_pow]
    have := arg.isLt
    omega

/-- A BUILD_TREE operand with ARG[23:2] = 0 is the operand of its ALPHA. -/
theorem alpha_of_decode {arg : Arg} {i : Instr} (h : decodeBuildTree arg = .ok i) :
    ∃ alpha, i = .buildTree alpha ∧ 0#22 ++ alpha = arg := by
  rw [decodeBuildTree] at h
  split at h
  case isFalse => cases h
  case isTrue hhigh =>
    cases h
    refine ⟨_, rfl, BitVec.eq_of_toNat_eq ?_⟩
    have hhigh := congrArg BitVec.toNat hhigh
    rw [BitVec.extractLsb'_toNat, Nat.shiftRight_eq_div_pow] at hhigh
    have harg := arg.isLt
    rw [BitVec.toNat_append, BitVec.extractLsb'_toNat, Nat.shiftRight_eq_div_pow]
    simp only [BitVec.toNat_ofNat, Nat.zero_mod, Nat.zero_shiftLeft, Nat.zero_or] at hhigh ⊢
    omega

theorem arg_of_decodeEndOfInput {arg : Arg} {i : Instr} (h : decodeEndOfInput arg = .ok i) :
    i = .endOfInput ∧ 0#24 = arg := by
  rw [decodeEndOfInput] at h
  split at h
  case isFalse => cases h
  case isTrue harg =>
    cases h
    exact ⟨rfl, harg.symm⟩

/-- Settles O1: the two fields of the word are OP and ARG, and ARG holds the operands. -/
theorem decodeOfEncodeIsTheInstruction : Obligations.DecodeOfEncodeIsTheInstruction := by
  unfold Obligations.DecodeOfEncodeIsTheInstruction
  intro i
  cases i with
  | nop | reset | setInput | produceOutput | flush | finish => simp [encode, decode, -opField_toNat]
  | configure mode storeOnly wbits => simp [encode, decode, -opField_toNat, decodeConfigure_configArg]
  | endOfInput => rfl
  | buildTree alpha => simp [encode, decode, -opField_toNat, decodeBuildTree_alpha]

/-- The operand of an instruction read from a word is the word's ARG, and its OP the word's OP. -/
theorem encode_of_decode {w : Word} {i : Instr} (h : decode w = .ok i) : encode i = commandWord (opField w) (argField w) := by
  have hop : ∀ n, n < 256 → (opField w).toNat = n → BitVec.ofNat 8 n = opField w := fun n _ hn => by
    rw [← hn, BitVec.ofNat_toNat, BitVec.setWidth_eq]
  unfold decode at h
  split at h
  case h_3 hn =>
    obtain ⟨_, _, _, rfl, harg⟩ := configArg_of_decode h
    rw [encode, harg, hop _ (by decide) hn]
  case h_8 hn =>
    obtain ⟨rfl, harg⟩ := arg_of_decodeEndOfInput h
    rw [encode, harg, hop _ (by decide) hn]
  case h_9 hn =>
    obtain ⟨_, rfl, harg⟩ := alpha_of_decode h
    rw [encode, harg, hop _ (by decide) hn]
  case h_10 => cases h
  all_goals
    rename_i hn
    cases h
    rw [encode, hop _ (by decide) hn]

/-- Settles O2: the instruction's word has the word's OP and ARG, and a word is its OP and its ARG. -/
theorem encodeOfDecodeIsTheWord : Obligations.EncodeOfDecodeIsTheWord := by
  unfold Obligations.EncodeOfDecodeIsTheWord
  exact fun w i h => (encode_of_decode h).trans (commandWord_fields w)

/-! ### The words that are no command (R47) -/

/-- An operand's guard refuses exactly where it fails. -/
theorem guard_error_iff {p : Prop} [Decidable p] (i : Instr) (e : DecodeError) :
    (∃ e', (if p then Except.ok i else Except.error e) = .error e') ↔ ¬ p := by
  by_cases h : p <;> simp [h]

theorem decodeConfigure_error_iff (w : Word) :
    (∃ e, decodeConfigure (argField w) = .error e) ↔ w.getLsbD 11 = true ∨ w.toNat / 2 ^ 16 ≠ 0 := by
  have hbit : (argField w).extractLsb' 3 1 = 0#1 ↔ w.getLsbD 11 = false := by
    have htest : w.getLsbD 11 = false ↔ w.toNat / 2 ^ 11 % 2 = 0 := by
      rw [BitVec.getLsbD, Nat.testBit_eq_decide_div_mod_eq]
      simp
    rw [BitVec.toNat_eq, argField_extractLsb'_toNat, htest]
    rfl
  have hhigh : (argField w).extractLsb' 8 16 = 0#16 ↔ w.toNat / 2 ^ 16 = 0 := by
    have := w.isLt
    rw [BitVec.toNat_eq, argField_extractLsb'_toNat]
    exact ⟨fun h => by simp at h; omega, fun h => by simp; omega⟩
  rw [decodeConfigure, guard_error_iff, hbit, hhigh, not_and_or, Bool.not_eq_false]

theorem decodeEndOfInput_error_iff (w : Word) :
    (∃ e, decodeEndOfInput (argField w) = .error e) ↔ w.toNat / 2 ^ 8 ≠ 0 := by
  have harg : argField w = 0#24 ↔ w.toNat / 2 ^ 8 = 0 := by
    rw [BitVec.toNat_eq, argField_toNat]
    rfl
  rw [decodeEndOfInput, guard_error_iff, harg]

theorem decodeBuildTree_error_iff (w : Word) :
    (∃ e, decodeBuildTree (argField w) = .error e) ↔ w.toNat / 2 ^ 10 ≠ 0 := by
  have hhigh : (argField w).extractLsb' 2 22 = 0#22 ↔ w.toNat / 2 ^ 10 = 0 := by
    have := w.isLt
    rw [BitVec.toNat_eq, argField_extractLsb'_toNat]
    exact ⟨fun h => by simp at h; omega, fun h => by simp; omega⟩
  rw [decodeBuildTree, guard_error_iff, hhigh]

/-- Settles O3: by the arms of the opcode map; the three commands with reserved fields refuse them. -/
theorem illegalEncodingsAreNoInstruction : Obligations.IllegalEncodingsAreNoInstruction := by
  unfold Obligations.IllegalEncodingsAreNoInstruction
  intro w
  by_cases h9 : 9 ≤ w.toNat % 256
  · exact iff_of_true ⟨_, decode_illegalOp h9⟩ (.inl h9)
  by_cases h2 : w.toNat % 256 = 2
  · rw [decode_configure h2, decodeConfigure_error_iff]
    simp [h2]
  by_cases h7 : w.toNat % 256 = 7
  · rw [decode_endOfInput h7, decodeEndOfInput_error_iff]
    simp [h7]
  by_cases h8 : w.toNat % 256 = 8
  · rw [decode_buildTree h8, decodeBuildTree_error_iff]
    simp [h8]
  · have hop : w.toNat % 256 = 0 ∨ w.toNat % 256 = 1 ∨ w.toNat % 256 = 3 ∨ w.toNat % 256 = 4 ∨ w.toNat % 256 = 5 ∨
        w.toNat % 256 = 6 := by omega
    rcases hop with h | h | h | h | h | h <;> simp [decode, h]

/-! ### The table of command words (R48) -/

theorem decode_ofNat {i : Instr} {op : Byte} {arg : Arg} {n : Nat} (hi : encode i = commandWord op arg)
    (h : n = op.toNat + arg.toNat * 2 ^ 8) : decode (BitVec.ofNat 32 n) = .ok i := by
  rw [ofNat_eq_commandWord h, ← hi]
  exact decodeOfEncodeIsTheInstruction i

/-- Settles O4: each word of the table is the word of its command. -/
theorem syntaxWordsDecode : Obligations.SyntaxWordsDecode := by
  unfold Obligations.SyntaxWordsDecode
  refine ⟨by decide, by decide, by decide, fun w => ⟨?_, ?_, ?_⟩, fun n => ⟨?_, ?_, ?_, ?_⟩, by decide, by decide, by decide⟩
  · exact decode_ofNat (i := .configure 1#2 false w) rfl (by rw [toNat_configArg]; simp; omega)
  · exact decode_ofNat (i := .configure 1#2 true w) rfl (by rw [toNat_configArg]; simp; omega)
  · exact decode_ofNat (i := .configure 2#2 false w) rfl (by rw [toNat_configArg]; simp; omega)
  · exact decode_ofNat (i := .setInput n) rfl rfl
  · exact decode_ofNat (i := .produceOutput n) rfl rfl
  · exact decode_ofNat (i := .flush n) rfl rfl
  · exact decode_ofNat (i := .finish n) rfl rfl

end Sys2Proof
end

section
/-! PROOF. Commands and steps (R152 to R167): the effect of each legal command, everything a command that answers a next state
can have done, and the step on a write to CMD or on a plain access. -/

namespace Sys2Proof.Machine

/-! ### Refused commands (R152, R167) -/

theorem runCommand_refused (legal : Bool) (effect : State → Result) {s : State} (hs : s.err ≠ .none) :
    runCommand legal effect s = .next s := if_pos hs

/-- With an error recorded every command but NOP and RESET is refused. -/
theorem exec_refused {i : Instr} {s : State} (hs : s.err ≠ .none) (hnop : ∀ arg, i ≠ .nop arg)
    (hreset : ∀ arg, i ≠ .reset arg) : exec i s = .next s := by
  cases i with
  | nop arg => exact absurd rfl (hnop arg)
  | reset arg => exact absurd rfl (hreset arg)
  | configure => rw [exec, execConfigure, runCommand_refused _ _ hs]
  | setInput => rw [exec, execSetInput, runCommand_refused _ _ hs]
  | produceOutput => rw [exec, execProduceOutput, runCommand_refused _ _ hs]
  | flush => rw [exec, execFlush, runCommand_refused _ _ hs]
  | finish => rw [exec, execFinish, runCommand_refused _ _ hs]
  | endOfInput => rw [exec, execEndOfInput, runCommand_refused _ _ hs]
  | buildTree => rw [exec, execBuildTree, runCommand_refused _ _ hs]

/-! ### The effect of a legal command -/

theorem exec_openEncoder {s : State} {storeOnly : Bool} {wbits : BitVec 4} (hs : s.err = .none) (hmode : s.mode = .idle)
    (hw : 9 ≤ wbits.toNat) :
    exec (.configure 1#2 storeOnly wbits) s = .next (openEncoder (openStream .encode storeOnly wbits s)) := by
  rw [exec, execConfigure, runCommand_legal _ hs ((configureLegal_iff ..).mpr ⟨hmode, .inl rfl, .inr rfl, hw⟩)]
  rfl

theorem exec_openDecoder {s : State} {wbits : BitVec 4} (hs : s.err = .none) (hmode : s.mode = .idle)
    (hw : 9 ≤ wbits.toNat) :
    exec (.configure 2#2 false wbits) s = .next (openDecoder (openStream .decode false wbits s)) := by
  rw [exec, execConfigure, runCommand_legal _ hs ((configureLegal_iff ..).mpr ⟨hmode, .inr rfl, .inl rfl, hw⟩)]
  rfl

theorem exec_produceOutput_encode {s : State} {cap : Arg} (hs : s.err = .none) (hmode : s.mode = .encode)
    (hcap : cap.toNat ≤ s.params.outCap) : exec (.produceOutput cap) s = encodeOutput cap s := by
  rw [exec, execProduceOutput, runCommand_legal _ hs ((produceOutputLegal_iff ..).mpr ⟨by simp [hmode], hcap⟩),
    produceOutputEffect, hmode]

theorem exec_produceOutput_decode {s : State} {cap : Arg} (hs : s.err = .none) (hmode : s.mode = .decode)
    (hcap : cap.toNat ≤ s.params.outCap) : exec (.produceOutput cap) s = decodeOutput cap s := by
  rw [exec, execProduceOutput, runCommand_legal _ hs ((produceOutputLegal_iff ..).mpr ⟨by simp [hmode], hcap⟩),
    produceOutputEffect, hmode]

/-- R160: `phase <- Flushing`. -/
def beginFlush (s : State) : State := { s with enc := { s.enc with phase := .flushing } }

theorem exec_flush {s : State} {cap : Arg} (hs : s.err = .none) (hl : CommandLegal s (.flush cap)) :
    exec (.flush cap) s = encodeOutput cap (beginFlush s) := by
  rw [exec, execFlush, runCommand_legal _ hs ((flushLegal_iff ..).mpr hl)]
  rfl

theorem exec_finish {s : State} {cap : Arg} (hs : s.err = .none) (hl : CommandLegal s (.finish cap)) :
    exec (.finish cap) s = encodeOutput cap (beginFinish s) := by
  rw [exec, execFinish, runCommand_legal _ hs ((finishLegal_iff ..).mpr hl)]

theorem exec_endOfInput {s : State} (hs : s.err = .none) (hmode : s.mode = .decode) :
    exec .endOfInput s = .next { s with dec := { s.dec with eoi := true } } := by
  rw [exec, execEndOfInput, runCommand_legal _ hs ((endOfInputLegal_iff s).mpr hmode)]

theorem exec_buildTree {s : State} {alpha : BitVec 2} {a : Alphabet} (hs : s.err = .none) (hmode : s.mode = .idle)
    (ha : alphabetOfField alpha = some a) : exec (.buildTree alpha) s = .next (buildTreeEffect a s) := by
  have hl : (decide (s.mode = .idle) && (alphabetOfField alpha).isSome) = true := by simp [hmode, ha]
  rw [exec, execBuildTree, runCommand_legal _ hs hl, ha]

/-! ### Everything a command can do -/

/-- Everything a command that answers a next state can have done, with what held of the state before it. -/
inductive CommandEffect (s : State) : Instr → State → Prop
  | nop (arg : Arg) : CommandEffect s (.nop arg) s
  | reset (arg : Arg) : CommandEffect s (.reset arg) (resetBlock s)
  | refused {i : Instr} (herr : s.err ≠ .none) : CommandEffect s i s
  | illegal {i : Instr} (herr : s.err = .none) (hl : ¬ CommandLegal s i) : CommandEffect s i (illegalCommand s)
  | openEncoder {storeOnly : Bool} {wbits : BitVec 4} (herr : s.err = .none) (hmode : s.mode = .idle)
      (hw : 9 ≤ wbits.toNat) :
      CommandEffect s (.configure 1#2 storeOnly wbits) (openEncoder (openStream .encode storeOnly wbits s))
  | openDecoder {wbits : BitVec 4} (herr : s.err = .none) (hmode : s.mode = .idle) (hw : 9 ≤ wbits.toNat) :
      CommandEffect s (.configure 2#2 false wbits) (openDecoder (openStream .decode false wbits s))
  | setInput {len : Arg} (herr : s.err = .none) (hl : CommandLegal s (.setInput len)) :
      CommandEffect s (.setInput len) (setInputEffect len s)
  | produceEncode {cap : Arg} {t : State} (herr : s.err = .none) (hmode : s.mode = .encode)
      (hcap : cap.toNat ≤ s.params.outCap) (h : encodeOutput cap s = .next t) : CommandEffect s (.produceOutput cap) t
  | produceDecode {cap : Arg} {t : State} (herr : s.err = .none) (hmode : s.mode = .decode)
      (hcap : cap.toNat ≤ s.params.outCap) (h : decodeOutput cap s = .next t) : CommandEffect s (.produceOutput cap) t
  | flush {cap : Arg} {t : State} (herr : s.err = .none) (hl : CommandLegal s (.flush cap))
      (h : encodeOutput cap (beginFlush s) = .next t) : CommandEffect s (.flush cap) t
  | finish {cap : Arg} {t : State} (herr : s.err = .none) (hl : CommandLegal s (.finish cap))
      (h : encodeOutput cap (beginFinish s) = .next t) : CommandEffect s (.finish cap) t
  | endOfInput (herr : s.err = .none) (hmode : s.mode = .decode) :
      CommandEffect s .endOfInput { s with dec := { s.dec with eoi := true } }
  | buildTree {alpha : BitVec 2} {a : Alphabet} (herr : s.err = .none) (hmode : s.mode = .idle)
      (ha : alphabetOfField alpha = some a) : CommandEffect s (.buildTree alpha) (buildTreeEffect a s)

/-- A legal command that answers a next state has its effect. -/
theorem commandEffect_of_legal {i : Instr} {s t : State} (herr : s.err = .none) (hl : CommandLegal s i)
    (h : exec i s = .next t) : CommandEffect s i t := by
  cases i with
  | nop arg =>
    cases h
    exact .nop arg
  | reset arg =>
    cases h
    exact .reset arg
  | configure mode storeOnly wbits =>
    obtain ⟨hmode, hfield, hstore, hw⟩ := hl
    by_cases hm : mode = 1#2
    · subst hm
      cases (exec_openEncoder herr hmode hw).symm.trans h
      exact .openEncoder herr hmode hw
    · obtain rfl := hfield.resolve_left hm
      obtain rfl := hstore.resolve_right hm
      cases (exec_openDecoder herr hmode hw).symm.trans h
      exact .openDecoder herr hmode hw
  | setInput len =>
    cases (exec_setInput_legal herr hl).symm.trans h
    exact .setInput herr hl
  | produceOutput cap =>
    obtain ⟨hmode, hcap⟩ := hl
    cases hm : s.mode with
    | idle => exact absurd hm hmode
    | encode => exact .produceEncode herr hm hcap ((exec_produceOutput_encode herr hm hcap).symm.trans h)
    | decode => exact .produceDecode herr hm hcap ((exec_produceOutput_decode herr hm hcap).symm.trans h)
  | flush cap => exact .flush herr hl ((exec_flush herr hl).symm.trans h)
  | finish cap => exact .finish herr hl ((exec_finish herr hl).symm.trans h)
  | endOfInput =>
    cases (exec_endOfInput herr hl).symm.trans h
    exact .endOfInput herr hl
  | buildTree alpha =>
    obtain ⟨hmode, halpha⟩ := hl
    obtain ⟨a, ha⟩ := Option.isSome_iff_exists.mp ((alphabetOfField_isSome_iff alpha).mpr halpha)
    cases (exec_buildTree herr hmode ha).symm.trans h
    exact .buildTree herr hmode ha

theorem exec_effect {i : Instr} {s t : State} (h : exec i s = .next t) : CommandEffect s i t := by
  by_cases herr : s.err = .none
  · by_cases hl : CommandLegal s i
    · exact commandEffect_of_legal herr hl h
    · cases (exec_of_not_commandLegal herr hl).symm.trans h
      exact .illegal herr hl
  · cases i with
    | nop arg =>
      cases h
      exact .nop arg
    | reset arg =>
      cases h
      exact .reset arg
    | configure | setInput | produceOutput | flush | finish | endOfInput | buildTree =>
      rw [exec_refused herr (fun _ => Instr.noConfusion) (fun _ => Instr.noConfusion)] at h
      cases h
      exact .refused herr

/-- What a host access that is no command keeps, and every command keeps, a step keeps. -/
theorem step_keeps {P : State → Prop} {s t : State} (hbus : ∀ rest, P { s with bus := rest })
    (hread : ∀ u d, P u → P { u with readData := d })
    (hstore : ∀ u bits addr v, P u → P { u with mem := storeDatum u bits addr v })
    (hexec : ∀ u i, paramsLegal u.params = true → P u → CommandEffect u i t → P t)
    (hill : ∀ u, P u → P (illegalCommand u)) (hs : P s) (h : step s = .next t) : P t := by
  obtain ⟨hparams, ⟨-, rfl⟩ | ⟨a, rest, -, -, rfl⟩ | ⟨w, rest, -, hw⟩⟩ := step_cases h
  · exact hs
  · cases a with
    | read bits addr => exact hread _ _ (hbus rest)
    | write bits addr v => exact hstore _ bits addr v (hbus rest)
  · rcases runWord_cases w { s with bus := rest } with ⟨i, -, hr⟩ | ⟨_, -, -, hr⟩ | ⟨_, -, -, hr⟩
    · exact hexec { s with bus := rest } i hparams (hbus rest) (exec_effect (hr.symm.trans hw))
    · cases hr.symm.trans hw
      exact hbus rest
    · cases hr.symm.trans hw
      exact hill _ (hbus rest)

/-! ### Steps (R34, R35, R152, R173) -/

theorem step_of_bus {s : State} {a : HostAccess} {rest : List HostAccess} (hp : paramsLegal s.params = true)
    (hbus : s.bus = a :: rest) : step s = perform a { s with bus := rest } := by
  rw [step, if_pos hp, hbus]

theorem step_command {s : State} {w : Word} {rest : List HostAccess} (hp : paramsLegal s.params = true)
    (hbus : s.bus = .write 32 0#32 w :: rest) : step s = runWord w { s with bus := rest } := step_of_bus hp hbus

theorem runWord_error {w : Word} {e : DecodeError} (h : decode w = .error e) (s : State) :
    runWord w s = runCommand false (fun s => .next s) s := by
  rw [runWord, h]

/-- Settles O5: a write to CMD is a command by definition; a word that is no command is dispatched as an illegal one. -/
theorem stepRunsTheDecodedCommand : Obligations.StepRunsTheDecodedCommand := by
  unfold Obligations.StepRunsTheDecodedCommand
  intro s rest w hp hbus
  rw [step_command hp hbus]
  refine ⟨fun i hi => runWord_of_decode_ok hi _, fun e he => ⟨fun hs => ?_, fun hs => ?_⟩⟩
  · rw [runWord_error he]
    exact runCommand_illegal (s := { s with bus := rest }) _ hs rfl
  · rw [runWord_error he]
    exact runCommand_refused (s := { s with bus := rest }) false _ hs

/-- Settles O6: the three arms of the step. -/
theorem stepPerformsOneAccess : Obligations.StepPerformsOneAccess := by
  unfold Obligations.StepPerformsOneAccess
  refine fun s => ⟨fun hp => ?_, fun hp hbus => ?_, fun a rest hp hbus hcmd => ?_⟩
  · rw [step, if_neg (Bool.eq_false_iff.mp hp)]
  · rw [step, if_pos hp, hbus]
  · rw [step_of_bus hp hbus]
    rcases perform_cases a { s with bus := rest } with ⟨w, rfl, -⟩ | ⟨-, h⟩
    · exact absurd rfl (hcmd w)
    · exact h

/-- Settles O7: the datum of a read depends on no element that the first read or its removal from the queue changes. -/
theorem hostReadsAreIdempotent : Obligations.HostReadsAreIdempotent := by
  unfold Obligations.HostReadsAreIdempotent
  intro s bits addr rest hp hbus
  exact ⟨readDatum s bits addr, step_of_bus hp hbus,
    step_of_bus (s := { s with bus := .read bits addr :: rest, readData := readDatum s bits addr }) hp rfl⟩

/-! ### CONFIGURE and END_OF_INPUT (R155, R157) -/

/-- A word that decodes to no instruction is an illegal command. -/
theorem runWord_of_error {w : Word} {s : State} (hs : s.err = .none) (h : ∃ e, decode w = .error e) :
    runWord w s = .next { s with err := .illegalCommand } := by
  obtain ⟨e, he⟩ := h
  exact (runWord_error he s).trans (runCommand_illegal _ hs rfl)

/-- Settles O15: the two legal openings; any other CONFIGURE is illegal by its row of the table of legality, and a word with
a reserved bit set is none. -/
theorem configureOpensAStream : Obligations.ConfigureOpensAStream := by
  unfold Obligations.ConfigureOpensAStream
  rintro _ rfl s hs
  refine ⟨fun st w hmode hw => ?_, fun w hmode hw => exec_openDecoder hs hmode hw,
    fun m st w => exec_of_not_commandLegal (i := .configure m st w) hs, fun w hop hres => ?_⟩
  · rw [exec_openEncoder hs hmode hw, openEncoder, encInit_eq_reset, encoderReset_eq]
    rfl
  · refine runWord_of_error hs ?_
    rwa [decode_configure hop, decodeConfigure_error_iff]

/-- Settles O17: END_OF_INPUT in DECODE and elsewhere; a word with ARG set is no command. -/
theorem endOfInputSetsEoi : Obligations.EndOfInputSetsEoi := by
  unfold Obligations.EndOfInputSetsEoi
  refine fun s hs => ⟨exec_endOfInput hs, exec_of_not_commandLegal (i := .endOfInput) hs, fun w hop harg => ?_⟩
  refine runWord_of_error hs ?_
  rwa [decode_endOfInput hop, decodeEndOfInput_error_iff]

/-! ### Errors (R154, R167) -/

/-- A word whose OP is not that of RESET leaves an error standing and changes nothing. -/
theorem runWord_refused {w : Word} {s : State} (hs : s.err ≠ .none) (hop : w.toNat % 256 ≠ 1) :
    runWord w s = .next s := by
  rcases runWord_cases w s with ⟨i, hi, hr⟩ | ⟨_, -, -, hr⟩ | ⟨_, -, hn, -⟩
  · rw [hr]
    by_cases hnop : ∃ arg, i = .nop arg
    · obtain ⟨arg, rfl⟩ := hnop
      exact exec_nop arg s
    · refine exec_refused hs (fun arg h => hnop ⟨arg, h⟩) fun arg h => hop ?_
      subst h
      rw [← encodeOfDecodeIsTheWord w _ hi, encode, toNat_commandWord]
      simp
  · exact hr
  · exact absurd hn hs

/-- Settles O19: every other instruction is refused, an illegal word's included; RESET gives the reset state. -/
theorem errorRefusesEveryCommand : Obligations.ErrorRefusesEveryCommand := by
  unfold Obligations.ErrorRefusesEveryCommand
  exact fun s hs => ⟨fun i => exec_refused hs, fun w => runWord_refused hs,
    fun w hop => ⟨_, runWord_reset hop s, rfl, rfl⟩⟩

/-- Settles O51: a plain access keeps ERR, and a command word that is no RESET is refused. -/
theorem onlyResetLeavesAnError : Obligations.OnlyResetLeavesAnError := by
  unfold Obligations.OnlyResetLeavesAnError
  intro s t hs h hne
  obtain ⟨-, ⟨-, rfl⟩ | ⟨a, rest, -, -, rfl⟩ | ⟨w, rest, hbus, hw⟩⟩ := step_cases h
  · exact absurd rfl hne
  · cases a <;> exact absurd rfl hne
  · by_cases hop : w.toNat % 256 = 1
    · rw [runWord_reset hop] at hw
      cases hw
      exact ⟨w, rest, hbus, hop, rfl⟩
    · rw [runWord_refused (s := { s with bus := rest }) hs hop] at hw
      cases hw
      exact absurd rfl hne

end Sys2Proof.Machine
end

section
/-! PROOF. Host accesses (R29 to R35): which accesses a space accepts, as ranges of addresses, and what an accepted and a
refused access do. -/

namespace Sys2Proof.Machine

/-! ### Bytes of a value (R30) -/

theorem getD_leBytes {n i : Nat} (v : Nat) (h : i < n) : (leBytes n v).getD i 0#8 = BitVec.ofNat 8 (v / 256 ^ i) := by
  induction n generalizing v i with
  | zero => exact absurd h (Nat.not_lt_zero i)
  | succ n ih =>
    cases i with
    | zero => simp [leBytes]
    | succ i => rw [leBytes, List.getD_cons_succ, ih _ (Nat.lt_of_succ_lt_succ h), Nat.div_div_eq_div_mul, Nat.pow_succ']

/-- The i-th byte of a little-endian value is its i-th digit. -/
theorem leValue_digit {bs : List Byte} {i : Nat} (h : i < bs.length) :
    leValue bs / 256 ^ i % 256 = (bs.getD i 0#8).toNat := by
  induction bs generalizing i with
  | nil => exact absurd h (Nat.not_lt_zero i)
  | cons b rest ih =>
    have hb := b.isLt
    cases i with
    | zero => simp only [leValue, List.getD_cons_zero]; omega
    | succ i =>
      have hdiv : (b.toNat + 256 * leValue rest) / 256 = leValue rest := by omega
      rw [leValue, List.getD_cons_succ, Nat.pow_succ', ← Nat.div_div_eq_div_mul, hdiv, ih (Nat.lt_of_succ_lt_succ h)]

theorem extractLsb'_byte (d : Word) (i : Nat) : d.extractLsb' (8 * i) 8 = BitVec.ofNat 8 (d.toNat / 256 ^ i) := by
  refine BitVec.eq_of_toNat_eq ?_
  rw [BitVec.extractLsb'_toNat, BitVec.toNat_ofNat, Nat.shiftRight_eq_div_pow, Nat.pow_mul]

@[simp] theorem Memory.readBytes_length (m : Memory) (a n : Nat) : (Memory.readBytes m a n).length = n := by
  simp [Memory.readBytes]

theorem Memory.getD_readBytes (m : Memory) (a : Nat) {n i : Nat} (h : i < n) :
    (Memory.readBytes m a n).getD i 0#8 = Memory.read m (a + i) := by
  simp [Memory.readBytes, h]

/-- Bytes written read back as they were written. -/
theorem Memory.readBytes_writeBytes_self {m : Memory} (hm : Memory.wf m = true) (a : Nat) (bs : List Byte) :
    Memory.readBytes (Memory.writeBytes m a bs) a bs.length = bs := by
  refine List.ext_getElem (Memory.readBytes_length ..) fun i hi hi' => ?_
  rw [Memory.readBytes_length] at hi
  simp [Memory.readBytes, Memory.read_writeBytes_inside bs m a i hm hi, hi]

/-! ### Accepted accesses (R29, R33) -/

/-- The accesses a space accepts, as a width and a range of addresses. -/
def AcceptedIn (p : Params) (bits a : Nat) : Space → Prop
  | .reg => bits = 32 ∧ a % 4 = 0 ∧ a < 0x20
  | .freqTab => bits = 16 ∧ a % 2 = 0 ∧ 0x1000 ≤ a ∧ a ≤ 0x123B
  | .lenTab => bits = 8 ∧ 0x1400 ≤ a ∧ a ≤ 0x151D
  | .codeTab => bits = 16 ∧ a % 2 = 0 ∧ 0x1800 ≤ a ∧ a ≤ 0x1A3B
  | .blcountTab => bits = 16 ∧ a % 2 = 0 ∧ 0x1C00 ≤ a ∧ a ≤ 0x1C1F
  | .inBuf =>
    (bits = 8 ∨ bits = 16 ∨ bits = 32) ∧ a % (bits / 8) = 0 ∧ 0x100000 ≤ a ∧ a + bits / 8 ≤ 0x100000 + p.inCap
  | .outBuf =>
    (bits = 8 ∨ bits = 16 ∨ bits = 32) ∧ a % (bits / 8) = 0 ∧ 0x200000 ≤ a ∧ a + bits / 8 ≤ 0x200000 + p.outCap

theorem Region.accepts_iff (r : Region) (bits a : Nat) :
    r.accepts bits a = true ↔
      bits ∈ r.widths ∧ r.base ≤ a ∧ a + bits / 8 ≤ r.base + r.size ∧ (a - r.base) % (bits / 8) = 0 := by
  simp [Region.accepts, and_assoc]

theorem mem_regions {p : Params} {r : Region} (hr : r ∈ regions p) :
    r = ⟨.reg, 0, 32, [32], false⟩ ∨ r = ⟨.freqTab, 0x1000, 572, [16], true⟩ ∨ r = ⟨.lenTab, 0x1400, 286, [8], false⟩ ∨
    r = ⟨.codeTab, 0x1800, 572, [16], false⟩ ∨ r = ⟨.blcountTab, 0x1C00, 32, [16], false⟩ ∨
    r = ⟨.inBuf, 0x100000, p.inCap, [8, 16, 32], true⟩ ∨ r = ⟨.outBuf, 0x200000, p.outCap, [8, 16, 32], true⟩ := by
  simpa [regions, freqBase, lenTabBase, codeTabBase, blcountBase, inBase, outBase, tabEntries] using hr

/-- A byte, half-word or word access at an aligned base: its alignment in the space is its alignment. -/
theorem buffer_accepts_iff {bits a base size : Nat} (hbase : base % 4 = 0) :
    (bits ∈ [8, 16, 32] ∧ base ≤ a ∧ a + bits / 8 ≤ base + size ∧ (a - base) % (bits / 8) = 0) ↔
      (bits = 8 ∨ bits = 16 ∨ bits = 32) ∧ a % (bits / 8) = 0 ∧ base ≤ a ∧ a + bits / 8 ≤ base + size := by
  have halign : bits = 8 ∨ bits = 16 ∨ bits = 32 → base ≤ a → ((a - base) % (bits / 8) = 0 ↔ a % (bits / 8) = 0) := by
    rintro (rfl | rfl | rfl) _ <;> omega
  simp only [List.mem_cons, List.not_mem_nil, or_false]
  exact ⟨fun ⟨hb, hlo, hhi, hal⟩ => ⟨hb, (halign hb hlo).mp hal, hlo, hhi⟩,
    fun ⟨hb, hal, hlo, hhi⟩ => ⟨hb, hlo, hhi, (halign hb hlo).mpr hal⟩⟩

theorem accepts_iff_acceptedIn {p : Params} {bits a : Nat} {r : Region} (hr : r ∈ regions p) :
    r.accepts bits a = true ↔ AcceptedIn p bits a r.space := by
  rw [Region.accepts_iff]
  rcases mem_regions hr with rfl | rfl | rfl | rfl | rfl | rfl | rfl <;> unfold AcceptedIn
  case inr.inr.inr.inr.inr.inl => exact buffer_accepts_iff (base := 0x100000) rfl
  case inr.inr.inr.inr.inr.inr => exact buffer_accepts_iff (base := 0x200000) rfl
  all_goals
    dsimp only
    rw [List.mem_singleton]
    refine and_congr_right ?_
    rintro rfl
    omega

theorem regionFor_acceptedIn {p : Params} {bits a : Nat} {r : Region} (h : regionFor p bits a = some r) :
    AcceptedIn p bits a r.space := by
  obtain ⟨hmem, hacc⟩ := regionFor_some h
  exact (accepts_iff_acceptedIn hmem).mp hacc

theorem exists_region (p : Params) (sp : Space) : ∃ r ∈ regions p, r.space = sp := by
  cases sp <;> simp [regions]

theorem regionFor_eq_none_iff (p : Params) (bits a : Nat) :
    regionFor p bits a = none ↔ ∀ sp, ¬ AcceptedIn p bits a sp := by
  rw [regionFor, List.find?_eq_none]
  constructor
  · intro h sp hsp
    obtain ⟨r, hr, rfl⟩ := exists_region p sp
    exact h r hr ((accepts_iff_acceptedIn hr).mpr hsp)
  · exact fun h r hr hacc => h r.space ((accepts_iff_acceptedIn hr).mp hacc)

theorem writable_iff {p : Params} {r : Region} (hr : r ∈ regions p) :
    r.writable = true ↔ r.space = .freqTab ∨ r.space = .inBuf ∨ r.space = .outBuf := by
  rcases mem_regions hr with rfl | rfl | rfl | rfl | rfl | rfl | rfl <;> simp

/-! ### Writes (R33, R34) -/

/-- A write that FREQ_TAB, IN_BUF or OUT_BUF accepts. -/
def WriteAccepted (p : Params) (bits a : Nat) : Prop :=
  AcceptedIn p bits a .freqTab ∨ AcceptedIn p bits a .inBuf ∨ AcceptedIn p bits a .outBuf

theorem storeDatum_refused {s : State} {bits : Nat} {addr : BitVec 32} (v : Word)
    (h : ¬ WriteAccepted s.params bits addr.toNat) : storeDatum s bits addr v = s.mem := by
  unfold storeDatum
  cases hr : regionFor s.params bits addr.toNat with
  | none => rfl
  | some r =>
    have hacc := regionFor_acceptedIn hr
    refine if_neg fun hw => h ?_
    rcases (writable_iff (regionFor_some hr).1).mp hw with hsp | hsp | hsp <;> rw [hsp] at hacc
    · exact .inl hacc
    · exact .inr (.inl hacc)
    · exact .inr (.inr hacc)

/-- No read-only space shares an address with an accepted write. -/
theorem WriteAccepted.space {p : Params} {bits a : Nat} (h : WriteAccepted p bits a) {sp : Space}
    (hsp : AcceptedIn p bits a sp) : sp = .freqTab ∨ sp = .inBuf ∨ sp = .outBuf := by
  simp only [WriteAccepted, AcceptedIn] at h
  cases sp with
  | freqTab | inBuf | outBuf => simp
  | reg | lenTab | codeTab | blcountTab =>
    simp only [AcceptedIn] at hsp
    omega

theorem storeDatum_accepted {s : State} {bits : Nat} {addr : BitVec 32} (v : Word)
    (h : WriteAccepted s.params bits addr.toNat) :
    storeDatum s bits addr v = Memory.writeBytes s.mem addr.toNat (leBytes (bits / 8) v.toNat) := by
  unfold storeDatum
  cases hr : regionFor s.params bits addr.toNat with
  | none =>
    have hno := (regionFor_eq_none_iff ..).mp hr
    rcases h with h | h | h <;> exact absurd h (hno _)
  | some r => exact if_pos ((writable_iff (regionFor_some hr).1).mpr (h.space (regionFor_acceptedIn hr)))

/-- The obligations' form of an accepted write. -/
theorem writeAccepted_iff (p : Params) (bits a : Nat) :
    WriteAccepted p bits a ↔
      (bits = 16 ∧ 0x1000 ≤ a ∧ a + 2 ≤ 0x123C ∧ a % 2 = 0) ∨
      ((bits = 8 ∨ bits = 16 ∨ bits = 32) ∧ a % (bits / 8) = 0 ∧
        ((0x100000 ≤ a ∧ a + bits / 8 ≤ 0x100000 + p.inCap) ∨ (0x200000 ≤ a ∧ a + bits / 8 ≤ 0x200000 + p.outCap))) := by
  have hfreq : (bits = 16 ∧ a % 2 = 0 ∧ 0x1000 ≤ a ∧ a ≤ 0x123B) ↔
      (bits = 16 ∧ 0x1000 ≤ a ∧ a + 2 ≤ 0x123C ∧ a % 2 = 0) := by omega
  simp only [WriteAccepted, AcceptedIn, hfreq, and_or_left]

/-- Settles O9: the writable spaces are FREQ_TAB, IN_BUF and OUT_BUF. -/
theorem hostWritesStoreOnlyWhereAccepted : Obligations.HostWritesStoreOnlyWhereAccepted := by
  unfold Obligations.HostWritesStoreOnlyWhereAccepted
  intro s bits addr v _ h
  rw [hostAccess_write, storeDatum_refused v (mt (writeAccepted_iff ..).mp h)]

/-! ### Reads (R33, R34) -/

/-- A read that a table or a buffer accepts. -/
def TableReadAccepted (p : Params) (bits a : Nat) : Prop := ∃ sp, sp ≠ .reg ∧ AcceptedIn p bits a sp

/-- The obligations' form of an accepted read of a table or a buffer. -/
theorem tableReadAccepted_iff (p : Params) (bits a : Nat) :
    TableReadAccepted p bits a ↔
      (bits = 16 ∧ a % 2 = 0 ∧
        ((0x1000 ≤ a ∧ a ≤ 0x123B) ∨ (0x1800 ≤ a ∧ a ≤ 0x1A3B) ∨ (0x1C00 ≤ a ∧ a ≤ 0x1C1F))) ∨
      (bits = 8 ∧ 0x1400 ≤ a ∧ a ≤ 0x151D) ∨
      ((bits = 8 ∨ bits = 16 ∨ bits = 32) ∧ a % (bits / 8) = 0 ∧
        ((0x100000 ≤ a ∧ a + bits / 8 ≤ 0x100000 + p.inCap) ∨ (0x200000 ≤ a ∧ a + bits / 8 ≤ 0x200000 + p.outCap))) := by
  constructor
  · rintro ⟨sp, hsp, h⟩
    cases sp with
    | reg => exact absurd rfl hsp
    | freqTab => exact .inl ⟨h.1, h.2.1, .inl h.2.2⟩
    | codeTab => exact .inl ⟨h.1, h.2.1, .inr (.inl h.2.2)⟩
    | blcountTab => exact .inl ⟨h.1, h.2.1, .inr (.inr h.2.2)⟩
    | lenTab => exact .inr (.inl h)
    | inBuf => exact .inr (.inr ⟨h.1, h.2.1, .inl h.2.2⟩)
    | outBuf => exact .inr (.inr ⟨h.1, h.2.1, .inr h.2.2⟩)
  · rintro (⟨hb, hal, h | h | h⟩ | h | ⟨hb, hal, h | h⟩)
    · exact ⟨.freqTab, Space.noConfusion, hb, hal, h⟩
    · exact ⟨.codeTab, Space.noConfusion, hb, hal, h⟩
    · exact ⟨.blcountTab, Space.noConfusion, hb, hal, h⟩
    · exact ⟨.lenTab, Space.noConfusion, h⟩
    · exact ⟨.inBuf, Space.noConfusion, hb, hal, h⟩
    · exact ⟨.outBuf, Space.noConfusion, hb, hal, h⟩

theorem WriteAccepted.table {p : Params} {bits a : Nat} (h : WriteAccepted p bits a) : TableReadAccepted p bits a := by
  rcases h with h | h | h <;> exact ⟨_, Space.noConfusion, h⟩

/-- No other space shares an address with the registers. -/
theorem AcceptedIn.not_reg {p : Params} {bits a : Nat} {sp : Space} (h : AcceptedIn p bits a sp) (hsp : sp ≠ .reg) :
    ¬ AcceptedIn p bits a .reg := by
  rintro ⟨rfl, -, hlt⟩
  cases sp with
  | reg => exact hsp rfl
  | freqTab | lenTab | codeTab | blcountTab | inBuf | outBuf =>
    simp only [AcceptedIn] at h
    omega

/-- The datum of a read of a table or a buffer: its bytes. -/
theorem readDatum_table {s : State} {bits : Nat} {addr : BitVec 32} (h : TableReadAccepted s.params bits addr.toNat) :
    readDatum s bits addr = BitVec.ofNat 32 (leValue (Memory.readBytes s.mem addr.toNat (bits / 8))) := by
  obtain ⟨sp, hsp, hacc⟩ := h
  unfold readDatum
  cases hr : regionFor s.params bits addr.toNat with
  | none => exact absurd hacc ((regionFor_eq_none_iff ..).mp hr sp)
  | some r =>
    have hacc' := regionFor_acceptedIn hr
    simp only [regionDatum]
    split
    · rename_i hreg
      rw [hreg] at hacc'
      exact absurd hacc' (hacc.not_reg hsp)
    · rfl

/-- An accepted access of a table or a buffer is 1, 2 or 4 bytes wide. -/
theorem TableReadAccepted.width {p : Params} {bits a : Nat} (h : TableReadAccepted p bits a) :
    bits = 8 ∨ bits = 16 ∨ bits = 32 := by
  rw [tableReadAccepted_iff] at h
  omega

/-- Settles O10: a read that no space accepts meets no region. -/
theorem refusedReadsReturnZero : Obligations.RefusedReadsReturnZero := by
  unfold Obligations.RefusedReadsReturnZero
  intro s bits addr _ h
  rw [not_or, ← tableReadAccepted_iff] at h
  have hnone : regionFor s.params bits addr.toNat = none := by
    rw [regionFor_eq_none_iff]
    intro sp hsp
    by_cases hreg : sp = .reg
    · subst hreg
      exact h.1 hsp
    · exact h.2 ⟨sp, hreg, hsp⟩
  rw [hostAccess_read, readDatum, hnone]

/-- A value of n bytes, n at most 4, fits a word. -/
theorem toNat_leValue_word {bs : List Byte} (h : bs.length ≤ 4) : (BitVec.ofNat 32 (leValue bs)).toNat = leValue bs := by
  have hlt := leValue_lt bs
  have hpow : 256 ^ bs.length ≤ 256 ^ 4 := Nat.pow_le_pow_right (by decide) h
  rw [BitVec.toNat_ofNat]
  exact Nat.mod_eq_of_lt (by omega)

/-- Settles O8: an accepted write stores the bytes of its value, and an accepted read gathers the bytes it finds. -/
theorem acceptedAccessesAreLittleEndian : Obligations.AcceptedAccessesAreLittleEndian := by
  unfold Obligations.AcceptedAccessesAreLittleEndian
  intro s bits addr _ hwf
  refine ⟨fun v h => ?_, fun h => ?_⟩
  · rw [← writeAccepted_iff] at h
    have hwidth := h.table.width
    refine ⟨_, by rw [hostAccess_write, storeDatum_accepted v h], fun i hi => ?_, fun a ha => ?_, ?_⟩
    · rw [Memory.read_writeBytes_inside _ _ _ _ hwf (by rwa [leBytes_length]), getD_leBytes _ hi, extractLsb'_byte]
    · exact Memory.read_writeBytes_outside _ _ _ _ (by rwa [leBytes_length])
    · have hbytes := Memory.readBytes_writeBytes_self hwf addr.toNat (leBytes (bits / 8) v.toNat)
      rw [leBytes_length] at hbytes
      have hread := readDatum_table
        (s := { s with mem := Memory.writeBytes s.mem addr.toNat (leBytes (bits / 8) v.toNat) }) h.table
      rw [hostAccess_read, hread, hbytes, toNat_leValue_word (by rw [leBytes_length]; omega),
        leValue_leBytes]
      rcases hwidth with rfl | rfl | rfl <;> rfl
  · rw [← tableReadAccepted_iff] at h
    have hwidth := h.width
    have hword := toNat_leValue_word (bs := Memory.readBytes s.mem addr.toNat (bits / 8))
      (by rw [Memory.readBytes_length]; omega)
    refine ⟨_, by rw [hostAccess_read, readDatum_table h], ?_, fun i hi => ?_⟩
    · rw [hword]
      refine (leValue_lt _).trans_le ?_
      rw [Memory.readBytes_length]
      rcases hwidth with rfl | rfl | rfl <;> decide
    · refine BitVec.eq_of_toNat_eq ?_
      rw [extractLsb'_byte, hword, BitVec.toNat_ofNat, leValue_digit (by rwa [Memory.readBytes_length]),
        Memory.getD_readBytes _ _ hi]

/-! ### The registers (R49 to R52) -/

theorem configReg_mode (s : State) : (configReg s).extractLsb' 0 2 = s.mode.code := by
  unfold configReg configArg
  exact (BitVec.extractLsb'_append_eq_of_add_le (by decide)).trans BitVec.extractLsb'_append_eq_right

theorem configReg_wbits (s : State) : (configReg s).extractLsb' 4 4 = s.wbits := by
  unfold configReg configArg
  rw [BitVec.extractLsb'_append_eq_of_add_le (by decide)]
  iterate 3 rw [BitVec.extractLsb'_append_eq_of_le (by decide)]
  exact BitVec.extractLsb'_append_eq_right

theorem configReg_storeOnly (s : State) : (configReg s).getLsbD 2 = s.storeOnly := by
  simp only [configReg, configArg, BitVec.getLsbD_append]
  simp

theorem configReg_reserved (s : State) : (configReg s).getLsbD 3 = false := by
  simp only [configReg, configArg, BitVec.getLsbD_append]
  simp

theorem configReg_high (s : State) : (configReg s).extractLsb' 8 24 = 0#24 := by
  refine BitVec.eq_of_toNat_eq ?_
  have hlow := (configArg s.mode.code s.storeOnly s.wbits).isLt
  have hfields := toNat_configArg s.mode.code s.storeOnly s.wbits
  have hmode := s.mode.code.isLt
  have hstore := s.storeOnly.toNat_lt
  have hw := s.wbits.isLt
  rw [BitVec.extractLsb'_toNat, Nat.shiftRight_eq_div_pow, configReg, BitVec.toNat_append, hfields]
  simp only [BitVec.toNat_ofNat, Nat.zero_mod, Nat.zero_shiftLeft, Nat.zero_or]
  omega

/-- RESULT's two fields and its reserved bits. -/
theorem resultReg_fields (isDone : Bool) {n : Nat} (h : n < 2 ^ 24) :
    resultCount (resultReg n isDone) = n ∧ resultDone (resultReg n isDone) = isDone ∧
      (resultReg n isDone).extractLsb' 25 7 = 0#7 := by
  refine ⟨?_, ?_, ?_⟩
  · rw [resultCount, resultReg, BitVec.extractLsb'_append_eq_right, BitVec.toNat_ofNat, Nat.mod_eq_of_lt h]
  · simp only [resultDone, resultReg, BitVec.getLsbD_append]
    simp
  · rw [resultReg, BitVec.extractLsb'_append_eq_of_le (by decide)]
    exact BitVec.extractLsb'_append_eq_left

/-- Settles O12: each register read at its address, the refused writes below FREQ_TAB, and the fields by position. -/
theorem registersReadAsLaidOut : Obligations.RegistersReadAsLaidOut := by
  unfold Obligations.RegistersReadAsLaidOut
  intro s
  refine ⟨fun k hk => readDatum_register s hk, fun k bits v _ hk => hostAccess_write_below_freqBase s bits v ?_,
    ⟨rfl, rfl, rfl, rfl, rfl, rfl, rfl⟩,
    ⟨configReg_mode s, configReg_storeOnly s, configReg_reserved s, configReg_wbits s, configReg_high s⟩,
    fun n hn => resultReg_fields (finished s) hn⟩
  rw [BitVec.toNat_ofNat, freqBase]
  omega

end Sys2Proof.Machine
end

section
/-! PROOF. The decoder's step (R131 to R149): what a step that makes progress, one that raises and one that stalls can do, one
rule per state. -/

namespace Sys2Proof.Machine

/-! ### Steps that make progress -/

/-- R134 to R148: what a step of each decoder state that makes progress does. -/
def OkRule (s t : State) : DecState → Prop
  | .readingBFinal => ∃ v s', getBits 1 s = (some v, s') ∧
      t = { s.consuming s' with dec := { s.dec with bfinal := decide (v = 1), decState := .readingBType } }
  | .readingBType => ∃ v s', getBits 2 s = (some v, s') ∧
      ((v = 0 ∧ t = { s.consuming s' with dec := { s.dec with decState := .uncompressedAligning } }) ∨
       (v = 1 ∧ t = { s.consuming s' with
          dec := { s.dec with litTable := staticLitTable, distTable := staticDistTable, decState := .decodeTop } }) ∨
       (v = 2 ∧ t = { s.consuming s' with dec := { s.dec with decState := .readingNumLitCodes } }))
  | .readingNumLitCodes => ∃ v s', getBits 5 s = (some v, s') ∧ v ≤ 29 ∧
      t = { s.consuming s' with dec := { s.dec with hlitN := v + 257, decState := .readingNumDistCodes } }
  | .readingNumDistCodes => ∃ v s', getBits 5 s = (some v, s') ∧ v ≤ 29 ∧
      t = { s.consuming s' with dec := { s.dec with hdistN := v + 1, decState := .readingNumCodeLenCodes } }
  | .readingNumCodeLenCodes => ∃ v s', getBits 4 s = (some v, s') ∧
      t = { s.consuming s' with dec := { s.dec with hclenN := v + 4, clLens := List.replicate 19 0, clIdx := 0,
                                                    decState := .readingCodeLenCodes } }
  | .readingCodeLenCodes => ∃ v s' lens, getBits 3 s = (some v, s') ∧
      lens = s.dec.clLens.set (at0 blOrder s.dec.clIdx) v ∧
      ((s.dec.clIdx + 1 ≠ s.dec.hclenN ∧
          t = { s.consuming s' with dec := { s.dec with clLens := lens, clIdx := s.dec.clIdx + 1 } }) ∨
       (s.dec.clIdx + 1 = s.dec.hclenN ∧ ∃ table, makeTable lens = some table ∧
          t = { s.consuming s' with dec := { s.dec with clLens := lens, clIdx := s.dec.clIdx + 1, clTable := table,
                                                        lens := [], decState := .readingTreeCodes } }))
  | .readingTreeCodes =>
      (s.dec.lens.length = s.dec.hlitN + s.dec.hdistN →
        at0 s.dec.lens 256 ≠ 0 ∧ ∃ lt dt, makeTable (s.dec.lens.take s.dec.hlitN) = some lt ∧
          makeTable ((s.dec.lens.drop s.dec.hlitN).take s.dec.hdistN) = some dt ∧
          t = { s with dec := { s.dec with litTable := lt, distTable := dt, decState := .decodeTop } }) ∧
      (s.dec.lens.length ≠ s.dec.hlitN + s.dec.hdistN →
        ∃ c s', decodeSym s.dec.clTable s = (.symbol c, s') ∧
          ((c ≤ 15 ∧ t = { s.consuming s' with dec := { s.dec with lens := s.dec.lens ++ [c] } }) ∨
           (16 ≤ c ∧ (c = 16 → s.dec.lens ≠ []) ∧
              t = { s.consuming s' with dec := { s.dec with repSym := c, decState := .readingTreeCodesExtra } })))
  | .readingTreeCodesExtra => ∃ v s' n val,
      getBits (repeatBits s.dec.repSym) s = (some v, s') ∧ (n, val) = repeatRun s.dec v ∧
      s.dec.lens.length + n ≤ s.dec.hlitN + s.dec.hdistN ∧
      t = { s.consuming s' with dec := { s.dec with lens := s.dec.lens ++ List.replicate n val,
                                                    decState := .readingTreeCodes } }
  | .decodeTop => 258 ≤ windowSize s.wbits - s.window.winUsed ∧
      ∃ v s', decodeSym s.dec.litTable s = (.symbol v, s') ∧
        ((v < 256 ∧ t = { s.consuming s' with
            window := writeLiteral (windowSize s.wbits) (BitVec.ofNat 8 v) s.window }) ∨
         (v = 256 ∧ t = { s.consuming s' with dec := { s.dec with decState := afterBlock s.dec } }) ∨
         (257 ≤ v ∧ v ≤ 285 ∧
            t = { s.consuming s' with dec := { s.dec with curSym := v, decState := .haveInitialLength } }))
  | .haveInitialLength => ∃ v s', getBits (lenExtraOf s.dec.curSym) s = (some v, s') ∧
      t = { s.consuming s' with
              dec := { s.dec with curLen := lenBaseOf s.dec.curSym + v, decState := .haveFullLength } }
  | .haveFullLength => ∃ v s', decodeSym s.dec.distTable s = (.symbol v, s') ∧ v < 30 ∧
      t = { s.consuming s' with dec := { s.dec with curDsym := v, decState := .haveDistCode } }
  | .haveDistCode => ∃ v s' dist, getBits (distExtraOf s.dec.curDsym) s = (some v, s') ∧
      dist = distBaseOf s.dec.curDsym + v ∧ dist ≤ s.window.winFilled ∧
      t = { s.consuming s' with
              window := writeBackReference (windowSize s.wbits) s.dec.curLen dist s.window
              dec := { s.dec with decState := .decodeTop } }
  | .uncompressedAligning =>
      t = { s with reader := skipToByteBoundary s.reader, dec := { s.dec with decState := .uncompressedByte1 } }
  | .uncompressedByte1 => ∃ v s', getBits 8 s = (some v, s') ∧
      t = { s.consuming s' with dec := { s.dec with lenLo := BitVec.ofNat 8 v, decState := .uncompressedByte2 } }
  | .uncompressedByte2 => ∃ v s', getBits 8 s = (some v, s') ∧
      t = { s.consuming s' with dec := { s.dec with storedLen := BitVec.ofNat 8 v ++ s.dec.lenLo,
                                                    decState := .uncompressedByte3 } }
  | .uncompressedByte3 => ∃ v s', getBits 8 s = (some v, s') ∧
      t = { s.consuming s' with dec := { s.dec with nlenLo := BitVec.ofNat 8 v, decState := .uncompressedByte4 } }
  | .uncompressedByte4 => ∃ v s', getBits 8 s = (some v, s') ∧
      (BitVec.ofNat 8 v ++ s.dec.nlenLo : BitVec 16) = ~~~ s.dec.storedLen ∧
      t = { s.consuming s' with dec := { s.dec with storedRem := s.dec.storedLen.toNat,
                                                    decState := .decodingUncompressed } }
  | .decodingUncompressed =>
      (s.dec.storedRem = 0 → t = { s with dec := { s.dec with decState := afterBlock s.dec } }) ∧
      (s.dec.storedRem ≠ 0 →
        1 ≤ windowSize s.wbits - s.window.winUsed ∧ ∃ v s', getBits 8 s = (some v, s') ∧
          t = { s.consuming s' with window := writeLiteral (windowSize s.wbits) (BitVec.ofNat 8 v) s.window
                                    dec := { s.dec with storedRem := s.dec.storedRem - 1 } })
  | .done => False

section
variable {s t : State}

theorem decReadingBFinal_ok (h : decReadingBFinal s = (.ok, t)) : OkRule s t .readingBFinal := by
  obtain ⟨v, s', hg, hf⟩ := withBits_ok h
  cases hf
  exact ⟨v, s', hg, rfl⟩

theorem decReadingBType_ok (h : decReadingBType s = (.ok, t)) : OkRule s t .readingBType := by
  obtain ⟨v, s', hg, hf⟩ := withBits_ok h
  refine ⟨v, s', hg, ?_⟩
  unfold blockTypeRead at hf
  split at hf
  · cases hf
    exact .inl ⟨‹_›, rfl⟩
  · split at hf
    · cases hf
      exact .inr (.inl ⟨‹_›, rfl⟩)
    · split at hf
      · cases hf
        exact .inr (.inr ⟨‹_›, rfl⟩)
      · cases hf

theorem decReadingNumLitCodes_ok (h : decReadingNumLitCodes s = (.ok, t)) : OkRule s t .readingNumLitCodes := by
  obtain ⟨v, s', hg, hf⟩ := withBits_ok h
  dsimp only at hf
  split at hf
  · cases hf
  · cases hf
    exact ⟨v, s', hg, Nat.le_of_not_lt ‹_›, rfl⟩

theorem decReadingNumDistCodes_ok (h : decReadingNumDistCodes s = (.ok, t)) : OkRule s t .readingNumDistCodes := by
  obtain ⟨v, s', hg, hf⟩ := withBits_ok h
  dsimp only at hf
  split at hf
  · cases hf
  · cases hf
    exact ⟨v, s', hg, Nat.le_of_not_lt ‹_›, rfl⟩

theorem decReadingNumCodeLenCodes_ok (h : decReadingNumCodeLenCodes s = (.ok, t)) :
    OkRule s t .readingNumCodeLenCodes := by
  obtain ⟨v, s', hg, hf⟩ := withBits_ok h
  cases hf
  exact ⟨v, s', hg, rfl⟩

theorem decReadingCodeLenCodes_ok (h : decReadingCodeLenCodes s = (.ok, t)) : OkRule s t .readingCodeLenCodes := by
  obtain ⟨v, s', hg, hf⟩ := withBits_ok h
  refine ⟨v, s', _, hg, rfl, ?_⟩
  dsimp only at hf
  split at hf
  · rename_i hlast
    refine .inr ⟨hlast, ?_⟩
    unfold codeLenTable at hf
    split at hf
    · cases hf
    · rename_i table htable
      cases hf
      exact ⟨table, htable, rfl⟩
  · cases hf
    exact .inl ⟨‹_›, rfl⟩

theorem decReadingTreeCodes_ok (h : decReadingTreeCodes s = (.ok, t)) : OkRule s t .readingTreeCodes := by
  unfold decReadingTreeCodes at h
  split at h
  · refine ⟨fun _ => ?_, fun hne => absurd ‹_› hne⟩
    unfold buildTables at h
    split at h
    · cases h
    · rename_i hend
      refine ⟨hend, ?_⟩
      split at h
      · cases h
      · rename_i lt hlt
        dsimp only at h
        split at h
        · cases h
        · rename_i dt hdt
          cases h
          exact ⟨lt, dt, hlt, hdt, rfl⟩
  · refine ⟨fun heq => absurd heq ‹_›, fun _ => ?_⟩
    obtain ⟨c, s', hg, hf⟩ := withSym_ok h
    refine ⟨c, s', hg, ?_⟩
    unfold treeCodeRead at hf
    split at hf
    · cases hf
      exact .inl ⟨‹_›, rfl⟩
    · split at hf
      · cases hf
      · rename_i hc hrep
        cases hf
        exact .inr ⟨by omega, fun hc hnil => hrep ⟨hc, hnil⟩, rfl⟩

theorem decReadingTreeCodesExtra_ok (h : decReadingTreeCodesExtra s = (.ok, t)) :
    OkRule s t .readingTreeCodesExtra := by
  obtain ⟨v, s', hg, hf⟩ := withBits_ok h
  dsimp only at hf
  split at hf
  · cases hf
  · cases hf
    exact ⟨v, s', _, _, hg, rfl, Nat.le_of_not_lt ‹_›, rfl⟩

theorem decDecodeTop_ok (h : decDecodeTop s = (.ok, t)) : OkRule s t .decodeTop := by
  unfold decDecodeTop at h
  split at h
  · cases h
  · obtain ⟨v, s', hg, hf⟩ := withSym_ok h
    refine ⟨Nat.le_of_not_lt ‹_›, v, s', hg, ?_⟩
    unfold litSymRead at hf
    split at hf
    · cases hf
      exact .inl ⟨‹_›, rfl⟩
    · split at hf
      · cases hf
        exact .inr (.inl ⟨‹_›, rfl⟩)
      · split at hf
        · cases hf
          exact .inr (.inr ⟨by omega, ‹_›, rfl⟩)
        · cases hf

theorem decHaveInitialLength_ok (h : decHaveInitialLength s = (.ok, t)) : OkRule s t .haveInitialLength := by
  obtain ⟨v, s', hg, hf⟩ := withBits_ok h
  cases hf
  exact ⟨v, s', hg, rfl⟩

theorem decHaveFullLength_ok (h : decHaveFullLength s = (.ok, t)) : OkRule s t .haveFullLength := by
  obtain ⟨v, s', hg, hf⟩ := withSym_ok h
  dsimp only at hf
  split at hf
  · cases hf
  · cases hf
    exact ⟨v, s', hg, Nat.lt_of_not_le ‹_›, rfl⟩

theorem decHaveDistCode_ok (h : decHaveDistCode s = (.ok, t)) : OkRule s t .haveDistCode := by
  obtain ⟨v, s', hg, hf⟩ := withBits_ok h
  refine ⟨v, s', _, hg, rfl, ?_⟩
  unfold copyMatch at hf
  split at hf
  · cases hf
  · cases hf
    exact ⟨Nat.le_of_not_lt ‹_›, rfl⟩

theorem decUncompressedByte1_ok (h : decUncompressedByte1 s = (.ok, t)) : OkRule s t .uncompressedByte1 := by
  obtain ⟨v, s', hg, hf⟩ := withBits_ok h
  cases hf
  exact ⟨v, s', hg, rfl⟩

theorem decUncompressedByte2_ok (h : decUncompressedByte2 s = (.ok, t)) : OkRule s t .uncompressedByte2 := by
  obtain ⟨v, s', hg, hf⟩ := withBits_ok h
  cases hf
  exact ⟨v, s', hg, rfl⟩

theorem decUncompressedByte3_ok (h : decUncompressedByte3 s = (.ok, t)) : OkRule s t .uncompressedByte3 := by
  obtain ⟨v, s', hg, hf⟩ := withBits_ok h
  cases hf
  exact ⟨v, s', hg, rfl⟩

theorem decUncompressedByte4_ok (h : decUncompressedByte4 s = (.ok, t)) : OkRule s t .uncompressedByte4 := by
  obtain ⟨v, s', hg, hf⟩ := withBits_ok h
  dsimp only at hf
  split at hf
  · cases hf
  · cases hf
    exact ⟨v, s', hg, not_not.mp ‹_›, rfl⟩

theorem decDecodingUncompressed_ok (h : decDecodingUncompressed s = (.ok, t)) : OkRule s t .decodingUncompressed := by
  unfold decDecodingUncompressed at h
  split at h
  · cases h
    exact ⟨fun _ => rfl, fun hne => absurd ‹_› hne⟩
  · refine ⟨fun heq => absurd heq ‹_›, fun _ => ?_⟩
    split at h
    · cases h
    · obtain ⟨v, s', hg, hf⟩ := withBits_ok h
      cases hf
      exact ⟨Nat.pos_of_ne_zero ‹_›, v, s', hg, rfl⟩

/-- A step that makes progress follows the rule of its state. -/
theorem decStep_ok (h : decStep s = (.ok, t)) : OkRule s t s.dec.decState := by
  unfold decStep at h
  split at h <;> rename_i hd <;> rw [hd]
  · exact decReadingBFinal_ok h
  · exact decReadingBType_ok h
  · exact decReadingNumLitCodes_ok h
  · exact decReadingNumDistCodes_ok h
  · exact decReadingNumCodeLenCodes_ok h
  · exact decReadingCodeLenCodes_ok h
  · exact decReadingTreeCodes_ok h
  · exact decReadingTreeCodesExtra_ok h
  · exact decDecodeTop_ok h
  · exact decHaveInitialLength_ok h
  · exact decHaveFullLength_ok h
  · exact decHaveDistCode_ok h
  · cases h
    rfl
  · exact decUncompressedByte1_ok h
  · exact decUncompressedByte2_ok h
  · exact decUncompressedByte3_ok h
  · exact decUncompressedByte4_ok h
  · exact decDecodingUncompressed_ok h
  · cases h

end

/-- R131: the 28 transitions of the diagram. -/
theorem decStep_ok_transition {s t : State} (h : decStep s = (.ok, t)) :
    (s.dec.decState.code.toNat, t.dec.decState.code.toNat) ∈
      [(0, 1), (1, 2), (1, 8), (1, 12), (2, 3), (3, 4), (4, 5), (5, 5), (5, 6), (6, 6), (6, 7), (6, 8), (7, 6),
       (8, 8), (8, 9), (8, 0), (8, 18), (9, 10), (10, 11), (11, 8), (12, 13), (13, 14), (14, 15), (15, 16), (16, 17),
       (17, 17), (17, 0), (17, 18)] := by
  have hr := decStep_ok h
  cases hd : s.dec.decState <;> rw [hd] at hr
  case readingBFinal | readingNumCodeLenCodes | haveInitialLength | uncompressedByte1 | uncompressedByte2 |
      uncompressedByte3 =>
    obtain ⟨v, s', -, rfl⟩ := hr
    simp [DecState.code]
  case readingBType =>
    obtain ⟨v, s', -, ⟨-, rfl⟩ | ⟨-, rfl⟩ | ⟨-, rfl⟩⟩ := hr <;> simp [DecState.code]
  case readingNumLitCodes | readingNumDistCodes | haveFullLength | uncompressedByte4 =>
    obtain ⟨v, s', -, -, rfl⟩ := hr
    simp [DecState.code]
  case readingCodeLenCodes =>
    obtain ⟨v, s', lens, -, -, ⟨-, rfl⟩ | ⟨-, table, -, rfl⟩⟩ := hr <;> simp [DecState.code, hd]
  case readingTreeCodes =>
    by_cases hfull : s.dec.lens.length = s.dec.hlitN + s.dec.hdistN
    · obtain ⟨-, lt, dt, -, -, rfl⟩ := hr.1 hfull
      simp [DecState.code]
    · obtain ⟨c, s', -, ⟨-, rfl⟩ | ⟨-, -, rfl⟩⟩ := hr.2 hfull <;> simp [DecState.code, hd]
  case readingTreeCodesExtra =>
    obtain ⟨v, s', n, val, -, -, -, rfl⟩ := hr
    simp [DecState.code]
  case decodeTop =>
    obtain ⟨-, v, s', -, ⟨-, rfl⟩ | ⟨-, rfl⟩ | ⟨-, -, rfl⟩⟩ := hr
    · simp [DecState.code, State.consuming, hd]
    · cases hb : s.dec.bfinal <;> simp [DecState.code, afterBlock, hb]
    · simp [DecState.code]
  case haveDistCode =>
    obtain ⟨v, s', dist, -, -, -, rfl⟩ := hr
    simp [DecState.code]
  case uncompressedAligning =>
    cases hr
    simp [DecState.code]
  case decodingUncompressed =>
    by_cases hrem : s.dec.storedRem = 0
    · cases hr.1 hrem
      cases hb : s.dec.bfinal <;> simp [DecState.code, afterBlock, hb]
    · obtain ⟨-, v, s', -, rfl⟩ := hr.2 hrem
      simp [DecState.code, hd]
  case done => exact hr.elim

/-! ### The header of a stored block (R147) -/

/-- Two bytes side by side as a number. -/
theorem toNat_append_bytes (lo : Byte) {v : Nat} (hv : v < 2 ^ 8) :
    (BitVec.ofNat 8 v ++ lo : BitVec 16).toNat = lo.toNat + 256 * v := by
  rw [BitVec.toNat_append, BitVec.toNat_ofNat, Nat.mod_eq_of_lt hv, ← Nat.shiftLeft_add_eq_or_of_lt lo.isLt,
    Nat.shiftLeft_eq, Nat.add_comm, Nat.mul_comm]

theorem append_bytes_eq_ofNat (lo : Byte) {v : Nat} (hv : v < 2 ^ 8) :
    (BitVec.ofNat 8 v ++ lo : BitVec 16) = BitVec.ofNat 16 (lo.toNat + 256 * v) := by
  rw [← toNat_append_bytes lo hv, BitVec.ofNat_toNat, BitVec.setWidth_eq]

/-- NLEN is the one's complement of LEN: 65535 - LEN. -/
theorem append_bytes_eq_not_iff (lo : Byte) {v : Nat} (hv : v < 2 ^ 8) (len : BitVec 16) :
    (BitVec.ofNat 8 v ++ lo : BitVec 16) = ~~~ len ↔ lo.toNat + 256 * v = 65535 - len.toNat := by
  rw [BitVec.toNat_eq, toNat_append_bytes lo hv, BitVec.toNat_not]

/-- R141: the run that a repeat symbol stands for, symbol by symbol. -/
theorem repeatRun_eq {d : Decoder} {v n val : Nat} (h : (n, val) = repeatRun d v) :
    (d.repSym = 16 → n = v + 3 ∧ val = at0 d.lens (d.lens.length - 1)) ∧ (d.repSym = 17 → n = v + 3 ∧ val = 0) ∧
    (d.repSym ≠ 16 → d.repSym ≠ 17 → n = v + 11 ∧ val = 0) := by
  unfold repeatRun at h
  refine ⟨fun h16 => ?_, fun h17 => ?_, fun h16 h17 => ?_⟩
  · rw [if_pos h16] at h
    exact Prod.mk.inj h
  · rw [if_neg (by omega), if_pos h17] at h
    exact Prod.mk.inj h
  · rw [if_neg h16, if_neg h17] at h
    exact Prod.mk.inj h

/-- Settles O33: the rule of each state, and the diagram's transitions from the rules. -/
theorem decoderStepsFollowTheDiagram : Obligations.DecoderStepsFollowTheDiagram := by
  unfold Obligations.DecoderStepsFollowTheDiagram
  intro s t h
  have hrule : ∀ d, s.dec.decState = d → OkRule s t d := fun d hd => hd ▸ decStep_ok h
  refine ⟨decStep_ok_transition h, hrule _, hrule _, hrule _, hrule _, hrule _, hrule _, fun hd => (hrule _ hd).1,
    fun hd => (hrule _ hd).2, fun hd => ?_, hrule _, hrule _, hrule _, hrule _, hrule _, hrule _, fun hd => ?_, hrule _,
    fun hd => ?_, fun hd => (hrule _ hd).1, fun hd => (hrule _ hd).2⟩
  · obtain ⟨v, s', n, val, hg, hrun, hlen, ht⟩ := hrule _ hd
    obtain ⟨h16, h17, h18⟩ := repeatRun_eq hrun
    exact ⟨v, s', n, val, hg, h16, h17, h18, hlen, ht⟩
  · obtain ⟨v, s', hg, ht⟩ := hrule _ hd
    exact ⟨v, s', hg, by rw [ht, append_bytes_eq_ofNat _ (getBits_lt hg)]⟩
  · obtain ⟨v, s', hg, hnot, ht⟩ := hrule _ hd
    exact ⟨v, s', hg, (append_bytes_eq_not_iff _ (getBits_lt hg) _).mp hnot, ht⟩

/-! ### Steps that raise -/

theorem withBits_raised_iff {n : Nat} {f : Nat → State → StepOut × State} {s t : State} {e : Err} :
    withBits n f s = (.raised e, t) ↔ ∃ v s', getBits n s = (some v, s') ∧ f v (s.consuming s') = (.raised e, t) := by
  unfold withBits
  split
  · rename_i s' hg
    simp [hg]
  · rename_i v s' hg
    have hs' := getBits_consuming hg
    constructor
    · exact fun h => ⟨v, s', hg, hs' ▸ h⟩
    · rintro ⟨v', s'', hg', h⟩
      cases hg.symm.trans hg'
      rwa [← hs'] at h

theorem withSym_raised_iff {table : DecTable} {f : Nat → State → StepOut × State} {s t : State} {e : Err} :
    withSym table f s = (.raised e, t) ↔
      (e = .invalidHuffmanTable ∧ decodeSym table s = (.badCode, t)) ∨
      ∃ v s', decodeSym table s = (.symbol v, s') ∧ f v (s.consuming s') = (.raised e, t) := by
  unfold withSym
  split
  · rename_i s' hg
    simp [hg]
  · rename_i s' hg
    simp [hg, eq_comm]
  · rename_i v s' hg
    have hs' := decodeSym_consuming hg
    constructor
    · exact fun h => .inr ⟨v, s', hg, hs' ▸ h⟩
    · rintro (⟨-, hbad⟩ | ⟨v', s'', hg', h⟩)
      · cases hg.symm.trans hbad
      · cases hg.symm.trans hg'
        rwa [← hs'] at h

/-- R134 to R148, R169: what a step of each decoder state raises, on which cause, and what it leaves. -/
def RaiseRule (s t : State) (e : Err) : DecState → Prop
  | .readingBType => e = .invalidBlockType ∧ getBits 2 s = (some 3, t)
  | .readingNumLitCodes | .readingNumDistCodes => e = .invalidHeaderCount ∧ ∃ v, 29 < v ∧ getBits 5 s = (some v, t)
  | .readingCodeLenCodes => e = .invalidHuffmanTable ∧ s.dec.clIdx + 1 = s.dec.hclenN ∧
      ∃ v s' lens, getBits 3 s = (some v, s') ∧ lens = s.dec.clLens.set (at0 blOrder s.dec.clIdx) v ∧
        makeTable lens = none ∧ t = { s.consuming s' with dec := { s.dec with clLens := lens, clIdx := s.dec.clIdx + 1 } }
  | .readingTreeCodes =>
      (s.dec.lens.length = s.dec.hlitN + s.dec.hdistN ∧
        ((e = .missingEndOfBlockCode ∧ at0 s.dec.lens 256 = 0 ∧ t = s) ∨
         (e = .invalidHuffmanTable ∧ at0 s.dec.lens 256 ≠ 0 ∧ makeTable (s.dec.lens.take s.dec.hlitN) = none ∧ t = s) ∨
         (e = .invalidHuffmanTable ∧ at0 s.dec.lens 256 ≠ 0 ∧
            ∃ lt, makeTable (s.dec.lens.take s.dec.hlitN) = some lt ∧
              makeTable ((s.dec.lens.drop s.dec.hlitN).take s.dec.hdistN) = none ∧
              t = { s with dec := { s.dec with litTable := lt } }))) ∨
      (s.dec.lens.length ≠ s.dec.hlitN + s.dec.hdistN ∧
        ((e = .invalidHuffmanTable ∧ decodeSym s.dec.clTable s = (.badCode, t)) ∨
         (e = .invalidCodeLengthSequence ∧ s.dec.lens = [] ∧ decodeSym s.dec.clTable s = (.symbol 16, t))))
  | .readingTreeCodesExtra => e = .invalidCodeLengthSequence ∧
      ∃ v, getBits (repeatBits s.dec.repSym) s = (some v, t) ∧
        s.dec.hlitN + s.dec.hdistN < s.dec.lens.length + (repeatRun s.dec v).1
  | .decodeTop => 258 ≤ windowSize s.wbits - s.window.winUsed ∧
      ((e = .invalidHuffmanTable ∧ decodeSym s.dec.litTable s = (.badCode, t)) ∨
       (e = .invalidSymbol ∧ ∃ v, 286 ≤ v ∧ decodeSym s.dec.litTable s = (.symbol v, t)))
  | .haveFullLength =>
      (e = .invalidHuffmanTable ∧ decodeSym s.dec.distTable s = (.badCode, t)) ∨
      (e = .invalidSymbol ∧ ∃ v, 30 ≤ v ∧ decodeSym s.dec.distTable s = (.symbol v, t))
  | .haveDistCode => e = .invalidDistance ∧
      ∃ v, getBits (distExtraOf s.dec.curDsym) s = (some v, t) ∧ s.window.winFilled < distBaseOf s.dec.curDsym + v
  | .uncompressedByte4 => e = .invalidStoredBlockLength ∧
      ∃ v, getBits 8 s = (some v, t) ∧ (BitVec.ofNat 8 v ++ s.dec.nlenLo : BitVec 16) ≠ ~~~ s.dec.storedLen
  | .readingBFinal | .readingNumCodeLenCodes | .haveInitialLength | .uncompressedAligning | .uncompressedByte1 |
    .uncompressedByte2 | .uncompressedByte3 | .decodingUncompressed | .done => False

section
variable {s t : State} {e : Err}

/-- A rule that only reads bits, checks them and raises where the check fails. -/
theorem withBits_check_raised_iff {n : Nat} {p : Nat → State → Prop} [∀ v s, Decidable (p v s)] {e' : Err}
    {g : Nat → State → State} (hp : ∀ v s', p v (s.consuming s') ↔ p v s) :
    withBits n (fun v s => if p v s then (.raised e', s) else (.ok, g v s)) s = (.raised e, t) ↔
      e = e' ∧ ∃ v, getBits n s = (some v, t) ∧ p v s := by
  rw [withBits_raised_iff]
  constructor
  · rintro ⟨v, s', hg, h⟩
    split at h
    · cases h
      exact ⟨rfl, v, by rw [← getBits_consuming hg]; exact hg, (hp v s').mp ‹_›⟩
    · cases h
  · rintro ⟨rfl, v, hg, hv⟩
    exact ⟨v, t, hg, by rw [if_pos ((hp v t).mpr hv), ← getBits_consuming hg]⟩

theorem decReadingBType_raised_iff : decReadingBType s = (.raised e, t) ↔ RaiseRule s t e .readingBType := by
  rw [decReadingBType, withBits_raised_iff]
  constructor
  · rintro ⟨v, s', hg, h⟩
    have hv := getBits_lt hg
    unfold blockTypeRead at h
    split at h
    · cases h
    · split at h
      · cases h
      · split at h
        · cases h
        · obtain rfl : v = 3 := by omega
          cases h
          exact ⟨rfl, by rw [← getBits_consuming hg]; exact hg⟩
  · rintro ⟨rfl, hg⟩
    exact ⟨3, t, hg, by rw [← getBits_consuming hg]; rfl⟩

theorem decReadingNumLitCodes_raised_iff :
    decReadingNumLitCodes s = (.raised e, t) ↔ RaiseRule s t e .readingNumLitCodes := by
  rw [decReadingNumLitCodes, withBits_check_raised_iff (p := fun v _ => 29 < v) fun _ _ => Iff.rfl]
  simp only [RaiseRule, and_comm]

theorem decReadingNumDistCodes_raised_iff :
    decReadingNumDistCodes s = (.raised e, t) ↔ RaiseRule s t e .readingNumDistCodes := by
  rw [decReadingNumDistCodes, withBits_check_raised_iff (p := fun v _ => 29 < v) fun _ _ => Iff.rfl]
  simp only [RaiseRule, and_comm]

theorem decReadingTreeCodesExtra_raised_iff :
    decReadingTreeCodesExtra s = (.raised e, t) ↔ RaiseRule s t e .readingTreeCodesExtra :=
  withBits_check_raised_iff
    (p := fun v s => s.dec.hlitN + s.dec.hdistN < s.dec.lens.length + (repeatRun s.dec v).1) fun _ _ => Iff.rfl

theorem decUncompressedByte4_raised_iff :
    decUncompressedByte4 s = (.raised e, t) ↔ RaiseRule s t e .uncompressedByte4 :=
  withBits_check_raised_iff
    (p := fun v s => (BitVec.ofNat 8 v ++ s.dec.nlenLo : BitVec 16) ≠ ~~~ s.dec.storedLen) fun _ _ => Iff.rfl

theorem decHaveDistCode_raised_iff : decHaveDistCode s = (.raised e, t) ↔ RaiseRule s t e .haveDistCode :=
  withBits_check_raised_iff (p := fun v s => s.window.winFilled < distBaseOf s.dec.curDsym + v) fun _ _ => Iff.rfl

theorem decReadingCodeLenCodes_raised_iff :
    decReadingCodeLenCodes s = (.raised e, t) ↔ RaiseRule s t e .readingCodeLenCodes := by
  rw [decReadingCodeLenCodes, withBits_raised_iff]
  constructor
  · rintro ⟨v, s', hg, h⟩
    dsimp only at h
    split at h
    · rename_i hlast
      unfold codeLenTable at h
      split at h
      · rename_i htable
        cases h
        exact ⟨rfl, hlast, v, s', _, hg, rfl, htable, rfl⟩
      · cases h
    · cases h
  · rintro ⟨rfl, hlast, v, s', lens, hg, rfl, htable, rfl⟩
    exact ⟨v, s', hg, by simp [State.consuming, codeLenTable, hlast, htable]⟩

theorem buildTables_raised_iff :
    buildTables s = (.raised e, t) ↔
      (e = .missingEndOfBlockCode ∧ at0 s.dec.lens 256 = 0 ∧ t = s) ∨
      (e = .invalidHuffmanTable ∧ at0 s.dec.lens 256 ≠ 0 ∧ makeTable (s.dec.lens.take s.dec.hlitN) = none ∧ t = s) ∨
      (e = .invalidHuffmanTable ∧ at0 s.dec.lens 256 ≠ 0 ∧
        ∃ lt, makeTable (s.dec.lens.take s.dec.hlitN) = some lt ∧
          makeTable ((s.dec.lens.drop s.dec.hlitN).take s.dec.hdistN) = none ∧
          t = { s with dec := { s.dec with litTable := lt } }) := by
  unfold buildTables
  by_cases hend : at0 s.dec.lens 256 = 0
  · simp [hend, eq_comm]
  · cases hlt : makeTable (s.dec.lens.take s.dec.hlitN) with
    | none => simp [hend, eq_comm]
    | some lt =>
      cases hdt : makeTable ((s.dec.lens.drop s.dec.hlitN).take s.dec.hdistN) with
      | none => simp [hend, hdt, eq_comm]
      | some dt => simp [hend, hdt]

theorem treeCodeRead_raised_iff {c : Nat} :
    treeCodeRead c s = (.raised e, t) ↔ e = .invalidCodeLengthSequence ∧ s.dec.lens = [] ∧ c = 16 ∧ t = s := by
  unfold treeCodeRead
  split
  · rename_i hc
    simp only [Prod.mk.injEq, reduceCtorEq, false_and, false_iff]
    omega
  · split
    · rename_i hrep
      simp [hrep, eq_comm]
    · rename_i hrep
      simp only [Prod.mk.injEq, reduceCtorEq, false_and, false_iff]
      exact fun ⟨_, hnil, hc, _⟩ => hrep ⟨hc, hnil⟩

theorem decReadingTreeCodes_raised_iff : decReadingTreeCodes s = (.raised e, t) ↔ RaiseRule s t e .readingTreeCodes := by
  unfold decReadingTreeCodes RaiseRule
  by_cases hfull : s.dec.lens.length = s.dec.hlitN + s.dec.hdistN
  · rw [if_pos hfull, buildTables_raised_iff]
    simp only [hfull, true_and, ne_eq, not_true_eq_false, false_and, or_false]
  · rw [if_neg hfull, withSym_raised_iff]
    simp only [hfull, false_and, false_or, ne_eq, not_false_eq_true, true_and]
    refine or_congr_right ⟨?_, ?_⟩
    · rintro ⟨c, s', hg, h⟩
      obtain ⟨rfl, hnil, rfl, rfl⟩ := treeCodeRead_raised_iff.mp h
      exact ⟨rfl, hnil, decodeSym_consuming hg ▸ hg⟩
    · rintro ⟨rfl, hnil, hg⟩
      exact ⟨16, t, hg, treeCodeRead_raised_iff.mpr ⟨rfl, hnil, rfl, decodeSym_consuming hg⟩⟩

theorem litSymRead_raised_iff {v : Nat} : litSymRead v s = (.raised e, t) ↔ e = .invalidSymbol ∧ 286 ≤ v ∧ t = s := by
  unfold litSymRead
  split
  · simp only [Prod.mk.injEq, reduceCtorEq, false_and, false_iff]
    omega
  · split
    · simp only [Prod.mk.injEq, reduceCtorEq, false_and, false_iff]
      omega
    · split
      · simp only [Prod.mk.injEq, reduceCtorEq, false_and, false_iff]
        omega
      · have hv : 286 ≤ v := by omega
        simp [hv, eq_comm]

theorem decDecodeTop_raised_iff : decDecodeTop s = (.raised e, t) ↔ RaiseRule s t e .decodeTop := by
  unfold decDecodeTop RaiseRule
  by_cases hfree : freeBytes (windowSize s.wbits) s.window < maxMatch
  · rw [if_pos hfree]
    simp only [Prod.mk.injEq, reduceCtorEq, false_and, false_iff]
    exact fun h => absurd h.1 (Nat.not_le_of_lt hfree)
  · have hroom : 258 ≤ windowSize s.wbits - s.window.winUsed := Nat.le_of_not_lt hfree
    rw [if_neg hfree, withSym_raised_iff, and_iff_right hroom]
    refine or_congr_right ⟨?_, ?_⟩
    · rintro ⟨v, s', hg, h⟩
      obtain ⟨rfl, hv, rfl⟩ := litSymRead_raised_iff.mp h
      exact ⟨rfl, v, hv, decodeSym_consuming hg ▸ hg⟩
    · rintro ⟨rfl, v, hv, hg⟩
      exact ⟨v, t, hg, litSymRead_raised_iff.mpr ⟨rfl, hv, decodeSym_consuming hg⟩⟩

theorem decHaveFullLength_raised_iff : decHaveFullLength s = (.raised e, t) ↔ RaiseRule s t e .haveFullLength := by
  unfold decHaveFullLength RaiseRule
  rw [withSym_raised_iff]
  refine or_congr_right ⟨?_, ?_⟩
  · rintro ⟨v, s', hg, h⟩
    dsimp only at h
    split at h
    · cases h
      exact ⟨rfl, v, ‹_›, decodeSym_consuming hg ▸ hg⟩
    · cases h
  · rintro ⟨rfl, v, hv, hg⟩
    exact ⟨v, t, hg, by simp only [if_pos hv, ← decodeSym_consuming hg]⟩

/-- A rule that only reads bits raises nothing. -/
theorem withBits_ok_not_raised {n : Nat} {g : Nat → State → State} :
    withBits n (fun v s => (.ok, g v s)) s ≠ (.raised e, t) := by
  rw [Ne, withBits_raised_iff]
  rintro ⟨v, s', -, h⟩
  cases h

theorem decDecodingUncompressed_not_raised : decDecodingUncompressed s ≠ (.raised e, t) := by
  unfold decDecodingUncompressed
  split
  · simp
  · split
    · simp
    · exact withBits_ok_not_raised

/-- A step raises exactly by the rule of its state. -/
theorem decStep_raised_iff : decStep s = (.raised e, t) ↔ RaiseRule s t e s.dec.decState := by
  unfold decStep
  cases s.dec.decState with
  | readingBFinal | readingNumCodeLenCodes | haveInitialLength | uncompressedByte1 | uncompressedByte2 |
    uncompressedByte3 => exact iff_of_false withBits_ok_not_raised id
  | readingBType => exact decReadingBType_raised_iff
  | readingNumLitCodes => exact decReadingNumLitCodes_raised_iff
  | readingNumDistCodes => exact decReadingNumDistCodes_raised_iff
  | readingCodeLenCodes => exact decReadingCodeLenCodes_raised_iff
  | readingTreeCodes => exact decReadingTreeCodes_raised_iff
  | readingTreeCodesExtra => exact decReadingTreeCodesExtra_raised_iff
  | decodeTop => exact decDecodeTop_raised_iff
  | haveFullLength => exact decHaveFullLength_raised_iff
  | haveDistCode => exact decHaveDistCode_raised_iff
  | uncompressedByte4 => exact decUncompressedByte4_raised_iff
  | decodingUncompressed => exact iff_of_false decDecodingUncompressed_not_raised id
  | uncompressedAligning | done => simp [RaiseRule, decUncompressedAligning]

/-- What a raise leaves of the decoder: everything, or the code-length entry just read (R139), or the literal/length table
just built (R140). -/
inductive RaiseDecoder (d : Decoder) : Decoder → Prop
  | same : RaiseDecoder d d
  | entry {v : Nat} (hd : d.decState = .readingCodeLenCodes) (hv : v < 2 ^ 3) (hlast : d.clIdx + 1 = d.hclenN) :
      RaiseDecoder d { d with clLens := d.clLens.set (at0 blOrder d.clIdx) v, clIdx := d.clIdx + 1 }
  | table {lt : DecTable} (hd : d.decState = .readingTreeCodes) (hlt : makeTable (d.lens.take d.hlitN) = some lt) :
      RaiseDecoder d { d with litTable := lt }

/-- A raise consumes input and leaves the rest of the state outside the decoder alone (R166). -/
theorem RaiseRule.effect (h : RaiseRule s t e s.dec.decState) :
    t = { s.consuming t with dec := t.dec } ∧ RaiseDecoder s.dec t.dec := by
  have hbits : ∀ {n v}, getBits n s = (some v, t) → t = { s.consuming t with dec := t.dec } ∧ RaiseDecoder s.dec t.dec :=
    fun hg => by
      rw [getBits_consuming hg]
      exact ⟨rfl, .same⟩
  have hsym : ∀ {table o}, decodeSym table s = (o, t) → t = { s.consuming t with dec := t.dec } ∧ RaiseDecoder s.dec t.dec :=
    fun hg => by
      rw [decodeSym_consuming hg]
      exact ⟨rfl, .same⟩
  cases hd : s.dec.decState <;> rw [hd] at h
  case readingBType => exact hbits h.2
  case readingNumLitCodes | readingNumDistCodes =>
    obtain ⟨-, v, -, hg⟩ := h
    exact hbits hg
  case readingCodeLenCodes =>
    obtain ⟨-, hlast, v, s', lens, hg, rfl, -, rfl⟩ := h
    exact ⟨rfl, .entry hd (getBits_lt hg) hlast⟩
  case readingTreeCodes =>
    rcases h with ⟨-, ⟨-, -, rfl⟩ | ⟨-, -, -, rfl⟩ | ⟨-, -, lt, hlt, -, rfl⟩⟩ | ⟨-, ⟨-, hg⟩ | ⟨-, -, hg⟩⟩
    · exact ⟨rfl, .same⟩
    · exact ⟨rfl, .same⟩
    · exact ⟨rfl, .table hd hlt⟩
    · exact hsym hg
    · exact hsym hg
  case readingTreeCodesExtra | haveDistCode | uncompressedByte4 =>
    obtain ⟨-, v, hg, -⟩ := h
    exact hbits hg
  case decodeTop =>
    rcases h with ⟨-, ⟨-, hg⟩ | ⟨-, v, -, hg⟩⟩
    · exact hsym hg
    · exact hsym hg
  case haveFullLength =>
    rcases h with ⟨-, hg⟩ | ⟨-, v, -, hg⟩
    · exact hsym hg
    · exact hsym hg
  all_goals exact h.elim

theorem RaiseDecoder.decState {d d' : Decoder} (h : RaiseDecoder d d') : d'.decState = d.decState := by
  cases h <;> rfl

/-- R165: the errors that the decoder raises. -/
theorem RaiseRule.error {d : DecState} (h : RaiseRule s t e d) :
    e ≠ .none ∧ e ≠ .malformedHuffmanCode ∧ e ≠ .outputBufferOverrun ∧ e ≠ .illegalCommand := by
  cases d with
  | readingBType | readingNumLitCodes | readingNumDistCodes | readingCodeLenCodes | readingTreeCodesExtra |
    haveDistCode | uncompressedByte4 =>
    obtain ⟨rfl, -⟩ := h
    decide
  | readingTreeCodes =>
    rcases h with ⟨-, ⟨rfl, -⟩ | ⟨rfl, -⟩ | ⟨rfl, -⟩⟩ | ⟨-, ⟨rfl, -⟩ | ⟨rfl, -⟩⟩ <;> decide
  | decodeTop => rcases h with ⟨-, ⟨rfl, -⟩ | ⟨rfl, -⟩⟩ <;> decide
  | haveFullLength => rcases h with ⟨rfl, -⟩ | ⟨rfl, -⟩ <;> decide
  | readingBFinal | readingNumCodeLenCodes | haveInitialLength | uncompressedAligning | uncompressedByte1 |
    uncompressedByte2 | uncompressedByte3 | decodingUncompressed | done => exact h.elim

theorem repeatRun_length (d : Decoder) (v : Nat) :
    (repeatRun d v).1 = v + if d.repSym = 16 ∨ d.repSym = 17 then 3 else 11 := by
  unfold repeatRun
  by_cases h16 : d.repSym = 16
  · simp [h16]
  · by_cases h17 : d.repSym = 17 <;> simp [h16, h17]

end

/-- Settles O21: the raises of each state, its bits put as numbers. -/
theorem decoderRaisesExactlyOnItsCauses : Obligations.DecoderRaisesExactlyOnItsCauses := by
  unfold Obligations.DecoderRaisesExactlyOnItsCauses
  refine fun s t e => ⟨fun h => (decStep_raised_iff.mp h).effect.2.decState, ?_⟩
  rw [decStep_raised_iff]
  cases hd : s.dec.decState <;> simp only [reduceCtorEq, false_and, or_false, false_or, true_and, RaiseRule, and_or_left]
  case readingCodeLenCodes => rfl
  case readingTreeCodes => simp only [or_assoc, and_left_comm]
  case readingTreeCodesExtra => simp only [repeatRun_length, repeatBits]
  case uncompressedByte4 =>
    refine and_congr_right fun _ => exists_congr fun v => and_congr_right fun hg => ?_
    exact not_congr (append_bytes_eq_not_iff _ (getBits_lt hg) _)
  case decodeTop => simp only [and_left_comm]

/-! ### Steps that stall -/

/-- The outcome is OK or a raise: no stall. -/
def Advances (r : StepOut × State) : Prop := r.1 = .ok ∨ ∃ e, r.1 = .raised e

theorem advances_ok (s : State) : Advances (.ok, s) := .inl rfl

theorem advances_raised (e : Err) (s : State) : Advances (.raised e, s) := .inr ⟨e, rfl⟩

theorem advances_ite {p : Prop} [Decidable p] {a b : StepOut × State} (ha : Advances a) (hb : Advances b) :
    Advances (if p then a else b) := by
  split
  · exact ha
  · exact hb

theorem blockTypeRead_advances (v : Nat) (s : State) : Advances (blockTypeRead v s) :=
  advances_ite (advances_ok _) (advances_ite (advances_ok _) (advances_ite (advances_ok _) (advances_raised ..)))

theorem codeLenTable_advances (s : State) : Advances (codeLenTable s) := by
  unfold codeLenTable
  split
  · exact advances_raised ..
  · exact advances_ok _

theorem buildTables_advances (s : State) : Advances (buildTables s) := by
  unfold buildTables
  split
  · exact advances_raised ..
  · split
    · exact advances_raised ..
    · dsimp only
      split
      · exact advances_raised ..
      · exact advances_ok _

theorem treeCodeRead_advances (c : Nat) (s : State) : Advances (treeCodeRead c s) :=
  advances_ite (advances_ok _) (advances_ite (advances_raised ..) (advances_ok _))

theorem litSymRead_advances (v : Nat) (s : State) : Advances (litSymRead v s) :=
  advances_ite (advances_ok _) (advances_ite (advances_ok _) (advances_ite (advances_ok _) (advances_raised ..)))

theorem copyMatch_advances (dist : Nat) (s : State) : Advances (copyMatch dist s) :=
  advances_ite (advances_raised ..) (advances_ok _)

/-- A step stalls for want of n bits: it keeps what `Load(n)` cached, and the input is exhausted. With the tables' `lmax` in
range, n is at most 15. -/
def WantsBits (s : State) (r : StepOut × State) : Prop :=
  ∃ n, (ReaderInRange s → n ≤ 15) ∧ (load n s).reader.brCount < n ∧ r = (.needIn, load n s)

theorem withBits_advances {n : Nat} {f : Nat → State → StepOut × State} {s : State} (hn : n ≤ 15)
    (hf : ∀ v u, Advances (f v u)) : Advances (withBits n f s) ∨ WantsBits s (withBits n f s) := by
  rcases withBits_cases n f s with ⟨hc, he⟩ | ⟨-, v, -, he⟩
  · exact .inr ⟨n, fun _ => hn, hc, he⟩
  · exact .inl (he ▸ hf v _)

theorem withSym_advances {table : DecTable} {f : Nat → State → StepOut × State} {s : State}
    (hmax : ReaderInRange s → table.lmax ≤ 15) (hf : ∀ v u, Advances (f v u)) :
    Advances (withSym table f s) ∨ WantsBits s (withSym table f s) := by
  rcases withSym_cases table f s with ⟨hc, he⟩ | he | ⟨l, v, -, -, he⟩
  · exact .inr ⟨_, hmax, hc, he⟩
  · exact .inl (he ▸ advances_raised ..)
  · exact .inl (he ▸ hf v _)

theorem getD_le {xs : List Nat} {b : Nat} (h : ∀ x ∈ xs, x ≤ b) (i : Nat) : xs.getD i 0 ≤ b := by
  rw [List.getD_eq_getElem?_getD]
  cases hi : xs[i]? with
  | none => exact Nat.zero_le b
  | some x => exact h x (List.mem_of_getElem? hi)

theorem lenExtraOf_le (s : Nat) : lenExtraOf s ≤ 5 := getD_le (by decide) _

theorem distExtraOf_le (c : Nat) : distExtraOf c ≤ 13 := getD_le (by decide) c

theorem repeatBits_le (r : Nat) : repeatBits r ≤ 7 := by
  unfold repeatBits
  split
  · decide
  · split <;> decide

/-- Everything a step of the decoder can answer (R132, R133): it advances, wants input, wants room in the window (R142, R148)
or is done (R149). -/
theorem decStep_cases (s : State) :
    Advances (decStep s) ∨ WantsBits s (decStep s) ∨
    (decStep s = (.needOut, s) ∧
      ((s.dec.decState = .decodeTop ∧ windowSize s.wbits - s.window.winUsed < 258) ∨
       (s.dec.decState = .decodingUncompressed ∧ s.dec.storedRem ≠ 0 ∧ windowSize s.wbits - s.window.winUsed = 0))) ∨
    (decStep s = (.done, s) ∧ s.dec.decState = .done) := by
  have bits : ∀ {n : Nat} {f : Nat → State → StepOut × State} {P : Prop}, n ≤ 15 → (∀ v u, Advances (f v u)) →
      Advances (withBits n f s) ∨ WantsBits s (withBits n f s) ∨ P :=
    fun hn hf => (withBits_advances hn hf).imp_right .inl
  have check : ∀ {p : Nat → State → Prop} [∀ v u, Decidable (p v u)] {e : Err} {g : Nat → State → State} (v : Nat)
      (u : State), Advances (if p v u then (.raised e, u) else (.ok, g v u)) :=
    fun _ _ => advances_ite (advances_raised ..) (advances_ok _)
  unfold decStep
  cases hd : s.dec.decState <;> dsimp only
  case readingBFinal => exact bits (by decide) fun _ _ => advances_ok _
  case readingBType => exact bits (by decide) blockTypeRead_advances
  case readingNumLitCodes => exact bits (by decide) check
  case readingNumDistCodes => exact bits (by decide) check
  case readingNumCodeLenCodes => exact bits (by decide) fun _ _ => advances_ok _
  case readingCodeLenCodes => exact bits (by decide) fun _ _ => advances_ite (codeLenTable_advances _) (advances_ok _)
  case readingTreeCodes =>
    unfold decReadingTreeCodes
    split
    · exact .inl (buildTables_advances s)
    · exact (withSym_advances (fun h => h.clTable) treeCodeRead_advances).imp_right .inl
  case readingTreeCodesExtra => exact bits ((repeatBits_le _).trans (by decide)) check
  case decodeTop =>
    unfold decDecodeTop
    split
    · exact .inr (.inr (.inl ⟨rfl, .inl ⟨rfl, ‹_›⟩⟩))
    · exact (withSym_advances (fun h => h.litTable) litSymRead_advances).imp_right .inl
  case haveInitialLength => exact bits ((lenExtraOf_le _).trans (by decide)) fun _ _ => advances_ok _
  case haveFullLength => exact (withSym_advances (fun h => h.distTable) check).imp_right .inl
  case haveDistCode => exact bits ((distExtraOf_le _).trans (by decide)) fun v u => copyMatch_advances _ u
  case uncompressedAligning => exact .inl (advances_ok _)
  case uncompressedByte1 => exact bits (by decide) fun _ _ => advances_ok _
  case uncompressedByte2 => exact bits (by decide) fun _ _ => advances_ok _
  case uncompressedByte3 => exact bits (by decide) fun _ _ => advances_ok _
  case uncompressedByte4 => exact bits (by decide) check
  case decodingUncompressed =>
    unfold decDecodingUncompressed
    split
    · exact .inl (advances_ok _)
    · split
      · exact .inr (.inr (.inl ⟨rfl, .inr ⟨rfl, ‹_›, ‹_›⟩⟩))
      · exact bits (by decide) fun _ _ => advances_ok _
  case done => exact .inr (.inr (.inr ⟨rfl, rfl⟩))

theorem decStep_needIn {s t : State} (h : decStep s = (.needIn, t)) :
    ∃ n, (ReaderInRange s → n ≤ 15) ∧ (load n s).reader.brCount < n ∧ t = load n s := by
  rcases decStep_cases s with (ha | ⟨e, ha⟩) | ⟨n, hn, hc, he⟩ | ⟨he, -⟩ | ⟨he, -⟩
  · rw [h] at ha
    cases ha
  · rw [h] at ha
    cases ha
  · cases h.symm.trans he
    exact ⟨n, hn, hc, rfl⟩
  · cases h.symm.trans he
  · cases h.symm.trans he

theorem decStep_needOut {s t : State} (h : decStep s = (.needOut, t)) :
    t = s ∧ ((s.dec.decState = .decodeTop ∧ windowSize s.wbits - s.window.winUsed < 258) ∨
      (s.dec.decState = .decodingUncompressed ∧ s.dec.storedRem ≠ 0 ∧ windowSize s.wbits - s.window.winUsed = 0)) := by
  rcases decStep_cases s with (ha | ⟨e, ha⟩) | ⟨n, -, -, he⟩ | ⟨he, hstate⟩ | ⟨he, -⟩
  · rw [h] at ha
    cases ha
  · rw [h] at ha
    cases ha
  · cases h.symm.trans he
  · cases h.symm.trans he
    exact ⟨rfl, hstate⟩
  · cases h.symm.trans he

theorem decStep_done {s t : State} (h : decStep s = (.done, t)) : t = s ∧ s.dec.decState = .done := by
  rcases decStep_cases s with (ha | ⟨e, ha⟩) | ⟨n, -, -, he⟩ | ⟨he, -⟩ | ⟨he, hstate⟩
  · rw [h] at ha
    cases ha
  · rw [h] at ha
    cases ha
  · cases h.symm.trans he
  · cases h.symm.trans he
  · cases h.symm.trans he
    exact ⟨rfl, hstate⟩

/-- `Load` changes the bit cache and `in_pos` only. -/
theorem load_eq (n : Nat) (s : State) :
    load n s = { s with reader := (load n s).reader, input := { s.input with inPos := (load n s).input.inPos } } := by
  have hlen : (load n s).input.inLen = s.input.inLen := (load_spec n s).1
  have hinput : ({ inLen := s.input.inLen, inPos := (load n s).input.inPos } : Input) = (load n s).input := by rw [← hlen]
  rw [hinput]
  rfl

/-- `Load(n)` that finds too few bits has taken all the input. -/
theorem load_exhausted {n : Nat} {s : State} (hpos : s.input.inPos ≤ s.input.inLen) (hc : (load n s).reader.brCount < n) :
    (load n s).input.inPos = s.input.inLen := by
  obtain ⟨-, -, hle, -, -, -, henough⟩ := load_spec n s
  have := hle hpos
  omega

/-- What holds after every step that makes progress, raises or wants input, and of the state itself, holds after a step. -/
theorem decStep_induction {P : State → Prop} {s : State} (hs : P s) (hok : ∀ t, OkRule s t s.dec.decState → P t)
    (hraise : ∀ t e, RaiseRule s t e s.dec.decState → P t) (hload : ∀ n, (ReaderInRange s → n ≤ 15) → P (load n s)) :
    P (decStep s).2 := by
  have hstep : decStep s = ((decStep s).1, (decStep s).2) := rfl
  rcases decStep_cases s with (ha | ⟨e, ha⟩) | ⟨n, hn, -, he⟩ | ⟨he, -⟩ | ⟨he, -⟩
  · rw [ha] at hstep
    exact hok _ (decStep_ok hstep)
  · rw [ha] at hstep
    exact hraise _ e (decStep_raised_iff.mp hstep)
  · rw [he]
    exact hload n hn
  · rwa [he]
  · rwa [he]

/-- Settles O34: a step for want of input keeps what `Load` did, which loses no bit; the others keep the state. -/
theorem stallsChangeNoDecoderState : Obligations.StallsChangeNoDecoderState := by
  unfold Obligations.StallsChangeNoDecoderState
  refine fun s t hpos => ⟨fun h => ?_, decStep_needOut, decStep_done⟩
  obtain ⟨n, hn, hc, rfl⟩ := decStep_needIn h
  have heq := load_eq n s
  rw [load_exhausted hpos hc] at heq
  exact ⟨heq, fun hr => (load_stream ((hn hr).trans (by decide)) hr.cache).1⟩

end Sys2Proof.Machine
end

section
/-! PROOF. The decode tables and the symbol decoder (R126 to R130): the Kraft sum that CheckKraft tests, the place of each
symbol in a table, and the walk of DecodeSym along the code of one symbol. -/

namespace Sys2Proof.Machine

/-! ### The Kraft sum (R127) -/

/-- CheckKraft succeeds exactly if the codes still to come fit the code space left. -/
theorem kraftFrom_iff (cnt : List Nat) (fuel : Nat) : ∀ l left : Nat,
    kraftFrom cnt fuel l left = true ↔
      ((List.range' l fuel).map fun i => at0 cnt i * 2 ^ (l + fuel - 1 - i)).sum ≤ left * 2 ^ fuel := by
  induction fuel with
  | zero => simp [kraftFrom]
  | succ fuel ih =>
    intro l left
    have htail : ((List.range' (l + 1) fuel).map fun i => at0 cnt i * 2 ^ (l + 1 + fuel - 1 - i)) =
        (List.range' (l + 1) fuel).map fun i => at0 cnt i * 2 ^ (l + (fuel + 1) - 1 - i) :=
      List.map_congr_left fun i _ => by rw [Nat.add_right_comm l 1 fuel, Nat.add_assoc]
    have hhead : l + (fuel + 1) - 1 - l = fuel := by omega
    have hpow : left * 2 ^ (fuel + 1) = 2 * left * 2 ^ fuel := by rw [Nat.pow_succ']; ring
    rw [kraftFrom, List.range'_succ, List.map_cons, List.sum_cons, hhead, ← htail, hpow]
    split
    · rename_i hlt
      have hmul := Nat.mul_lt_mul_of_pos_right hlt (Nat.two_pow_pos fuel)
      simp only [Bool.false_eq_true, false_iff, Nat.not_le]
      omega
    · rename_i hge
      rw [ih, Nat.sub_mul]
      have hmul := Nat.mul_le_mul_right (2 ^ fuel) (Nat.le_of_not_lt hge)
      omega

/-- R95: the first code of a length and the codes of that length end where the Kraft sum up to it says. -/
theorem nextCodes_add_eq_sum (bl : List Nat) {l : Nat} (hpos : 1 ≤ l) (hl : l ≤ 15) :
    at0 (nextCodes bl) l + at0 bl l = ((List.range' 1 l).map fun i => at0 bl i * 2 ^ (l - i)).sum := by
  induction l, hpos using Nat.le_induction with
  | base => simp [nextCodes, nextCodesFrom]
  | succ l hpos ih =>
    have hscale : ((List.range' 1 l).map fun i => at0 bl i * 2 ^ (l + 1 - i)) =
        (List.range' 1 l).map fun i => 2 * (at0 bl i * 2 ^ (l - i)) := by
      refine List.map_congr_left fun i hi => ?_
      have := List.mem_range'_1.mp hi
      rw [Nat.sub_add_comm (by omega), Nat.pow_succ']
      ring
    rw [at0_nextCodes_succ bl hpos (by omega), ih (by omega), List.range'_concat, List.map_append, List.sum_append, hscale,
      List.sum_map_mul_left, Nat.one_mul, Nat.add_comm 1 l]
    simp

/-- The codes of the lengths up to 15 fit the code space. -/
theorem checkKraft_iff (cnt : List Nat) :
    checkKraft cnt = true ↔ at0 (nextCodes cnt) 15 + at0 cnt 15 ≤ 2 ^ 15 := by
  rw [checkKraft, kraftFrom_iff, nextCodes_add_eq_sum cnt (by decide) (by decide), Nat.one_mul]

theorem sum_histogram (lens : List Nat) :
    ((List.range' 1 15).map fun i => at0 (histogram lens) i * 2 ^ (15 - i)).sum =
      ((List.range' 1 15).map fun l => lens.count l * 2 ^ (15 - l)).sum := by
  refine congrArg List.sum (List.map_congr_left fun i hi => ?_)
  have := List.mem_range'_1.mp hi
  rw [at0_histogram lens (by omega) (by omega)]

/-! ### What a table holds (R126) -/

theorem makeTable_eq_none_iff (lens : List Nat) : makeTable lens = none ↔ ¬ checkKraft (histogram lens) = true := by
  unfold makeTable
  dsimp only
  split <;> simp_all

section
variable {lens : List Nat} {t : DecTable}

theorem makeTable_some (h : makeTable lens = some t) :
    checkKraft (histogram lens) = true ∧
    t = { cnt := histogram lens, first := nextCodes (histogram lens), offs := 0 :: offsetsFrom (histogram lens) 15 1 0,
          sym := (List.range' 1 15).flatMap (symbolsOfLength lens), lmax := lens.foldl max 0 } := by
  unfold makeTable at h
  dsimp only at h
  split at h
  · cases h
    exact ⟨‹_›, rfl⟩
  · cases h

theorem makeTable_lmax_le {b : Nat} (hlens : ∀ l ∈ lens, l ≤ b) (h : makeTable lens = some t) : t.lmax ≤ b := by
  obtain ⟨-, rfl⟩ := makeTable_some h
  exact List.foldlRecOn lens max (motive := fun m => m ≤ b) (Nat.zero_le b) fun m hm l hl => Nat.max_le.mpr ⟨hm, hlens l hl⟩

theorem le_makeTable_lmax (h : makeTable lens = some t) {l : Nat} (hl : l ∈ lens) : l ≤ t.lmax := by
  obtain ⟨-, rfl⟩ := makeTable_some h
  have hmono : ∀ (ls : List Nat) (m : Nat), m ≤ ls.foldl max m ∧ ∀ x ∈ ls, x ≤ ls.foldl max m := by
    intro ls
    induction ls with
    | nil => simp
    | cons x xs ih =>
      intro m
      obtain ⟨hm, hx⟩ := ih (max m x)
      refine ⟨(Nat.le_max_left m x).trans hm, fun y hy => ?_⟩
      rcases List.mem_cons.mp hy with rfl | hy
      · exact (Nat.le_max_right m y).trans hm
      · exact hx y hy
  exact (hmono lens 0).2 l hl

/-- R127: in a table made, the codes of each length fit its code space. -/
theorem makeTable_first_add_cnt_le (h : makeTable lens = some t) {l : Nat} (hpos : 1 ≤ l) (hl : l ≤ 15) :
    at0 t.first l + at0 t.cnt l ≤ 2 ^ l := by
  obtain ⟨hkraft, rfl⟩ := makeTable_some h
  rw [checkKraft_iff] at hkraft
  dsimp only
  rcases Nat.lt_or_eq_of_le hl with hlt | rfl
  · have hnext := shifted_codes_le_next (histogram lens) hpos (Nat.sub_pos_of_lt hlt) (by omega)
    rw [Nat.add_sub_of_le hl] at hnext
    have hpow : 2 ^ 15 = 2 ^ l * 2 ^ (15 - l) := by rw [← Nat.pow_add, Nat.add_sub_of_le hl]
    refine Nat.le_of_mul_le_mul_right (c := 2 ^ (15 - l)) ?_ (Nat.two_pow_pos _)
    omega
  · exact hkraft

end

/-- Settles O36: the Kraft sum of the histogram, and the first codes as Kraft sums of the shorter lengths. -/
theorem checkKraftRejectsOversubscribed : Obligations.CheckKraftRejectsOversubscribed := by
  unfold Obligations.CheckKraftRejectsOversubscribed
  intro lens
  refine ⟨?_, fun t h => ⟨?_, fun l hpos hl => makeTable_first_add_cnt_le h hpos hl⟩⟩
  · rw [makeTable_eq_none_iff, checkKraft_iff, nextCodes_add_eq_sum _ (by decide) (by decide), sum_histogram, Nat.not_le]
  · obtain ⟨-, rfl⟩ := makeTable_some h
    rfl

/-! ### The place of a symbol in its table (R126) -/

/-- The symbols of length l of a list of lengths whose first symbol is k. -/
theorem length_symbolsOfLength_from (lens : List Nat) (l k : Nat) :
    (((lens.zipIdx k).filter fun p => p.1 == l).map Prod.snd).length = lens.count l := by
  induction lens generalizing k with
  | nil => rfl
  | cons x xs ih =>
    rw [List.zipIdx_cons, List.filter_cons, List.count_cons, ← ih (k + 1)]
    split <;> simp_all

theorem symbolsOfLength_length (lens : List Nat) (l : Nat) : (symbolsOfLength lens l).length = lens.count l :=
  length_symbolsOfLength_from lens l 0

theorem at0_symbolsOfLength_from {lens : List Nat} {s : Nat} (hs : s < lens.length) (k : Nat) :
    at0 (((lens.zipIdx k).filter fun p => p.1 == at0 lens s).map Prod.snd) ((lens.take s).count (at0 lens s)) = k + s := by
  induction lens generalizing s k with
  | nil => exact absurd hs (Nat.not_lt_zero s)
  | cons x xs ih =>
    cases s with
    | zero => simp [List.zipIdx_cons, at0]
    | succ s =>
      have ih := ih (Nat.lt_of_succ_lt_succ hs) (k + 1)
      rw [at0_cons_succ, List.take_succ_cons, List.zipIdx_cons, List.filter_cons, List.count_cons]
      by_cases hx : (x == at0 xs s) = true
      · simp only [hx, if_true, List.map_cons, at0_cons_succ]
        omega
      · simp only [hx, if_false, Nat.add_zero, Bool.false_eq_true]
        omega

/-- A symbol stands among the symbols of its length at its rank. -/
theorem at0_symbolsOfLength {lens : List Nat} {s : Nat} (hs : s < lens.length) :
    at0 (symbolsOfLength lens (at0 lens s)) ((lens.take s).count (at0 lens s)) = s :=
  (at0_symbolsOfLength_from hs 0).trans (Nat.zero_add s)

theorem mem_symbolsOfLength_lt {lens : List Nat} {l x : Nat} (h : x ∈ symbolsOfLength lens l) : x < lens.length := by
  obtain ⟨p, hp, rfl⟩ := List.mem_map.mp h
  exact List.snd_lt_of_mem_zipIdx (List.mem_of_mem_filter hp)

theorem makeTable_sym_lt {lens : List Nat} {t : DecTable} (h : makeTable lens = some t) : ∀ x ∈ t.sym, x < lens.length := by
  obtain ⟨-, rfl⟩ := makeTable_some h
  intro x hx
  obtain ⟨l, -, hx⟩ := List.mem_flatMap.mp hx
  exact mem_symbolsOfLength_lt hx

theorem at0_offsetsFrom (cnt : List Nat) (fuel l k : Nat) {i : Nat} (hi : i < fuel) :
    at0 (offsetsFrom cnt fuel l k) i = k + ((List.range' l i).map (at0 cnt)).sum := by
  induction fuel generalizing l k i with
  | zero => exact absurd hi (Nat.not_lt_zero i)
  | succ fuel ih =>
    rw [offsetsFrom]
    cases i with
    | zero => rfl
    | succ i =>
      rw [at0_cons_succ, ih _ _ (Nat.lt_of_succ_lt_succ hi), List.range'_succ, List.map_cons, List.sum_cons, Nat.add_assoc]

theorem at0_append_left {xs ys : List Nat} {i : Nat} (h : i < xs.length) : at0 (xs ++ ys) i = at0 xs i := by
  rw [at0, at0, List.getD_append _ _ _ _ h]

theorem at0_append_right (xs ys : List Nat) (i : Nat) : at0 (xs ++ ys) (xs.length + i) = at0 ys i := by
  rw [at0, at0, List.getD_append_right _ _ _ _ (Nat.le_add_right ..), Nat.add_sub_cancel_left]

/-- An entry of the i-th part of a concatenation stands after the parts before it. -/
theorem at0_flatMap_range' (f : Nat → List Nat) (l n : Nat) {i j : Nat} (hi : i < n) (hj : j < (f (l + i)).length) :
    at0 ((List.range' l n).flatMap f) (((List.range' l i).map fun k => (f k).length).sum + j) = at0 (f (l + i)) j := by
  induction n generalizing l i with
  | zero => exact absurd hi (Nat.not_lt_zero i)
  | succ n ih =>
    rw [List.range'_succ, List.flatMap_cons]
    cases i with
    | zero => rw [List.range'_zero, List.map_nil, List.sum_nil, Nat.zero_add, at0_append_left (by simpa using hj)]; rfl
    | succ i =>
      rw [List.range'_succ, List.map_cons, List.sum_cons, Nat.add_assoc, at0_append_right]
      have hidx : l + (i + 1) = l + 1 + i := by omega
      rw [hidx] at hj ⊢
      exact ih (l + 1) (Nat.lt_of_succ_lt_succ hi) hj

/-- R126: a symbol with a code stands in the table at its length's offset plus its rank. -/
theorem makeTable_sym {lens : List Nat} {t : DecTable} {s : Nat} (h : makeTable lens = some t) (hs : s < lens.length)
    (hpos : 1 ≤ at0 lens s) (hle : at0 lens s ≤ 15) :
    at0 t.sym (at0 t.offs (at0 lens s) + (lens.take s).count (at0 lens s)) = s := by
  obtain ⟨-, rfl⟩ := makeTable_some h
  have hrank := count_take_lt_count_take hs (Nat.le_refl _)
  rw [List.take_length, ← symbolsOfLength_length lens] at hrank
  have hsym := at0_symbolsOfLength hs
  obtain ⟨i, hi⟩ := Nat.exists_eq_add_of_le' hpos
  have hlengths : ((List.range' 1 i).map (at0 (histogram lens))) =
      (List.range' 1 i).map fun k => (symbolsOfLength lens k).length := by
    refine List.map_congr_left fun k hk => ?_
    have := List.mem_range'_1.mp hk
    rw [at0_histogram lens (by omega) (by omega), symbolsOfLength_length]
  rw [hi, Nat.add_comm i 1] at hrank hsym
  dsimp only
  rw [hi, at0_cons_succ, at0_offsetsFrom _ _ _ _ (by omega), Nat.zero_add, hlengths, Nat.add_comm i 1,
    at0_flatMap_range' _ _ _ (by omega) hrank, hsym]

/-! ### DecodeSym along a code (R129, R130) -/

theorem getElem_bitsOf {n i : Nat} (v : Nat) (h : i < (bitsOf n v).length) : (bitsOf n v)[i] = v.testBit i := by
  induction n generalizing v i with
  | zero => exact absurd h (Nat.not_lt_zero i)
  | succ n ih =>
    cases i with
    | zero =>
      rw [Nat.testBit_zero]
      rfl
    | succ i =>
      simp only [bitsOf, List.getElem_cons_succ]
      rw [ih, Nat.testBit_succ]

/-- A stream that starts with n given bits has them as its low bits. -/
theorem testBit_eq_of_bitsOf_prefix {m n x v : Nat} {xs ys : List Bool} (h : bitsOf m x ++ xs = bitsOf n v ++ ys)
    (hle : n ≤ m) {i : Nat} (hi : i < n) : x.testBit i = v.testBit i := by
  have hx : (bitsOf m x ++ xs)[i]? = some (x.testBit i) := by
    rw [List.getElem?_append_left (by rw [bitsOf_length]; omega), List.getElem?_eq_getElem (by rw [bitsOf_length]; omega),
      getElem_bitsOf]
  have hv : (bitsOf n v ++ ys)[i]? = some (v.testBit i) := by
    rw [List.getElem?_append_left (by rwa [bitsOf_length]), List.getElem?_eq_getElem (by rwa [bitsOf_length]),
      getElem_bitsOf]
  rw [h, hv] at hx
  exact (Option.some.inj hx).symm

/-- One bit more of a number: its leading part grows by its next bit. -/
theorem prefix_succ (c k : Nat) : 2 * (c / 2 ^ (k + 1)) + (c.testBit k).toNat = c / 2 ^ k := by
  rw [Nat.toNat_testBit, Nat.pow_succ, ← Nat.div_div_eq_div_mul, Nat.mul_comm]
  exact Nat.div_add_mod' _ _

/-- A table that a walk along the code c of length l passes: at every shorter length the leading part of c is beyond the codes of
that length, and at length l it is one of them. -/
theorem findCode_of_prefixes {t : DecTable} {r : BitReader} {l c : Nat}
    (hbits : ∀ i, i < l → peekBit r i = c.testBit (l - 1 - i))
    (hshort : ∀ k, 1 ≤ k → k < l → at0 t.first k + at0 t.cnt k ≤ c / 2 ^ (l - k))
    (hfirst : at0 t.first l ≤ c) (hlast : c < at0 t.first l + at0 t.cnt l) :
    ∀ fuel k, 1 ≤ k → k ≤ l → l < k + fuel →
      findCode t r fuel k (c / 2 ^ (l - k + 1)) = some (l, at0 t.sym (at0 t.offs l + c - at0 t.first l)) := by
  intro fuel
  induction fuel with
  | zero => intro k _ _ _; omega
  | succ fuel ih =>
    intro k hpos hle hfuel
    have hidx : l - 1 - (k - 1) = l - k := by omega
    rw [findCode, hbits (k - 1) (by omega), hidx, prefix_succ]
    rcases Nat.lt_or_eq_of_le hle with hlt | rfl
    · have hbeyond := hshort k hpos hlt
      have hnext : l - k = l - (k + 1) + 1 := by omega
      rw [if_neg (by omega), hnext]
      exact ih (k + 1) (Nat.le_add_left 1 k) hlt (by omega)
    · rw [Nat.sub_self, Nat.pow_zero, Nat.div_one, if_pos ⟨hfirst, hlast⟩]

section
variable {lens : List Nat} {t : DecTable} {s : Nat}

/-- The prefixes of a symbol's code are beyond the codes of the shorter lengths (R97). -/
theorem makeTable_shorter_le (h : makeTable lens = some t) (hle : at0 lens s ≤ 15) {k : Nat} (hpos : 1 ≤ k)
    (hlt : k < at0 lens s) : at0 t.first k + at0 t.cnt k ≤ canonicalCode lens s / 2 ^ (at0 lens s - k) := by
  obtain ⟨-, rfl⟩ := makeTable_some h
  rw [Nat.le_div_iff_mul_le (Nat.two_pow_pos _)]
  have hnext := shifted_codes_le_next (histogram lens) hpos (Nat.sub_pos_of_lt hlt) (by omega)
  rw [Nat.add_sub_of_le hlt.le] at hnext
  exact hnext.trans (Nat.le_add_right ..)

theorem makeTable_canonicalCode_lt (h : makeTable lens = some t) (hs : s < lens.length) (hpos : 1 ≤ at0 lens s)
    (hle : at0 lens s ≤ 15) : canonicalCode lens s < 2 ^ at0 lens s := by
  refine Nat.lt_of_lt_of_le ?_ (makeTable_first_add_cnt_le h hpos hle)
  obtain ⟨-, rfl⟩ := makeTable_some h
  exact canonicalCode_lt hs hpos hle

/-- With the code of a symbol at the front of the cache, the walk ends at that symbol. -/
theorem findCode_makeTable (h : makeTable lens = some t) (hs : s < lens.length) (hpos : 1 ≤ at0 lens s)
    (hle : at0 lens s ≤ 15) {r : BitReader} {fuel : Nat} (hfuel : at0 lens s ≤ fuel)
    (hbits : ∀ i, i < at0 lens s → peekBit r i = (canonicalCode lens s).testBit (at0 lens s - 1 - i)) :
    findCode t r fuel 1 0 = some (at0 lens s, s) := by
  have hcode := makeTable_canonicalCode_lt h hs hpos hle
  have hsym := makeTable_sym h hs hpos hle
  have hshort := fun k => makeTable_shorter_le h hle (k := k)
  have hlast := canonicalCode_lt hs hpos hle
  obtain ⟨-, rfl⟩ := makeTable_some h
  have hwalk := findCode_of_prefixes hbits hshort (Nat.le_add_right ..) hlast fuel 1 (Nat.le_refl 1) hpos (by omega)
  have hzero : canonicalCode lens s / 2 ^ (at0 lens s - 1 + 1) = 0 := by
    rw [Nat.sub_add_cancel hpos]
    exact Nat.div_eq_of_lt hcode
  have hrank : at0 (nextCodes (histogram lens)) (at0 lens s) + (lens.take s).count (at0 lens s) = canonicalCode lens s := rfl
  rw [hzero, ← hrank, Nat.add_sub_assoc (Nat.le_add_right ..), Nat.add_sub_cancel_left, hsym] at hwalk
  exact hwalk

end

theorem unreadStream_length (s : State) : (unreadStream s).length = unreadBits s := by
  have hbytes : ∀ bytes : List Byte, (byteBits bytes).length = 8 * bytes.length := by
    intro bytes
    induction bytes with
    | nil => rfl
    | cons b bytes ih => rw [byteBits_cons, List.length_append, bitsOf_length, ih, List.length_cons]; omega
  rw [unreadStream, List.length_append, bitsOf_length, hbytes, unreadBytes, List.length_map, List.length_range, unreadBits]

/-- Settles O35: `Load` caches at least the code, which the walk follows to its symbol, and `DropBits` takes it off. -/
theorem decodeSymInvertsPutCode : Obligations.DecodeSymInvertsPutCode := by
  unfold Obligations.DecodeSymInvertsPutCode
  intro lens t s st rest hlens ht hs hcode _ hvalid hstream
  have hpos : 1 ≤ at0 lens s := Nat.one_le_iff_ne_zero.mpr hcode
  have hmem : at0 lens s ∈ lens := at0_eq_getElem hs ▸ List.getElem_mem hs
  have hle : at0 lens s ≤ 15 := hlens _ hmem
  have hmax : at0 lens s ≤ t.lmax := le_makeTable_lmax ht hmem
  have hload := (load_stream (Nat.le_trans (makeTable_lmax_le hlens ht) (by decide)) hvalid).1
  rw [hstream, at0_genCodes hlens hs hcode] at hload
  have hcached : at0 lens s ≤ (load t.lmax st).reader.brCount := by
    obtain ⟨hlen, -, -, -, -, -, henough⟩ := load_spec t.lmax st
    rcases henough with hc | hend
    · exact hmax.trans hc
    · have htotal := congrArg List.length hload
      rw [unreadStream_length, unreadBits, hlen, Nat.sub_eq_zero_of_le hend, List.length_append, bitsOf_length] at htotal
      omega
  have hbits : ∀ i, i < at0 lens s →
      peekBit (load t.lmax st).reader i = (canonicalCode lens s).testBit (at0 lens s - 1 - i) := by
    intro i hi
    rw [← testBit_revBits_of_lt _ hi]
    exact testBit_eq_of_bitsOf_prefix hload hcached hi
  have hfind := findCode_makeTable ht hs hpos hle (fuel := min (load t.lmax st).reader.brCount 15) (by omega) hbits
  refine ⟨{ load t.lmax st with reader := dropBits (at0 lens s) (load t.lmax st).reader }, ?_, ?_⟩
  · rw [decodeSym, hfind]
  · rw [unreadStream_dropBits hcached] at hload
    exact (List.append_inj hload (by rw [bitsOf_length, bitsOf_length])).2

end Sys2Proof.Machine
end

section
/-! PROOF. Every step keeps the bit reader's invariant (R17, R21, R66, R126): from the rules of the decoder's states, by the
induction over its driver. -/

namespace Sys2Proof.Machine

/-! ### The bit cache (R17, R66) -/

/-- R17's invariant on the bit cache alone. -/
structure BitReader.InRange (r : BitReader) : Prop where
  count : r.brCount ≤ 23
  cache : r.brCache.toNat < 2 ^ r.brCount

theorem emptyReader_inRange : BitReader.InRange { brCache := 0#32, brCount := 0 } := ⟨by decide, by decide⟩

theorem load_inRange {n : Nat} {s : State} (hn : n ≤ 16) (h : s.reader.InRange) : (load n s).reader.InRange := by
  obtain ⟨-, -, -, -, -, hmax, -⟩ := load_spec n s
  have := h.count
  exact ⟨hmax.trans (by omega), (load_stream (hn.trans (by decide)) h.cache).2⟩

theorem dropBits_inRange {n : Nat} {r : BitReader} (hn : n ≤ r.brCount) (h : r.InRange) : (dropBits n r).InRange :=
  ⟨(Nat.sub_le ..).trans h.count, dropBits_valid hn h.cache⟩

theorem getBits_inRange {n : Nat} {o : Option Nat} {s t : State} (hn : n ≤ 16) (h : s.reader.InRange)
    (hg : getBits n s = (o, t)) : t.reader.InRange := by
  obtain ⟨hcount, hcache⟩ := getBits_reader hn h.count h.cache hg
  exact ⟨hcount, hcache⟩

theorem decodeSym_inRange {table : DecTable} {o : SymOut} {s t : State} (hmax : table.lmax ≤ 15) (h : s.reader.InRange)
    (hg : decodeSym table s = (o, t)) : t.reader.InRange := by
  have hload := load_inRange (hmax.trans (by decide)) h
  rcases decodeSym_cases table s with ⟨l, v, hf, he⟩ | ⟨-, ⟨-, he⟩ | ⟨-, he⟩⟩ <;> cases he.symm.trans hg
  · have := findCode_length table _ _ _ _ hf
    exact dropBits_inRange (by omega) hload
  · exact hload
  · exact hload

/-! ### The code lengths the decoder holds (R21, R126) -/

/-- R21, R126 on the decoder alone: every code length held is at most 15, and so is every table's `lmax`. -/
structure Decoder.LensInRange (d : Decoder) : Prop where
  lens : ∀ l ∈ d.lens, l ≤ 15
  clLens : ∀ l ∈ d.clLens, l ≤ 15
  clTable : d.clTable.lmax ≤ 15
  litTable : d.litTable.lmax ≤ 15
  distTable : d.distTable.lmax ≤ 15

theorem readerInRange_iff (s : State) : ReaderInRange s ↔ s.reader.InRange ∧ s.dec.LensInRange :=
  ⟨fun h => ⟨⟨h.count, h.cache⟩, h.lens, h.clLens, h.clTable, h.litTable, h.distTable⟩,
    fun ⟨⟨hcount, hcache⟩, hlens, hcl, hclt, hlit, hdist⟩ => ⟨hcount, hcache, hlens, hcl, hclt, hlit, hdist⟩⟩

theorem decoderReset_lensInRange : Decoder.reset.LensInRange where
  lens := by simp [Decoder.reset]
  clLens := by decide
  clTable := by decide
  litTable := by decide
  distTable := by decide

theorem makeTable_getD_lmax_le {lens : List Nat} (h : ∀ l ∈ lens, l ≤ 15) :
    ((makeTable lens).getD DecTable.empty).lmax ≤ 15 := by
  cases hm : makeTable lens with
  | none => exact Nat.zero_le 15
  | some t => exact makeTable_lmax_le h hm

theorem staticLitLens_le : ∀ l ∈ staticLitLens, l ≤ 15 := by
  intro l hl
  simp only [staticLitLens, List.mem_append, List.mem_replicate] at hl
  omega

theorem staticLitTable_lmax_le : staticLitTable.lmax ≤ 15 := makeTable_getD_lmax_le staticLitLens_le

theorem staticDistTable_lmax_le : staticDistTable.lmax ≤ 15 := makeTable_getD_lmax_le (by decide)

theorem forall_mem_set_le {xs : List Nat} {b v : Nat} (h : ∀ x ∈ xs, x ≤ b) (hv : v ≤ b) (i : Nat) :
    ∀ x ∈ xs.set i v, x ≤ b := by
  intro x hx
  rcases List.mem_or_eq_of_mem_set hx with hx | rfl
  · exact h x hx
  · exact hv

theorem forall_mem_append_le {xs ys : List Nat} {b : Nat} (h : ∀ x ∈ xs, x ≤ b) (h' : ∀ x ∈ ys, x ≤ b) :
    ∀ x ∈ xs ++ ys, x ≤ b := fun x hx => (List.mem_append.mp hx).elim (h x) (h' x)

/-- A run repeats a length held, or 0. -/
theorem repeatRun_val_le {d : Decoder} {v n val b : Nat} (h : ∀ l ∈ d.lens, l ≤ b) (hrun : (n, val) = repeatRun d v) :
    val ≤ b := by
  obtain ⟨h16, h17, h18⟩ := repeatRun_eq hrun
  by_cases hs : d.repSym = 16
  · rw [(h16 hs).2]
    exact getD_le h _
  · by_cases hs' : d.repSym = 17
    · rw [(h17 hs').2]
      exact Nat.zero_le b
    · rw [(h18 hs hs').2]
      exact Nat.zero_le b

section
variable {s t : State}

theorem OkRule.reader_inRange (h : OkRule s t s.dec.decState) (hr : s.reader.InRange) (hd : s.dec.LensInRange) :
    t.reader.InRange := by
  cases hstate : s.dec.decState <;> rw [hstate] at h
  case readingBFinal | readingNumCodeLenCodes | uncompressedByte1 | uncompressedByte2 | uncompressedByte3 =>
    obtain ⟨v, s', hg, rfl⟩ := h
    exact (getBits_inRange (by decide) hr hg :)
  case readingBType =>
    obtain ⟨v, s', hg, ⟨-, rfl⟩ | ⟨-, rfl⟩ | ⟨-, rfl⟩⟩ := h <;> exact (getBits_inRange (by decide) hr hg :)
  case readingNumLitCodes | readingNumDistCodes | uncompressedByte4 =>
    obtain ⟨v, s', hg, -, rfl⟩ := h
    exact (getBits_inRange (by decide) hr hg :)
  case readingCodeLenCodes =>
    obtain ⟨v, s', lens, hg, -, ⟨-, rfl⟩ | ⟨-, table, -, rfl⟩⟩ := h <;> exact (getBits_inRange (by decide) hr hg :)
  case readingTreeCodes =>
    by_cases hfull : s.dec.lens.length = s.dec.hlitN + s.dec.hdistN
    · obtain ⟨-, lt, dt, -, -, rfl⟩ := h.1 hfull
      exact hr
    · obtain ⟨c, s', hg, ⟨-, rfl⟩ | ⟨-, -, rfl⟩⟩ := h.2 hfull <;> exact (decodeSym_inRange hd.clTable hr hg :)
  case readingTreeCodesExtra =>
    obtain ⟨v, s', n, val, hg, -, -, rfl⟩ := h
    exact (getBits_inRange ((repeatBits_le _).trans (by decide)) hr hg :)
  case decodeTop =>
    obtain ⟨-, v, s', hg, ⟨-, rfl⟩ | ⟨-, rfl⟩ | ⟨-, -, rfl⟩⟩ := h <;> exact (decodeSym_inRange hd.litTable hr hg :)
  case haveInitialLength =>
    obtain ⟨v, s', hg, rfl⟩ := h
    exact (getBits_inRange ((lenExtraOf_le _).trans (by decide)) hr hg :)
  case haveFullLength =>
    obtain ⟨v, s', hg, -, rfl⟩ := h
    exact (decodeSym_inRange hd.distTable hr hg :)
  case haveDistCode =>
    obtain ⟨v, s', dist, hg, -, -, rfl⟩ := h
    exact (getBits_inRange ((distExtraOf_le _).trans (by decide)) hr hg :)
  case uncompressedAligning =>
    cases h
    exact dropBits_inRange (Nat.mod_le ..) hr
  case decodingUncompressed =>
    by_cases hrem : s.dec.storedRem = 0
    · cases h.1 hrem
      exact hr
    · obtain ⟨-, v, s', hg, rfl⟩ := h.2 hrem
      exact (getBits_inRange (by decide) hr hg :)
  case done => exact h.elim

theorem OkRule.lensInRange (h : OkRule s t s.dec.decState) (hd : s.dec.LensInRange) : t.dec.LensInRange := by
  cases hstate : s.dec.decState <;> rw [hstate] at h
  case readingBFinal | haveInitialLength | uncompressedByte1 | uncompressedByte2 | uncompressedByte3 =>
    obtain ⟨v, s', -, rfl⟩ := h
    exact { hd with }
  case readingBType =>
    obtain ⟨v, s', -, ⟨-, rfl⟩ | ⟨-, rfl⟩ | ⟨-, rfl⟩⟩ := h
    · exact { hd with }
    · exact { hd with litTable := staticLitTable_lmax_le, distTable := staticDistTable_lmax_le }
    · exact { hd with }
  case readingNumLitCodes | readingNumDistCodes | haveFullLength | uncompressedByte4 =>
    obtain ⟨v, s', -, -, rfl⟩ := h
    exact { hd with }
  case readingNumCodeLenCodes =>
    obtain ⟨v, s', -, rfl⟩ := h
    exact { hd with clLens := fun l hl => (List.eq_of_mem_replicate hl).le.trans (Nat.zero_le 15) }
  case readingCodeLenCodes =>
    obtain ⟨v, s', lens, hg, rfl, h⟩ := h
    have hv := getBits_lt hg
    have hcl := forall_mem_set_le hd.clLens (v := v) (by omega) (at0 blOrder s.dec.clIdx)
    obtain ⟨-, rfl⟩ | ⟨-, table, htable, rfl⟩ := h
    · exact { hd with clLens := hcl }
    · exact { hd with clLens := hcl, clTable := makeTable_lmax_le hcl htable, lens := by simp }
  case readingTreeCodes =>
    by_cases hfull : s.dec.lens.length = s.dec.hlitN + s.dec.hdistN
    · obtain ⟨-, lt, dt, hlt, hdt, rfl⟩ := h.1 hfull
      exact { hd with
              litTable := makeTable_lmax_le (fun l hl => hd.lens l (List.mem_of_mem_take hl)) hlt
              distTable :=
                makeTable_lmax_le (fun l hl => hd.lens l (List.mem_of_mem_drop (List.mem_of_mem_take hl))) hdt }
    · obtain ⟨c, s', -, ⟨hc, rfl⟩ | ⟨-, -, rfl⟩⟩ := h.2 hfull
      · exact { hd with lens := forall_mem_append_le hd.lens (by simpa using hc) }
      · exact { hd with }
  case readingTreeCodesExtra =>
    obtain ⟨v, s', n, val, -, hrun, -, rfl⟩ := h
    have hval := repeatRun_val_le hd.lens hrun
    exact { hd with lens := forall_mem_append_le hd.lens fun l hl => (List.eq_of_mem_replicate hl).le.trans hval }
  case decodeTop =>
    obtain ⟨-, v, s', -, ⟨-, rfl⟩ | ⟨-, rfl⟩ | ⟨-, -, rfl⟩⟩ := h <;> exact { hd with }
  case haveDistCode =>
    obtain ⟨v, s', dist, -, -, -, rfl⟩ := h
    exact { hd with }
  case uncompressedAligning =>
    cases h
    exact { hd with }
  case decodingUncompressed =>
    by_cases hrem : s.dec.storedRem = 0
    · cases h.1 hrem
      exact { hd with }
    · obtain ⟨-, v, s', -, rfl⟩ := h.2 hrem
      exact { hd with }
  case done => exact h.elim

theorem RaiseDecoder.lensInRange {d d' : Decoder} (h : RaiseDecoder d d') (hd : d.LensInRange) : d'.LensInRange := by
  cases h with
  | same => exact hd
  | entry _ hv _ => exact { hd with clLens := forall_mem_set_le hd.clLens (by omega) _ }
  | table _ hlt =>
    exact { hd with litTable := makeTable_lmax_le (fun l hl => hd.lens l (List.mem_of_mem_take hl)) hlt }

/-- A step that raises has read with a width in range, or nothing. -/
theorem RaiseRule.reader_inRange {e : Err} {d : DecState} (h : RaiseRule s t e d) (hr : s.reader.InRange)
    (hd : s.dec.LensInRange) : t.reader.InRange := by
  cases d with
  | readingBType => exact (getBits_inRange (by decide) hr h.2 :)
  | readingNumLitCodes | readingNumDistCodes =>
    obtain ⟨-, v, -, hg⟩ := h
    exact (getBits_inRange (by decide) hr hg :)
  | readingCodeLenCodes =>
    obtain ⟨-, -, v, s', lens, hg, -, -, rfl⟩ := h
    exact (getBits_inRange (by decide) hr hg :)
  | readingTreeCodes =>
    rcases h with ⟨-, ⟨-, -, rfl⟩ | ⟨-, -, -, rfl⟩ | ⟨-, -, lt, -, -, rfl⟩⟩ | ⟨-, ⟨-, hg⟩ | ⟨-, -, hg⟩⟩
    · exact hr
    · exact hr
    · exact hr
    · exact (decodeSym_inRange hd.clTable hr hg :)
    · exact (decodeSym_inRange hd.clTable hr hg :)
  | readingTreeCodesExtra =>
    obtain ⟨-, v, hg, -⟩ := h
    exact (getBits_inRange ((repeatBits_le _).trans (by decide)) hr hg :)
  | decodeTop =>
    rcases h with ⟨-, ⟨-, hg⟩ | ⟨-, v, -, hg⟩⟩
    · exact (decodeSym_inRange hd.litTable hr hg :)
    · exact (decodeSym_inRange hd.litTable hr hg :)
  | haveFullLength =>
    rcases h with ⟨-, hg⟩ | ⟨-, v, -, hg⟩
    · exact (decodeSym_inRange hd.distTable hr hg :)
    · exact (decodeSym_inRange hd.distTable hr hg :)
  | haveDistCode =>
    obtain ⟨-, v, hg, -⟩ := h
    exact (getBits_inRange ((distExtraOf_le _).trans (by decide)) hr hg :)
  | uncompressedByte4 =>
    obtain ⟨-, v, hg, -⟩ := h
    exact (getBits_inRange (by decide) hr hg :)
  | readingBFinal | readingNumCodeLenCodes | haveInitialLength | uncompressedAligning | uncompressedByte1 |
    uncompressedByte2 | uncompressedByte3 | decodingUncompressed | done => exact h.elim

theorem decStep_readerInRange (h : ReaderInRange s) : ReaderInRange (decStep s).2 := by
  obtain ⟨hr, hd⟩ := (readerInRange_iff s).mp h
  refine decStep_induction (P := ReaderInRange) h (fun t ht => ?_) (fun t e ht => ?_) (fun n hn => ?_)
  · exact (readerInRange_iff t).mpr ⟨ht.reader_inRange hr hd, ht.lensInRange hd⟩
  · exact (readerInRange_iff t).mpr ⟨ht.reader_inRange hr hd, ht.effect.2.lensInRange hd⟩
  · exact (readerInRange_iff _).mpr ⟨load_inRange ((hn h).trans (by decide)) hr, hd⟩

/-- A step of the encoder leaves the decoder's elements and the configuration. -/
theorem EncoderFrame.reader (h : EncoderFrame s t) : t.reader = s.reader := by rw [h]
theorem EncoderFrame.dec (h : EncoderFrame s t) : t.dec = s.dec := by rw [h]
theorem EncoderFrame.mode (h : EncoderFrame s t) : t.mode = s.mode := by rw [h]
theorem EncoderFrame.window (h : EncoderFrame s t) : t.window = s.window := by rw [h]
theorem EncoderFrame.wbits (h : EncoderFrame s t) : t.wbits = s.wbits := by rw [h]

/-- FINISH's first assignment changes the phase at most. -/
theorem beginFinish_eq (s : State) : beginFinish s = { s with enc := (beginFinish s).enc } := by
  unfold beginFinish
  split <;> rfl

theorem beginFinish_reader (s : State) : (beginFinish s).reader = s.reader := by rw [beginFinish_eq]
theorem beginFinish_dec (s : State) : (beginFinish s).dec = s.dec := by rw [beginFinish_eq]
theorem beginFinish_mode (s : State) : (beginFinish s).mode = s.mode := by rw [beginFinish_eq]
theorem beginFinish_window (s : State) : (beginFinish s).window = s.window := by rw [beginFinish_eq]
theorem beginFinish_wbits (s : State) : (beginFinish s).wbits = s.wbits := by rw [beginFinish_eq]

/-- An invariant of the bit cache and the decoder holds of any state that has both. -/
theorem ReaderInRange.congr (h : ReaderInRange s) (hr : t.reader = s.reader) (hd : t.dec = s.dec) : ReaderInRange t := by
  rw [readerInRange_iff] at h ⊢
  rwa [hr, hd]

theorem encodeOutput_readerInRange {cap : Arg} (hs : ReaderInRange s) (h : encodeOutput cap s = .next t) :
    ReaderInRange t := by
  refine encodeOutput_induction ReaderInRange (fun cap written s hs => hs.congr rfl rfl) (fun s t hs h => ?_)
    (fun n s hs => hs.congr rfl rfl) hs h
  exact hs.congr (encStep_frame h).reader (encStep_frame h).dec

end

theorem CommandEffect.readerInRange {s t : State} {i : Instr} (h : CommandEffect s i t) (hs : ReaderInRange s) :
    ReaderInRange t := by
  have hdec := ((readerInRange_iff s).mp hs).2
  cases h with
  | nop => exact hs
  | reset => exact (readerInRange_iff _).mpr ⟨emptyReader_inRange, decoderReset_lensInRange⟩
  | refused => exact hs
  | illegal => exact hs.congr rfl rfl
  | openEncoder => exact (readerInRange_iff _).mpr ⟨emptyReader_inRange, hdec⟩
  | openDecoder => exact (readerInRange_iff _).mpr ⟨emptyReader_inRange, decoderReset_lensInRange⟩
  | setInput =>
    unfold setInputEffect
    split <;> exact hs.congr rfl rfl
  | produceEncode _ _ _ h => exact encodeOutput_readerInRange hs h
  | produceDecode _ _ _ h =>
    exact decodeOutput_induction ReaderInRange (fun _ _ _ hs => hs.congr rfl rfl) (fun _ => decStep_readerInRange)
      (fun _ _ hs => hs.congr rfl rfl) (fun _ _ hs => hs.congr rfl rfl) hs h
  | flush _ _ h => exact encodeOutput_readerInRange (s := beginFlush s) (hs.congr rfl rfl) h
  | finish _ _ h => exact encodeOutput_readerInRange (hs.congr (beginFinish_reader s) (beginFinish_dec s)) h
  | endOfInput => exact (readerInRange_iff _).mpr ⟨((readerInRange_iff s).mp hs).1, { hdec with }⟩
  | buildTree => exact hs.congr rfl rfl

/-- Settles O57: the decoder's rules keep the cache and the lengths; every other command leaves both or resets them. -/
theorem stepKeepsTheBitReader : Obligations.StepKeepsTheBitReader := by
  unfold Obligations.StepKeepsTheBitReader
  intro s t hs h
  exact step_keeps (P := ReaderInRange) (fun _ => hs.congr rfl rfl) (fun _ _ hu => hu.congr rfl rfl)
    (fun _ _ _ _ hu => hu.congr rfl rfl) (fun u i _ hu he => he.readerInRange hu) (fun _ hu => hu.congr rfl rfl) hs h

end Sys2Proof.Machine
end

section
/-! PROOF. Every step keeps the decode window's invariant (R19, R77, R142, R170): the cursor in the ring, the counts in order,
and room for the back-reference being read. -/

namespace Sys2Proof.Machine

/-! ### The ring (R19, R77 to R80) -/

/-- R19's invariant on the ring of W bytes alone. -/
structure Window.InRange (w : Nat) (x : Window) : Prop where
  cells : ∀ c ∈ x.win, c.1 < w
  cursor : x.winEnd < w
  used : x.winUsed ≤ x.winFilled
  filled : x.winFilled ≤ w

theorem writeLiteral_inRange {w : Nat} {x : Window} (b : Byte) (h : x.InRange w) (hroom : x.winUsed < w) :
    (writeLiteral w b x).InRange w where
  cells c hc := by
    rcases Memory.mem_write hc with rfl | hc
    · exact h.cursor
    · exact h.cells c hc
  cursor := Nat.mod_lt _ (Nat.zero_lt_of_lt h.cursor)
  used := by
    have := h.used
    rw [writeLiteral_winUsed, writeLiteral_winFilled]
    omega
  filled := Nat.min_le_right ..

theorem writeBackReference_inRange {w : Nat} (len dist : Nat) : ∀ {x : Window}, x.InRange w → x.winUsed + len ≤ w →
    (writeBackReference w len dist x).InRange w := by
  induction len with
  | zero => exact fun h _ => h
  | succ len ih =>
    intro x h hroom
    refine ih (writeLiteral_inRange _ h (by omega)) ?_
    rw [writeLiteral_winUsed]
    omega

theorem drain_inRange {w : Nat} {x : Window} (k : Nat) (h : x.InRange w) :
    Window.InRange w { x with winUsed := x.winUsed - k } :=
  { h with used := (Nat.sub_le ..).trans h.used }

/-! ### The back-reference being read (R142 to R145) -/

/-- R142 to R145: inside a back-reference there is room for it, and its symbol and length are in range. -/
structure Decoder.MatchInRange (w : Nat) (x : Window) (d : Decoder) : Prop where
  room : d.decState.inMatch = true → x.winUsed + maxMatch ≤ w
  curSym : d.decState = .haveInitialLength → 257 ≤ d.curSym ∧ d.curSym ≤ 285
  curLen : d.decState = .haveFullLength ∨ d.decState = .haveDistCode → minMatch ≤ d.curLen ∧ d.curLen ≤ maxMatch

theorem DecState.inMatch_iff (d : DecState) :
    d.inMatch = true ↔ d = .haveInitialLength ∨ d = .haveFullLength ∨ d = .haveDistCode := by
  simp [DecState.inMatch, or_assoc]

/-- Outside a back-reference nothing is asked. -/
theorem matchInRange_of_not_inMatch {w : Nat} {x : Window} {d : Decoder} (h : d.decState.inMatch = false) :
    d.MatchInRange w x := by
  have hno := mt (DecState.inMatch_iff _).mpr (Bool.eq_false_iff.mp h)
  exact ⟨fun hm => absurd hm (Bool.eq_false_iff.mp h), fun hd => absurd (.inl hd) hno, fun hd => absurd (.inr hd) hno⟩

/-- R60: a length symbol's base and extra value make a length of 3 to 258. -/
theorem lenBaseOf_add_inRange {s v : Nat} (hlo : 257 ≤ s) (hhi : s ≤ 285) (hv : v < 2 ^ lenExtraOf s) :
    minMatch ≤ lenBaseOf s + v ∧ lenBaseOf s + v ≤ maxMatch := by
  have hall : ∀ s, 257 ≤ s → s ≤ 285 → minMatch ≤ lenBaseOf s ∧ lenBaseOf s + 2 ^ lenExtraOf s ≤ maxMatch + 1 := by decide
  have := hall s hlo hhi
  omega

theorem windowInRange_iff (s : State) :
    WindowInRange s ↔ (s.mode ≠ .decode → s.window.win = []) ∧
      (s.mode = .decode → 9 ≤ s.wbits.toNat ∧ s.window.InRange (windowSize s.wbits) ∧
        s.dec.MatchInRange (windowSize s.wbits) s.window) := by
  constructor
  · exact fun h => ⟨h.closed, fun hm => ⟨h.wbits hm, ⟨h.cells hm, h.cursor hm, h.used hm, h.filled hm⟩,
      h.room hm, h.curSym hm, h.curLen hm⟩⟩
  · rintro ⟨hclosed, h⟩
    exact ⟨hclosed, fun hm => (h hm).2.1.cells, fun hm => (h hm).1, fun hm => (h hm).2.1.cursor,
      fun hm => (h hm).2.1.used, fun hm => (h hm).2.1.filled, fun hm => (h hm).2.2.room, fun hm => (h hm).2.2.curSym,
      fun hm => (h hm).2.2.curLen⟩

section
variable {s t : State}

/-- The invariant reads MODE, WBITS, the window and the decoder only. -/
theorem WindowInRange.congr (h : WindowInRange s) (hmode : t.mode = s.mode) (hwbits : t.wbits = s.wbits)
    (hwindow : t.window = s.window) (hdec : t.dec = s.dec) : WindowInRange t := by
  rw [windowInRange_iff] at h ⊢
  rwa [hmode, hwbits, hwindow, hdec]

/-- The rule of each state that makes progress keeps the ring and the back-reference in range. -/
theorem OkRule.windowInRange (h : OkRule s t s.dec.decState) (hx : s.window.InRange (windowSize s.wbits))
    (hm : s.dec.MatchInRange (windowSize s.wbits) s.window) :
    t.window.InRange (windowSize s.wbits) ∧ t.dec.MatchInRange (windowSize s.wbits) t.window := by
  cases hstate : s.dec.decState <;> rw [hstate] at h
  case readingBFinal | readingNumCodeLenCodes | uncompressedByte1 | uncompressedByte2 | uncompressedByte3 =>
    obtain ⟨v, s', -, rfl⟩ := h
    exact ⟨hx, matchInRange_of_not_inMatch rfl⟩
  case readingBType =>
    obtain ⟨v, s', -, ⟨-, rfl⟩ | ⟨-, rfl⟩ | ⟨-, rfl⟩⟩ := h <;> exact ⟨hx, matchInRange_of_not_inMatch rfl⟩
  case readingNumLitCodes | readingNumDistCodes | uncompressedByte4 =>
    obtain ⟨v, s', -, -, rfl⟩ := h
    exact ⟨hx, matchInRange_of_not_inMatch rfl⟩
  case readingCodeLenCodes =>
    obtain ⟨v, s', lens, -, -, ⟨-, rfl⟩ | ⟨-, table, -, rfl⟩⟩ := h
    · exact ⟨hx, matchInRange_of_not_inMatch (congrArg DecState.inMatch hstate)⟩
    · exact ⟨hx, matchInRange_of_not_inMatch rfl⟩
  case readingTreeCodes =>
    by_cases hfull : s.dec.lens.length = s.dec.hlitN + s.dec.hdistN
    · obtain ⟨-, lt, dt, -, -, rfl⟩ := h.1 hfull
      exact ⟨hx, matchInRange_of_not_inMatch rfl⟩
    · obtain ⟨c, s', -, ⟨-, rfl⟩ | ⟨-, -, rfl⟩⟩ := h.2 hfull
      · exact ⟨hx, matchInRange_of_not_inMatch (congrArg DecState.inMatch hstate)⟩
      · exact ⟨hx, matchInRange_of_not_inMatch rfl⟩
  case readingTreeCodesExtra =>
    obtain ⟨v, s', n, val, -, -, -, rfl⟩ := h
    exact ⟨hx, matchInRange_of_not_inMatch rfl⟩
  case decodeTop =>
    obtain ⟨hroom, v, s', -, ⟨-, rfl⟩ | ⟨-, rfl⟩ | ⟨hlo, hhi, rfl⟩⟩ := h
    · exact ⟨writeLiteral_inRange _ hx (by omega), matchInRange_of_not_inMatch (congrArg DecState.inMatch hstate)⟩
    · refine ⟨hx, matchInRange_of_not_inMatch ?_⟩
      dsimp only [afterBlock]
      split <;> rfl
    · exact ⟨hx, fun _ => by rw [maxMatch]; dsimp only [State.consuming]; omega, fun _ => ⟨hlo, hhi⟩, by simp⟩
  case haveInitialLength =>
    obtain ⟨v, s', hg, rfl⟩ := h
    obtain ⟨hlo, hhi⟩ := hm.curSym hstate
    have hroom := hm.room (by rw [hstate]; rfl)
    exact ⟨hx, fun _ => hroom, by simp, fun _ => lenBaseOf_add_inRange hlo hhi (getBits_lt hg)⟩
  case haveFullLength =>
    obtain ⟨v, s', -, -, rfl⟩ := h
    have hroom := hm.room (by rw [hstate]; rfl)
    exact ⟨hx, fun _ => hroom, by simp, fun _ => hm.curLen (.inl hstate)⟩
  case haveDistCode =>
    obtain ⟨v, s', dist, -, -, -, rfl⟩ := h
    have hroom := hm.room (by rw [hstate]; rfl)
    have hlen := (hm.curLen (.inr hstate)).2
    exact ⟨writeBackReference_inRange _ _ hx (by omega), matchInRange_of_not_inMatch rfl⟩
  case uncompressedAligning =>
    cases h
    exact ⟨hx, matchInRange_of_not_inMatch rfl⟩
  case decodingUncompressed =>
    by_cases hrem : s.dec.storedRem = 0
    · cases h.1 hrem
      refine ⟨hx, matchInRange_of_not_inMatch ?_⟩
      dsimp only [afterBlock]
      split <;> rfl
    · obtain ⟨hroom, v, s', -, rfl⟩ := h.2 hrem
      exact ⟨writeLiteral_inRange _ hx (by omega), matchInRange_of_not_inMatch (congrArg DecState.inMatch hstate)⟩
  case done => exact h.elim

theorem RaiseDecoder.matchInRange {w : Nat} {x : Window} {d d' : Decoder} (h : RaiseDecoder d d')
    (hm : d.MatchInRange w x) : d'.MatchInRange w x := by
  cases h <;> exact { hm with }

/-- A step of the decoder keeps the ring and the back-reference in range. -/
theorem decStep_windowInRange (hx : s.window.InRange (windowSize s.wbits))
    (hm : s.dec.MatchInRange (windowSize s.wbits) s.window) :
    (decStep s).2.window.InRange (windowSize s.wbits) ∧
      (decStep s).2.dec.MatchInRange (windowSize s.wbits) (decStep s).2.window := by
  refine decStep_induction (P := fun t => t.window.InRange (windowSize s.wbits) ∧
    t.dec.MatchInRange (windowSize s.wbits) t.window) ⟨hx, hm⟩ (fun t ht => ht.windowInRange hx hm)
    (fun t e ht => ?_) (fun n _ => ⟨hx, hm⟩)
  obtain ⟨heq, hdec⟩ := ht.effect
  have hw : t.window = s.window := by rw [heq]; rfl
  rw [hw]
  exact ⟨hx, hdec.matchInRange hm⟩

/-- The invariant in a DECODE stream, as the decoder's runs keep it. -/
structure WindowOpen (s : State) : Prop where
  mode : s.mode = .decode
  wbits : 9 ≤ s.wbits.toNat
  ring : s.window.InRange (windowSize s.wbits)
  matching : s.dec.MatchInRange (windowSize s.wbits) s.window

theorem WindowOpen.windowInRange (h : WindowOpen s) : WindowInRange s :=
  (windowInRange_iff s).mpr ⟨fun hne => absurd h.mode hne, fun _ => ⟨h.wbits, h.ring, h.matching⟩⟩

theorem windowOpen_of_decode (h : WindowInRange s) (hmode : s.mode = .decode) : WindowOpen s := by
  obtain ⟨hwbits, hx, hm⟩ := ((windowInRange_iff s).mp h).2 hmode
  exact ⟨hmode, hwbits, hx, hm⟩

theorem decStep_windowOpen (h : WindowOpen s) : WindowOpen (decStep s).2 := by
  have hframe := (decStep_frame s).1
  have hmode : (decStep s).2.mode = s.mode := by rw [hframe]
  have hwbits : (decStep s).2.wbits = s.wbits := by rw [hframe]
  obtain ⟨hx, hm⟩ := decStep_windowInRange h.ring h.matching
  constructor
  case mode => exact hmode.trans h.mode
  all_goals rw [hwbits]
  · exact h.wbits
  · exact hx
  · exact hm

theorem drainWindow_windowOpen (cap written : Nat) (h : WindowOpen s) : WindowOpen (drainWindow cap written s).2 where
  mode := h.mode
  wbits := h.wbits
  ring := drain_inRange _ h.ring
  matching := { h.matching with room := fun hd => (Nat.add_le_add_right (Nat.sub_le ..) _).trans (h.matching.room hd) }

theorem decodeOutput_windowOpen {cap : Arg} (hs : WindowOpen s) (h : decodeOutput cap s = .next t) : WindowOpen t :=
  decodeOutput_induction WindowOpen (fun cap written _ => drainWindow_windowOpen cap written)
    (fun _ => decStep_windowOpen) (fun _ _ hs => ⟨hs.mode, hs.wbits, hs.ring, hs.matching⟩)
    (fun _ _ hs => ⟨hs.mode, hs.wbits, hs.ring, hs.matching⟩) hs h

/-- No command of the encoder touches MODE, WBITS, the window or the decoder. -/
theorem encodeOutput_windowInRange {cap : Arg} (hs : WindowInRange s) (h : encodeOutput cap s = .next t) :
    WindowInRange t := by
  refine encodeOutput_induction WindowInRange (fun cap written s hs => hs.congr rfl rfl rfl rfl) (fun s t hs h => ?_)
    (fun n s hs => hs.congr rfl rfl rfl rfl) hs h
  have hf := encStep_frame h
  exact hs.congr hf.mode hf.wbits hf.window hf.dec

/-- A window with all cursors 0 and nothing listed is in range. -/
theorem emptyWindow_inRange {w : Nat} {x : Window} (hw : 0 < w) (hwin : x.win = []) :
    Window.InRange w { x with winEnd := 0, winUsed := 0, winFilled := 0 } where
  cells := by simp [hwin]
  cursor := hw
  used := Nat.le_refl 0
  filled := Nat.zero_le w

theorem CommandEffect.windowInRange {i : Instr} (h : CommandEffect s i t) (hs : WindowInRange s) : WindowInRange t := by
  cases h with
  | nop => exact hs
  | reset => exact (windowInRange_iff _).mpr ⟨fun _ => rfl, fun hm => Mode.noConfusion hm⟩
  | refused => exact hs
  | illegal => exact hs.congr rfl rfl rfl rfl
  | openEncoder _ hmode =>
    have hwin : s.window.win = [] := hs.closed (by rw [hmode]; decide)
    exact (windowInRange_iff _).mpr ⟨fun _ => hwin, fun hm => Mode.noConfusion hm⟩
  | openDecoder _ hmode hw =>
    have hwin : s.window.win = [] := hs.closed (by rw [hmode]; decide)
    exact (windowInRange_iff _).mpr ⟨fun hm => absurd rfl hm, fun _ =>
      ⟨hw, emptyWindow_inRange (Nat.two_pow_pos _) hwin, matchInRange_of_not_inMatch rfl⟩⟩
  | setInput =>
    unfold setInputEffect
    split <;> exact hs.congr rfl rfl rfl rfl
  | produceEncode _ _ _ h => exact encodeOutput_windowInRange hs h
  | produceDecode _ hmode _ h => exact (decodeOutput_windowOpen (windowOpen_of_decode hs hmode) h).windowInRange
  | flush _ _ h => exact encodeOutput_windowInRange (s := beginFlush s) (hs.congr rfl rfl rfl rfl) h
  | finish _ _ h =>
    exact encodeOutput_windowInRange (hs.congr (beginFinish_mode s) (beginFinish_wbits s) (beginFinish_window s)
      (beginFinish_dec s)) h
  | endOfInput _ hmode =>
    have ho := windowOpen_of_decode hs hmode
    exact WindowOpen.windowInRange ⟨ho.mode, ho.wbits, ho.ring, { ho.matching with }⟩
  | buildTree => exact hs.congr rfl rfl rfl rfl

/-- Settles O58: the decoder's rules keep the ring and leave room for the match they read; a new stream opens an empty
ring, and no other command touches the window. -/
theorem stepKeepsTheWindow : Obligations.StepKeepsTheWindow := by
  unfold Obligations.StepKeepsTheWindow
  intro s t hs h
  exact step_keeps (P := WindowInRange) (fun _ => hs.congr rfl rfl rfl rfl) (fun _ _ hu => hu.congr rfl rfl rfl rfl)
    (fun _ _ _ _ hu => hu.congr rfl rfl rfl rfl) (fun u i _ hu he => he.windowInRange hu)
    (fun _ hu => hu.congr rfl rfl rfl rfl) hs h

end

end Sys2Proof.Machine
end

section
/-! PROOF. Every step keeps the ranges of the decoder's elements (R21, R136 to R141): from the rules of the decoder's states,
with the raise that ends a run told apart, since it alone may leave an entry index at its bound. -/

namespace Sys2Proof.Machine

/-! ### How a decoder run ends -/

/-- The steps up to the first that is not OK end with a step from a state that the OK steps kept. -/
theorem runSteps_last {P : State → Prop} (hok : ∀ s, P s → (decStep s).1 = .ok → P (decStep s).2) (fuel : Nat) :
    ∀ {s : State} {r : StepOut × State}, P s → runSteps fuel s = some r → ∃ u, P u ∧ decStep u = r := by
  induction fuel with
  | zero => exact fun _ h => nomatch h
  | succ fuel ih =>
    intro s r hs h
    rw [runSteps] at h
    split at h
    · exact ih (hok s hs ‹_›) h
    · exact ⟨s, hs, Option.some.inj h⟩

/-- A run ends in a state that every drain and every step but a raise kept, or with a raise from such a state. -/
theorem decodeLoop_end {cap : Nat} {P : State → Prop} (hdrain : ∀ written s, P s → P (drainWindow cap written s).2)
    (hstep : ∀ s, P s → (∀ e, (decStep s).1 ≠ .raised e) → P (decStep s).2) (fuel : Nat) :
    ∀ {written : Nat} {s : State} {r : RunEnd}, P s → decodeLoop cap fuel written s = some r →
      P r.state ∨ ∃ u, P u ∧ decStep u = (.raised r.raised, r.state) := by
  have hok : ∀ s, P s → (decStep s).1 = .ok → P (decStep s).2 := fun s hs hr => hstep s hs (by simp [hr])
  induction fuel with
  | zero => exact fun _ h => nomatch h
  | succ fuel ih =>
    intro written s r hs h
    rw [decodeLoop] at h
    split at h
    · split at h
      · cases h
      · rename_i hr
        cases h
        exact .inr (runSteps_last hok _ hs hr)
      · rename_i o u hne hr
        obtain ⟨v, hv, hlast⟩ := runSteps_last hok _ hs hr
        have hu : P u := by
          have := hstep v hv (by rw [hlast]; exact fun e he => hne e (by simpa using he))
          rwa [hlast] at this
        dsimp only at h
        split at h
        · cases h
          exact .inl (hdrain _ _ hu)
        · exact ih (hdrain _ _ hu) h
    · cases h
      exact .inl hs

/-! ### The decoder's elements (R21) -/

/-- R21, R136 to R141 on the decoder alone, but for the entry index while entries are read. -/
structure Decoder.InRange (d : Decoder) : Prop where
  hlit : d.hlitN ≤ 286
  hdist : d.hdistN ≤ 30
  hclen : d.hclenN ≤ 19
  clCount : d.clLens.length = 19
  clIdx : d.clIdx ≤ 19
  lens : d.decState = .readingTreeCodes ∨ d.decState = .readingTreeCodesExtra → d.lens.length ≤ d.hlitN + d.hdistN
  clSyms : ∀ x ∈ d.clTable.sym, x < 19
  repSym : d.decState = .readingTreeCodesExtra → (d.repSym = 16 ∧ d.lens ≠ []) ∨ d.repSym = 17 ∨ d.repSym = 18
  curDsym : d.curDsym ≤ 29
  storedRem : d.storedRem ≤ maxStored

/-- R139: while the code-length entries are read, one is still to come. -/
def Decoder.EntryToCome (d : Decoder) : Prop := d.decState = .readingCodeLenCodes → d.clIdx < d.hclenN

theorem decoderInRange_iff (s : State) :
    DecoderInRange s ↔ (s.mode = .decode → s.dec.InRange ∧ (s.err = .none → s.dec.EntryToCome)) := by
  constructor
  · exact fun h hm => ⟨⟨h.hlit hm, h.hdist hm, h.hclen hm, h.clCount hm, h.clIdx hm, h.lens hm, h.clSyms hm, h.repSym hm,
      h.curDsym hm, h.storedRem hm⟩, h.entry hm⟩
  · exact fun h => ⟨fun hm => (h hm).1.hlit, fun hm => (h hm).1.hdist, fun hm => (h hm).1.hclen, fun hm => (h hm).1.clCount,
      fun hm => (h hm).1.clIdx, fun hm => (h hm).2, fun hm => (h hm).1.lens, fun hm => (h hm).1.clSyms,
      fun hm => (h hm).1.repSym, fun hm => (h hm).1.curDsym, fun hm => (h hm).1.storedRem⟩

theorem decoderReset_inRange : Decoder.reset.InRange := by
  constructor <;> simp [Decoder.reset, DecTable.empty]

theorem decoderReset_entryToCome : Decoder.reset.EntryToCome := fun h => DecState.noConfusion h

/-- A symbol found is one of the table's, or 0 past its end. -/
theorem findCode_sym_lt {table : DecTable} {r : BitReader} {b fuel l c l' v : Nat} (hb : 0 < b)
    (hsym : ∀ x ∈ table.sym, x < b) (h : findCode table r fuel l c = some (l', v)) : v < b := by
  induction fuel generalizing l c with
  | zero => cases h
  | succ fuel ih =>
    rw [findCode] at h
    split at h
    · cases h
      exact Nat.lt_of_le_pred hb (getD_le (fun x hx => Nat.le_pred_of_lt (hsym x hx)) _)
    · exact ih h

theorem decodeSym_lt {table : DecTable} {s t : State} {b v : Nat} (hb : 0 < b) (hsym : ∀ x ∈ table.sym, x < b)
    (h : decodeSym table s = (.symbol v, t)) : v < b := by
  rcases decodeSym_cases table s with ⟨l, v', hf, he⟩ | ⟨-, ⟨-, he⟩ | ⟨-, he⟩⟩ <;> cases he.symm.trans h
  exact findCode_sym_lt hb hsym hf

/-- What an encoder step and FINISH leave of ERR. -/
theorem EncoderFrame.err {s t : State} (h : EncoderFrame s t) : t.err = s.err := by rw [h]

theorem beginFinish_err (s : State) : (beginFinish s).err = s.err := by rw [beginFinish_eq]

section
variable {s t : State}

/-- A step to a state in which no length and no repeat symbol is being read keeps the ranges if it keeps the elements
that are in range in every state. -/
theorem Decoder.InRange.goto {d : Decoder} (h : d.InRange) {x : DecState}
    (hx : x ≠ .readingTreeCodes ∧ x ≠ .readingTreeCodesExtra) : Decoder.InRange { d with decState := x } :=
  { h with lens := fun hl => (hl.elim hx.1 hx.2).elim, repSym := fun hl => (hx.2 hl).elim }

theorem afterBlock_ne {d : Decoder} : afterBlock d ≠ .readingTreeCodes ∧ afterBlock d ≠ .readingTreeCodesExtra := by
  unfold afterBlock
  split <;> decide

theorem OkRule.decoderInRange (h : OkRule s t s.dec.decState) (hd : s.dec.InRange) (hentry : s.dec.EntryToCome) :
    t.dec.InRange := by
  cases hstate : s.dec.decState <;> rw [hstate] at h
  case readingBFinal =>
    obtain ⟨v, s', -, rfl⟩ := h
    exact { hd.goto (x := .readingBType) (by decide) with }
  case haveInitialLength =>
    obtain ⟨v, s', -, rfl⟩ := h
    exact { hd.goto (x := .haveFullLength) (by decide) with }
  case uncompressedByte1 =>
    obtain ⟨v, s', -, rfl⟩ := h
    exact { hd.goto (x := .uncompressedByte2) (by decide) with }
  case uncompressedByte2 =>
    obtain ⟨v, s', -, rfl⟩ := h
    exact { hd.goto (x := .uncompressedByte3) (by decide) with }
  case uncompressedByte3 =>
    obtain ⟨v, s', -, rfl⟩ := h
    exact { hd.goto (x := .uncompressedByte4) (by decide) with }
  case readingBType =>
    obtain ⟨v, s', -, ⟨-, rfl⟩ | ⟨-, rfl⟩ | ⟨-, rfl⟩⟩ := h
    · exact { hd.goto (x := .uncompressedAligning) (by decide) with }
    · have hg := hd.goto (x := .decodeTop) (by decide)
      exact ⟨hg.hlit, hg.hdist, hg.hclen, hg.clCount, hg.clIdx, hg.lens, hg.clSyms, hg.repSym, hg.curDsym, hg.storedRem⟩
    · exact { hd.goto (x := .readingNumLitCodes) (by decide) with }
  case readingNumLitCodes =>
    obtain ⟨v, s', -, hv, rfl⟩ := h
    exact { hd.goto (x := .readingNumDistCodes) (by decide) with hlit := by dsimp only; omega, lens := by simp }
  case readingNumDistCodes =>
    obtain ⟨v, s', -, hv, rfl⟩ := h
    exact { hd.goto (x := .readingNumCodeLenCodes) (by decide) with hdist := by dsimp only; omega, lens := by simp }
  case readingNumCodeLenCodes =>
    obtain ⟨v, s', hg, rfl⟩ := h
    have hv := getBits_lt hg
    exact { hd.goto (x := .readingCodeLenCodes) (by decide) with
            hclen := by dsimp only; omega, clCount := List.length_replicate, clIdx := Nat.zero_le 19 }
  case readingCodeLenCodes =>
    obtain ⟨v, s', lens, -, rfl, h⟩ := h
    have hidx : s.dec.clIdx + 1 ≤ 19 := (Nat.succ_le_of_lt (hentry hstate)).trans hd.hclen
    have hcount : (s.dec.clLens.set (at0 blOrder s.dec.clIdx) v).length = 19 := by rw [List.length_set, hd.clCount]
    obtain ⟨-, rfl⟩ | ⟨-, table, htable, rfl⟩ := h
    · exact { hd with clCount := hcount, clIdx := hidx }
    · exact { hd with
              clCount := hcount, clIdx := hidx, clSyms := hcount ▸ makeTable_sym_lt htable
              lens := fun _ => Nat.zero_le _, repSym := fun h => DecState.noConfusion h }
  case readingTreeCodes =>
    have hlens := hd.lens (.inl hstate)
    by_cases hfull : s.dec.lens.length = s.dec.hlitN + s.dec.hdistN
    · obtain ⟨-, lt, dt, -, -, rfl⟩ := h.1 hfull
      exact { hd.goto (x := .decodeTop) (by decide) with }
    · obtain ⟨c, s', hg, ⟨-, rfl⟩ | ⟨hc, hne, rfl⟩⟩ := h.2 hfull
      · exact { hd with
                lens := fun _ => by rw [List.length_append, List.length_singleton]; exact Nat.lt_of_le_of_ne hlens hfull
                repSym := fun h => DecState.noConfusion (hstate.symm.trans h) }
      · have hlt := decodeSym_lt (by decide) hd.clSyms hg
        exact { hd with
                lens := fun _ => hlens
                repSym := fun _ => by
                  rcases (by omega : c = 16 ∨ c = 17 ∨ c = 18) with rfl | hc'
                  · exact .inl ⟨rfl, hne rfl⟩
                  · exact .inr hc' }
  case readingTreeCodesExtra =>
    obtain ⟨v, s', n, val, -, -, hle, rfl⟩ := h
    exact { hd with
            lens := fun _ => by rw [List.length_append, List.length_replicate]; exact hle
            repSym := fun h => DecState.noConfusion h }
  case decodeTop =>
    obtain ⟨-, v, s', -, ⟨-, rfl⟩ | ⟨-, rfl⟩ | ⟨-, -, rfl⟩⟩ := h
    · exact { hd with }
    · exact { hd.goto (x := afterBlock s.dec) afterBlock_ne with }
    · exact { hd.goto (x := .haveInitialLength) (by decide) with }
  case haveFullLength =>
    obtain ⟨v, s', -, hv, rfl⟩ := h
    exact { hd.goto (x := .haveDistCode) (by decide) with curDsym := Nat.le_pred_of_lt hv }
  case haveDistCode =>
    obtain ⟨v, s', dist, -, -, -, rfl⟩ := h
    exact { hd.goto (x := .decodeTop) (by decide) with }
  case uncompressedAligning =>
    cases h
    exact { hd.goto (x := .uncompressedByte1) (by decide) with }
  case uncompressedByte4 =>
    obtain ⟨v, s', -, -, rfl⟩ := h
    exact { hd.goto (x := .decodingUncompressed) (by decide) with
            storedRem := Nat.le_pred_of_lt s.dec.storedLen.isLt }
  case decodingUncompressed =>
    by_cases hrem : s.dec.storedRem = 0
    · cases h.1 hrem
      exact { hd.goto (x := afterBlock s.dec) afterBlock_ne with }
    · obtain ⟨-, v, s', -, rfl⟩ := h.2 hrem
      exact { hd with storedRem := (Nat.sub_le ..).trans hd.storedRem }
  case done => exact h.elim

/-- The code-length entries are read from their first on. -/
theorem decStep_ok_to_entries (h : decStep s = (.ok, t)) (ht : t.dec.decState = .readingCodeLenCodes) :
    s.dec.decState = .readingNumCodeLenCodes ∨ s.dec.decState = .readingCodeLenCodes := by
  have hmove := decStep_ok_transition h
  rw [ht] at hmove
  revert hmove
  generalize s.dec.decState = d
  cases d <;> decide

/-- A step that makes progress stops reading code-length entries at the last. -/
theorem decStep_ok_entryToCome (h : decStep s = (.ok, t)) (hentry : s.dec.EntryToCome) : t.dec.EntryToCome := by
  intro ht
  have hrule := decStep_ok h
  rcases decStep_ok_to_entries h ht with hstate | hstate <;> rw [hstate] at hrule
  · obtain ⟨v, s', -, rfl⟩ := hrule
    exact Nat.succ_pos _
  · obtain ⟨v, s', lens, -, -, ⟨hne, rfl⟩ | ⟨-, table, -, rfl⟩⟩ := hrule
    · exact Nat.lt_of_le_of_ne (hentry hstate) hne
    · exact DecState.noConfusion ht

theorem RaiseDecoder.inRange {d d' : Decoder} (h : RaiseDecoder d d') (hd : d.InRange) : d'.InRange := by
  cases h with
  | same => exact hd
  | entry _ _ hlast =>
    exact { hd with clCount := by rw [List.length_set, hd.clCount], clIdx := hlast.trans_le hd.hclen }
  | table => exact { hd with }

/-- The ranges of the decoder's elements in a stream without an error. -/
def DecoderRuns (s : State) : Prop := s.dec.InRange ∧ s.dec.EntryToCome

theorem decStep_decoderRuns (h : DecoderRuns s) (hraise : ∀ e, (decStep s).1 ≠ .raised e) : DecoderRuns (decStep s).2 := by
  rcases decStep_cases s with (ha | ⟨e, ha⟩) | ⟨n, -, -, he⟩ | ⟨he, -⟩ | ⟨he, -⟩
  · have hok : decStep s = (.ok, (decStep s).2) := Prod.ext ha rfl
    exact ⟨(decStep_ok hok).decoderInRange h.1 h.2, decStep_ok_entryToCome hok h.2⟩
  · exact absurd ha (hraise e)
  · rw [he]
    exact h
  · rwa [he]
  · rwa [he]

theorem drainWindow_decoderRuns {cap written : Nat} (h : DecoderRuns s) : DecoderRuns (drainWindow cap written s).2 := h

theorem decodeOutput_decoderInRange {cap : Arg} (hs : DecoderRuns s) (h : decodeOutput cap s = .next t) :
    DecoderInRange t := by
  rcases decodeOutput_cases cap s with ⟨-, he⟩ | ⟨r, hr, he⟩ <;> cases he.symm.trans h
  have hdec : (endRun r).dec = r.state.dec := by
    rcases endRun_cases r with ⟨-, hq⟩ | ⟨-, hq⟩ <;> rw [hq]
    rfl
  rw [decoderInRange_iff, outputEnd_dec, hdec, outputEnd_err]
  intro _
  rcases decodeLoop_end (P := DecoderRuns) (fun _ _ => drainWindow_decoderRuns) (fun _ => decStep_decoderRuns) _ (drainWindow_decoderRuns hs) hr with hu | ⟨u, hu, hlast⟩
  · exact ⟨hu.1, fun _ => hu.2⟩
  · have hrule := decStep_raised_iff.mp hlast
    refine ⟨hrule.effect.2.inRange hu.1, fun herr => absurd herr ?_⟩
    rcases endRun_cases r with ⟨hq, -⟩ | ⟨hne, hq⟩
    · exact absurd hq hrule.error.1
    · rw [hq]
      exact hne

/-- The invariant reads MODE, ERR and the decoder only. -/
theorem DecoderInRange.congr (h : DecoderInRange s) (hmode : t.mode = s.mode) (herr : t.err = s.err)
    (hdec : t.dec = s.dec) : DecoderInRange t := by
  rw [decoderInRange_iff] at h ⊢
  rwa [hmode, herr, hdec]

theorem DecoderInRange.raiseError (h : DecoderInRange s) {e : Err} (he : e ≠ .none) :
    DecoderInRange (Machine.raiseError e s) := by
  rw [decoderInRange_iff] at h ⊢
  exact fun hm => ⟨(h hm).1, fun herr => absurd herr he⟩

theorem encodeOutput_decoderInRange {cap : Arg} (hs : DecoderInRange s) (h : encodeOutput cap s = .next t) :
    DecoderInRange t := by
  refine encodeOutput_induction DecoderInRange (fun cap written s hs => hs.congr rfl rfl rfl) (fun s t hs h => ?_)
    (fun n s hs => hs.congr rfl rfl rfl) hs h
  have hf := encStep_frame h
  exact hs.congr hf.mode hf.err hf.dec

theorem CommandEffect.decoderInRange {i : Instr} (h : CommandEffect s i t) (hs : DecoderInRange s) :
    DecoderInRange t := by
  cases h with
  | nop => exact hs
  | reset => exact (decoderInRange_iff _).mpr fun hm => Mode.noConfusion hm
  | refused => exact hs
  | illegal => exact hs.raiseError (by decide)
  | openEncoder => exact (decoderInRange_iff _).mpr fun hm => Mode.noConfusion hm
  | openDecoder => exact (decoderInRange_iff _).mpr fun _ => ⟨decoderReset_inRange, fun _ => decoderReset_entryToCome⟩
  | setInput =>
    unfold setInputEffect
    split
    · exact hs.raiseError (by decide)
    · exact hs.congr rfl rfl rfl
  | produceEncode _ _ _ h => exact encodeOutput_decoderInRange hs h
  | produceDecode herr hmode _ h =>
    obtain ⟨hd, hentry⟩ := (decoderInRange_iff s).mp hs hmode
    exact decodeOutput_decoderInRange ⟨hd, hentry herr⟩ h
  | flush _ _ h => exact encodeOutput_decoderInRange (s := beginFlush s) (hs.congr rfl rfl rfl) h
  | finish _ _ h =>
    exact encodeOutput_decoderInRange (hs.congr (beginFinish_mode s) (beginFinish_err s) (beginFinish_dec s)) h
  | endOfInput herr hmode =>
    obtain ⟨hd, hentry⟩ := (decoderInRange_iff s).mp hs hmode
    exact (decoderInRange_iff _).mpr fun _ => ⟨{ hd with }, hentry⟩
  | buildTree => exact hs.congr rfl rfl rfl

/-- Settles O60: the rules of the decoder's states keep the ranges while no error is recorded, and a raise leaves at most
the entry index at its bound. -/
theorem stepKeepsTheDecoder : Obligations.StepKeepsTheDecoder := by
  unfold Obligations.StepKeepsTheDecoder
  intro s t hs h
  exact step_keeps (P := DecoderInRange) (fun _ => hs.congr rfl rfl rfl) (fun _ _ hu => hu.congr rfl rfl rfl)
    (fun _ _ _ _ hu => hu.congr rfl rfl rfl) (fun u i _ hu he => he.decoderInRange hu)
    (fun _ hu => hu.raiseError (by decide)) hs h

end
end Sys2Proof.Machine
end

section
/-! PROOF. Every step keeps the encoder's positions, tally, frequencies and history true to each other (R20, R107 to R112):
the block under construction is described by one predicate, which a pulled byte, a tallied symbol and a new block keep. -/

namespace Sys2Proof.Machine

/-! ### The block under construction -/

/-- R20, R107, R109 on the encoder alone, but for the bounds on the lookahead and the tally's length, which hold between
steps only. -/
structure Encoder.BlockInRange (storeOnly : Bool) (bound : Nat) (e : Encoder) : Prop where
  pos : e.encPos ≤ e.hist.length
  block : e.blockStart ≤ e.encPos
  syms : ∀ y ∈ e.tally, y.inRange bound
  litFreq : e.litFreq.length = 286
  distFreq : e.distFreq.length = 30
  stored : storeOnly = true → e.encPos = e.blockStart + e.tally.length
  history : expandSymbols (e.hist.take e.blockStart) e.tally = e.hist.take e.encPos
  litCounts : ∀ x, x < 286 → at0 e.litFreq x = (e.tally.map Sym.litSymbol).count x + (if x = 256 then 1 else 0)
  distCounts : ∀ x, x < 30 → at0 e.distFreq x = (e.tally.map Sym.distSymbol).count (some x)
  litBound : ∀ n ∈ e.litFreq, n ≤ e.tally.length + 1
  distBound : ∀ n ∈ e.distFreq, n ≤ e.tally.length

/-- R20's invariant on the encoder alone. -/
structure Encoder.InRange (storeOnly : Bool) (bound cap : Nat) (e : Encoder) : Prop where
  counts : e.BlockInRange storeOnly bound
  ahead : lookahead e ≤ minLookahead
  tally : e.tally.length < cap

theorem encoderInRange_iff (s : State) :
    EncoderInRange s ↔ (s.mode = .encode → s.enc.InRange s.storeOnly (maxDist s.wbits) s.params.tallyCap) := by
  constructor
  · exact fun h hm => ⟨⟨h.pos hm, h.block hm, h.syms hm, h.litFreq hm, h.distFreq hm, h.stored hm, h.history hm,
      h.litCounts hm, h.distCounts hm, h.litBound hm, h.distBound hm⟩, h.ahead hm, h.tally hm⟩
  · exact fun h => ⟨fun hm => (h hm).counts.pos, fun hm => (h hm).counts.block, fun hm => (h hm).ahead,
      fun hm => (h hm).tally, fun hm => (h hm).counts.syms, fun hm => (h hm).counts.litFreq,
      fun hm => (h hm).counts.distFreq, fun hm => (h hm).counts.stored, fun hm => (h hm).counts.history,
      fun hm => (h hm).counts.litCounts, fun hm => (h hm).counts.distCounts, fun hm => (h hm).counts.litBound,
      fun hm => (h hm).counts.distBound⟩

/-- R60: every length has a symbol below 286. -/
theorem lenCode_lt (len : Nat) : lenCode len < 286 := by
  by_cases h : len = 258
  · subst h
    decide
  · have := lenCode_le h
    omega

theorem at0_replicate_zero (n i : Nat) : at0 (List.replicate n 0) i = 0 := by
  rw [at0, List.getD_eq_getElem?_getD, List.getElem?_replicate]
  split <;> rfl

/-- One symbol more counts once. -/
theorem count_map_append_singleton {β : Type} [BEq β] [LawfulBEq β] (f : Sym → β) (ys : List Sym) (y : Sym) (x : β) :
    ((ys ++ [y]).map f).count x = (ys.map f).count x + if f y == x then 1 else 0 := by
  rw [List.map_append, List.count_append, List.map_singleton, List.count_singleton]

section
variable {storeOnly : Bool} {bound cap : Nat} {e : Encoder}

/-- R107: a new block starts where the history has been encoded to, with nothing tallied. -/
theorem initBlock_blockInRange (hpos : e.encPos ≤ e.hist.length) : (initBlock e).BlockInRange storeOnly bound where
  pos := hpos
  block := Nat.le_refl _
  syms := by simp
  litFreq := initialLitFreq_length
  distFreq := List.length_replicate
  stored := fun _ => rfl
  history := rfl
  litCounts x _ := by simpa using at0_initialLitFreq x
  distCounts x hx := by
    rw [initBlock_distFreq, at0_replicate_zero]
    rfl
  litBound := initialLitFreq_le
  distBound n hn := (List.eq_of_mem_replicate hn).le

theorem initBlock_inRange (hpos : e.encPos ≤ e.hist.length) (hahead : lookahead e ≤ minLookahead) (hcap : 0 < cap) :
    (initBlock e).InRange storeOnly bound cap := ⟨initBlock_blockInRange hpos, hahead, hcap⟩

/-- The invariant does not read the phase. -/
theorem Encoder.InRange.setPhase (h : e.InRange storeOnly bound cap) (x : Phase) :
    Encoder.InRange storeOnly bound cap { e with phase := x } :=
  { h with counts := { h.counts with } }

/-- R108: a pulled byte lengthens the lookahead. -/
theorem Encoder.InRange.pull (h : e.InRange storeOnly bound cap) (b : Byte) (hlt : lookahead e < minLookahead) :
    Encoder.InRange storeOnly bound cap { e with hist := e.hist ++ [b] } where
  counts :=
    { h.counts with
      pos := by
        rw [List.length_append]
        exact Nat.le_add_right_of_le h.counts.pos
      history := by
        dsimp only
        rw [List.take_append_of_le_length h.counts.pos, List.take_append_of_le_length (h.counts.block.trans h.counts.pos)]
        exact h.counts.history }
  ahead := by
    have := h.counts.pos
    rw [lookahead] at hlt ⊢
    simp only [List.length_append, List.length_singleton]
    omega
  tally := h.tally

/-- R109: a literal tallied stands for the next byte of the lookahead. -/
theorem Encoder.BlockInRange.tallyLiteral (h : e.BlockInRange storeOnly bound) (hla : 0 < lookahead e) :
    (tallySymbol none e).BlockInRange storeOnly bound where
  pos := by
    rw [lookahead] at hla
    dsimp only [tallySymbol]
    omega
  block := Nat.le_succ_of_le h.block
  syms y hy := by
    rcases List.mem_append.mp hy with hy | hy
    · exact h.syms y hy
    · cases List.mem_singleton.mp hy
      trivial
  litFreq := by rw [tallySymbol, addAt_length, h.litFreq]
  distFreq := h.distFreq
  stored hs := by
    have := h.stored hs
    simp only [tallySymbol, List.length_append, List.length_singleton]
    omega
  history := by
    have hlt : e.encPos < e.hist.length := by
      rw [lookahead] at hla
      omega
    rw [tallySymbol, expandSymbols_append, h.history, List.getD_eq_getElem _ _ hlt]
    exact List.take_concat_get' _ _ hlt
  litCounts x hx := by
    have hb : (e.hist.getD e.encPos 0#8).toNat < e.litFreq.length := by
      rw [h.litFreq]
      omega
    simp only [tallySymbol, at0_addAt hb, h.litCounts x hx, count_map_append_singleton, Sym.litSymbol, beq_iff_eq,
      eq_comm (b := x)]
    exact Nat.add_right_comm ..
  distCounts x hx := by
    simp [tallySymbol, h.distCounts x hx, Sym.distSymbol]
  litBound := by
    simp only [tallySymbol, List.length_append, List.length_singleton]
    exact addAt_le h.litBound _ 1
  distBound n hn := by
    have := h.distBound n hn
    simp only [tallySymbol, List.length_append, List.length_singleton]
    omega

/-- R109: a true match tallied stands for the bytes it covers. -/
theorem Encoder.BlockInRange.tallyMatch {len dist : Nat} (h : e.BlockInRange false bound)
    (hsym : (Sym.backRef len dist).inRange bound) (hla : len ≤ lookahead e) (hdist : dist ≤ e.encPos)
    (hmatch : ∀ i, i < len → e.hist.getD (e.encPos - dist + i) 0#8 = e.hist.getD (e.encPos + i) 0#8) :
    (tallySymbol (some (len, dist)) e).BlockInRange false bound where
  pos := by
    have := h.pos
    rw [lookahead] at hla
    dsimp only [tallySymbol]
    omega
  block := Nat.le_add_right_of_le h.block
  syms y hy := by
    rcases List.mem_append.mp hy with hy | hy
    · exact h.syms y hy
    · cases List.mem_singleton.mp hy
      exact hsym
  litFreq := by rw [tallySymbol, addAt_length, h.litFreq]
  distFreq := by rw [tallySymbol, addAt_length, h.distFreq]
  stored hs := Bool.noConfusion hs
  history := by
    have hle : e.encPos + len ≤ e.hist.length := by
      have := h.pos
      rw [lookahead] at hla
      omega
    rw [tallySymbol, expandSymbols_append, h.history]
    exact copyBack_take hsym.2.2.1 len e.encPos hdist hle hmatch
  litCounts x hx := by
    have hb : lenCode len < e.litFreq.length := by
      rw [h.litFreq]
      exact lenCode_lt len
    simp only [tallySymbol, at0_addAt hb, h.litCounts x hx, count_map_append_singleton, Sym.litSymbol, beq_iff_eq,
      eq_comm (b := x)]
    exact Nat.add_right_comm ..
  distCounts x hx := by
    have hb : distCode dist < e.distFreq.length := by
      rw [h.distFreq]
      exact Nat.lt_succ_of_le (distCode_le dist)
    simp only [tallySymbol, at0_addAt hb, h.distCounts x hx, count_map_append_singleton, Sym.distSymbol, Option.some_beq_some, beq_iff_eq,
      eq_comm (b := x)]
  litBound := by
    simp only [tallySymbol, List.length_append, List.length_singleton]
    exact addAt_le h.litBound _ 1
  distBound := by
    simp only [tallySymbol, List.length_append, List.length_singleton]
    exact addAt_le h.distBound _ 1

/-- A symbol tallied shortens the lookahead and lengthens the tally by one. -/
theorem tallySymbol_lookahead_le (m : Option (Nat × Nat)) (e : Encoder) : lookahead (tallySymbol m e) ≤ lookahead e := by
  cases m with
  | none => exact Nat.sub_le_sub_left (Nat.le_succ _) _
  | some m => exact Nat.sub_le_sub_left (Nat.le_add_right ..) _

theorem tallySymbol_tally_length (m : Option (Nat × Nat)) (e : Encoder) :
    (tallySymbol m e).tally.length = e.tally.length + 1 := by
  cases m <;> exact List.length_append

end

/-! ### The encoder's steps -/

section
variable {s t : State}

/-- R100, R109: the match asked for at `enc_pos` is a true prior occurrence in range, and none in STORE_ONLY mode. -/
theorem matchAt_some {len dist : Nat} (h : matchAt s = some (len, dist)) :
    s.storeOnly = false ∧ (Sym.backRef len dist).inRange (maxDist s.wbits) ∧ len ≤ lookahead s.enc ∧
      dist ≤ s.enc.encPos ∧
      ∀ i, i < len → s.enc.hist.getD (s.enc.encPos - dist + i) 0#8 = s.enc.hist.getD (s.enc.encPos + i) 0#8 := by
  unfold matchAt at h
  split at h
  · cases h
  · rename_i hstore
    obtain ⟨hmin, hmax, hone, hpos, hbound, hmatch⟩ := (everyMatchIsAdmissible ..).1 _ _ h
    exact ⟨Bool.eq_false_iff.mpr hstore, ⟨hmin, hmax.trans (Nat.min_le_left ..), hone, hbound⟩,
      hmax.trans (Nat.min_le_right ..), hpos, hmatch⟩

/-- R109: the symbol tallied keeps the block under construction in range. -/
theorem tallySymbol_blockInRange (h : s.enc.BlockInRange s.storeOnly (maxDist s.wbits)) (hla : 0 < lookahead s.enc) :
    (tallySymbol (matchAt s) s.enc).BlockInRange s.storeOnly (maxDist s.wbits) := by
  cases hm : matchAt s with
  | none => exact h.tallyLiteral hla
  | some m =>
    obtain ⟨hstore, hsym, hlen, hdist, hmatch⟩ := matchAt_some (len := m.1) (dist := m.2) hm
    rw [hstore] at h ⊢
    exact h.tallyMatch hsym hlen hdist hmatch

/-- The encoder's invariant in the state's own mode, window size and TALLY_CAP. -/
def EncoderOpen (s : State) : Prop := s.enc.InRange s.storeOnly (maxDist s.wbits) s.params.tallyCap

theorem emitBlock_encoderOpen (last : Bool) (hpos : s.enc.encPos ≤ s.enc.hist.length)
    (hahead : lookahead s.enc ≤ minLookahead) (hcap : 0 < s.params.tallyCap) : EncoderOpen (emitBlock last s) :=
  initBlock_inRange hpos hahead hcap

theorem tallyStep_encoderOpen (h : EncoderOpen s) (hla : 0 < lookahead s.enc) : EncoderOpen (tallyStep s) := by
  have hblock := tallySymbol_blockInRange h.counts hla
  have hahead := (tallySymbol_lookahead_le (matchAt s) s.enc).trans h.ahead
  unfold tallyStep
  dsimp only
  split
  · exact emitBlock_encoderOpen _ hblock.pos hahead (Nat.zero_lt_of_lt h.tally)
  · rename_i hne
    refine ⟨hblock, hahead, Nat.lt_of_le_of_ne ?_ hne⟩
    rw [tallySymbol_tally_length]
    exact h.tally

theorem encStep_encoderOpen (h : EncoderOpen s) (hstep : encStep s = some t) : EncoderOpen t := by
  have hcap : 0 < s.params.tallyCap := Nat.zero_lt_of_lt h.tally
  rcases encStep_cases hstep with ⟨hlt, -, rfl⟩ | ⟨hla, -, rfl⟩ | ⟨-, -, -, rfl⟩ | ⟨-, -, -, rfl⟩
  · exact h.pull _ hlt
  · exact tallyStep_encoderOpen h hla
  · unfold flushComplete
    dsimp only
    split
    · exact Encoder.InRange.setPhase (emitBlock_encoderOpen false h.counts.pos h.ahead hcap) _
    · exact h.setPhase _
  · exact Encoder.InRange.setPhase (emitBlock_encoderOpen true h.counts.pos h.ahead hcap) _

theorem encodeOutput_encoderOpen {cap : Arg} (hs : EncoderOpen s) (h : encodeOutput cap s = .next t) : EncoderOpen t :=
  encodeOutput_induction EncoderOpen (fun _ _ _ hs => hs) (fun _ _ => encStep_encoderOpen) (fun _ _ hs => hs) hs h

/-- The invariant reads MODE, STORE_ONLY, WBITS, TALLY_CAP and the encoder only. -/
theorem EncoderInRange.congr (h : EncoderInRange s) (hmode : t.mode = s.mode) (hstore : t.storeOnly = s.storeOnly)
    (hwbits : t.wbits = s.wbits) (hparams : t.params = s.params) (henc : t.enc = s.enc) : EncoderInRange t := by
  rw [encoderInRange_iff] at h ⊢
  rwa [hmode, hstore, hwbits, hparams, henc]

/-- The decoder touches none of what the encoder's invariant reads. -/
theorem DecoderFrame.encoderInRange (hf : DecoderFrame s t) (h : EncoderInRange s) : EncoderInRange t := by
  refine h.congr ?_ ?_ ?_ ?_ ?_ <;> rw [hf.1]

theorem decodeOutput_encoderInRange {cap : Arg} (hs : EncoderInRange s) (h : decodeOutput cap s = .next t) :
    EncoderInRange t :=
  decodeOutput_induction EncoderInRange (fun _ _ _ hs => hs.congr rfl rfl rfl rfl rfl)
    (fun s hs => (decStep_frame s).encoderInRange hs) (fun _ _ hs => hs.congr rfl rfl rfl rfl rfl)
    (fun _ _ hs => hs.congr rfl rfl rfl rfl rfl) hs h

theorem encoderInRange_of_mode_ne (h : s.mode ≠ .encode) : EncoderInRange s :=
  (encoderInRange_iff s).mpr fun hm => absurd hm h

theorem EncoderOpen.encoderInRange (h : EncoderOpen s) : EncoderInRange s := (encoderInRange_iff s).mpr fun _ => h

/-- FINISH's first assignment keeps the invariant. -/
theorem beginFinish_encoderOpen (h : EncoderOpen s) : EncoderOpen (beginFinish s) := by
  unfold beginFinish
  split
  · exact h
  · exact Encoder.InRange.setPhase h _

theorem CommandEffect.encoderInRange {i : Instr} (hparams : paramsLegal s.params = true) (h : CommandEffect s i t)
    (hs : EncoderInRange s) : EncoderInRange t := by
  cases h with
  | nop => exact hs
  | reset => exact encoderInRange_of_mode_ne Mode.noConfusion
  | refused => exact hs
  | illegal => exact hs.congr rfl rfl rfl rfl rfl
  | openEncoder =>
    have hcap : 0 < s.params.tallyCap := by
      simp only [paramsLegal, Bool.and_eq_true, decide_eq_true_eq] at hparams
      omega
    exact EncoderOpen.encoderInRange (initBlock_inRange (Nat.le_refl 0) (Nat.zero_le _) hcap)
  | openDecoder => exact encoderInRange_of_mode_ne Mode.noConfusion
  | setInput =>
    unfold setInputEffect
    split <;> exact hs.congr rfl rfl rfl rfl rfl
  | produceEncode _ hmode _ h =>
    exact (encodeOutput_encoderOpen ((encoderInRange_iff s).mp hs hmode) h).encoderInRange
  | produceDecode _ _ _ h => exact decodeOutput_encoderInRange hs h
  | flush _ hl h =>
    have hopen := (encoderInRange_iff s).mp hs hl.1
    exact (encodeOutput_encoderOpen (s := beginFlush s) (hopen.setPhase _) h).encoderInRange
  | finish _ hl h =>
    exact (encodeOutput_encoderOpen (beginFinish_encoderOpen ((encoderInRange_iff s).mp hs hl.1)) h).encoderInRange
  | endOfInput => exact hs.congr rfl rfl rfl rfl rfl
  | buildTree => exact hs.congr rfl rfl rfl rfl rfl

/-- Settles O59: a pulled byte, a tallied symbol and a new block keep the block under construction true to the history; no
other rule touches the encoder. -/
theorem stepKeepsTheEncoder : Obligations.StepKeepsTheEncoder := by
  unfold Obligations.StepKeepsTheEncoder
  intro s t hs h
  exact step_keeps (P := EncoderInRange) (fun _ => hs.congr rfl rfl rfl rfl rfl) (fun _ _ hu => hu.congr rfl rfl rfl rfl rfl)
    (fun _ _ _ _ hu => hu.congr rfl rfl rfl rfl rfl) (fun u i hp hu he => he.encoderInRange hp hu)
    (fun _ hu => hu.congr rfl rfl rfl rfl rfl) hs h

end
end Sys2Proof.Machine
end

section
/-! SUPPORT. What each part of BuildTree leaves of the build's working state (R85 to R93), so that the proofs about the build
follow one array at a time. -/

namespace Sys2Proof.Machine

/-! ### The heap's own operations -/

/-- The heap's order is restored in the heap array alone (R88). -/
def HeapFrame (b c : TreeBuild) : Prop := c = { b with heap := c.heap }

theorem HeapFrame.refl (b : TreeBuild) : HeapFrame b b := rfl

theorem HeapFrame.trans {b c d : TreeBuild} (h : HeapFrame b c) (h' : HeapFrame c d) : HeapFrame b d := by
  unfold HeapFrame at *
  rw [h', h]

theorem downHeapLoop_frame (fuel v k j : Nat) (b : TreeBuild) : HeapFrame b (downHeapLoop fuel v k j b) := by
  induction fuel generalizing k j b with
  | zero => rfl
  | succ fuel ih =>
    rw [downHeapLoop]
    split
    · generalize (if j < b.heapLen ∧ smaller b (at0 b.heap (j + 1)) (at0 b.heap j) = true then j + 1 else j) = child
      dsimp only
      split
      · rfl
      · exact HeapFrame.trans (c := { b with heap := b.heap.set k (at0 b.heap child) }) rfl (ih ..)
    · rfl

theorem downHeap_frame (k : Nat) (b : TreeBuild) : HeapFrame b (downHeap k b) := downHeapLoop_frame ..

theorem heapify_frame (k : Nat) (b : TreeBuild) : HeapFrame b (heapify k b) := by
  induction k generalizing b with
  | zero => exact .refl b
  | succ k ih => exact (downHeap_frame (k + 1) b).trans (ih _)

/-! ### The seeding of the heap -/

/-- Seeding and forcing leave the lengths, the parents, the histogram and the recorded nodes alone (R85, R86). -/
def SeedFrame (b c : TreeBuild) : Prop :=
  c = { b with freq := c.freq, depth := c.depth, heap := c.heap, heapLen := c.heapLen, maxCode := c.maxCode,
               optLen := c.optLen, staticLen := c.staticLen }

theorem SeedFrame.refl (b : TreeBuild) : SeedFrame b b := rfl

theorem SeedFrame.trans {b c d : TreeBuild} (h : SeedFrame b c) (h' : SeedFrame c d) : SeedFrame b d := by
  unfold SeedFrame at *
  rw [h', h]

theorem seedSymbol_frame (b : TreeBuild) (s : Nat) : SeedFrame b (seedSymbol b s) := by
  unfold seedSymbol
  split <;> rfl

theorem foldl_seedSymbol_frame (xs : List Nat) (b : TreeBuild) : SeedFrame b (xs.foldl seedSymbol b) := by
  induction xs generalizing b with
  | nil => exact .refl b
  | cons x xs ih => exact (seedSymbol_frame b x).trans (ih _)

theorem forceSymbols_frame (alpha : Alphabet) (b : TreeBuild) : SeedFrame b (forceSymbols alpha b) := by
  have hforce : ∀ b : TreeBuild, SeedFrame b (if b.heapLen < 2 then forceSymbol alpha b else b) := by
    intro b
    split <;> rfl
  exact (hforce b).trans (hforce _)

/-! ### The merges -/

/-- The merges leave the lengths, the histogram, the costs and `max_code` alone (R90). -/
def MergeFrame (b c : TreeBuild) : Prop :=
  c = { b with freq := c.freq, depth := c.depth, dad := c.dad, heap := c.heap, heapLen := c.heapLen, heapMax := c.heapMax }

theorem MergeFrame.refl (b : TreeBuild) : MergeFrame b b := rfl

theorem MergeFrame.trans {b c d : TreeBuild} (h : MergeFrame b c) (h' : MergeFrame c d) : MergeFrame b d := by
  unfold MergeFrame at *
  rw [h', h]

theorem HeapFrame.mergeFrame {b c : TreeBuild} (h : HeapFrame b c) : MergeFrame b c := by
  unfold HeapFrame at h
  rw [h]
  rfl

theorem popHeap_frame (b : TreeBuild) : MergeFrame b (popHeap b) :=
  MergeFrame.trans (c := { b with heap := b.heap.set 1 (at0 b.heap b.heapLen), heapLen := b.heapLen - 1 }) rfl
    (downHeap_frame 1 _).mergeFrame

theorem joinNodes_frame (node x y : Nat) (b : TreeBuild) : MergeFrame b (joinNodes node x y b) :=
  MergeFrame.trans
    (c := { b with
            freq := b.freq.set node (at0 b.freq x + at0 b.freq y)
            depth := b.depth.set node (max (at0 b.depth x) (at0 b.depth y) + 1)
            dad := (b.dad.set x node).set y node
            heap := b.heap.set 1 node }) rfl (downHeap_frame 1 _).mergeFrame

theorem recordNode_frame (x : Nat) (b : TreeBuild) : MergeFrame b (recordNode x b) := rfl

theorem mergeStep_frame (node : Nat) (b : TreeBuild) : MergeFrame b (mergeStep node b) :=
  (popHeap_frame b).trans (((recordNode_frame _ _).trans (recordNode_frame _ _)).trans (joinNodes_frame ..))

theorem mergeLoop_frame (fuel node : Nat) (b : TreeBuild) : MergeFrame b (mergeLoop fuel node b) := by
  induction fuel generalizing node b with
  | zero => exact .refl b
  | succ fuel ih =>
    rw [mergeLoop]
    split
    · exact mergeStep_frame node b
    · exact (mergeStep_frame node b).trans (ih ..)

theorem mergeAll_frame (alpha : Alphabet) (b : TreeBuild) : MergeFrame b (mergeAll alpha b) :=
  (mergeLoop_frame ..).trans (recordNode_frame ..)

/-! ### The lengths -/

/-- The walk and the correction leave the tree and `max_code` alone (R91 to R93). -/
def LengthFrame (b c : TreeBuild) : Prop :=
  c = { b with len := c.len, blCount := c.blCount, overflow := c.overflow, optLen := c.optLen, staticLen := c.staticLen }

theorem LengthFrame.refl (b : TreeBuild) : LengthFrame b b := rfl

theorem LengthFrame.trans {b c d : TreeBuild} (h : LengthFrame b c) (h' : LengthFrame c d) : LengthFrame b d := by
  unfold LengthFrame at *
  rw [h', h]

/-- What every element of a list keeps, the fold over the list keeps. -/
theorem LengthFrame.foldl {β : Type} {f : TreeBuild → β → TreeBuild} (hf : ∀ b x, LengthFrame b (f b x)) (xs : List β)
    (b : TreeBuild) : LengthFrame b (xs.foldl f b) := by
  induction xs generalizing b with
  | nil => exact .refl b
  | cons x xs ih => exact (hf b x).trans (ih _)

theorem lengthStep_frame (alpha : Alphabet) (b : TreeBuild) (h : Nat) : LengthFrame b (lengthStep alpha b h) := by
  unfold lengthStep
  dsimp only
  split <;> split <;> rfl

theorem genLengths_frame (alpha : Alphabet) (b : TreeBuild) : LengthFrame b (genLengths alpha b) :=
  LengthFrame.trans (c := { b with blCount := List.replicate 16 0, overflow := 0, len := b.len.set (at0 b.heap b.heapMax) 0 })
    rfl (LengthFrame.foldl (lengthStep_frame alpha) _ _)

theorem reassign_frame (b : TreeBuild) (mb : Nat × Nat) : LengthFrame b (reassign b mb) := by
  unfold reassign
  dsimp only
  split <;> rfl

theorem correctOverflow_frame (alpha : Alphabet) (b : TreeBuild) : LengthFrame b (correctOverflow alpha b) := by
  unfold correctOverflow
  split
  · exact LengthFrame.trans (c := { b with blCount := correctLoop alpha.maxLen b.overflow b.overflow b.blCount }) rfl
      (LengthFrame.foldl reassign_frame _ _)
  · exact .refl b

/-! ### `max_code` -/

/-- R84: the build up to the heap of the symbols that take part. -/
def seedBuild (f : List Nat) (alpha : Alphabet) (optIn staticIn : Word) : TreeBuild :=
  forceSymbols alpha (seedHeap alpha.size (startBuild f alpha optIn staticIn))

/-- R84: the build up to the tree. -/
def mergeBuild (f : List Nat) (alpha : Alphabet) (optIn staticIn : Word) : TreeBuild :=
  let b := seedBuild f alpha optIn staticIn
  mergeAll alpha (heapify (b.heapLen / 2) b)

/-- R84: the build up to the final lengths. -/
def lengthBuild (f : List Nat) (alpha : Alphabet) (optIn staticIn : Word) : TreeBuild :=
  correctOverflow alpha (genLengths alpha (mergeBuild f alpha optIn staticIn))

theorem seedBuild_frame (f : List Nat) (alpha : Alphabet) (optIn staticIn : Word) :
    SeedFrame (startBuild f alpha optIn staticIn) (seedBuild f alpha optIn staticIn) :=
  (foldl_seedSymbol_frame ..).trans (forceSymbols_frame ..)

/-- R84: the results are read off the last of these. -/
theorem buildTree_eq (f : List Nat) (alpha : Alphabet) (optIn staticIn : Word) :
    buildTree f alpha optIn staticIn =
      let b := lengthBuild f alpha optIn staticIn
      { table := { len := b.len.take alpha.size, code := genCodes (b.len.take alpha.size) b.blCount }
        maxCode := b.maxCode.toNat, blCount := b.blCount, optLen := b.optLen, staticLen := b.staticLen } := rfl

theorem mergeBuild_frame (f : List Nat) (alpha : Alphabet) (optIn staticIn : Word) :
    MergeFrame (seedBuild f alpha optIn staticIn) (mergeBuild f alpha optIn staticIn) :=
  (heapify_frame ..).mergeFrame.trans (mergeAll_frame ..)

theorem lengthBuild_frame (f : List Nat) (alpha : Alphabet) (optIn staticIn : Word) :
    LengthFrame (mergeBuild f alpha optIn staticIn) (lengthBuild f alpha optIn staticIn) :=
  (genLengths_frame ..).trans (correctOverflow_frame ..)

/-- After the heap is seeded, nothing changes `max_code`. -/
theorem buildTree_maxCode (f : List Nat) (alpha : Alphabet) (optIn staticIn : Word) :
    (buildTree f alpha optIn staticIn).maxCode = (seedBuild f alpha optIn staticIn).maxCode.toNat := by
  rw [buildTree_eq]
  dsimp only
  rw [lengthBuild_frame, mergeBuild_frame]

theorem foldl_seedSymbol_maxCode_lt {n : Nat} {xs : List Nat} (hxs : ∀ x ∈ xs, x < n) {b : TreeBuild}
    (h : b.maxCode < n) : (xs.foldl seedSymbol b).maxCode < n := by
  induction xs generalizing b with
  | nil => exact h
  | cons x xs ih =>
    refine ih (fun y hy => hxs y (List.mem_cons_of_mem x hy)) ?_
    unfold seedSymbol
    split
    · exact Int.ofNat_lt.mpr (hxs x List.mem_cons_self)
    · exact h

theorem forceSymbol_maxCode_lt {n : Nat} (hn : 2 < n) (alpha : Alphabet) {b : TreeBuild} (h : b.maxCode < n) :
    (forceSymbol alpha b).maxCode < n := by
  unfold forceSymbol
  dsimp only
  split <;> omega

theorem Alphabet.two_lt_size (alpha : Alphabet) : 2 < alpha.size := by cases alpha <;> decide

theorem Alphabet.size_le (alpha : Alphabet) : alpha.size ≤ 286 := by cases alpha <;> decide

theorem seedBuild_maxCode_lt (f : List Nat) (alpha : Alphabet) (optIn staticIn : Word) :
    (seedBuild f alpha optIn staticIn).maxCode < alpha.size := by
  have hseed : (seedHeap alpha.size (startBuild f alpha optIn staticIn)).maxCode < alpha.size :=
    foldl_seedSymbol_maxCode_lt (fun x hx => List.mem_range.mp hx) (by dsimp only [startBuild]; omega)
  have hforce : ∀ b : TreeBuild, b.maxCode < alpha.size →
      (if b.heapLen < 2 then forceSymbol alpha b else b).maxCode < alpha.size := by
    intro b hb
    split
    · exact forceSymbol_maxCode_lt alpha.two_lt_size alpha hb
    · exact hb
  exact hforce _ (hforce _ hseed)

/-- R84: `max_code` is a symbol of the alphabet. -/
theorem buildTree_maxCode_lt (f : List Nat) (alpha : Alphabet) (optIn staticIn : Word) :
    (buildTree f alpha optIn staticIn).maxCode < alpha.size := by
  have := seedBuild_maxCode_lt f alpha optIn staticIn
  have := alpha.two_lt_size
  rw [buildTree_maxCode]
  omega

end Sys2Proof.Machine
end

section
/-! PROOF. The bits of a block in each of its three encodings (R54 to R58, R63, R64, R118 to R122): every part of the block
extends the bits of a writer in range by its own. -/

namespace Sys2Proof.Machine

/-! ### Writers that extend writers -/

/-- The writer w' is in range and holds the bits of w, then the given ones. -/
structure BitWriter.Extends (bits : List Bool) (w w' : BitWriter) : Prop where
  eq : writerBits w' = writerBits w ++ bits
  inRange : w'.InRange

theorem BitWriter.Extends.trans {xs ys : List Bool} {u v w : BitWriter} (h : u.Extends xs v) (h' : v.Extends ys w) :
    u.Extends (xs ++ ys) w := ⟨by rw [h'.eq, h.eq, List.append_assoc], h'.inRange⟩

theorem BitWriter.Extends.refl {w : BitWriter} (h : w.InRange) : w.Extends [] w := ⟨(List.append_nil _).symm, h⟩

theorem putBits_extends {w : BitWriter} (h : w.InRange) (v n : Nat) : w.Extends (bitsOf n v) (putBits v n w) := by
  obtain ⟨heq, hin⟩ := putBits_spec n v h
  exact ⟨heq, hin⟩

theorem putCode_extends {w : BitWriter} (h : w.InRange) (t : CodeTable) (s : Nat) : w.Extends (codeBits t s) (putCode t s w) :=
  putBits_extends h _ _

/-- A fold of extensions extends by their bits in order. -/
theorem foldl_extends {β : Type} {f : BitWriter → β → BitWriter} {g : β → List Bool}
    (hf : ∀ (w : BitWriter) (x : β), w.InRange → w.Extends (g x) (f w x)) (xs : List β) {w : BitWriter} (h : w.InRange) :
    w.Extends (xs.flatMap g) (xs.foldl f w) := by
  induction xs generalizing w with
  | nil => exact .refl h
  | cons x xs ih =>
    have hx := hf w x h
    exact hx.trans (ih hx.inRange)

/-! ### The parts of a block -/

/-- R54: the header's three bits. -/
theorem putHeader_extends {w : BitWriter} (h : w.InRange) (last : Bool) {btype : Nat} (ht : btype < 4) :
    w.Extends [last, btype % 2 == 1, btype / 2 % 2 == 1] (putHeader last btype w) := by
  have hbits : bitsOf 3 (last.toNat + 2 * btype) = [last, btype % 2 == 1, btype / 2 % 2 == 1] := by
    interval_cases btype <;> cases last <;> rfl
  exact hbits ▸ putBits_extends h _ 3

/-- R122, R63: one tallied symbol. -/
theorem putSymbol_extends (lt dt : CodeTable) (w : BitWriter) (y : Sym) (h : w.InRange) :
    w.Extends (symbolBits (codeBits lt) (codeBits dt) y) (putSymbol lt dt w y) := by
  cases y with
  | lit b => exact putCode_extends h lt _
  | backRef len dist =>
    have hcode := putCode_extends h lt (lenCode len)
    have hlen := hcode.trans (putBits_extends hcode.inRange (len - lenBaseOf (lenCode len)) (lenExtraOf (lenCode len)))
    have hdist := hlen.trans (putCode_extends hlen.inRange dt (distCode dist))
    exact hdist.trans (putBits_extends hdist.inRange _ _)

/-- R122: the compressed data. -/
theorem compress_extends (lt dt : CodeTable) (tally : List Sym) {w : BitWriter} (h : w.InRange) :
    w.Extends (compressedBits (codeBits lt) (codeBits dt) tally) (compress lt dt tally w) := by
  have hsyms := foldl_extends (putSymbol_extends lt dt) tally h
  exact hsyms.trans (putCode_extends hsyms.inRange lt 256)

/-- R121: the code-length symbols of one tree. -/
theorem sendTree_extends (lens : List Nat) (maxCode : Nat) (bt : CodeTable) {w : BitWriter} (h : w.InRange) :
    w.Extends (clItemBits bt (clItems lens maxCode)) (sendTree lens maxCode bt w) := by
  refine foldl_extends (fun w it h => ?_) _ h
  have hcode := putCode_extends h bt it.sym
  exact hcode.trans (putBits_extends hcode.inRange it.extra it.extraBits)

/-- R120: the code-length code lengths. -/
theorem putClLens_extends (lens : List Nat) (maxBlIndex : Nat) {w : BitWriter} (h : w.InRange) :
    w.Extends ((blOrder.take (maxBlIndex + 1)).flatMap fun x => bitsOf 3 (at0 lens x)) (putClLens lens maxBlIndex w) :=
  foldl_extends (fun _ x h => putBits_extends h (at0 lens x) 3) _ h

/-! ### The static codes (R64, R98) -/

/-- R64: the static literal/length codes, symbol by symbol. -/
theorem codeBits_staticLitCode {s : Nat} (hs : s < 286) : codeBits staticLitCode s = staticLitBits s := by
  have hall : (List.range 286).map (codeBits staticLitCode) = (List.range 286).map staticLitBits := by decide +kernel
  exact List.map_inj_left.mp hall s (List.mem_range.mpr hs)

/-- R64: the static distance codes, symbol by symbol. -/
theorem codeBits_staticDistCode {c : Nat} (hc : c < 30) : codeBits staticDistCode c = staticDistBits c := by
  have hall : (List.range 30).map (codeBits staticDistCode) = (List.range 30).map staticDistBits := by decide +kernel
  exact List.map_inj_left.mp hall c (List.mem_range.mpr hc)

/-- Every tallied symbol is written in the symbols that have a static code. -/
theorem symbolBits_static (y : Sym) :
    symbolBits (codeBits staticLitCode) (codeBits staticDistCode) y = symbolBits staticLitBits staticDistBits y := by
  cases y with
  | lit b => exact codeBits_staticLitCode (b.isLt.trans (by decide))
  | backRef len dist =>
    simp only [symbolBits, codeBits_staticLitCode (lenCode_lt len), codeBits_staticDistCode (Nat.lt_succ_of_le (distCode_le dist))]

theorem compressedBits_static (tally : List Sym) :
    compressedBits (codeBits staticLitCode) (codeBits staticDistCode) tally =
      compressedBits staticLitBits staticDistBits tally := by
  have hmap : symbolBits (codeBits staticLitCode) (codeBits staticDistCode) = symbolBits staticLitBits staticDistBits :=
    funext symbolBits_static
  rw [compressedBits, hmap, codeBits_staticLitCode (by decide)]
  rfl

/-! ### Stored blocks (R55, R118) -/

/-- The writer's count follows from how many bits it holds. -/
theorem BitWriter.Extends.count {w w' : BitWriter} {bits : List Bool} (h : w.Extends bits w') :
    w'.bwCount = (w.bwCount + bits.length) % 8 := by
  have hlen : ∀ u : BitWriter, (writerBits u).length = 8 * u.pending.length + u.bwCount := by
    intro u
    simp [writerBits, byteBits, Nat.mul_comm, List.length_flatMap, bitsOf_length]
  have heq := congrArg List.length h.eq
  rw [List.length_append, hlen, hlen] at heq
  have := h.inRange.count
  omega

theorem alignWriter_extends {w : BitWriter} (h : w.InRange) :
    w.Extends (List.replicate ((8 - w.bwCount) % 8) false) (alignWriter w) := by
  obtain ⟨heq, hcount, hacc⟩ := alignWriter_spec h
  exact ⟨heq, by rw [hcount]; decide, by rw [hcount, hacc]; decide⟩

/-- R74: bytes put on a byte boundary follow the bits held. -/
theorem putByteList_extends {w : BitWriter} (h : w.InRange) (hcount : w.bwCount = 0) (bytes : List Byte) :
    w.Extends (byteBits bytes) (putByteList bytes w) :=
  ⟨by simp [writerBits, hcount], h.count, h.acc⟩

/-- R32, R55: LEN and NLEN, byte by byte. -/
theorem storedHeader_eq {n : Nat} (h : n ≤ 65535) :
    storedHeader n = [BitVec.ofNat 8 n, BitVec.ofNat 8 (n / 256), BitVec.ofNat 8 (65535 - n),
      BitVec.ofNat 8 ((65535 - n) / 256)] := by
  have hlen : (BitVec.ofNat 16 n).toNat = n := by
    rw [BitVec.toNat_ofNat]
    exact Nat.mod_eq_of_lt (Nat.lt_succ_of_le h)
  have hnot : (~~~ BitVec.ofNat 16 n).toNat = 65535 - n := by
    rw [BitVec.toNat_not, hlen]
  simp only [storedHeader, hlen, hnot, leBytes, List.cons_append, List.nil_append]

theorem storedBlockBytes_eq (first : Byte) {raw : List Byte} (h : raw.length ≤ 65535) :
    storedBlockBytes first raw = first :: (storedHeader raw.length ++ raw) := by
  rw [storedHeader_eq h]
  rfl

theorem blockBytes_length {e : Encoder} (hpos : e.encPos ≤ e.hist.length) :
    (blockBytes e).length = e.encPos - e.blockStart := by
  rw [blockBytes, List.length_take, List.length_drop]
  omega

/-- R118: a stored block's bits, whatever its bytes. -/
theorem writeStored_extends {w : BitWriter} (h : w.InRange) (last : Bool) (e : Encoder) :
    w.Extends ([last, false, false] ++ List.replicate ((16 - (w.bwCount + 3)) % 8) false ++
      byteBits (storedHeader (e.encPos - e.blockStart)) ++ byteBits (blockBytes e)) (writeStored last e w) := by
  have hheader : w.Extends [last, false, false] (putHeader last 0 w) :=
    putHeader_extends h last (btype := 0) (by decide)
  have halign := alignWriter_extends hheader.inRange
  have hpad : (8 - (putHeader last 0 w).bwCount) % 8 = (16 - (w.bwCount + 3)) % 8 := by
    have := hheader.count
    have := h.count
    simp only [List.length_cons, List.length_nil] at *
    omega
  rw [hpad] at halign
  have hzero := (alignWriter_spec hheader.inRange).2.1
  have hlen := (hheader.trans halign).trans
    (putByteList_extends halign.inRange hzero (storedHeader (e.encPos - e.blockStart)))
  exact hlen.trans (putByteList_extends hlen.inRange hzero _)

/-- R119: a static block's bits. -/
theorem writeStatic_extends {w : BitWriter} (h : w.InRange) (last : Bool) (tally : List Sym) :
    w.Extends ([last, true, false] ++ compressedBits staticLitBits staticDistBits tally) (writeStatic last tally w) := by
  have hheader : w.Extends [last, true, false] (putHeader last 1 w) :=
    putHeader_extends h last (btype := 1) (by decide)
  rw [← compressedBits_static]
  exact hheader.trans (compress_extends staticLitCode staticDistCode tally hheader.inRange)

/-- R120: a dynamic block's bits. -/
theorem writeDynamic_extends {w : BitWriter} (h : w.InRange) (last : Bool) (t : BlockTrees) (tally : List Sym) :
    w.Extends ([last, false, true] ++ bitsOf 5 (t.lt.maxCode - 256) ++ bitsOf 5 t.dt.maxCode ++
      bitsOf 4 (t.maxBlIndex - 3) ++ (blOrder.take (t.maxBlIndex + 1)).flatMap (fun x => bitsOf 3 (at0 t.bt.table.len x)) ++
      clItemBits t.bt.table (clItems t.lt.table.len t.lt.maxCode) ++
      clItemBits t.bt.table (clItems t.dt.table.len t.dt.maxCode) ++
      compressedBits (codeBits t.lt.table) (codeBits t.dt.table) tally) (writeDynamic last t tally w) := by
  have hheader : w.Extends [last, false, true] (putHeader last 2 w) :=
    putHeader_extends h last (btype := 2) (by decide)
  have hlit := hheader.trans (putBits_extends hheader.inRange (t.lt.maxCode + 1 - 257) 5)
  have hdist := hlit.trans (putBits_extends hlit.inRange (t.dt.maxCode + 1 - 1) 5)
  have hcl := hdist.trans (putBits_extends hdist.inRange (t.maxBlIndex + 1 - 4) 4)
  have hlens := hcl.trans (putClLens_extends t.bt.table.len t.maxBlIndex hcl.inRange)
  have hlt := hlens.trans (sendTree_extends t.lt.table.len t.lt.maxCode t.bt.table hlens.inRange)
  have hdt := hlt.trans (sendTree_extends t.dt.table.len t.dt.maxCode t.bt.table hlt.inRange)
  have hall := hdt.trans (compress_extends t.lt.table t.dt.table tally hdt.inRange)
  have hlitn : t.lt.maxCode + 1 - 257 = t.lt.maxCode - 256 := by omega
  have hcln : t.maxBlIndex + 1 - 4 = t.maxBlIndex - 3 := by omega
  rw [hlitn, hcln, Nat.add_sub_cancel] at hall
  rwa [writeDynamic, hlitn, hcln, Nat.add_sub_cancel]

/-- Settles O39: every part of a block extends the writer by its own bits. -/
theorem blocksAreLaidOutBitByBit : Obligations.BlocksAreLaidOutBitByBit := by
  unfold Obligations.BlocksAreLaidOutBitByBit
  intro last w hcount hacc
  have h : w.InRange := ⟨hcount, hacc⟩
  refine ⟨fun e raw _ hpos hraw hlen => ?_, fun tally => ?_, fun t tally => ?_⟩
  · have hblock : blockBytes e = raw := hraw.symm
    have hsize := blockBytes_length hpos
    rw [hblock] at hsize
    rw [(writeStored_extends h last e).eq, hblock, ← hsize, storedBlockBytes_eq _ hlen, List.drop_one, List.tail_cons,
      byteBits_append]
    simp only [List.append_assoc]
  · rw [(writeStatic_extends h last tally).eq, List.append_assoc]
  · rw [(writeDynamic_extends h last t tally).eq]
    simp only [List.append_assoc, blOrder]

/-! ### The encoding chosen (R116, R117) -/

/-- R116: the least of the three byte lengths, the earlier encoding on a tie. -/
theorem chooseType_stored {optLen staticLen : Word} {storedLen : Nat} (hmax : storedLen ≤ 65535)
    (hstatic : storedLen + 4 ≤ (staticLen.toNat + 3 + 7) / 8) (hopt : storedLen + 4 ≤ (optLen.toNat + 3 + 7) / 8) :
    chooseType optLen staticLen storedLen = .stored := by
  unfold chooseType
  dsimp only
  rw [if_pos]
  refine ⟨?_, hmax⟩
  split
  · exact hstatic
  · exact hopt

/-- R116: without a stored block, the shorter of the two, the static one on a tie. -/
theorem chooseType_coded {optLen staticLen : Word} {storedLen : Nat}
    (h : ¬ (storedLen ≤ 65535 ∧ storedLen + 4 ≤ (staticLen.toNat + 3 + 7) / 8 ∧
      storedLen + 4 ≤ (optLen.toNat + 3 + 7) / 8)) :
    chooseType optLen staticLen storedLen =
      if (staticLen.toNat + 3 + 7) / 8 ≤ (optLen.toNat + 3 + 7) / 8 then .static else .dynamic := by
  unfold chooseType maxStored
  dsimp only
  by_cases hle : (staticLen.toNat + 3 + 7) / 8 ≤ (optLen.toNat + 3 + 7) / 8
  · rw [if_pos hle, if_neg (by omega), if_pos rfl, if_pos hle]
  · rw [if_neg hle, if_neg (by omega), if_neg (by omega), if_neg hle]

theorem writeBlock_storeOnly (last : Bool) (e : Encoder) (w : BitWriter) :
    writeBlock true last e w = writeStored last e w := rfl

/-- A writer with no bits in use and a clear accumulator is its pending bytes. -/
theorem BitWriter.eq_of_aligned {w : BitWriter} (hcount : w.bwCount = 0) (hacc : w.bwAcc = 0#8) :
    w = { bwAcc := 0#8, bwCount := 0, pending := w.pending } := by
  cases w
  cases hcount
  cases hacc
  rfl

/-- R118: on a byte boundary a stored block is its bytes. -/
theorem writeStored_aligned {w : BitWriter} (hcount : w.bwCount = 0) (hacc : w.bwAcc = 0#8) (last : Bool) {e : Encoder}
    (hpos : e.encPos ≤ e.hist.length) (hlen : e.encPos - e.blockStart ≤ 65535) :
    writeStored last e w =
      { bwAcc := 0#8, bwCount := 0
        pending := w.pending ++ storedBlockBytes (if last then 1#8 else 0#8) (blockBytes e) } := by
  have hheader : alignWriter (putHeader last 0 { bwAcc := 0#8, bwCount := 0, pending := w.pending }) =
      { bwAcc := 0#8, bwCount := 0, pending := w.pending ++ [if last then 1#8 else 0#8] } := by
    cases last <;> simp [putHeader, putBits, putBit, alignWriter]
  rw [BitWriter.eq_of_aligned hcount hacc, writeStored, hheader,
    storedBlockBytes_eq _ ((blockBytes_length hpos).trans_le hlen), blockBytes_length hpos]
  simp only [putByteList, List.append_assoc, List.cons_append, List.nil_append]

/-- R107: the encoder of a new block, its frequencies written out. -/
theorem initBlock_eq (e : Encoder) : initBlock e =
    { e with litFreq := List.replicate 256 0 ++ [1] ++ List.replicate 29 0, distFreq := List.replicate 30 0, tally := [],
             blockStart := e.encPos } := by
  rw [initBlock, initialLitFreq_eq]

/-- Settles O54: the rule that chooses the encoding, and the bytes of a stored block on a byte boundary. -/
theorem emitBlockWritesTheChosenEncoding : Obligations.EmitBlockWritesTheChosenEncoding := by
  unfold Obligations.EmitBlockWritesTheChosenEncoding
  refine ⟨?_, ?_⟩
  · rintro last s dynamicLen staticLen storedLen rfl rfl rfl
    refine ⟨writeBlock s.storeOnly last s.enc s.writer, by rw [← initBlock_eq]; rfl, fun h => by rw [h, writeBlock_storeOnly],
      fun h => ⟨fun hmax hstatic hopt => ?_, fun hno => ⟨fun hle => ?_, fun hlt => ?_⟩⟩⟩
    · rw [h, writeBlock, if_neg Bool.false_ne_true]
      dsimp only
      rw [chooseType_stored hmax hstatic hopt]
    · rw [h, writeBlock, if_neg Bool.false_ne_true]
      dsimp only
      rw [chooseType_coded hno, if_pos hle]
    · rw [h, writeBlock, if_neg Bool.false_ne_true]
      dsimp only
      rw [chooseType_coded hno, if_neg (Nat.not_le_of_lt hlt)]
  · intro last s hstore hcount hacc hpos _ hlen
    have hw := writeStored_aligned hcount hacc last hpos hlen
    rw [← initBlock_eq, emitBlock, hstore, writeBlock_storeOnly, hw]
    cases last <;> rfl

end Sys2Proof.Machine
end

section
/-! SUPPORT. What a run of the encoder and a run of the decoder leave alone (R113, R150): the input moves forward, memory
changes in the part of OUT_BUF that the run writes, and every element outside the stream stays as it was. -/

namespace Sys2Proof.Machine

/-! ### Output to OUT_BUF -/

/-- The memories agree outside `OUT_BUF[lo..hi)`. -/
def SameOutside (lo hi : Nat) (m m' : Memory) : Prop :=
  ∀ a, ¬ (outBase + lo ≤ a ∧ a < outBase + hi) → Memory.read m' a = Memory.read m a

theorem SameOutside.refl (lo hi : Nat) (m : Memory) : SameOutside lo hi m m := fun _ _ => rfl

theorem SameOutside.trans {lo mid hi : Nat} {m m' m'' : Memory} (h : SameOutside lo mid m m') (h' : SameOutside mid hi m' m'')
    (hlo : lo ≤ mid) (hhi : mid ≤ hi) : SameOutside lo hi m m'' := fun a ha =>
  (h' a (by omega)).trans (h a (by omega))

theorem writeOut_sameOutside (m : Memory) {written hi : Nat} {bytes : List Byte} (h : bytes.length = hi - written) :
    SameOutside written hi m (writeOut m written bytes) := fun a ha =>
  Memory.read_writeBytes_outside bytes m (outBase + written) a (by omega)

/-! ### The input moves forward -/

/-- `in_pos` does not move back, nor past `in_len`. -/
structure InputForward (s t : State) : Prop where
  len : t.input.inLen = s.input.inLen
  forward : s.input.inPos ≤ t.input.inPos
  bound : s.input.inPos ≤ s.input.inLen → t.input.inPos ≤ s.input.inLen

theorem InputForward.of_eq {s t : State} (h : t.input = s.input) : InputForward s t :=
  ⟨by rw [h], by rw [h], fun hle => by rwa [h]⟩

theorem InputForward.trans {s t u : State} (h : InputForward s t) (h' : InputForward t u) : InputForward s u where
  len := h'.len.trans h.len
  forward := h.forward.trans h'.forward
  bound hle := by
    have := h'.bound (by rw [h.len]; exact h.bound hle)
    rwa [h.len] at this

theorem load_forward (n : Nat) (s : State) : InputForward s (load n s) := by
  obtain ⟨hlen, hfwd, hbound, -⟩ := load_spec n s
  exact ⟨hlen, hfwd, hbound⟩

/-! ### One step of the decoder -/

/-- A rule that changes the window and the decoder only. -/
def KeepsInput (f : Nat → State → StepOut × State) : Prop := ∀ v s, (f v s).2.input = s.input

theorem withBits_forward {n : Nat} {f : Nat → State → StepOut × State} (hf : KeepsInput f) (s : State) :
    InputForward s (withBits n f s).2 := by
  rcases withBits_cases n f s with ⟨-, he⟩ | ⟨-, v, -, he⟩ <;> rw [he]
  · exact load_forward n s
  · exact (load_forward n s).trans (.of_eq (hf v _))

theorem withSym_forward {t : DecTable} {f : Nat → State → StepOut × State} (hf : KeepsInput f) (s : State) :
    InputForward s (withSym t f s).2 := by
  rcases withSym_cases t f s with ⟨-, he⟩ | he | ⟨l, v, -, -, he⟩ <;> rw [he]
  · exact load_forward _ s
  · exact load_forward _ s
  · exact (load_forward _ s).trans (.of_eq (hf v _))

theorem keepsInput_ite {p : Nat → State → Prop} [∀ v s, Decidable (p v s)] {f g : Nat → State → StepOut × State}
    (hf : KeepsInput f) (hg : KeepsInput g) : KeepsInput fun v s => if p v s then f v s else g v s := fun v s => by
  dsimp only
  split
  · exact hf v s
  · exact hg v s

theorem codeLenTable_input (s : State) : (codeLenTable s).2.input = s.input := by
  unfold codeLenTable
  split <;> rfl

theorem buildTables_input (s : State) : (buildTables s).2.input = s.input := by
  unfold buildTables
  split
  · rfl
  · split
    · rfl
    · dsimp only
      split <;> rfl

/-- A step of the decoder reads bits or a symbol, or no input. -/
theorem decStep_forward (s : State) : InputForward s (decStep s).2 := by
  have same : ∀ {o : Nat → State → StepOut}, KeepsInput fun v s => (o v s, s) := fun _ _ => rfl
  unfold decStep
  cases hd : s.dec.decState <;> dsimp only
  case readingBFinal | readingNumCodeLenCodes | haveInitialLength | uncompressedByte1 | uncompressedByte2 |
      uncompressedByte3 => exact withBits_forward (fun _ _ => rfl) s
  case readingBType =>
    exact withBits_forward (keepsInput_ite (fun _ _ => rfl) (keepsInput_ite (fun _ _ => rfl)
      (keepsInput_ite (fun _ _ => rfl) same))) s
  case readingNumLitCodes | readingNumDistCodes | readingTreeCodesExtra | uncompressedByte4 =>
    exact withBits_forward (fun v u => by dsimp only; split <;> rfl) s
  case readingCodeLenCodes =>
    refine withBits_forward (fun v u => ?_) s
    dsimp only
    split
    · exact codeLenTable_input _
    · rfl
  case readingTreeCodes =>
    unfold decReadingTreeCodes
    split
    · exact .of_eq (buildTables_input s)
    · exact withSym_forward (keepsInput_ite (fun _ _ => rfl) (keepsInput_ite same (fun _ _ => rfl))) s
  case decodeTop =>
    unfold decDecodeTop
    split
    · exact .of_eq rfl
    · exact withSym_forward (keepsInput_ite (fun _ _ => rfl) (keepsInput_ite (fun _ _ => rfl)
        (keepsInput_ite (fun _ _ => rfl) same))) s
  case haveFullLength => exact withSym_forward (fun v u => by dsimp only; split <;> rfl) s
  case haveDistCode => exact withBits_forward (fun v u => by dsimp only [copyMatch]; split <;> rfl) s
  case decodingUncompressed =>
    unfold decDecodingUncompressed
    split
    · exact .of_eq rfl
    · split
      · exact .of_eq rfl
      · exact withBits_forward (fun _ _ => rfl) s
  case uncompressedAligning | done => exact .of_eq rfl

/-! ### A run of the decoder -/

/-- What a run of the decoder leaves alone that takes the bytes written to OUT_BUF from `written` to `n`. -/
structure DecoderRun (written n : Nat) (s t : State) : Prop where
  frame : t = { s with mem := t.mem, input := { s.input with inPos := t.input.inPos }, reader := t.reader,
                       window := t.window, dec := t.dec }
  eoi : t.dec.eoi = s.dec.eoi
  input : InputForward s t
  mem : SameOutside written n s.mem t.mem
  le : written ≤ n

theorem DecoderRun.refl (written : Nat) (s : State) : DecoderRun written written s s :=
  ⟨rfl, rfl, .of_eq rfl, .refl _ _ _, Nat.le_refl _⟩

theorem DecoderRun.trans {k m n : Nat} {s t u : State} (h : DecoderRun k m s t) (h' : DecoderRun m n t u) :
    DecoderRun k n s u where
  frame := by rw [h'.frame, h.frame]
  eoi := h'.eoi.trans h.eoi
  input := h.input.trans h'.input
  mem := h.mem.trans h'.mem h.le h'.le
  le := h.le.trans h'.le

theorem decStep_run (written : Nat) (s : State) : DecoderRun written written s (decStep s).2 := by
  obtain ⟨heq, heoi⟩ := decStep_frame s
  have hmem : (decStep s).2.mem = s.mem := by rw [heq]
  refine ⟨?_, heoi, decStep_forward s, by rw [hmem]; exact .refl _ _ _, Nat.le_refl _⟩
  rw [hmem]
  exact heq

theorem oldestBytes_length (w : Nat) (x : Window) (k : Nat) : (oldestBytes w x k).length = k := by
  rw [oldestBytes, List.length_map, List.length_range]

theorem drainWindow_run (cap written : Nat) (s : State) :
    DecoderRun written (drainWindow cap written s).1 s (drainWindow cap written s).2 where
  frame := rfl
  eoi := rfl
  input := .of_eq rfl
  mem := writeOut_sameOutside _ (by rw [oldestBytes_length]; exact (Nat.add_sub_cancel_left ..).symm)
  le := Nat.le_add_right ..

theorem drainWindow_le {cap written : Nat} (h : written ≤ cap) (s : State) : (drainWindow cap written s).1 ≤ cap := by
  dsimp only [drainWindow]
  omega

theorem runSteps_run (written : Nat) {fuel : Nat} {s : State} {r : StepOut × State} (h : runSteps fuel s = some r) :
    DecoderRun written written s r.2 :=
  runSteps_induction (DecoderRun written written s) (fun u hu => hu.trans (decStep_run written u)) _ _ _ (.refl ..) h

theorem decodeLoop_run {cap fuel : Nat} : ∀ {written : Nat} {s : State} {r : RunEnd}, written ≤ cap →
    decodeLoop cap fuel written s = some r → DecoderRun written r.written s r.state ∧ r.written ≤ cap := by
  induction fuel with
  | zero => exact fun _ h => nomatch h
  | succ fuel ih =>
    intro written s r hle h
    rw [decodeLoop] at h
    split at h
    · split at h
      · cases h
      · rename_i hr
        cases h
        exact ⟨runSteps_run written hr, hle⟩
      · rename_i o u _ hr
        have hu := (runSteps_run written hr).trans (drainWindow_run cap written u)
        have hle' := drainWindow_le hle u
        dsimp only at h
        split at h
        · cases h
          exact ⟨hu, hle'⟩
        · obtain ⟨hrun, hcap⟩ := ih hle' h
          exact ⟨hu.trans hrun, hcap⟩
    · cases h
      exact ⟨.refl .., hle⟩

theorem decodeRun_run {cap : Nat} {s : State} {r : RunEnd} (h : decodeRun cap s = some r) :
    DecoderRun 0 r.written s r.state ∧ r.written ≤ cap := by
  obtain ⟨hrun, hle⟩ := decodeLoop_run (drainWindow_le (Nat.zero_le cap) s) h
  exact ⟨(drainWindow_run cap 0 s).trans hrun, hle⟩

/-! ### A run of the encoder -/

theorem tallyStep_input (s : State) : (tallyStep s).input = s.input := by
  unfold tallyStep
  dsimp only
  split <;> rfl

theorem flushComplete_input (s : State) : (flushComplete s).input = s.input := by
  unfold flushComplete
  dsimp only
  split <;> rfl

theorem encStep_forward {s t : State} (h : encStep s = some t) : InputForward s t := by
  rcases encStep_cases h with ⟨-, hne, rfl⟩ | ⟨-, -, rfl⟩ | ⟨-, -, -, rfl⟩ | ⟨-, -, -, rfl⟩
  · exact ⟨rfl, Nat.le_succ _, fun hle => Nat.lt_of_le_of_ne hle hne⟩
  · exact .of_eq (tallyStep_input s)
  · exact .of_eq (flushComplete_input s)
  · exact .of_eq rfl

/-- What a run of the encoder leaves alone that takes the bytes written to OUT_BUF from `written` to `n`. -/
structure EncoderRun (written n : Nat) (s t : State) : Prop where
  frame : t = { s with mem := t.mem, input := { s.input with inPos := t.input.inPos }, writer := t.writer, enc := t.enc }
  input : InputForward s t
  mem : SameOutside written n s.mem t.mem
  le : written ≤ n

theorem EncoderRun.refl (written : Nat) (s : State) : EncoderRun written written s s :=
  ⟨rfl, .of_eq rfl, .refl _ _ _, Nat.le_refl _⟩

theorem EncoderRun.trans {k m n : Nat} {s t u : State} (h : EncoderRun k m s t) (h' : EncoderRun m n t u) :
    EncoderRun k n s u where
  frame := by rw [h'.frame, h.frame]
  input := h.input.trans h'.input
  mem := h.mem.trans h'.mem h.le h'.le
  le := h.le.trans h'.le

theorem encStep_run (written : Nat) {s t : State} (h : encStep s = some t) : EncoderRun written written s t := by
  have heq := encStep_frame h
  have hmem : t.mem = s.mem := by rw [heq]
  refine ⟨?_, encStep_forward h, by rw [hmem]; exact .refl _ _ _, Nat.le_refl _⟩
  rw [hmem]
  exact heq

theorem drainPending_run (cap written : Nat) (s : State) :
    EncoderRun written (drainPending cap written s).1 s (drainPending cap written s).2 where
  frame := rfl
  input := .of_eq rfl
  mem := writeOut_sameOutside _ (by dsimp only [drainPending]; rw [List.length_take]; omega)
  le := Nat.le_add_right ..

theorem drainPending_le {cap written : Nat} (h : written ≤ cap) (s : State) : (drainPending cap written s).1 ≤ cap := by
  dsimp only [drainPending]
  omega

theorem deflateLoop_run {cap fuel : Nat} : ∀ {written n : Nat} {s t : State}, written ≤ cap →
    deflateLoop cap fuel written s = some (n, t) → EncoderRun written n s t ∧ n ≤ cap := by
  induction fuel with
  | zero => exact fun _ h => nomatch h
  | succ fuel ih =>
    intro written n s t hle h
    have hd := drainPending_run cap written s
    have hle' := drainPending_le hle s
    rw [deflateLoop] at h
    split at h
    · cases h
      exact ⟨hd, hle'⟩
    · split at h
      · cases h
        exact ⟨hd, hle'⟩
      · rename_i u hu
        obtain ⟨hrun, hcap⟩ := ih hle' h
        exact ⟨(hd.trans (encStep_run _ hu)).trans hrun, hcap⟩

/-- R113, R158: what an output command of an ENCODE stream leaves, with its RESULT. -/
theorem encodeOutput_run {cap : Arg} {s t : State} (h : encodeOutput cap s = .next t) :
    ∃ n u, n ≤ cap.toNat ∧ EncoderRun 0 n s u ∧ t = outputEnd n u := by
  rcases encodeOutput_cases cap s with ⟨-, he⟩ | ⟨n, u, hr, he⟩ <;> cases he.symm.trans h
  obtain ⟨hrun, hle⟩ := deflateLoop_run (Nat.zero_le _) hr
  exact ⟨n, u, hle, hrun, rfl⟩

/-- R150, R158: what PRODUCE_OUTPUT of a DECODE stream leaves, with its RESULT. -/
theorem decodeOutput_run {cap : Arg} {s t : State} (h : decodeOutput cap s = .next t) :
    ∃ r, decodeRun (byteCount cap) s = some r ∧ r.written ≤ cap.toNat ∧ DecoderRun 0 r.written s r.state ∧
      t = outputEnd r.written (endRun r) := by
  rcases decodeOutput_cases cap s with ⟨-, he⟩ | ⟨r, hr, he⟩ <;> cases he.symm.trans h
  obtain ⟨hrun, hle⟩ := decodeRun_run hr
  exact ⟨r, hr, hle, hrun, rfl⟩

end Sys2Proof.Machine
end

section
/-! PROOF. What BUILD_TREE writes, and where (R162): its three tables are read back from the results of the build, nothing
else changes, and the entries are in range whatever the code built. -/

namespace Sys2Proof.Machine

/-! ### Tables of 16-bit entries -/

theorem Memory.readBytes_writeBytes_part {m : Memory} (h : Memory.wf m = true) (a : Nat) (bs : List Byte) {k n : Nat}
    (hk : k + n ≤ bs.length) : Memory.readBytes (Memory.writeBytes m a bs) (a + k) n = (bs.drop k).take n := by
  refine List.ext_getElem ?_ fun i hi _ => ?_
  · rw [Memory.readBytes, List.length_map, List.length_range, List.length_take, List.length_drop]
    omega
  · rw [Memory.readBytes, List.length_map, List.length_range] at hi
    have hin : k + i < bs.length := by omega
    rw [List.getElem_take, List.getElem_drop]
    simp only [Memory.readBytes, List.getElem_map, List.getElem_range]
    rw [Nat.add_assoc, Memory.read_writeBytes_inside bs m a (k + i) h hin, List.getD_eq_getElem _ _ hin]

theorem Memory.readBytes_writeBytes_outside (m : Memory) (a : Nat) (bs : List Byte) {b n : Nat}
    (h : b + n ≤ a ∨ a + bs.length ≤ b) : Memory.readBytes (Memory.writeBytes m a bs) b n = Memory.readBytes m b n := by
  refine List.map_congr_left fun i hi => ?_
  have hi := List.mem_range.mp hi
  exact Memory.read_writeBytes_outside bs m a (b + i) (by omega)

theorem length_halfBytes (xs : List Nat) : (halfBytes xs).length = 2 * xs.length := by
  rw [halfBytes, List.length_flatMap]
  simp [leBytes, Nat.mul_comm]

/-- Entry i of a table of 16-bit entries is bytes 2i and 2i + 1. -/
theorem take_drop_halfBytes (xs : List Nat) (i : Nat) (hi : i < xs.length) :
    ((halfBytes xs).drop (2 * i)).take 2 = leBytes 2 (at0 xs i) := by
  induction xs generalizing i with
  | nil => exact absurd hi (Nat.not_lt_zero i)
  | cons x xs ih =>
    cases i with
    | zero => rfl
    | succ i => exact ih i (Nat.lt_of_succ_lt_succ hi)

theorem length_padEntries (xs : List Nat) : (padEntries xs).length = 286 := by
  rw [padEntries, List.length_take, List.length_append, List.length_replicate, tabEntries]
  omega

theorem at0_of_length_le {xs : List Nat} {i : Nat} (h : xs.length ≤ i) : at0 xs i = 0 := List.getD_eq_default _ _ h

theorem at0_take {xs : List Nat} {n i : Nat} (h : i < n) : at0 (xs.take n) i = at0 xs i := by
  simp only [at0, List.getD_eq_getElem?_getD, List.getElem?_take_of_lt h]

/-- R162, D41: past the alphabet the entries are 0, as the entries of any list are past its end. -/
theorem at0_padEntries (xs : List Nat) {i : Nat} (hi : i < 286) : at0 (padEntries xs) i = at0 xs i := by
  rw [padEntries, at0_take (by exact hi)]
  rcases Nat.lt_or_ge i xs.length with h | h
  · exact at0_append_left h
  · obtain ⟨j, rfl⟩ := Nat.exists_eq_add_of_le h
    rw [at0_append_right, at0_replicate_zero, at0_of_length_le h]

/-! ### The tables after BUILD_TREE (R23, R162) -/

section
variable {t : TreeResult} {m : Memory}

/-- The bytes of the three tables. -/
def lenTabBytes (t : TreeResult) : List Byte := (padEntries t.table.len).map (BitVec.ofNat 8)
def codeTabBytes (t : TreeResult) : List Byte := halfBytes (padEntries t.table.code)

theorem lenTabBytes_length (t : TreeResult) : (lenTabBytes t).length = 286 := by
  rw [lenTabBytes, List.length_map, length_padEntries]

theorem codeTabBytes_length (t : TreeResult) : (codeTabBytes t).length = 572 := by
  rw [codeTabBytes, length_halfBytes, length_padEntries]

theorem writeTree_eq (t : TreeResult) (m : Memory) : writeTree t m =
    Memory.writeBytes (Memory.writeBytes (Memory.writeBytes m 0x1400 (lenTabBytes t)) 0x1800 (codeTabBytes t)) 0x1C00
      (halfBytes t.blCount) := rfl

theorem writeTree_wf (t : TreeResult) (h : Memory.wf m = true) : Memory.wf (writeTree t m) = true :=
  Memory.writeBytes_wf _ _ (Memory.writeBytes_wf _ _ (Memory.writeBytes_wf _ _ h))

/-- R162: nothing outside the three tables is written. -/
theorem read_writeTree_outside (hbl : t.blCount.length = 16) (m : Memory) {a : Nat}
    (hlen : ¬ (0x1400 ≤ a ∧ a < 0x1400 + 286)) (hcode : ¬ (0x1800 ≤ a ∧ a < 0x1800 + 572))
    (hcount : ¬ (0x1C00 ≤ a ∧ a < 0x1C00 + 32)) : Memory.read (writeTree t m) a = Memory.read m a := by
  rw [writeTree_eq, Memory.read_writeBytes_outside _ _ _ _ (by rwa [length_halfBytes, hbl]),
    Memory.read_writeBytes_outside _ _ _ _ (by rwa [codeTabBytes_length]),
    Memory.read_writeBytes_outside _ _ _ _ (by rwa [lenTabBytes_length])]

/-- LEN_TAB after BUILD_TREE. -/
theorem readBytes_writeTree_len (h : Memory.wf m = true) {k n : Nat} (hk : k + n ≤ 286) :
    Memory.readBytes (writeTree t m) (0x1400 + k) n = ((lenTabBytes t).drop k).take n := by
  rw [writeTree_eq, Memory.readBytes_writeBytes_outside _ _ _ (.inl (by omega)),
    Memory.readBytes_writeBytes_outside _ _ _ (.inl (by omega)),
    Memory.readBytes_writeBytes_part h _ _ (by rwa [lenTabBytes_length])]

/-- CODE_TAB after BUILD_TREE. -/
theorem readBytes_writeTree_code (h : Memory.wf m = true) {k n : Nat} (hk : k + n ≤ 572) :
    Memory.readBytes (writeTree t m) (0x1800 + k) n = ((codeTabBytes t).drop k).take n := by
  rw [writeTree_eq, Memory.readBytes_writeBytes_outside _ _ _ (.inl (by omega)),
    Memory.readBytes_writeBytes_part (Memory.writeBytes_wf _ _ h) _ _ (by rwa [codeTabBytes_length])]

/-- BLCOUNT_TAB after BUILD_TREE. -/
theorem readBytes_writeTree_blcount (h : Memory.wf m = true) (hbl : t.blCount.length = 16) {k n : Nat} (hk : k + n ≤ 32) :
    Memory.readBytes (writeTree t m) (0x1C00 + k) n = ((halfBytes t.blCount).drop k).take n := by
  rw [writeTree_eq, Memory.readBytes_writeBytes_part (Memory.writeBytes_wf _ _ (Memory.writeBytes_wf _ _ h)) _ _
    (by rwa [length_halfBytes, hbl])]

theorem getD_take_one_drop (bs : List Byte) (k : Nat) : ((bs.drop k).take 1).getD 0 0#8 = bs.getD k 0#8 := by
  simp [List.getD_eq_getElem?_getD]

/-- LEN_TAB[i] after BUILD_TREE. -/
theorem read_writeTree_len (h : Memory.wf m = true) {i : Nat} (hi : i < 286) :
    Memory.read (writeTree t m) (0x1400 + i) = BitVec.ofNat 8 (at0 t.table.len i) := by
  have hbyte := Memory.getD_readBytes (writeTree t m) (0x1400 + i) (n := 1) Nat.one_pos
  rw [readBytes_writeTree_len h (by omega), getD_take_one_drop, lenTabBytes] at hbyte
  rw [Nat.add_zero] at hbyte
  rw [← hbyte, ← at0_padEntries _ hi]
  exact List.getD_map _ _ (BitVec.ofNat 8)

/-- CODE_TAB[i] after BUILD_TREE. -/
theorem codeEntry_writeTree (h : Memory.wf m = true) {i : Nat} (hi : i < 286) :
    codeEntry (writeTree t m) i = at0 t.table.code i % 2 ^ 16 := by
  rw [codeEntry, readBytes_writeTree_code h (by omega), codeTabBytes,
    take_drop_halfBytes _ _ (by rwa [length_padEntries]), leValue_leBytes, at0_padEntries _ hi]
  rfl

/-- BLCOUNT_TAB[l] after BUILD_TREE. -/
theorem blcountEntry_writeTree (h : Memory.wf m = true) (hbl : t.blCount.length = 16) {l : Nat} (hl : l < 16) :
    blcountEntry (writeTree t m) l = at0 t.blCount l % 2 ^ 16 := by
  rw [blcountEntry, readBytes_writeTree_blcount h hbl (by omega), take_drop_halfBytes _ _ (by rwa [hbl]), leValue_leBytes]
  rfl

/-- R162: what the tables read as does not depend on what memory held. -/
theorem read_writeTree_table (hbl : t.blCount.length = 16) (h : Memory.wf m = true) {m' : Memory} (h' : Memory.wf m' = true)
    {a : Nat} (ha : (0x1400 ≤ a ∧ a < 0x1400 + 286) ∨ (0x1800 ≤ a ∧ a < 0x1800 + 572) ∨ (0x1C00 ≤ a ∧ a < 0x1C00 + 32)) :
    Memory.read (writeTree t m) a = Memory.read (writeTree t m') a := by
  have hbyte : ∀ m, Memory.read m a = (Memory.readBytes m a 1).getD 0 0#8 := fun m => rfl
  rw [hbyte, hbyte]
  rcases ha with ⟨hlo, hhi⟩ | ⟨hlo, hhi⟩ | ⟨hlo, hhi⟩ <;> obtain ⟨k, rfl⟩ := Nat.exists_eq_add_of_le hlo
  · rw [readBytes_writeTree_len h (by omega), readBytes_writeTree_len h' (by omega)]
  · rw [readBytes_writeTree_code h (by omega), readBytes_writeTree_code h' (by omega)]
  · rw [readBytes_writeTree_blcount h hbl (by omega), readBytes_writeTree_blcount h' hbl (by omega)]

end

/-! ### The sizes and ranges of the results (R23, R94) -/

/-- The lengths and the histogram keep their sizes, and every length is at most the alphabet's maximum. -/
structure LengthsBounded (alpha : Alphabet) (b : TreeBuild) : Prop where
  len : b.len.length = 2 * alpha.size + 1
  blCount : b.blCount.length = 16
  le : ∀ l ∈ b.len, l ≤ alpha.maxLen

theorem LengthsBounded.setLen {alpha : Alphabet} {b : TreeBuild} (h : LengthsBounded alpha b) (i : Nat) {l : Nat}
    (hl : l ≤ alpha.maxLen) : LengthsBounded alpha { b with len := b.len.set i l } where
  len := by rw [List.length_set, h.len]
  blCount := h.blCount
  le := forall_mem_set_le h.le hl i

theorem mergeBuild_lengthsBounded (f : List Nat) (alpha : Alphabet) (optIn staticIn : Word) :
    LengthsBounded alpha (mergeBuild f alpha optIn staticIn) := by
  have hlen : (mergeBuild f alpha optIn staticIn).len = List.replicate (2 * alpha.size + 1) 0 := by
    rw [mergeBuild_frame, seedBuild_frame]
    rfl
  have hbl : (mergeBuild f alpha optIn staticIn).blCount = List.replicate 16 0 := by
    rw [mergeBuild_frame, seedBuild_frame]
    rfl
  refine ⟨by rw [hlen, List.length_replicate], by rw [hbl, List.length_replicate], fun l hl => ?_⟩
  rw [hlen] at hl
  exact (List.eq_of_mem_replicate hl).trans_le (Nat.zero_le _)

theorem lengthStep_lengthsBounded {alpha : Alphabet} {b : TreeBuild} (h : LengthsBounded alpha b) (i : Nat) :
    LengthsBounded alpha (lengthStep alpha b i) := by
  have hset := h.setLen (at0 b.heap i) (Nat.min_le_right (at0 b.len (at0 b.dad (at0 b.heap i)) + 1) alpha.maxLen)
  unfold lengthStep countLeaf
  dsimp only
  split <;> split
  · exact { hset with }
  · exact { hset with blCount := by rw [addAt_length, h.blCount] }
  · exact { hset with }
  · exact { hset with blCount := by rw [addAt_length, h.blCount] }

theorem genLengths_lengthsBounded {alpha : Alphabet} {b : TreeBuild} (h : LengthsBounded alpha b) :
    LengthsBounded alpha (genLengths alpha b) := by
  have hstart := h.setLen (at0 b.heap b.heapMax) (Nat.zero_le alpha.maxLen)
  exact List.foldlRecOn _ _ { hstart with blCount := List.length_replicate } fun _ hc i _ => lengthStep_lengthsBounded hc i

theorem correctLoop_length (maxLen fuel overflow : Nat) (bl : List Nat) :
    (correctLoop maxLen fuel overflow bl).length = bl.length := by
  have honce : ∀ bl : List Nat, (correctOnce maxLen bl).length = bl.length := by
    intro bl
    simp only [correctOnce, addAt, List.length_set]
  induction fuel generalizing overflow bl with
  | zero => rfl
  | succ fuel ih =>
    rw [correctLoop]
    split
    · exact honce bl
    · rw [ih, honce]

theorem mem_lengthsDown {bl : List Nat} {n l : Nat} (h : l ∈ lengthsDown bl n) : 1 ≤ l ∧ l ≤ n := by
  induction n with
  | zero => cases h
  | succ n ih =>
    rcases List.mem_append.mp h with h | h
    · cases List.eq_of_mem_replicate h
      exact ⟨Nat.succ_pos n, Nat.le_refl _⟩
    · exact ⟨(ih h).1, Nat.le_succ_of_le (ih h).2⟩

theorem correctOverflow_lengthsBounded {alpha : Alphabet} {b : TreeBuild} (h : LengthsBounded alpha b) :
    LengthsBounded alpha (correctOverflow alpha b) := by
  unfold correctOverflow
  split
  · refine List.foldlRecOn _ _ { h with blCount := by rw [correctLoop_length, h.blCount] } fun c hc mb hmb => ?_
    have hle := (mem_lengthsDown (List.of_mem_zip hmb).2).2
    unfold reassign
    dsimp only
    split
    · exact { hc.setLen mb.1 hle with }
    · exact hc
  · exact h

theorem lengthBuild_lengthsBounded (f : List Nat) (alpha : Alphabet) (optIn staticIn : Word) :
    LengthsBounded alpha (lengthBuild f alpha optIn staticIn) :=
  correctOverflow_lengthsBounded (genLengths_lengthsBounded (mergeBuild_lengthsBounded ..))

section
variable (f : List Nat) (alpha : Alphabet) (optIn staticIn : Word)

theorem buildTree_blCount_length : (buildTree f alpha optIn staticIn).blCount.length = 16 :=
  (lengthBuild_lengthsBounded f alpha optIn staticIn).blCount

theorem buildTree_len_length : (buildTree f alpha optIn staticIn).table.len.length = alpha.size := by
  have := (lengthBuild_lengthsBounded f alpha optIn staticIn).len
  rw [buildTree_eq]
  dsimp only
  rw [List.length_take]
  omega

/-- R94: a code length is at most the alphabet's maximum. -/
theorem buildTree_len_le : ∀ l ∈ (buildTree f alpha optIn staticIn).table.len, l ≤ alpha.maxLen := fun l hl =>
  (lengthBuild_lengthsBounded f alpha optIn staticIn).le l (List.mem_of_mem_take hl)

end

theorem Alphabet.maxLen_le (alpha : Alphabet) : alpha.maxLen ≤ 15 := by cases alpha <;> decide

theorem revBits_lt (n v : Nat) : revBits n v < 2 ^ n :=
  Nat.lt_pow_two_of_testBit _ fun _ h => testBit_revBits_of_le v h

theorem assignCodes_length (lens next : List Nat) : (assignCodes lens next).length = lens.length := by
  induction lens generalizing next with
  | nil => rfl
  | cons l lens ih =>
    rw [assignCodes]
    split <;> rw [List.length_cons, ih, List.length_cons]

/-- A code has as many bits as its length. -/
theorem assignCodes_lt {b : Nat} {lens next : List Nat} (h : ∀ l ∈ lens, l ≤ b) : ∀ c ∈ assignCodes lens next, c < 2 ^ b := by
  induction lens generalizing next with
  | nil => simp [assignCodes]
  | cons l lens ih =>
    obtain ⟨hl, hlens⟩ := List.forall_mem_cons.mp h
    rw [assignCodes]
    split
    · exact List.forall_mem_cons.mpr ⟨(revBits_lt l _).trans_le (Nat.pow_le_pow_right Nat.two_pos hl), ih hlens⟩
    · exact List.forall_mem_cons.mpr ⟨Nat.two_pow_pos b, ih hlens⟩

/-! ### The command -/

/-- R162: a legal BUILD_TREE that answers a next state has its effect. -/
theorem buildTree_next {s t : State} {alpha : BitVec 2} {a : Alphabet} (herr : s.err = .none) (hmode : s.mode = .idle)
    (ha : alphabetOfField alpha = some a) (h : exec (.buildTree alpha) s = .next t) : t = buildTreeEffect a s := by
  cases (exec_buildTree herr hmode ha).symm.trans h
  rfl

/-- Settles O22: the writes lie in the three tables, whose sizes the build keeps. -/
theorem buildTreeWritesOnlyItsResults : Obligations.BuildTreeWritesOnlyItsResults := by
  unfold Obligations.BuildTreeWritesOnlyItsResults
  intro alpha s herr hmode hne
  obtain ⟨a, ha⟩ := Option.isSome_iff_exists.mp ((alphabetOfField_isSome_iff alpha).mpr hne)
  exact ⟨_, exec_buildTree herr hmode ha, rfl, fun x => read_writeTree_outside (buildTree_blCount_length ..) s.mem⟩

/-- Settles O23: lengths are capped in every step of the build, and a code has as many bits as its length. -/
theorem builtTablesAreInRange : Obligations.BuiltTablesAreInRange := by
  unfold Obligations.BuiltTablesAreInRange
  intro alpha a s t herr hmode hwf ha h
  rw [buildTree_next herr hmode ha h]
  set r := buildTree (frequencies s.mem a.size) a 0#32 0#32 with hr
  have hmem : (buildTreeEffect a s).mem = writeTree r s.mem := rfl
  have hlen : r.table.len.length = a.size := buildTree_len_length ..
  have hle : ∀ l ∈ r.table.len, l ≤ a.maxLen := buildTree_len_le _ _ _ _
  have hcode : r.table.code = genCodes r.table.len r.blCount := rfl
  have hcodelen : r.table.code.length = a.size := by rw [hcode, genCodes, assignCodes_length, hlen]
  have hread : ∀ i, leValue (Memory.readBytes (writeTree r s.mem) (0x1800 + 2 * i) 2) = codeEntry (writeTree r s.mem) i :=
    fun _ => rfl
  simp only [hmem, hread]
  refine ⟨fun i hi hlt => ?_, fun i hlt => ?_⟩
  · rw [read_writeTree_len hwf hlt, codeEntry_writeTree hwf hlt, at0_of_length_le (hlen.trans_le hi),
      at0_of_length_le (hcodelen.trans_le hi)]
    exact ⟨rfl, rfl⟩
  · rw [read_writeTree_len hwf hlt, codeEntry_writeTree hwf hlt, BitVec.toNat_ofNat]
    have hcodes : ∀ c ∈ r.table.code, c ≤ 2 ^ 15 - 1 := fun c hc =>
      Nat.le_pred_of_lt (assignCodes_lt (fun l hl => (hle l hl).trans a.maxLen_le) c hc)
    exact ⟨(Nat.mod_le ..).trans (getD_le hle i),
      (Nat.mod_le ..).trans_lt (Nat.lt_of_le_pred (Nat.two_pow_pos 15) (getD_le hcodes i))⟩

/-- Settles O24: equal frequencies build one result, and the tables read as what is written to them. -/
theorem buildTreeDependsOnFreqTabOnly : Obligations.BuildTreeDependsOnFreqTabOnly := by
  unfold Obligations.BuildTreeDependsOnFreqTabOnly
  intro alpha a s s' t t' herr herr' hmode hmode' hwf hwf' ha hfreq h h'
  have hf : frequencies s.mem a.size = frequencies s'.mem a.size :=
    List.map_congr_left fun i hi => hfreq i (List.mem_range.mp hi)
  rw [buildTree_next herr hmode ha h, buildTree_next herr' hmode' ha h']
  refine ⟨by simp only [buildTreeEffect, hf], fun x hx => ?_⟩
  simp only [buildTreeEffect, hf]
  exact read_writeTree_table (buildTree_blCount_length ..) hwf hwf' hx

end Sys2Proof.Machine
end

section
/-! PROOF. The frames of the commands (R36 to R38, R51 to R53) and the invariants of the input, the configuration, the
registers, the bit writer and the memories (R15, R16, R18, R51, R53): each is kept by every part of a step. -/

namespace Sys2Proof.Machine

/-! ### What each command leaves alone -/

section
variable {s t : State} {i : Instr}

/-- R158: an output command's RESULT aside, it leaves what its run leaves. -/
theorem encodeOutput_eq {cap : Arg} (h : encodeOutput cap s = .next t) :
    t = { s with mem := t.mem, input := { s.input with inPos := t.input.inPos }, writer := t.writer, enc := t.enc,
                 result := t.result } ∧ SameOutside 0 cap.toNat s.mem t.mem := by
  obtain ⟨n, u, hn, hrun, rfl⟩ := encodeOutput_run h
  refine ⟨?_, fun a ha => hrun.mem a (by omega)⟩
  rw [outputEnd, hrun.frame]

theorem decodeOutput_eq {cap : Arg} (h : decodeOutput cap s = .next t) :
    t = { s with mem := t.mem, input := { s.input with inPos := t.input.inPos }, reader := t.reader, window := t.window,
                 dec := t.dec, err := t.err, result := t.result } ∧ SameOutside 0 cap.toNat s.mem t.mem := by
  obtain ⟨r, -, hn, hrun, rfl⟩ := decodeOutput_run h
  rcases endRun_cases r with ⟨-, hq⟩ | ⟨-, hq⟩ <;> rw [hq]
  · refine ⟨?_, fun a ha => hrun.mem a (by omega)⟩
    rw [outputEnd, hrun.frame]
  · refine ⟨?_, fun a ha => hrun.mem a (by omega)⟩
    rw [outputEnd, raiseError, hrun.frame]

theorem beginFinish_mem (s : State) : (beginFinish s).mem = s.mem := by rw [beginFinish_eq]

/-- FLUSH and FINISH begin with an assignment to the phase. -/
theorem encodeOutput_eq_of_enc {cap : Arg} {e : Encoder} (h : encodeOutput cap { s with enc := e } = .next t) :
    t = { s with mem := t.mem, input := { s.input with inPos := t.input.inPos }, writer := t.writer, enc := t.enc,
                 result := t.result } ∧ SameOutside 0 cap.toNat s.mem t.mem :=
  encodeOutput_eq (s := { s with enc := e }) h

/-- No command changes the parameters, the accesses still to come or the datum last read. -/
theorem CommandEffect.host (h : CommandEffect s i t) : t.params = s.params ∧ t.bus = s.bus ∧ t.readData = s.readData := by
  cases h with
  | nop | reset | refused | illegal | openEncoder | openDecoder | endOfInput | buildTree => exact ⟨rfl, rfl, rfl⟩
  | setInput =>
    unfold setInputEffect
    split <;> exact ⟨rfl, rfl, rfl⟩
  | produceEncode _ _ _ h =>
    rw [(encodeOutput_eq h).1]
    exact ⟨rfl, rfl, rfl⟩
  | produceDecode _ _ _ h =>
    rw [(decodeOutput_eq h).1]
    exact ⟨rfl, rfl, rfl⟩
  | flush _ _ h =>
    rw [(encodeOutput_eq_of_enc h).1]
    exact ⟨rfl, rfl, rfl⟩
  | finish _ _ h =>
    rw [beginFinish_eq] at h
    rw [(encodeOutput_eq_of_enc h).1]
    exact ⟨rfl, rfl, rfl⟩

/-- R36 to R38: below OUT_BUF only BUILD_TREE and RESET change memory, and only they the TREE_ registers. -/
theorem CommandEffect.tables (h : CommandEffect s i t) (hreset : ∀ arg, i ≠ .reset arg)
    (hbuild : ∀ al, i ≠ .buildTree al) :
    t.tree = s.tree ∧ ∀ a, a < outBase → Memory.read t.mem a = Memory.read s.mem a := by
  have below : ∀ {n : Nat} {m : Memory}, SameOutside 0 n s.mem m → ∀ a, a < outBase → Memory.read m a = Memory.read s.mem a :=
    fun hm a ha => hm a (by omega)
  cases h with
  | nop | refused | illegal | openEncoder | openDecoder | endOfInput => exact ⟨rfl, fun _ _ => rfl⟩
  | reset arg => exact absurd rfl (hreset arg)
  | setInput =>
    unfold setInputEffect
    split <;> exact ⟨rfl, fun _ _ => rfl⟩
  | produceEncode _ _ _ h =>
    obtain ⟨heq, hmem⟩ := encodeOutput_eq h
    exact ⟨by rw [heq], below hmem⟩
  | produceDecode _ _ _ h =>
    obtain ⟨heq, hmem⟩ := decodeOutput_eq h
    exact ⟨by rw [heq], below hmem⟩
  | flush _ _ h =>
    obtain ⟨heq, hmem⟩ := encodeOutput_eq_of_enc h
    exact ⟨by rw [heq], below hmem⟩
  | finish _ _ h =>
    rw [beginFinish_eq] at h
    obtain ⟨heq, hmem⟩ := encodeOutput_eq_of_enc h
    exact ⟨by rw [heq], below hmem⟩
  | buildTree => exact absurd rfl (hbuild _)

/-- R36, R162: BUILD_TREE changes memory below IN_BUF only. -/
theorem buildTreeEffect_mem_above (a : Alphabet) (s : State) {x : Nat} (hx : inBase ≤ x) :
    Memory.read (buildTreeEffect a s).mem x = Memory.read s.mem x := by
  rw [inBase] at hx
  exact read_writeTree_outside (buildTree_blCount_length ..) s.mem (by omega) (by omega) (by omega)

/-- Settles O49: the runs write OUT_BUF alone, which starts above IN_BUF, and BUILD_TREE its tables alone. -/
theorem commandsLeaveTablesAndInputAlone : Obligations.CommandsLeaveTablesAndInputAlone := by
  unfold Obligations.CommandsLeaveTablesAndInputAlone
  intro i s t hp h
  have he := exec_effect h
  have hin : inBase + s.params.inCap ≤ outBase := by
    simp only [paramsLegal, Bool.and_eq_true, decide_eq_true_eq] at hp
    simp only [inBase, outBase]
    omega
  refine ⟨fun hreset hbuild => ?_, fun hreset a hlo hhi => ?_, he.host⟩
  · obtain ⟨htree, hmem⟩ := he.tables hreset hbuild
    exact ⟨htree, fun a ha => hmem a (ha.trans (by decide))⟩
  · by_cases hbuild : ∃ al, i = .buildTree al
    · obtain ⟨al, rfl⟩ := hbuild
      cases he with
      | refused | illegal => rfl
      | buildTree => exact buildTreeEffect_mem_above _ s hlo
    · exact (he.tables hreset fun al hi => hbuild ⟨al, hi⟩).2 a (by omega)

/-- R52, R15: only CONFIGURE and RESET change the configuration. -/
theorem CommandEffect.configuration (h : CommandEffect s i t) (hreset : ∀ arg, i ≠ .reset arg)
    (hconf : ∀ m st w, i ≠ .configure m st w) : t.mode = s.mode ∧ t.storeOnly = s.storeOnly ∧ t.wbits = s.wbits := by
  cases h with
  | nop | refused | illegal | endOfInput | buildTree => exact ⟨rfl, rfl, rfl⟩
  | reset arg => exact absurd rfl (hreset arg)
  | openEncoder | openDecoder => exact absurd rfl (hconf _ _ _)
  | setInput =>
    unfold setInputEffect
    split <;> exact ⟨rfl, rfl, rfl⟩
  | produceEncode _ _ _ h =>
    rw [(encodeOutput_eq h).1]
    exact ⟨rfl, rfl, rfl⟩
  | produceDecode _ _ _ h =>
    rw [(decodeOutput_eq h).1]
    exact ⟨rfl, rfl, rfl⟩
  | flush _ _ h =>
    rw [(encodeOutput_eq_of_enc h).1]
    exact ⟨rfl, rfl, rfl⟩
  | finish _ _ h =>
    rw [beginFinish_eq] at h
    rw [(encodeOutput_eq_of_enc h).1]
    exact ⟨rfl, rfl, rfl⟩

/-- Settles O50: the frame of each command. -/
theorem onlyTheNamedCommandsWriteTheRegisters : Obligations.OnlyTheNamedCommandsWriteTheRegisters := by
  unfold Obligations.OnlyTheNamedCommandsWriteTheRegisters
  intro i s t hreset h
  have he := exec_effect h
  refine ⟨he.configuration hreset, fun hproduce hflush hfinish => ?_⟩
  cases he with
  | nop | refused | illegal | endOfInput => exact ⟨fun _ => rfl, fun _ _ => rfl⟩
  | reset arg => exact absurd rfl (hreset arg)
  | openEncoder | openDecoder => exact ⟨fun hconf => absurd rfl (hconf _ _ _), fun _ _ => rfl⟩
  | setInput =>
    unfold setInputEffect
    split <;> exact ⟨fun _ => rfl, fun _ _ => rfl⟩
  | produceEncode | produceDecode => exact absurd rfl (hproduce _)
  | flush => exact absurd rfl (hflush _)
  | finish => exact absurd rfl (hfinish _)
  | buildTree => exact ⟨fun _ => rfl, fun x hx => buildTreeEffect_mem_above _ s (Nat.le_trans (by decide) hx)⟩

end

/-! ### What every part of a step keeps -/

/-- The parts a step is made of: the accesses, and the effects of the commands, their runs cut into drains and steps. -/
structure StepInvariant (P : State → Prop) : Prop where
  access : ∀ s bus d, P s → P { s with bus := bus, readData := d }
  store : ∀ s bits addr v, P s → P { s with mem := storeDatum s bits addr v }
  raise : ∀ e s, P s → P (raiseError e s)
  reset : ∀ s, P s → P (resetBlock s)
  openEncoder : ∀ so w s, 9 ≤ w.toNat → P s → P (openEncoder (openStream .encode so w s))
  openDecoder : ∀ w s, 9 ≤ w.toNat → P s → P (openDecoder (openStream .decode false w s))
  setInput : ∀ len s, len ≤ s.params.inCap → P s → P { s with input := { inLen := len, inPos := 0 } }
  setEoi : ∀ s, P s → P { s with dec := { s.dec with eoi := true } }
  setPhase : ∀ x s, P s → P { s with enc := { s.enc with phase := x } }
  buildTree : ∀ a s, P s → P (buildTreeEffect a s)
  drainPending : ∀ cap written s, P s → P (drainPending cap written s).2
  encStep : ∀ s t, P s → encStep s = some t → P t
  drainWindow : ∀ cap written s, P s → P (drainWindow cap written s).2
  decStep : ∀ s, P s → P (decStep s).2
  outputEnd : ∀ n s, P s → P (outputEnd n s)

section
variable {P : State → Prop} {s t : State}

theorem StepInvariant.encodeOutput (hP : StepInvariant P) {cap : Arg} (hs : P s) (h : encodeOutput cap s = .next t) : P t :=
  encodeOutput_induction P hP.drainPending hP.encStep hP.outputEnd hs h

theorem StepInvariant.command (hP : StepInvariant P) {i : Instr} (h : CommandEffect s i t) (hs : P s) : P t := by
  cases h with
  | nop => exact hs
  | reset => exact hP.reset s hs
  | refused => exact hs
  | illegal => exact hP.raise _ s hs
  | openEncoder _ _ hw => exact hP.openEncoder _ _ s hw hs
  | openDecoder _ _ hw => exact hP.openDecoder _ s hw hs
  | setInput =>
    unfold setInputEffect
    split
    · exact hP.raise _ s hs
    · exact hP.setInput _ s (Nat.le_of_not_lt ‹_›) hs
  | produceEncode _ _ _ h => exact hP.encodeOutput hs h
  | produceDecode _ _ _ h =>
    exact decodeOutput_induction P hP.drainWindow hP.decStep hP.raise hP.outputEnd hs h
  | flush _ _ h => exact hP.encodeOutput (hP.setPhase .flushing s hs) h
  | finish _ _ h =>
    refine hP.encodeOutput ?_ h
    unfold beginFinish
    split
    · exact hs
    · exact hP.setPhase .finishing s hs
  | endOfInput => exact hP.setEoi s hs
  | buildTree => exact hP.buildTree _ s hs

theorem StepInvariant.step (hP : StepInvariant P) (hs : P s) (h : step s = .next t) : P t :=
  step_keeps (fun rest => hP.access s rest s.readData hs) (fun u d hu => hP.access u u.bus d hu)
    hP.store (fun _ _ _ hu he => hP.command he hu) (hP.raise .illegalCommand) hs h

/-! ### The invariants -/

theorem InputForward.inputInRange (hf : InputForward s t) (hparams : t.params = s.params) (h : InputInRange s) :
    InputInRange t where
  pos := by
    rw [hf.len]
    exact hf.bound h.pos
  len := by
    rw [hf.len, hparams]
    exact h.len

theorem inputInRange_invariant : StepInvariant InputInRange where
  access _ _ _ h := ⟨h.pos, h.len⟩
  store _ _ _ _ h := ⟨h.pos, h.len⟩
  raise _ _ h := ⟨h.pos, h.len⟩
  reset _ _ := ⟨Nat.le_refl 0, Nat.zero_le _⟩
  openEncoder _ _ _ _ h := ⟨h.pos, h.len⟩
  openDecoder _ _ _ h := ⟨h.pos, h.len⟩
  setInput _ _ hlen _ := ⟨Nat.zero_le _, hlen⟩
  setEoi _ h := ⟨h.pos, h.len⟩
  setPhase _ _ h := ⟨h.pos, h.len⟩
  buildTree _ _ h := ⟨h.pos, h.len⟩
  drainPending _ _ _ h := ⟨h.pos, h.len⟩
  encStep _ t h hstep := (encStep_forward hstep).inputInRange (by rw [encStep_frame hstep]) h
  drainWindow _ _ _ h := ⟨h.pos, h.len⟩
  decStep s h := (decStep_forward s).inputInRange (by rw [(decStep_frame s).1]) h
  outputEnd _ _ h := ⟨h.pos, h.len⟩

theorem StreamConfigured.congr (h : StreamConfigured s) (hmode : t.mode = s.mode) (hstore : t.storeOnly = s.storeOnly)
    (hwbits : t.wbits = s.wbits) : StreamConfigured t where
  idle := by
    rw [hmode, hwbits]
    exact h.idle
  opened := by
    rw [hmode, hwbits]
    exact h.opened
  store := by
    rw [hmode, hstore]
    exact h.store

theorem streamConfigured_invariant : StepInvariant StreamConfigured where
  access _ _ _ h := h.congr rfl rfl rfl
  store _ _ _ _ h := h.congr rfl rfl rfl
  raise _ _ h := h.congr rfl rfl rfl
  reset _ _ := ⟨fun _ => rfl, fun h => absurd rfl h, fun h => Bool.noConfusion h⟩
  openEncoder _ _ _ hw _ := ⟨fun h => Mode.noConfusion h, fun _ => hw, fun _ => rfl⟩
  openDecoder _ _ hw _ := ⟨fun h => Mode.noConfusion h, fun _ => hw, fun h => Bool.noConfusion h⟩
  setInput _ _ _ h := h.congr rfl rfl rfl
  setEoi _ h := h.congr rfl rfl rfl
  setPhase _ _ h := h.congr rfl rfl rfl
  buildTree _ _ h := h.congr rfl rfl rfl
  drainPending _ _ _ h := h.congr rfl rfl rfl
  encStep _ t h hstep := by
    have hf := encStep_frame hstep
    exact h.congr hf.mode (by rw [hf]) hf.wbits
  drainWindow _ _ _ h := h.congr rfl rfl rfl
  decStep s h := by
    have hf := (decStep_frame s).1
    exact h.congr (by rw [hf]) (by rw [hf]) (by rw [hf])
  outputEnd _ _ h := h.congr rfl rfl rfl

/-- R51: RESULT as an output command writes it is clear above bit 24. -/
theorem toNat_resultReg_lt (n : Nat) (d : Bool) : (resultReg n d).toNat < 2 ^ 25 := by
  have hhigh : (0#7 ++ BitVec.ofBool d).toNat <<< 24 < 2 ^ 25 := by cases d <;> decide
  have hlow : (BitVec.ofNat 24 n).toNat < 2 ^ 25 := (BitVec.ofNat 24 n).isLt.trans (by decide)
  rw [resultReg, BitVec.toNat_append]
  exact Nat.or_lt_two_pow hhigh hlow

/-- R162: TREE_MAX_CODE is a symbol. -/
theorem buildTree_maxCode_register (f : List Nat) (alpha : Alphabet) (optIn staticIn : Word) :
    (BitVec.ofNat 32 (buildTree f alpha optIn staticIn).maxCode).toNat = (buildTree f alpha optIn staticIn).maxCode := by
  have := buildTree_maxCode_lt f alpha optIn staticIn
  have := alpha.size_le
  exact Nat.mod_eq_of_lt (by omega)

theorem registersInRange_invariant : StepInvariant RegistersInRange where
  access _ _ _ h := ⟨h.result, h.maxCode⟩
  store _ _ _ _ h := ⟨h.result, h.maxCode⟩
  raise _ _ h := ⟨h.result, h.maxCode⟩
  reset _ _ := ⟨Nat.two_pow_pos _, Nat.two_pow_pos _⟩
  openEncoder _ _ _ _ h := ⟨Nat.two_pow_pos _, h.maxCode⟩
  openDecoder _ _ _ h := ⟨Nat.two_pow_pos _, h.maxCode⟩
  setInput _ _ _ h := ⟨h.result, h.maxCode⟩
  setEoi _ h := ⟨h.result, h.maxCode⟩
  setPhase _ _ h := ⟨h.result, h.maxCode⟩
  buildTree a s h := ⟨h.result, by
    have := buildTree_maxCode_lt (frequencies s.mem a.size) a 0#32 0#32
    have := a.size_le
    rw [buildTreeEffect]
    dsimp only
    rw [buildTree_maxCode_register]
    omega⟩
  drainPending _ _ _ h := ⟨h.result, h.maxCode⟩
  encStep _ t h hstep := by
    rw [encStep_frame hstep]
    exact ⟨h.result, h.maxCode⟩
  drainWindow _ _ _ h := ⟨h.result, h.maxCode⟩
  decStep s h := by
    rw [(decStep_frame s).1]
    exact ⟨h.result, h.maxCode⟩
  outputEnd _ _ h := ⟨toNat_resultReg_lt .., h.maxCode⟩

/-- R118 to R120: a block leaves the writer in range. -/
theorem writeBlock_inRange (storeOnly last : Bool) (e : Encoder) {w : BitWriter} (h : w.InRange) :
    (writeBlock storeOnly last e w).InRange := by
  unfold writeBlock
  split
  · exact (writeStored_extends h last e).inRange
  · dsimp only
    split
    · exact (writeStored_extends h last e).inRange
    · exact (writeStatic_extends h last e.tally).inRange
    · exact (writeDynamic_extends h last _ e.tally).inRange

theorem emitBlock_writer_inRange (last : Bool) (h : s.writer.InRange) : (emitBlock last s).writer.InRange := by
  have hw := writeBlock_inRange s.storeOnly last s.enc h
  unfold emitBlock
  dsimp only
  split
  · exact (alignWriter_extends hw).inRange
  · exact hw

theorem encStep_writer_inRange (h : s.writer.InRange) (hstep : encStep s = some t) : t.writer.InRange := by
  rcases encStep_cases hstep with ⟨-, -, rfl⟩ | ⟨-, -, rfl⟩ | ⟨-, -, -, rfl⟩ | ⟨-, -, -, rfl⟩
  · exact h
  · unfold tallyStep
    dsimp only
    split
    · exact emitBlock_writer_inRange (s := { s with enc := tallySymbol (matchAt s) s.enc }) false h
    · exact h
  · unfold flushComplete
    dsimp only
    split
    · exact emitBlock_writer_inRange false h
    · exact h
  · rw [finishComplete_writer]
    exact emitBlock_writer_inRange true h

theorem writerInRange_invariant : StepInvariant WriterInRange where
  access _ _ _ h := ⟨h.count, h.acc⟩
  store _ _ _ _ h := ⟨h.count, h.acc⟩
  raise _ _ h := ⟨h.count, h.acc⟩
  reset _ _ := ⟨Nat.succ_pos _, Nat.one_pos⟩
  openEncoder _ _ _ _ _ := ⟨Nat.succ_pos _, Nat.one_pos⟩
  openDecoder _ _ _ h := ⟨h.count, h.acc⟩
  setInput _ _ _ h := ⟨h.count, h.acc⟩
  setEoi _ h := ⟨h.count, h.acc⟩
  setPhase _ _ h := ⟨h.count, h.acc⟩
  buildTree _ _ h := ⟨h.count, h.acc⟩
  drainPending _ _ _ h := ⟨h.count, h.acc⟩
  encStep s t h hstep := (writerInRange_iff t).mpr (encStep_writer_inRange ((writerInRange_iff s).mp h) hstep)
  drainWindow _ _ _ h := ⟨h.count, h.acc⟩
  decStep s h := by
    rw [(decStep_frame s).1]
    exact ⟨h.count, h.acc⟩
  outputEnd _ _ h := ⟨h.count, h.acc⟩

theorem storeDatum_wf (bits : Nat) (addr : BitVec 32) (v : Word) (h : Memory.wf s.mem = true) :
    Memory.wf (storeDatum s bits addr v) = true := by
  unfold storeDatum
  split
  · exact h
  · split
    · exact Memory.writeBytes_wf _ _ h
    · exact h

theorem writeLiteral_wf {w : Nat} {x : Window} (b : Byte) (h : Memory.wf x.win = true) :
    Memory.wf (writeLiteral w b x).win = true := Memory.write_wf _ _ h

theorem writeBackReference_wf {w : Nat} (len dist : Nat) : ∀ {x : Window}, Memory.wf x.win = true →
    Memory.wf (writeBackReference w len dist x).win = true := by
  induction len with
  | zero => exact fun h => h
  | succ len ih => exact fun h => ih (writeLiteral_wf _ h)

/-- A step that makes progress writes the window by a literal, by a copy, or not at all. -/
theorem OkRule.window (h : OkRule s t s.dec.decState) :
    t.window = s.window ∨ (∃ b, t.window = writeLiteral (windowSize s.wbits) b s.window) ∨
      ∃ len dist, t.window = writeBackReference (windowSize s.wbits) len dist s.window := by
  cases hstate : s.dec.decState <;> rw [hstate] at h
  case readingBFinal | readingNumCodeLenCodes | haveInitialLength | uncompressedByte1 | uncompressedByte2 |
      uncompressedByte3 =>
    obtain ⟨v, s', -, rfl⟩ := h
    exact .inl rfl
  case readingBType =>
    obtain ⟨v, s', -, ⟨-, rfl⟩ | ⟨-, rfl⟩ | ⟨-, rfl⟩⟩ := h <;> exact .inl rfl
  case readingNumLitCodes | readingNumDistCodes | haveFullLength | uncompressedByte4 =>
    obtain ⟨v, s', -, -, rfl⟩ := h
    exact .inl rfl
  case readingCodeLenCodes =>
    obtain ⟨v, s', lens, -, -, ⟨-, rfl⟩ | ⟨-, table, -, rfl⟩⟩ := h <;> exact .inl rfl
  case readingTreeCodes =>
    by_cases hfull : s.dec.lens.length = s.dec.hlitN + s.dec.hdistN
    · obtain ⟨-, lt, dt, -, -, rfl⟩ := h.1 hfull
      exact .inl rfl
    · obtain ⟨c, s', -, ⟨-, rfl⟩ | ⟨-, -, rfl⟩⟩ := h.2 hfull <;> exact .inl rfl
  case readingTreeCodesExtra =>
    obtain ⟨v, s', n, val, -, -, -, rfl⟩ := h
    exact .inl rfl
  case decodeTop =>
    obtain ⟨-, v, s', -, ⟨-, rfl⟩ | ⟨-, rfl⟩ | ⟨-, -, rfl⟩⟩ := h
    · exact .inr (.inl ⟨_, rfl⟩)
    · exact .inl rfl
    · exact .inl rfl
  case haveDistCode =>
    obtain ⟨v, s', dist, -, -, -, rfl⟩ := h
    exact .inr (.inr ⟨_, _, rfl⟩)
  case uncompressedAligning =>
    cases h
    exact .inl rfl
  case decodingUncompressed =>
    by_cases hrem : s.dec.storedRem = 0
    · cases h.1 hrem
      exact .inl rfl
    · obtain ⟨-, v, s', -, rfl⟩ := h.2 hrem
      exact .inr (.inl ⟨_, rfl⟩)
  case done => exact h.elim

theorem RaiseRule.window {e : Err} (h : RaiseRule s t e s.dec.decState) : t.window = s.window := by
  rw [h.effect.1]
  rfl

theorem decStep_win_wf (h : Memory.wf s.window.win = true) : Memory.wf (Machine.decStep s).2.window.win = true := by
  refine decStep_induction (P := fun t => Memory.wf t.window.win = true) h (fun t ht => ?_) (fun t e ht => ?_) fun n _ => h
  · rcases ht.window with hw | ⟨b, hw⟩ | ⟨len, dist, hw⟩ <;> rw [hw]
    · exact h
    · exact writeLiteral_wf b h
    · exact writeBackReference_wf len dist h
  · rwa [ht.window]

theorem memoryCanonical_invariant : StepInvariant MemoryCanonical where
  access _ _ _ h := ⟨h.mem, h.win⟩
  store _ _ _ _ h := ⟨storeDatum_wf _ _ _ h.mem, h.win⟩
  raise _ _ h := ⟨h.mem, h.win⟩
  reset _ _ := ⟨rfl, rfl⟩
  openEncoder _ _ _ _ h := ⟨h.mem, h.win⟩
  openDecoder _ _ _ h := ⟨h.mem, h.win⟩
  setInput _ _ _ h := ⟨h.mem, h.win⟩
  setEoi _ h := ⟨h.mem, h.win⟩
  setPhase _ _ h := ⟨h.mem, h.win⟩
  buildTree _ _ h := ⟨writeTree_wf _ h.mem, h.win⟩
  drainPending _ _ _ h := ⟨writeOut_wf _ _ h.mem, h.win⟩
  encStep s t h hstep := by
    rw [encStep_frame hstep]
    exact ⟨h.mem, h.win⟩
  drainWindow _ _ _ h := ⟨writeOut_wf _ _ h.mem, h.win⟩
  decStep s h := by
    refine ⟨?_, decStep_win_wf h.win⟩
    rw [(decStep_frame s).1]
    exact h.mem
  outputEnd _ _ h := ⟨h.mem, h.win⟩

end

/-- Settles O55: every part of a step keeps each of the five invariants. -/
theorem stepKeepsInputConfigurationWriterAndMemory : Obligations.StepKeepsInputConfigurationWriterAndMemory := by
  unfold Obligations.StepKeepsInputConfigurationWriterAndMemory
  exact fun s t h => ⟨fun hs => inputInRange_invariant.step hs h, fun hs => streamConfigured_invariant.step hs h,
    fun hs => registersInRange_invariant.step hs h, fun hs => writerInRange_invariant.step hs h,
    fun hs => memoryCanonical_invariant.step hs h⟩

/-- Settles O53: the reset state has no stream open, so the invariants of the streams ask nothing of it; the others are read
off its values. -/
theorem resetMeetsEveryInvariant : Obligations.ResetMeetsEveryInvariant where
  params := by decide
  memory := ⟨rfl, rfl⟩
  input := ⟨Nat.le_refl 0, Nat.zero_le _⟩
  config := ⟨fun _ => rfl, fun h => absurd rfl h, fun h => Bool.noConfusion h⟩
  writer := ⟨by decide, by decide⟩
  reader := (readerInRange_iff _).mpr ⟨emptyReader_inRange, decoderReset_lensInRange⟩
  window := (windowInRange_iff _).mpr ⟨fun _ => rfl, fun h => Mode.noConfusion h⟩
  encoder := encoderInRange_of_mode_ne Mode.noConfusion
  decoder := (decoderInRange_iff _).mpr fun h => Mode.noConfusion h
  regs := ⟨by decide, by decide⟩

end Sys2Proof.Machine
end

section
/-! PROOF. One step of the encoder, action by action (R108 to R112), and how many steps a run can take (R113). -/

namespace Sys2Proof.Machine

section
variable {s t : State}

/-! ### The enabled action (R110) -/

theorem encStep_pull (hla : lookahead s.enc < minLookahead) (hin : s.input.inPos ≠ s.input.inLen) :
    encStep s = some (pullByte s) := by
  have hneed : ¬ needsInput s = true := mt (needsInput_iff s).mp hin
  simp only [encStep, if_pos (And.intro hla hneed)]

theorem encStep_tally (h : minLookahead ≤ lookahead s.enc ∨
      (0 < lookahead s.enc ∧ s.input.inPos = s.input.inLen ∧ (s.enc.phase = .flushing ∨ s.enc.phase = .finishing))) :
    encStep s = some (tallyStep s) := by
  have hpull : ¬ (lookahead s.enc < minLookahead ∧ ¬ needsInput s = true) := by
    rintro ⟨hlt, hneed⟩
    rcases h with hle | ⟨-, hin, -⟩
    · exact absurd hlt (Nat.not_lt_of_le hle)
    · exact hneed ((needsInput_iff s).mpr hin)
  have htally : minLookahead ≤ lookahead s.enc ∨
      (0 < lookahead s.enc ∧ (s.enc.phase = .flushing ∨ s.enc.phase = .finishing) ∧ needsInput s = true) :=
    h.imp_right fun ⟨hpos, hin, hphase⟩ => ⟨hpos, hphase, (needsInput_iff s).mpr hin⟩
  simp only [encStep, if_neg hpull, if_pos htally]

/-- With no lookahead and no input left, the phase alone decides. -/
theorem encStep_exhausted (hla : lookahead s.enc = 0) (hin : s.input.inPos = s.input.inLen) :
    encStep s = if s.enc.phase = .flushing then some (flushComplete s)
      else if s.enc.phase = .finishing then some (finishComplete s) else none := by
  have hneed : needsInput s = true := (needsInput_iff s).mpr hin
  simp [encStep, hla, hneed, minLookahead]

/-- Outside Flushing and Finishing a short lookahead waits for input. -/
theorem encStep_idle (hla : lookahead s.enc < minLookahead) (hin : s.input.inPos = s.input.inLen)
    (hphase : s.enc.phase = .running ∨ s.enc.phase = .finished) : encStep s = none := by
  have hneed : needsInput s = true := (needsInput_iff s).mpr hin
  have hflush : s.enc.phase ≠ .flushing := by rcases hphase with h | h <;> simp [h]
  have hfinish : s.enc.phase ≠ .finishing := by rcases hphase with h | h <;> simp [h]
  simp [encStep, hneed, hflush, hfinish, Nat.not_le_of_lt hla]

theorem tallyStep_eq (s : State) : tallyStep s =
    if s.enc.tally.length + 1 = s.params.tallyCap then emitBlock false { s with enc := tallySymbol (matchAt s) s.enc }
    else { s with enc := tallySymbol (matchAt s) s.enc } := by
  rw [tallyStep]
  dsimp only
  rw [tallySymbol_tally_length]

/-- R109, R100: the finder is asked at `enc_pos`, but in STORE_ONLY mode or with too little ahead. -/
theorem matchAt_eq (s : State) : matchAt s =
    if s.storeOnly = true ∨ min 258 (lookahead s.enc) < 3 then none
    else matchFinder s.params.finder s.enc.hist s.enc.encPos (min 258 (lookahead s.enc))
      (min s.enc.encPos (2 ^ s.wbits.toNat - 262)) := by
  unfold matchAt findMatch maxDist windowSize maxMatch minMatch minLookahead
  by_cases hstore : s.storeOnly = true
  · rw [if_pos hstore, if_pos (.inl hstore)]
  · rw [if_neg hstore]
    by_cases hshort : min 258 (lookahead s.enc) < 3
    · rw [if_pos hshort, if_pos (.inr hshort)]
    · rw [if_neg hshort, if_neg (not_or.mpr ⟨hstore, hshort⟩)]

/-- Settles O45: the guards of the actions exclude each other, and each action is its rule. -/
theorem encoderStepsTakeTheFirstEnabledAction : Obligations.EncoderStepsTakeTheFirstEnabledAction := by
  unfold Obligations.EncoderStepsTakeTheFirstEnabledAction
  refine ⟨fun _ _ _ _ => rfl, ?_⟩
  rintro s la maxlen m rfl rfl hm
  have hmatch : m = matchAt s := hm.trans (matchAt_eq s).symm
  refine ⟨fun hla hin => encStep_pull hla hin, fun h => ⟨tallySymbol m s.enc, ?_, ?_, ?_⟩, fun hla hin hphase => ?_,
    fun hla hin hphase => ⟨_, rfl, ?_⟩, fun hla hin => encStep_idle hla hin⟩
  · rintro rfl
    rfl
  · rintro len dist rfl
    rfl
  · rw [encStep_tally h, tallyStep_eq, hmatch]
  · refine ⟨_, rfl, ?_⟩
    rw [encStep_exhausted hla hin, if_pos hphase, flushComplete]
    simp only [List.length_pos_iff, ne_eq, ite_not]
  · rw [encStep_exhausted hla hin, hphase]
    rfl

/-! ### How long a run can go on (R113) -/

/-- A flush or a finish under way has its completion to come. -/
def Phase.completions : Phase → Nat
  | .flushing | .finishing => 1
  | .running | .finished => 0

theorem Phase.completions_le (x : Phase) : x.completions ≤ 1 := by cases x <;> decide

/-- Two for each input byte left, one for each byte ahead, one for a flush or a finish under way. -/
def encMeasure (s : State) : Nat :=
  2 * (s.input.inLen - s.input.inPos) + lookahead s.enc + s.enc.phase.completions

theorem encMeasure_lt_encBound (s : State) : encMeasure s < encBound s := by
  have := s.enc.phase.completions_le
  unfold encMeasure encBound
  omega

theorem matchAt_pos {len dist : Nat} (h : matchAt s = some (len, dist)) : 0 < len :=
  Nat.lt_of_lt_of_le (by decide) (matchAt_some h).2.1.1

theorem tallySymbol_lookahead_lt (hla : 0 < lookahead s.enc) :
    lookahead (tallySymbol (matchAt s) s.enc) < lookahead s.enc := by
  unfold lookahead at *
  cases hm : matchAt s with
  | none =>
    dsimp only [tallySymbol]
    omega
  | some m =>
    have := matchAt_pos (len := m.1) (dist := m.2) hm
    dsimp only [tallySymbol]
    omega

theorem tallySymbol_phase (m : Option (Nat × Nat)) (e : Encoder) : (tallySymbol m e).phase = e.phase := by
  cases m <;> rfl

theorem tallyStep_lookahead (s : State) : lookahead (tallyStep s).enc = lookahead (tallySymbol (matchAt s) s.enc) := by
  rw [tallyStep_eq]
  split <;> rfl

theorem tallyStep_phase (s : State) : (tallyStep s).enc.phase = s.enc.phase := by
  rw [tallyStep_eq]
  split <;> exact tallySymbol_phase ..

theorem flushComplete_enc (s : State) : (flushComplete s).enc =
    { (if 0 < s.enc.tally.length then initBlock s.enc else s.enc) with phase := .running } := by
  unfold flushComplete
  dsimp only
  split <;> rfl

/-- Every step of the encoder lowers the measure. -/
theorem encStep_measure (hpos : s.input.inPos ≤ s.input.inLen) (h : encStep s = some t) : encMeasure t < encMeasure s := by
  unfold encMeasure
  rcases encStep_cases h with ⟨-, hne, rfl⟩ | ⟨hla, -, rfl⟩ | ⟨hphase, -, -, rfl⟩ | ⟨hphase, -, -, rfl⟩
  · have hla : lookahead (pullByte s).enc ≤ lookahead s.enc + 1 := by
      simp only [lookahead, pullByte_enc, List.length_append, List.length_singleton]
      omega
    simp only [pullByte_input, pullByte_enc] at hla ⊢
    omega
  · have := tallySymbol_lookahead_lt hla
    rw [tallyStep_input, tallyStep_lookahead, tallyStep_phase]
    omega
  · have hla : lookahead (flushComplete s).enc = lookahead s.enc := by
      rw [flushComplete_enc]
      split <;> rfl
    have hrun : (flushComplete s).enc.phase = .running := by rw [flushComplete_enc]
    rw [flushComplete_input, hla, hrun, hphase]
    exact Nat.lt_succ_self _
  · rw [finishComplete_enc, finishComplete_input, hphase]
    exact Nat.lt_succ_self _

/-- A run of the encoder ends within its bound. -/
theorem deflateLoop_ends (cap : Nat) {fuel : Nat} : ∀ {written : Nat} {s : State}, s.input.inPos ≤ s.input.inLen →
    encMeasure s < fuel → ∃ n t, deflateLoop cap fuel written s = some (n, t) := by
  induction fuel with
  | zero => exact fun _ h => absurd h (Nat.not_lt_zero _)
  | succ fuel ih =>
    intro written s hpos hlt
    rw [deflateLoop]
    split
    · exact ⟨_, _, rfl⟩
    · cases hstep : encStep (drainPending cap written s).2 with
      | none => exact ⟨_, _, rfl⟩
      | some t =>
        have hmeasure : encMeasure t < encMeasure s := encStep_measure (s := (drainPending cap written s).2) hpos hstep
        have hfwd := encStep_forward hstep
        exact ih (by rw [hfwd.len]; exact hfwd.bound hpos) (by omega)

theorem encodeOutput_completes {cap : Arg} (hpos : s.input.inPos ≤ s.input.inLen) : ∃ t, encodeOutput cap s = .next t := by
  obtain ⟨n, t, hrun⟩ := deflateLoop_ends (byteCount cap) (written := 0) hpos (encMeasure_lt_encBound s)
  exact ⟨outputEnd n t, by rw [encodeOutput, deflateRun, hrun]⟩

/-! ### The output commands of an ENCODE stream -/

/-- R158 to R161: the three output commands run the encoder, after their assignment to the phase. -/
theorem exec_encodeOutput {i : Instr} {cap : Arg} (herr : s.err = .none) (hmode : s.mode = .encode)
    (hcap : cap.toNat ≤ s.params.outCap)
    (hi : i = .produceOutput cap ∨ (i = .flush cap ∧ (s.enc.phase = .running ∨ s.enc.phase = .flushing)) ∨
      i = .finish cap) :
    ∃ x, exec i s = encodeOutput cap { s with enc := { s.enc with phase := x } } := by
  rcases hi with rfl | ⟨rfl, hphase⟩ | rfl
  · exact ⟨s.enc.phase, exec_produceOutput_encode herr hmode hcap⟩
  · exact ⟨.flushing, exec_flush herr ⟨hmode, hphase, hcap⟩⟩
  · rw [exec_finish herr ⟨hmode, hcap⟩, beginFinish]
    split
    · exact ⟨s.enc.phase, rfl⟩
    · exact ⟨.finishing, rfl⟩

/-- Settles O40: the measure bounds the run, and the run has its frame. -/
theorem encodeOutputCompletes : Obligations.EncodeOutputCompletes := by
  unfold Obligations.EncodeOutputCompletes
  intro i cap s herr hmode hcap hin hi
  obtain ⟨x, hexec⟩ := exec_encodeOutput herr hmode hcap hi
  obtain ⟨t, ht⟩ := encodeOutput_completes (cap := cap) (s := { s with enc := { s.enc with phase := x } }) hin.pos
  obtain ⟨n, u, hn, hrun, rfl⟩ := encodeOutput_run ht
  refine ⟨_, n, hexec.trans ht, hn, rfl, ?_, hrun.input.forward, ?_, hrun.mem⟩
  · rw [outputEnd, hrun.frame]
  · have hlen := hrun.input.len
    rw [outputEnd_input, hlen]
    exact hrun.input.bound hin.pos

end
end Sys2Proof.Machine
end

section
/-! PROOF. What runs of the encoder do (R111 to R113, R158 to R161): the turns of the driver's loop, then a drain in Finished,
an idle flush, a short input, a completed flush or finish, and a stream of one stored block. -/

namespace Sys2Proof.Machine

section
variable {s t : State} {cap written fuel : Nat}

/-! ### The turns of the driver's loop (R113) -/

/-- R75: a drain at the start takes as many pending bytes as CAP allows. -/
theorem drainPending_start (cap : Nat) (s : State) : drainPending cap 0 s =
    (min cap s.writer.pending.length,
      { s with mem := writeOut s.mem 0 (s.writer.pending.take cap)
               writer := { s.writer with pending := s.writer.pending.drop cap } }) := by
  have htake : s.writer.pending.take (min cap s.writer.pending.length) = s.writer.pending.take cap := by
    rw [← List.take_take, List.take_length]
  have hdrop : s.writer.pending.drop (min cap s.writer.pending.length) = s.writer.pending.drop cap := by
    rcases Nat.le_total cap s.writer.pending.length with h | h
    · rw [Nat.min_eq_left h]
    · rw [Nat.min_eq_right h, List.drop_length, List.drop_eq_nil_of_le h]
  rw [drainPending]
  simp only [Nat.sub_zero, Nat.zero_add, htake, hdrop]

theorem drainPending_of_empty (h : s.writer.pending = []) : drainPending cap written s = (written, s) := by
  have hw : ({ s.writer with pending := [] } : BitWriter) = s.writer := by rw [← h]
  rw [drainPending]
  simp only [h, List.length_nil, Nat.min_zero, List.take_nil, List.drop_nil, Nat.add_zero, hw]
  rfl

theorem deflateLoop_step (hpend : s.writer.pending = []) (hphase : s.enc.phase ≠ .finished) (h : encStep s = some t) :
    deflateLoop cap (fuel + 1) written s = deflateLoop cap fuel written t := by
  rw [deflateLoop, drainPending_of_empty hpend]
  simp only [hpend, ne_eq, not_true_eq_false, hphase, or_self, if_false, h]

theorem deflateLoop_idle (hpend : s.writer.pending = []) (h : encStep s = none) :
    deflateLoop cap (fuel + 1) written s = some (written, s) := by
  rw [deflateLoop, drainPending_of_empty hpend]
  simp only [h, ite_self]

theorem deflateLoop_finished (h : s.enc.phase = .finished) :
    deflateLoop cap (fuel + 1) written s = some (drainPending cap written s) := by
  rw [deflateLoop]
  exact if_pos (.inr h)

theorem encodeOutput_of_run {cap : Arg} {n : Nat} (h : deflateLoop cap.toNat (encBound s) 0 s = some (n, t)) :
    encodeOutput cap s = .next (outputEnd n t) := by
  rw [encodeOutput, deflateRun, byteCount, h]

/-! ### FINISH in Finished (R161) -/

/-- Settles O41: the loop's first drain is the whole run. -/
theorem finishInFinishedOnlyDrains : Obligations.FinishInFinishedOnlyDrains := by
  unfold Obligations.FinishInFinishedOnlyDrains
  intro cap s herr hmode hcap hphase
  have hrun := deflateLoop_finished (cap := cap.toNat) (written := 0)
    (fuel := 2 * (s.input.inLen - s.input.inPos) + lookahead s.enc + 1) hphase
  rw [drainPending_start] at hrun
  rw [exec_finish herr ⟨hmode, hcap⟩, beginFinish, if_pos hphase, encodeOutput_of_run hrun, outputEnd]
  have hdone : finished { s with mem := writeOut s.mem 0 (s.writer.pending.take cap.toNat)
                                 writer := { s.writer with pending := s.writer.pending.drop cap.toNat } } =
      decide (s.writer.pending.length ≤ cap.toNat) := by
    rw [Bool.eq_iff_iff, finished_iff, decide_eq_true_iff]
    simp [hmode, hphase]
  rw [hdone]

/-! ### An idle flush and a short input (R110, R111) -/

theorem finished_of_running (h : s.enc.phase = .running) (hmode : s.mode = .encode) : finished s = false := by
  rw [Bool.eq_false_iff, Ne, finished_iff]
  simp [h, hmode]

theorem pullByte_unread (h : s.input.inPos < s.input.inLen) :
    (pullByte s).enc.hist ++ unreadBytes (pullByte s) = s.enc.hist ++ unreadBytes s := by
  rw [unreadBytes_cons h, pullByte_enc, List.append_assoc]
  rfl

/-- In Running with little ahead and left, a run pulls the input and stops. -/
theorem deflateLoop_short (n : Nat) : ∀ {s : State} {fuel : Nat}, s.input.inLen - s.input.inPos = n → n < fuel →
    s.input.inPos ≤ s.input.inLen → s.enc.phase = .running → s.writer.pending = [] → lookahead s.enc + n < 262 →
    s.enc.encPos ≤ s.enc.hist.length →
    deflateLoop cap fuel written s = some (written,
      { s with enc := { s.enc with hist := s.enc.hist ++ unreadBytes s }
               input := { s.input with inPos := s.input.inLen } }) := by
  induction n with
  | zero =>
    intro s fuel hleft hfuel hpos hphase hpend hla _
    have hin : s.input.inPos = s.input.inLen := by omega
    obtain ⟨fuel, rfl⟩ := Nat.exists_eq_succ_of_ne_zero (Nat.ne_of_gt hfuel)
    rw [deflateLoop_idle hpend (encStep_idle hla hin (.inl hphase)), unreadBytes_exhausted hin.ge, List.append_nil, ← hin]
  | succ n ih =>
    intro s fuel hleft hfuel hpos hphase hpend hla hle
    have hlt : s.input.inPos < s.input.inLen := by omega
    obtain ⟨fuel, rfl⟩ := Nat.exists_eq_succ_of_ne_zero (Nat.ne_of_gt (Nat.zero_lt_of_lt hfuel))
    have hstep := encStep_pull (s := s) (by rw [minLookahead]; omega) (Nat.ne_of_lt hlt)
    have hahead : lookahead (pullByte s).enc = lookahead s.enc + 1 := by
      simp only [lookahead, pullByte_enc, List.length_append, List.length_singleton]
      omega
    rw [deflateLoop_step hpend (by simp [hphase]) hstep,
      ih (s := pullByte s) (by rw [pullByte_input]; dsimp only; omega) (Nat.lt_of_succ_lt_succ hfuel) hlt hphase hpend
        (by rw [hahead]; omega) (by rw [pullByte_enc, List.length_append]; exact Nat.le_add_right_of_le hle),
      pullByte_unread hlt]
    rfl

/-- Settles O43: the flush has nothing to do but return to Running; the short input is pulled byte by byte. -/
theorem idleFlushAndShortInputWriteNothing : Obligations.IdleFlushAndShortInputWriteNothing := by
  unfold Obligations.IdleFlushAndShortInputWriteNothing
  refine ⟨fun cap s herr hmode hcap hphase hin henc htally hpend => ?_,
    fun cap s herr hmode hcap hin hphase hpend hla hle => ?_⟩
  · have hla : lookahead s.enc = 0 := by rw [lookahead, henc, Nat.sub_self]
    set u : State := { s with enc := { s.enc with phase := .running } } with hu
    have hflush : flushComplete (beginFlush s) = u := by
      simp [flushComplete, beginFlush, htally, hu]
    have hbound : encBound (beginFlush s) = 0 + 1 + 1 := by
      have hla' : lookahead (beginFlush s).enc = 0 := hla
      have hin' : (beginFlush s).input.inPos = (beginFlush s).input.inLen := hin
      rw [encBound, hla', hin', Nat.sub_self]
    have hstep : encStep (beginFlush s) = some u := by
      rw [encStep_exhausted (by exact hla) (by exact hin), if_pos (by rfl), hflush]
    have hstop : encStep u = none := encStep_idle (by rw [hu]; exact hla.trans_lt (by decide)) hin (.inl rfl)
    have hrun : deflateLoop cap.toNat (encBound (beginFlush s)) 0 (beginFlush s) = some (0, u) := by
      rw [hbound, deflateLoop_step (by exact hpend) (by exact Phase.noConfusion) hstep, deflateLoop_idle (s := u) hpend hstop]
    rw [exec_flush herr ⟨hmode, hphase, hcap⟩, encodeOutput_of_run hrun, outputEnd,
      finished_of_running (s := u) rfl hmode]
    rfl
  · have hrun := deflateLoop_short (cap := cap.toNat) (written := 0) _ (fuel := encBound s) rfl
      (by rw [encBound]; omega) hin.pos hphase hpend hla hle
    rw [exec_produceOutput_encode herr hmode hcap, encodeOutput_of_run hrun, outputEnd,
      finished_of_running (by exact hphase) (by exact hmode)]
    rfl

/-! ### A completed flush and a completed finish (R111, R112) -/

/-- All input has been given to the block, and the block written. -/
structure NothingLeft (inp : Input) (e : Encoder) : Prop where
  input : inp.inPos = inp.inLen
  ahead : lookahead e = 0
  tally : e.tally = []

theorem flushComplete_nothingLeft (hla : lookahead s.enc = 0) (hin : s.input.inPos = s.input.inLen) :
    NothingLeft (flushComplete s).input (flushComplete s).enc where
  input := by rw [flushComplete_input, hin]
  ahead := by
    rw [flushComplete_enc]
    split <;> exact hla
  tally := by
    rw [flushComplete_enc]
    split
    · rfl
    · exact List.length_eq_zero_iff.mp (Nat.eq_zero_of_not_pos ‹_›)

theorem alignWriter_bwCount (w : BitWriter) : (alignWriter w).bwCount = 0 := by
  unfold alignWriter
  split
  · rfl
  · exact Nat.eq_zero_of_not_pos ‹_›

/-- A flush under way, or complete. -/
def FlushRun (s : State) : Prop := s.enc.phase = .flushing ∨ (s.enc.phase = .running ∧ NothingLeft s.input s.enc)

theorem encStep_flushRun (hs : FlushRun s) (h : encStep s = some t) : FlushRun t := by
  rcases hs with hphase | ⟨hphase, hnone⟩
  · rcases encStep_cases h with ⟨-, -, rfl⟩ | ⟨-, -, rfl⟩ | ⟨-, hla, hin, rfl⟩ | ⟨hphase', -, -, rfl⟩
    · exact .inl hphase
    · exact .inl ((tallyStep_phase s).trans hphase)
    · exact .inr ⟨by rw [flushComplete_enc], flushComplete_nothingLeft hla hin⟩
    · exact absurd (hphase.symm.trans hphase') (by decide)
  · rw [encStep_idle (hnone.ahead.trans_lt (by decide)) hnone.input (.inl hphase)] at h
    cases h

/-- A stream that is not Finished, or one that has just got there. -/
def FinishRun (s : State) : Prop :=
  s.enc.phase ≠ .finished ∨ (s.enc.phase = .finished ∧ NothingLeft s.input s.enc ∧ s.writer.bwCount = 0)

theorem encStep_finishRun (hs : FinishRun s) (h : encStep s = some t) : FinishRun t := by
  rcases hs with hphase | ⟨hphase, hnone, -⟩
  · rcases encStep_cases h with ⟨-, -, rfl⟩ | ⟨-, -, rfl⟩ | ⟨-, -, -, rfl⟩ | ⟨-, hla, hin, rfl⟩
    · exact .inl hphase
    · exact .inl (by rwa [tallyStep_phase])
    · exact .inl (by rw [flushComplete_enc]; exact Phase.noConfusion)
    · refine .inr ⟨rfl, ⟨hin, hla, rfl⟩, ?_⟩
      rw [finishComplete_writer]
      exact alignWriter_bwCount _
  · rw [encStep_idle (hnone.ahead.trans_lt (by decide)) hnone.input (.inr hphase)] at h
    cases h

theorem beginFinish_phase_ne (h : s.enc.phase ≠ .finished) : (beginFinish s).enc.phase ≠ .finished := by
  rw [beginFinish, if_neg h]
  exact Phase.noConfusion

/-- Settles O44: the step that completes is the last that a run takes, and it leaves nothing. -/
theorem completedFlushAndFinishLeaveNothing : Obligations.CompletedFlushAndFinishLeaveNothing := by
  unfold Obligations.CompletedFlushAndFinishLeaveNothing
  intro cap s t herr hmode hcap _
  refine ⟨fun h hterr hphase => ?_, fun h hstart hphase => ?_⟩
  · cases exec_effect h with
    | refused herr' => exact absurd herr herr'
    | illegal => exact absurd hterr Err.noConfusion
    | flush _ _ h =>
      have hrun : FlushRun t := encodeOutput_induction FlushRun (fun _ _ _ hs => hs) (fun _ _ => encStep_flushRun)
        (fun _ _ hs => hs) (.inl rfl) h
      rcases hrun with hflush | ⟨-, hnone⟩
      · exact absurd (hphase.symm.trans hflush) (by decide)
      · exact ⟨hnone.input, Nat.le_of_sub_eq_zero hnone.ahead, hnone.tally⟩
  · rw [exec_finish herr ⟨hmode, hcap⟩] at h
    have hrun : FinishRun t := encodeOutput_induction FinishRun (fun _ _ _ hs => hs) (fun _ _ => encStep_finishRun)
      (fun _ _ hs => hs) (.inl (beginFinish_phase_ne hstart)) h
    obtain ⟨-, hnone, hcount⟩ := hrun.resolve_left (not_not.mpr hphase)
    exact ⟨hnone.input, Nat.le_of_sub_eq_zero hnone.ahead, hnone.tally, hcount⟩

end
end Sys2Proof.Machine
end

section
/-! PROOF. FINISH of a short STORE_ONLY stream (R112, R117, R118, R161): the run pulls the input, tallies it byte by byte
without filling the tally, and writes it as one final stored block. -/

namespace Sys2Proof.Machine

/-- A STORE_ONLY stream on its way to Finished whose history and unread input together are `full`, all of it from `start` on to
go into one block. -/
structure Storing (full : List Byte) (start : Nat) (s : State) : Prop where
  store : s.storeOnly = true
  phase : s.enc.phase = .finishing
  bytes : s.enc.hist ++ unreadBytes s = full
  input : s.input.inPos ≤ s.input.inLen
  block : s.enc.blockStart = start
  pos : s.enc.encPos = start + s.enc.tally.length
  ahead : s.enc.encPos ≤ s.enc.hist.length
  short : full.length < start + s.params.tallyCap
  pending : s.writer.pending = []
  count : s.writer.bwCount = 0
  acc : s.writer.bwAcc = 0#8

section
variable {full : List Byte} {start : Nat} {s : State}

theorem Storing.pull (h : Storing full start s) (hin : s.input.inPos ≠ s.input.inLen) :
    Storing full start (pullByte s) :=
  { h with
    bytes := (pullByte_unread (Nat.lt_of_le_of_ne h.input hin)).trans h.bytes
    input := Nat.lt_of_le_of_ne h.input hin
    ahead := by
      rw [pullByte_enc, List.length_append]
      exact Nat.le_add_right_of_le h.ahead }

/-- In STORE_ONLY mode a tally step tallies a literal, and this stream's tally does not fill. -/
theorem Storing.tallyStep_eq (h : Storing full start s) (hla : 0 < lookahead s.enc) :
    tallyStep s = { s with enc := tallySymbol none s.enc } := by
  have hmatch : matchAt s = none := by rw [matchAt, if_pos h.store]
  have hlen := congrArg List.length h.bytes
  rw [List.length_append] at hlen
  have hne : ¬ s.enc.tally.length + 1 = s.params.tallyCap := by
    have := h.pos
    have := h.short
    rw [lookahead] at hla
    omega
  rw [Machine.tallyStep_eq, hmatch, if_neg hne]

theorem Storing.tally (h : Storing full start s) (hla : 0 < lookahead s.enc) : Storing full start (tallyStep s) := by
  rw [h.tallyStep_eq hla]
  exact
    { h with
      pos := by
        have := h.pos
        simp only [tallySymbol, List.length_append, List.length_singleton]
        omega
      ahead := by
        rw [lookahead] at hla
        dsimp only [tallySymbol]
        omega }

/-- With nothing left, finishing writes the block. -/
theorem Storing.finish (h : Storing full start s) (hla : lookahead s.enc = 0) (hin : s.input.inPos = s.input.inLen)
    (hlen : (full.drop start).length ≤ 65535) :
    (finishComplete s).writer.pending = storedBlockBytes 1#8 (full.drop start) := by
  have hhist : s.enc.hist = full := by
    have := h.bytes
    rwa [unreadBytes_exhausted hin.ge, List.append_nil] at this
  have hend : s.enc.encPos = full.length := by
    have := h.ahead
    rw [lookahead] at hla
    rw [← hhist]
    omega
  have hblock : blockBytes s.enc = full.drop start := by
    rw [blockBytes, h.block, hhist, hend]
    exact List.take_of_length_le (by rw [List.length_drop])
  rw [List.length_drop] at hlen
  rw [finishComplete_writer, emitBlock, h.store, writeBlock_storeOnly,
    writeStored_aligned h.count h.acc true h.ahead (by rw [hend, h.block]; exact hlen), hblock, h.pending]
  rfl

/-- The run to the end: the block's bytes are all that it writes. -/
theorem deflateLoop_storing {cap fuel : Nat} (hlen : (full.drop start).length ≤ 65535) : ∀ {s : State}, Storing full start s → encMeasure s < fuel →
    ∃ u : State, u.writer.pending = storedBlockBytes 1#8 (full.drop start) ∧ u.enc.phase = .finished ∧
      EncoderFrame s u ∧ deflateLoop cap fuel 0 s = some (drainPending cap 0 u) := by
  induction fuel with
  | zero => exact fun _ h => absurd h (Nat.not_lt_zero _)
  | succ fuel ih =>
    intro s h hfuel
    have hne : s.enc.phase ≠ .finished := by rw [h.phase]; decide
    have next : ∀ {t}, Storing full start t → encStep s = some t →
        ∃ u : State, u.writer.pending = storedBlockBytes 1#8 (full.drop start) ∧ u.enc.phase = .finished ∧
          EncoderFrame s u ∧ deflateLoop cap (fuel + 1) 0 s = some (drainPending cap 0 u) := by
      intro t ht hstep
      have hmeasure := encStep_measure h.input hstep
      obtain ⟨u, hpend, hphase, hrun, hloop⟩ := ih ht (by omega)
      exact ⟨u, hpend, hphase, (encStep_frame hstep).trans hrun, by rw [deflateLoop_step h.pending hne hstep, hloop]⟩
    by_cases hin : s.input.inPos = s.input.inLen
    · rcases Nat.eq_zero_or_pos (lookahead s.enc) with hla | hla
      · have hstep : encStep s = some (finishComplete s) := by
          rw [encStep_exhausted hla hin, h.phase]
          rfl
        have hone : 1 ≤ encMeasure s := by
          rw [encMeasure, h.phase]
          exact Nat.le_add_left ..
        obtain ⟨fuel, rfl⟩ := Nat.exists_eq_succ_of_ne_zero (n := fuel) (by omega)
        exact ⟨finishComplete s, h.finish hla hin hlen, rfl, encStep_frame hstep,
          by rw [deflateLoop_step h.pending hne hstep, deflateLoop_finished (by rfl)]⟩
      · exact next (h.tally hla) (encStep_tally (.inr ⟨hla, hin, .inr h.phase⟩))
    · rcases Nat.lt_or_ge (lookahead s.enc) minLookahead with hla | hla
      · exact next (h.pull hin) (encStep_pull hla hin)
      · exact next (h.tally (Nat.lt_of_lt_of_le (by decide) hla)) (encStep_tally (.inl hla))

end

theorem storedBlockBytes_length (first : Byte) (raw : List Byte) : (storedBlockBytes first raw).length = raw.length + 5 := by
  rw [storedBlockBytes, List.length_append, Nat.add_comm]
  rfl

/-- Settles O46: the stream is one that stores all it is given, and its block is drained whole. -/
theorem storeOnlyFinishWritesOneStoredBlock : Obligations.StoreOnlyFinishWritesOneStoredBlock := by
  unfold Obligations.StoreOnlyFinishWritesOneStoredBlock
  intro s cap raw hwf herr hmode hstore hphase hend htally hcount hpend hraw hshort hcap hout
  have henc := (encoderInRange_iff s).mp hwf.encoder hmode
  have hacc : s.writer.bwAcc = 0#8 := by
    have := hwf.writer.acc
    rw [hcount] at this
    exact BitVec.eq_of_toNat_eq (Nat.lt_one_iff.mp this)
  have hlegal : s.params.tallyCap ≤ 65535 := by
    have := hwf.params
    simp only [paramsLegal, Bool.and_eq_true, decide_eq_true_eq] at this
    omega
  have hdrop : (s.enc.hist ++ raw).drop s.enc.encPos = raw := by rw [hend, List.drop_left]
  have hstoring : Storing (s.enc.hist ++ raw) s.enc.encPos (beginFinish s) := by
    have hblock := henc.counts.stored hstore
    rw [htally, List.length_nil, Nat.add_zero] at hblock
    rw [beginFinish, if_neg (by rw [hphase]; decide)]
    exact
      { store := hstore, phase := rfl, bytes := congrArg _ hraw, input := hwf.input.pos, block := hblock.symm
        pos := by rw [htally]; rfl
        ahead := hend.le
        short := by rw [List.length_append, hend]; exact Nat.add_lt_add_left hshort _
        pending := hpend, count := hcount, acc := hacc }
  obtain ⟨u, hbytes, hfin, hrun, hloop⟩ := deflateLoop_storing (cap := cap.toNat) (by rw [hdrop]; omega) hstoring
    (encMeasure_lt_encBound _)
  rw [hdrop] at hbytes
  have hlen : u.writer.pending.length = raw.length + 5 := by rw [hbytes, storedBlockBytes_length]
  have hmode' : u.mode = .encode := hrun.mode.trans ((beginFinish_mode s).trans hmode)
  have hmem : Memory.wf u.mem = true := by
    rw [hrun, beginFinish_mem]
    exact hwf.memory.mem
  rw [drainPending_start, hlen, Nat.min_eq_right hcap, List.take_of_length_le (hlen.trans_le hcap),
    List.drop_eq_nil_of_le (hlen.trans_le hcap), hbytes] at hloop
  refine ⟨_, (exec_finish herr ⟨hmode, hout⟩).trans (encodeOutput_of_run hloop),
    hrun.err.trans ((beginFinish_err s).trans herr), hfin, ?_, ?_⟩
  · exact congrArg (resultReg _) ((finished_iff _).mpr (.inl ⟨hmode', hfin, rfl⟩))
  · rw [← storedBlockBytes_length 1#8 raw]
    exact Memory.readBytes_writeBytes_self hmem outBase _

end Sys2Proof.Machine
end

section
/-! PROOF. Every run of the decoder ends (R150), and so does every step (R43): a step that makes progress consumes a bit, or
leaves one of the states that may consume none. -/

namespace Sys2Proof.Machine

section
variable {s t : State}

/-! ### The bits a step consumes -/

theorem unreadBits_dropBits {n : Nat} (h : n ≤ s.reader.brCount) :
    unreadBits { s with reader := dropBits n s.reader } + n = unreadBits s := by
  simp only [unreadBits, dropBits_brCount]
  omega

/-- R68: `GetBits(n)` consumes n bits. -/
theorem getBits_unreadBits {n v : Nat} (h : getBits n s = (some v, t)) : unreadBits t + n = unreadBits s := by
  obtain ⟨-, -, -, hbits, -⟩ := load_spec n s
  rcases getBits_cases n s with ⟨hc, he⟩ | ⟨-, he⟩ <;> cases he.symm.trans h
  rw [unreadBits_dropBits hc, hbits]

/-- R129: a decoded symbol consumes a bit at least. -/
theorem decodeSym_unreadBits {table : DecTable} {v : Nat} (h : decodeSym table s = (.symbol v, t)) :
    unreadBits t < unreadBits s := by
  obtain ⟨-, -, -, hbits, -⟩ := load_spec table.lmax s
  rcases decodeSym_cases table s with ⟨l, v', hf, he⟩ | ⟨-, ⟨-, he⟩ | ⟨-, he⟩⟩ <;> cases he.symm.trans h
  have hl := findCode_length table _ _ _ _ hf
  have hdrop := unreadBits_dropBits (s := load table.lmax s) (n := l) (by omega)
  rw [hbits] at hdrop
  exact Nat.lt_of_lt_of_eq (Nat.lt_add_of_pos_right (by omega)) hdrop

/-! ### The measure -/

/-- The states whose step may consume no bit: tables to build, no extra bits, no padding, no stored byte left. -/
def DecState.maybeIdle : DecState → Nat
  | .readingTreeCodes | .haveInitialLength | .haveDistCode | .uncompressedAligning | .decodingUncompressed => 1
  | _ => 0

theorem DecState.maybeIdle_le (d : DecState) : d.maybeIdle ≤ 1 := by cases d <;> decide

/-- Two for each bit left, and one for a step that may consume none. -/
def decMeasure (s : State) : Nat := 2 * unreadBits s + s.dec.decState.maybeIdle

theorem decMeasure_lt_decBound (s : State) : decMeasure s + 2 < decBound s := by
  have := s.dec.decState.maybeIdle_le
  unfold decMeasure decBound
  omega

/-- A step that consumes a bit lowers the measure, whatever state it leads to. -/
theorem decMeasure_lt_of_bits (h : unreadBits t < unreadBits s) : decMeasure t < decMeasure s := by
  have := t.dec.decState.maybeIdle_le
  unfold decMeasure
  omega

/-- So does a step that consumes none, from a state that may do so to one that may not. -/
theorem decMeasure_lt_of_state (h : unreadBits t ≤ unreadBits s) (hs : s.dec.decState.maybeIdle = 1)
    (ht : t.dec.decState.maybeIdle = 0) : decMeasure t < decMeasure s := by
  unfold decMeasure
  omega

theorem afterBlock_maybeIdle (d : Decoder) : (afterBlock d).maybeIdle = 0 := by
  unfold afterBlock
  split <;> rfl

theorem OkRule.measure (h : OkRule s t s.dec.decState) : decMeasure t < decMeasure s := by
  have bits : ∀ {n v s'}, getBits n s = (some v, s') → 0 < n → unreadBits t = unreadBits s' → decMeasure t < decMeasure s :=
    fun hg hn ht => decMeasure_lt_of_bits (by have := getBits_unreadBits hg; omega)
  have sym : ∀ {table v s'}, decodeSym table s = (.symbol v, s') → unreadBits t = unreadBits s' → decMeasure t < decMeasure s :=
    fun hg ht => decMeasure_lt_of_bits (ht ▸ decodeSym_unreadBits hg)
  have anyBits : ∀ {n v s'}, getBits n s = (some v, s') → unreadBits t = unreadBits s' → unreadBits t ≤ unreadBits s :=
    fun hg ht => ht ▸ Nat.le.intro (getBits_unreadBits hg)
  cases hstate : s.dec.decState <;> rw [hstate] at h
  case readingBFinal | readingNumCodeLenCodes | uncompressedByte1 | uncompressedByte2 | uncompressedByte3 =>
    obtain ⟨v, s', hg, rfl⟩ := h
    exact bits hg (by decide) rfl
  case readingBType =>
    obtain ⟨v, s', hg, ⟨-, rfl⟩ | ⟨-, rfl⟩ | ⟨-, rfl⟩⟩ := h <;> exact bits hg (by decide) rfl
  case readingNumLitCodes | readingNumDistCodes | uncompressedByte4 =>
    obtain ⟨v, s', hg, -, rfl⟩ := h
    exact bits hg (by decide) rfl
  case readingCodeLenCodes =>
    obtain ⟨v, s', lens, hg, -, ⟨-, rfl⟩ | ⟨-, table, -, rfl⟩⟩ := h <;>
      exact bits hg (by decide) rfl
  case readingTreeCodes =>
    by_cases hfull : s.dec.lens.length = s.dec.hlitN + s.dec.hdistN
    · obtain ⟨-, lt, dt, -, -, rfl⟩ := h.1 hfull
      exact decMeasure_lt_of_state (Nat.le_refl _) (by rw [hstate]; rfl) rfl
    · obtain ⟨c, s', hg, ⟨-, rfl⟩ | ⟨-, -, rfl⟩⟩ := h.2 hfull <;>
        exact sym hg rfl
  case readingTreeCodesExtra =>
    obtain ⟨v, s', n, val, hg, -, -, rfl⟩ := h
    have hpos : 0 < repeatBits s.dec.repSym := by
      unfold repeatBits
      split
      · decide
      · split <;> decide
    exact bits hg hpos rfl
  case decodeTop =>
    obtain ⟨-, v, s', hg, ⟨-, rfl⟩ | ⟨-, rfl⟩ | ⟨-, -, rfl⟩⟩ := h <;> exact sym hg rfl
  case haveInitialLength =>
    obtain ⟨v, s', hg, rfl⟩ := h
    exact decMeasure_lt_of_state (anyBits hg rfl) (by rw [hstate]; rfl) rfl
  case haveFullLength =>
    obtain ⟨v, s', hg, -, rfl⟩ := h
    exact sym hg rfl
  case haveDistCode =>
    obtain ⟨v, s', dist, hg, -, -, rfl⟩ := h
    exact decMeasure_lt_of_state (anyBits hg rfl) (by rw [hstate]; rfl) rfl
  case uncompressedAligning =>
    cases h
    exact decMeasure_lt_of_state (Nat.le.intro (unreadBits_dropBits (Nat.mod_le ..))) (by rw [hstate]; rfl) rfl
  case decodingUncompressed =>
    by_cases hrem : s.dec.storedRem = 0
    · cases h.1 hrem
      exact decMeasure_lt_of_state (Nat.le_refl _) (by rw [hstate]; rfl) (afterBlock_maybeIdle _)
    · obtain ⟨-, v, s', hg, rfl⟩ := h.2 hrem
      exact bits hg (by decide) rfl
  case done => exact h.elim

theorem decStep_measure (h : (decStep s).1 = .ok) : decMeasure (decStep s).2 < decMeasure s :=
  (decStep_ok (Prod.ext h rfl : decStep s = (.ok, _))).measure

/-! ### The steps up to a stall -/

theorem runSteps_of_ok {fuel : Nat} (h : (decStep s).1 = .ok) : runSteps (fuel + 1) s = runSteps fuel (decStep s).2 := by
  rw [runSteps]
  exact if_pos h

theorem runSteps_of_ne {fuel : Nat} (h : (decStep s).1 ≠ .ok) : runSteps (fuel + 1) s = some (decStep s) := by
  rw [runSteps]
  exact if_neg h

/-- The steps end within the measure. -/
theorem runSteps_ends (fuel : Nat) : ∀ {s : State}, decMeasure s < fuel → ∃ r, runSteps fuel s = some r := by
  induction fuel with
  | zero => exact fun h => absurd h (Nat.not_lt_zero _)
  | succ fuel ih =>
    intro s hlt
    by_cases hok : (decStep s).1 = .ok
    · rw [runSteps_of_ok hok]
      exact ih ((decStep_measure hok).trans_le (Nat.le_of_lt_succ hlt))
    · exact ⟨_, runSteps_of_ne hok⟩

/-- The result does not depend on how many steps are allowed. -/
theorem runSteps_unique {fuel fuel' : Nat} : ∀ {s : State} {r r' : StepOut × State}, runSteps fuel s = some r →
    runSteps fuel' s = some r' → r = r' := by
  induction fuel generalizing fuel' with
  | zero => exact fun h _ => nomatch h
  | succ fuel ih =>
    intro s r r' h h'
    cases fuel' with
    | zero => cases h'
    | succ fuel' =>
      by_cases hok : (decStep s).1 = .ok
      · rw [runSteps_of_ok hok] at h h'
        exact ih h h'
      · rw [runSteps_of_ne hok] at h h'
        exact Option.some.inj (h.symm.trans h')

/-- No step raises the measure that neither advances nor raises. -/
theorem decStep_measure_le (hraise : ∀ e, (decStep s).1 ≠ .raised e) : decMeasure (decStep s).2 ≤ decMeasure s := by
  rcases decStep_cases s with (ha | ⟨e, ha⟩) | ⟨n, -, -, he⟩ | ⟨he, -⟩ | ⟨he, -⟩
  · exact (decStep_measure ha).le
  · exact absurd ha (hraise e)
  · obtain ⟨-, -, -, hbits, -⟩ := load_spec n s
    rw [he, decMeasure, hbits]
    exact Nat.le_refl _
  · rw [he]
  · rw [he]

/-- Steps that begin with one that makes progress lower the measure, unless they raise. -/
theorem runSteps_measure {fuel : Nat} {o : StepOut} (hok : (decStep s).1 = .ok) (hraise : ∀ e, o ≠ .raised e)
    (h : runSteps fuel s = some (o, t)) : decMeasure t < decMeasure s := by
  cases fuel with
  | zero => cases h
  | succ fuel =>
    rw [runSteps_of_ok hok] at h
    obtain ⟨u, hu, hlast⟩ := runSteps_last (P := fun u => decMeasure u ≤ decMeasure (decStep s).2)
      (fun u hu hok => (decStep_measure hok).le.trans hu) fuel (Nat.le_refl _) h
    have hle := decStep_measure_le (s := u) (by rw [hlast]; exact hraise)
    rw [hlast] at hle
    exact (hle.trans hu).trans_lt (decStep_measure hok)

/-! ### The driver (R150) -/

/-- With the window drained, a first step does not stall for room. -/
theorem decStep_ne_needOut (hused : s.window.winUsed = 0) (hw : 9 ≤ s.wbits.toNat) : (decStep s).1 ≠ .needOut := by
  intro h
  have hsize : 2 ^ 9 ≤ windowSize s.wbits := Nat.pow_le_pow_right Nat.two_pos hw
  obtain ⟨-, ⟨-, hlt⟩ | ⟨-, -, heq⟩⟩ := decStep_needOut (t := (decStep s).2) (Prod.ext h rfl)
  · omega
  · omega

/-- A drain that leaves room in OUT_BUF has emptied the window. -/
theorem drainWindow_empty {cap written : Nat} (h : (drainWindow cap written s).1 < cap) :
    (drainWindow cap written s).2.window.winUsed = 0 := by
  dsimp only [drainWindow] at h ⊢
  omega

/-- A run whose window is drained ends within its bound: every turn but the last lowers the measure. -/
theorem decodeLoop_ends {cap fuel : Nat} : ∀ {written : Nat} {s : State}, 9 ≤ s.wbits.toNat →
    (written < cap → s.window.winUsed = 0) → decMeasure s + 1 < fuel → ∃ r, decodeLoop cap fuel written s = some r := by
  induction fuel with
  | zero => exact fun _ _ h => absurd h (Nat.not_lt_zero _)
  | succ fuel ih =>
    intro written s hw hempty hfuel
    rw [decodeLoop]
    split
    · rename_i hgo
      obtain ⟨⟨o, u⟩, hrun⟩ := runSteps_ends (decBound s) (s := s) (by have := decMeasure_lt_decBound s; omega)
      have hframe : u = _ := (runSteps_run written hrun).frame
      have hwbits : u.wbits = s.wbits := by rw [hframe]
      rw [hrun]
      cases o with
      | raised e => exact ⟨_, rfl⟩
      | needIn => exact ⟨_, rfl⟩
      | ok => exact absurd rfl (runSteps_ne_ok _ _ _ hrun)
      | done =>
        obtain ⟨v, -, hlast⟩ := runSteps_last (P := fun _ => True) (fun _ _ _ => trivial) _ trivial hrun
        obtain ⟨rfl, hdone⟩ := decStep_done hlast
        obtain ⟨fuel, rfl⟩ := Nat.exists_eq_succ_of_ne_zero (n := fuel) (by omega)
        have hend : ¬ ((drainWindow cap written u).1 < cap ∧ (drainWindow cap written u).2.dec.decState ≠ .done) :=
          fun h => h.2 hdone
        exact ⟨_, by dsimp only; rw [if_neg StepOut.noConfusion, decodeLoop, if_neg hend]⟩
      | needOut =>
        have hok : (decStep s).1 = .ok := by
          by_contra hne
          have hbound : decBound s = 2 * unreadBits s + 3 + 1 := rfl
          rw [hbound, runSteps_of_ne hne] at hrun
          exact decStep_ne_needOut (hempty hgo.1) hw (congrArg Prod.fst (Option.some.inj hrun))
        have hlt := runSteps_measure hok (fun _ => StepOut.noConfusion) hrun
        dsimp only
        rw [if_neg StepOut.noConfusion]
        refine ih (by rw [drainWindow_wbits, hwbits]; exact hw) drainWindow_empty ?_
        have hmeasure : decMeasure (drainWindow cap written u).2 = decMeasure u := rfl
        omega
    · exact ⟨_, rfl⟩

theorem decodeRun_ends (cap : Nat) (hw : 9 ≤ s.wbits.toNat) : ∃ r, decodeRun cap s = some r := by
  have := decMeasure_lt_decBound s
  have hmeasure : decMeasure (drainWindow cap 0 s).2 = decMeasure s := rfl
  exact decodeLoop_ends (s := (drainWindow cap 0 s).2) hw drainWindow_empty (by omega)

theorem decodeOutput_completes (cap : Arg) (hw : 9 ≤ s.wbits.toNat) : ∃ t, decodeOutput cap s = .next t := by
  obtain ⟨r, hr⟩ := decodeRun_ends (byteCount cap) hw
  exact ⟨outputEnd r.written (endRun r), by rw [decodeOutput, hr]⟩

/-! ### Every command completes (R43) -/

theorem exec_legal_completes {i : Instr} (hin : InputInRange s) (hconf : StreamConfigured s) (herr : s.err = .none)
    (hl : CommandLegal s i) : ∃ t, exec i s = .next t := by
  cases i with
  | nop arg => exact ⟨s, rfl⟩
  | reset arg => exact ⟨_, rfl⟩
  | configure mode storeOnly wbits =>
    obtain ⟨hmode, hfield, hstore, hw⟩ := hl
    by_cases hm : mode = 1#2
    · subst hm
      exact ⟨_, exec_openEncoder herr hmode hw⟩
    · obtain rfl := hfield.resolve_left hm
      obtain rfl := hstore.resolve_right hm
      exact ⟨_, exec_openDecoder herr hmode hw⟩
  | setInput len => exact ⟨_, exec_setInput_legal herr hl⟩
  | produceOutput cap =>
    obtain ⟨hmode, hcap⟩ := hl
    cases hm : s.mode with
    | idle => exact absurd hm hmode
    | encode =>
      rw [exec_produceOutput_encode herr hm hcap]
      exact encodeOutput_completes hin.pos
    | decode =>
      rw [exec_produceOutput_decode herr hm hcap]
      exact decodeOutput_completes cap (hconf.opened hmode)
  | flush cap =>
    rw [exec_flush herr hl]
    exact encodeOutput_completes (s := beginFlush s) hin.pos
  | finish cap =>
    rw [exec_finish herr hl]
    refine encodeOutput_completes ?_
    rw [beginFinish_eq]
    exact hin.pos
  | endOfInput => exact ⟨_, exec_endOfInput herr hl⟩
  | buildTree alpha =>
    obtain ⟨hmode, halpha⟩ := hl
    obtain ⟨a, ha⟩ := Option.isSome_iff_exists.mp ((alphabetOfField_isSome_iff alpha).mpr halpha)
    exact ⟨_, exec_buildTree herr hmode ha⟩

theorem exec_completes (i : Instr) (hin : InputInRange s) (hconf : StreamConfigured s) : ∃ t, exec i s = .next t := by
  by_cases herr : s.err = .none
  · by_cases hl : CommandLegal s i
    · exact exec_legal_completes hin hconf herr hl
    · exact ⟨_, exec_of_not_commandLegal herr hl⟩
  · cases i with
    | nop arg => exact ⟨s, rfl⟩
    | reset arg => exact ⟨_, rfl⟩
    | configure | setInput | produceOutput | flush | finish | endOfInput | buildTree =>
      exact ⟨s, exec_refused herr (fun _ => Instr.noConfusion) (fun _ => Instr.noConfusion)⟩

/-- Settles O52: a plain access always answers, and every command completes. -/
theorem noStepStops : Obligations.NoStepStops := by
  unfold Obligations.NoStepStops
  intro s hp hin hconf
  unfold StepsOn
  cases hbus : s.bus with
  | nil => exact ⟨s, by rw [step, if_pos hp, hbus]⟩
  | cons a rest =>
    rw [step_of_bus hp hbus]
    rcases perform_cases a { s with bus := rest } with ⟨w, -, he⟩ | ⟨-, he⟩ <;> rw [he]
    · have hin' : InputInRange { s with bus := rest } := ⟨hin.pos, hin.len⟩
      rcases runWord_cases w { s with bus := rest } with ⟨i, -, hr⟩ | ⟨_, -, -, hr⟩ | ⟨_, -, -, hr⟩ <;> rw [hr]
      · exact exec_completes i hin' (hconf.congr rfl rfl rfl)
      · exact ⟨_, rfl⟩
      · exact ⟨_, rfl⟩
    · exact ⟨_, rfl⟩

end
end Sys2Proof.Machine
end

section
/-! PROOF. PRODUCE_OUTPUT in DECODE (R80, R150, R158, R166): how a run ends, the run that ends in its first turn, and the one
that runs no step. -/

namespace Sys2Proof.Machine

section
variable {s t : State} {cap : Nat}

/-! ### How a run ends (R150, R166) -/

/-- Without an error OUT_BUF is full, the stream is done or more input may come; or the input ended early; or a rule of the
decoder raised. -/
inductive RunOutcome (cap : Nat) (r : RunEnd) : Prop
  | ended (hr : r.raised = .none) (h : r.written = cap ∨ r.state.dec.decState = .done ∨ r.state.dec.eoi = false)
  | malformed (hr : r.raised = .malformedHuffmanCode) (heoi : r.state.dec.eoi = true)
  | raised (h : r.raised ≠ .none ∧ r.raised ≠ .malformedHuffmanCode ∧ r.raised ≠ .outputBufferOverrun ∧
      r.raised ≠ .illegalCommand)

theorem decodeLoop_outcome {fuel : Nat} : ∀ {written : Nat} {s : State} {r : RunEnd}, written ≤ cap →
    decodeLoop cap fuel written s = some r → RunOutcome cap r := by
  induction fuel with
  | zero => exact fun _ h => nomatch h
  | succ fuel ih =>
    intro written s r hle h
    rw [decodeLoop] at h
    split at h
    · split at h
      · cases h
      · rename_i e u hrun
        cases h
        obtain ⟨v, -, hlast⟩ := runSteps_last (P := fun _ => True) (fun _ _ _ => trivial) _ trivial hrun
        exact .raised (decStep_raised_iff.mp hlast).error
      · rename_i o u _ _
        dsimp only at h
        split at h
        · cases h
          cases heoi : u.dec.eoi with
          | false => exact .ended (if_neg (by simp [heoi])) (.inr (.inr heoi))
          | true => exact .malformed (if_pos heoi) heoi
        · exact ih (drainWindow_le hle u) h
    · rename_i hstop
      cases h
      refine .ended rfl ?_
      by_cases hdone : s.dec.decState = .done
      · exact .inr (.inl hdone)
      · exact .inl (Nat.le_antisymm hle (Nat.le_of_not_lt fun hlt => hstop ⟨hlt, hdone⟩))

theorem decodeRun_outcome {r : RunEnd} (h : decodeRun cap s = some r) : RunOutcome cap r :=
  decodeLoop_outcome (drainWindow_le (Nat.zero_le cap) s) h

theorem RunOutcome.errors {r : RunEnd} (h : RunOutcome cap r) :
    (r.raised = .malformedHuffmanCode → r.state.dec.eoi = true) ∧
    (r.raised = .none → r.state.dec.eoi = true → r.written = cap ∨ r.state.dec.decState = .done) ∧
    r.raised ≠ .outputBufferOverrun ∧ r.raised ≠ .illegalCommand := by
  cases h with
  | ended hr h =>
    rw [hr]
    refine ⟨fun he => Err.noConfusion he, fun _ heoi => ?_, by decide, by decide⟩
    rcases h with h | h | h
    · exact .inl h
    · exact .inr h
    · exact absurd (h.symm.trans heoi) Bool.false_ne_true
  | malformed hr heoi =>
    rw [hr]
    exact ⟨fun _ => heoi, fun he => Err.noConfusion he, by decide, by decide⟩
  | raised h =>
    obtain ⟨hnone, hmalformed, hoverrun, hillegal⟩ := h
    exact ⟨fun he => absurd he hmalformed, fun he => absurd he hnone, hoverrun, hillegal⟩

theorem endRun_err {r : RunEnd} (h : r.state.err = .none) : (endRun r).err = r.raised := by
  rcases endRun_cases r with ⟨hr, hq⟩ | ⟨-, hq⟩ <;> rw [hq]
  · rw [hr, h]
  · rfl

theorem endRun_dec (r : RunEnd) : (endRun r).dec = r.state.dec := by
  rcases endRun_cases r with ⟨-, hq⟩ | ⟨-, hq⟩ <;> rw [hq]
  rfl

theorem endRun_input (r : RunEnd) : (endRun r).input = r.state.input := by
  rcases endRun_cases r with ⟨-, hq⟩ | ⟨-, hq⟩ <;> rw [hq]
  rfl

theorem endRun_mem (r : RunEnd) : (endRun r).mem = r.state.mem := by
  rcases endRun_cases r with ⟨-, hq⟩ | ⟨-, hq⟩ <;> rw [hq]
  rfl

/-! ### The drains (R80) -/

/-- The oldest bytes, from the ring's start of undrained data on. -/
theorem oldestBytes_eq (w : Nat) (x : Window) (k : Nat) : oldestBytes w x k =
    (List.range k).map fun j => Memory.read x.win ((x.winEnd + w - x.winUsed + j) % w) := by
  unfold oldestBytes
  exact List.map_congr_left fun j _ => by rw [Nat.mod_add_mod]

/-- A drain whose bytes follow `written` others: together they are at most CAP. -/
theorem drainWindow_eq {written : Nat} (h : written ≤ cap) (s : State) : drainWindow cap written s =
    (min cap (written + s.window.winUsed),
      { s with mem := (drainWindow cap written s).2.mem
               window := { s.window with winUsed :=
                 written + s.window.winUsed - min cap (written + s.window.winUsed) } }) := by
  have hcount : written + min (cap - written) s.window.winUsed = min cap (written + s.window.winUsed) := by omega
  have hused : s.window.winUsed - min (cap - written) s.window.winUsed =
      written + s.window.winUsed - min cap (written + s.window.winUsed) := by omega
  rw [drainWindow_mem, ← hused, ← hcount]
  rfl

theorem finished_decode (hmode : s.mode = .decode) :
    finished s = (decide (s.dec.decState = .done) && decide (s.window.winUsed = 0)) := by
  rw [Bool.eq_iff_iff, finished_iff]
  simp [hmode]

/-- A run that takes no turn is its first drain. -/
theorem decodeRun_of_stop (h : cap ≤ s.window.winUsed ∨ s.dec.decState = .done) : decodeRun cap s =
    some { written := min cap s.window.winUsed, raised := .none, state := (drainWindow cap 0 s).2 } := by
  have hstop : ¬ ((drainWindow cap 0 s).1 < cap ∧ (drainWindow cap 0 s).2.dec.decState ≠ .done) := by
    rintro ⟨hlt, hne⟩
    rcases h with hle | hdone
    · dsimp only [drainWindow] at hlt
      omega
    · exact hne hdone
  have hwritten : (drainWindow cap 0 s).1 = min cap s.window.winUsed := by
    dsimp only [drainWindow]
    omega
  rw [decodeRun, decBound, decodeLoop]
  dsimp only
  rw [if_neg hstop, hwritten]

/-- A run whose first steps end in an input stall ends there. -/
theorem decodeRun_of_needIn {u : State} {steps : Nat} (hlt : s.window.winUsed < cap) (hne : s.dec.decState ≠ .done)
    (h : runSteps steps (drainWindow cap 0 s).2 = some (.needIn, u)) : decodeRun cap s =
    some { written := (drainWindow cap s.window.winUsed u).1
           raised := if u.dec.eoi then .malformedHuffmanCode else .none
           state := (drainWindow cap s.window.winUsed u).2 } := by
  have hwritten : (drainWindow cap 0 s).1 = s.window.winUsed := by
    dsimp only [drainWindow]
    omega
  have hgo : (drainWindow cap 0 s).1 < cap ∧ (drainWindow cap 0 s).2.dec.decState ≠ .done := ⟨by rwa [hwritten], hne⟩
  have hrun : runSteps (decBound (drainWindow cap 0 s).2) (drainWindow cap 0 s).2 = some (.needIn, u) := by
    have hmeasure := decMeasure_lt_decBound (drainWindow cap 0 s).2
    obtain ⟨r, hr⟩ := runSteps_ends (decBound (drainWindow cap 0 s).2) (s := (drainWindow cap 0 s).2) (by omega)
    rw [hr, runSteps_unique hr h]
  rw [decodeRun]
  have hbound : decBound s = 2 * unreadBits s + 3 + 1 := rfl
  rw [hbound, decodeLoop, if_pos hgo, hrun]
  dsimp only
  rw [if_pos rfl, hwritten]
  rfl

theorem decodeOutput_of_run {cap : Arg} {r : RunEnd} (h : decodeRun cap.toNat s = some r) :
    decodeOutput cap s = .next (outputEnd r.written (endRun r)) := by
  rw [decodeOutput, byteCount, h]

/-! ### The command -/

theorem decodeOutput_bounds {cap : Arg} (herr : s.err = .none) (hin : InputInRange s) (hw : 9 ≤ s.wbits.toNat) :
    ∃ t n, decodeOutput cap s = .next t ∧ n ≤ cap.toNat ∧ t.result = resultReg n (finished t) ∧
      t = { s with mem := t.mem, input := { s.input with inPos := t.input.inPos }, reader := t.reader,
                   window := t.window, dec := t.dec, result := t.result, err := t.err } ∧
      t.dec.eoi = s.dec.eoi ∧ s.input.inPos ≤ t.input.inPos ∧ t.input.inPos ≤ t.input.inLen ∧
      (t.err = .malformedHuffmanCode → s.dec.eoi = true) ∧
      (t.err = .none → s.dec.eoi = true → n = cap.toNat ∨ t.dec.decState = .done) ∧
      t.err ≠ .outputBufferOverrun ∧ t.err ≠ .illegalCommand ∧
      ∀ a, ¬ (outBase ≤ a ∧ a < outBase + n) → Memory.read t.mem a = Memory.read s.mem a := by
  obtain ⟨t, ht⟩ := decodeOutput_completes (s := s) cap hw
  obtain ⟨r, hr, hn, hrun, rfl⟩ := decodeOutput_run ht
  have heoi := hrun.eoi
  have hstate : r.state.err = .none := by
    rw [hrun.frame]
    exact herr
  obtain ⟨hmalformed, hended, hoverrun, hillegal⟩ := (decodeRun_outcome hr).errors
  rw [← endRun_err hstate] at hmalformed hended hoverrun hillegal
  rw [← endRun_dec] at hmalformed hended heoi
  refine ⟨_, r.written, ht, hn, rfl, (decodeOutput_eq ht).1, heoi, ?_, ?_, fun he => heoi ▸ hmalformed he,
    fun he heoi' => hended he (heoi.trans heoi'), hoverrun, hillegal, ?_⟩
  · rw [outputEnd_input, endRun_input]
    exact hrun.input.forward
  · rw [outputEnd_input, endRun_input, hrun.input.len]
    exact hrun.input.bound hin.pos
  · rw [outputEnd_mem, endRun_mem]
    exact hrun.mem

/-- Settles O38: how a run ends says which errors it leaves; the other clauses follow runs whose first turn is their last. -/
theorem decodeOutputCompletes : Obligations.DecodeOutputCompletes := by
  unfold Obligations.DecodeOutputCompletes
  refine ⟨fun cap s herr hmode hcap hin hw => ?_, fun cap s u steps herr hmode hcap hin hw hlt hne h => ?_,
    fun cap s n herr hmode hcap hstop hn => ?_, fun s herr hmode => ?_⟩
  · rw [exec_produceOutput_decode herr hmode hcap]
    exact decodeOutput_bounds herr hin hw
  · have hrun := (drainWindow_run cap.toNat 0 s).trans (runSteps_run _ h)
    have hframe : u = _ := hrun.frame
    have heoi : u.dec.eoi = s.dec.eoi := hrun.eoi
    have huerr : u.err = .none := by
      rw [hframe]
      exact herr
    rw [exec_produceOutput_decode herr hmode hcap, decodeOutput_of_run (decodeRun_of_needIn hlt hne h)]
    rw [drainWindow_eq hlt.le]
    refine ⟨_, min cap.toNat (s.window.winUsed + u.window.winUsed), rfl, rfl, ?_⟩
    cases hs : s.dec.eoi with
    | false => simp [endRun, outputEnd, finished, heoi, hs, huerr]
    | true => simp [endRun, outputEnd, finished, raiseError, heoi, hs]
  · rw [exec_produceOutput_decode herr hmode hcap, decodeOutput_of_run (decodeRun_of_stop hstop), ← hn]
    have hdone : finished (drainWindow cap.toNat 0 s).2 =
        (decide (s.dec.decState = .done) && decide (s.window.winUsed ≤ cap.toNat)) := by
      have hle : s.window.winUsed - min (cap.toNat - 0) s.window.winUsed = 0 ↔ s.window.winUsed ≤ cap.toNat := by omega
      rw [finished_decode (s := (drainWindow cap.toNat 0 s).2) hmode, drainWindow_dec, drainWindow_window]
      simp only [hle]
    rw [outputEnd, endRun, if_pos rfl]
    dsimp only
    rw [hdone, ← oldestBytes_eq, hn]
    rfl
  · rw [exec_produceOutput_decode herr hmode (Nat.zero_le _), decodeOutput_of_run (decodeRun_of_stop (.inl (Nat.zero_le _)))]
    have hdrain : (drainWindow (0#24).toNat 0 s).2 = s := by simp [drainWindow, oldestBytes, writeOut, Memory.writeBytes]
    rw [hdrain, endRun, if_pos rfl]
    simp [outputEnd]

end
end Sys2Proof.Machine
end

section
/-! PROOF. A final stored block through the decoder (R55, R134, R135, R146 to R150): the seven steps of its header, then the
raw bytes through the window, which is drained whenever it is full. -/

namespace Sys2Proof.Machine

/-! ### Byte-aligned input -/

/-- A bit cache that holds nothing. -/
def emptyReader : BitReader := { brCache := 0#32, brCount := 0 }

/-- The state with one more input byte taken. -/
def takeByte (s : State) : State := { s with input := { s.input with inPos := s.input.inPos + 1 } }

theorem unreadBytes_cons_iff {s : State} {b : Byte} {rest : List Byte} (h : unreadBytes s = b :: rest) :
    s.input.inPos < s.input.inLen ∧ inByte s.mem s.input.inPos = b ∧ unreadBytes (takeByte s) = rest := by
  have hlt : s.input.inPos < s.input.inLen := by
    by_contra hge
    rw [unreadBytes_exhausted (Nat.le_of_not_lt hge)] at h
    cases h
  rw [unreadBytes_cons hlt] at h
  obtain ⟨hb, hrest⟩ := List.cons.inj h
  exact ⟨hlt, hb, hrest⟩

/-- R66: with an empty cache, at most eight bits asked for load one byte. -/
theorem load_byte {s : State} {b : Byte} {rest : List Byte} {n : Nat} (hr : s.reader = emptyReader)
    (hb : unreadBytes s = b :: rest) (hpos : 0 < n) (hn : n ≤ 8) :
    load n s = { takeByte s with reader := { brCache := b.setWidth 32, brCount := 8 } } := by
  obtain ⟨hlt, hbyte, -⟩ := unreadBytes_cons_iff hb
  obtain ⟨n, rfl⟩ := Nat.exists_eq_succ_of_ne_zero (Nat.ne_of_gt hpos)
  have hload : loadLoop s.mem (n + 1) (n + 1) s.input emptyReader =
      loadLoop s.mem (n + 1) n { s.input with inPos := s.input.inPos + 1 } { brCache := b.setWidth 32, brCount := 8 } := by
    rw [loadLoop, if_pos ⟨hpos, hlt⟩, hbyte]
    simp [emptyReader]
  have hstop : ∀ (fuel : Nat) (inp : Input), loadLoop s.mem (n + 1) fuel inp { brCache := b.setWidth 32, brCount := 8 } =
      (inp, { brCache := b.setWidth 32, brCount := 8 }) := by
    intro fuel inp
    cases fuel with
    | zero => rfl
    | succ fuel => exact if_neg fun h => absurd h.1 (Nat.not_lt_of_le hn)
  rw [load, hr, Nat.succ_eq_add_one, hload, hstop]
  rfl

/-- R68: a whole byte read with an empty cache leaves the cache empty. -/
theorem getBits_byte {s : State} {b : Byte} {rest : List Byte} (hr : s.reader = emptyReader) (hb : unreadBytes s = b :: rest) :
    getBits 8 s = (some b.toNat, takeByte s) := by
  have hvalue : (b.setWidth 32).toNat % 2 ^ 8 = b.toNat := by
    rw [BitVec.toNat_setWidth_of_le (by decide)]
    exact Nat.mod_eq_of_lt b.isLt
  have hdrop : dropBits 8 { brCache := b.setWidth 32, brCount := 8 } = emptyReader := by
    have : b.setWidth 32 >>> 8 = 0#32 := by
      refine BitVec.eq_of_toNat_eq ?_
      rw [BitVec.toNat_ushiftRight, BitVec.toNat_setWidth_of_le (by decide)]
      exact Nat.shiftRight_eq_zero _ _ b.isLt
    rw [dropBits, this]
    rfl
  rw [getBits, load_byte hr hb (by decide) (by decide)]
  dsimp only
  rw [if_pos (Nat.le_refl 8), hvalue, hdrop, ← hr]
  rfl

theorem withBits_byte {f : Nat → State → StepOut × State} {s : State} {b : Byte} {rest : List Byte}
    (hr : s.reader = emptyReader) (hb : unreadBytes s = b :: rest) : withBits 8 f s = f b.toNat (takeByte s) := by
  rw [withBits, getBits_byte hr hb]

/-! ### The header (R134, R135, R146, R147) -/

section
variable {s u : State} {b : Byte} {rest : List Byte}

/-- A stream in a final block, on a byte boundary, with nothing but input consumed and decoder elements written. -/
structure InHeader (s : State) (bytes : List Byte) (d : DecState) (u : State) : Prop where
  frame : u = { s with input := { s.input with inPos := u.input.inPos }, reader := emptyReader, dec := u.dec }
  bytes : unreadBytes u = bytes
  bfinal : u.dec.bfinal = true
  state : u.dec.decState = d

theorem InHeader.reader (h : InHeader s rest d u) : u.reader = emptyReader := by rw [h.frame]

/-- The byte of a header state is read, and only the decoder's elements change besides. -/
theorem InHeader.next {d' : DecState} {x : Decoder} (h : InHeader s (b :: rest) d u) (hfinal : x.bfinal = true)
    (hstate : x.decState = d') : InHeader s rest d' { takeByte u with dec := x } where
  frame := by
    rw [h.frame]
    rfl
  bytes := (unreadBytes_cons_iff h.bytes).2.2
  bfinal := hfinal
  state := hstate

theorem runSteps_next {v : State} (h : decStep u = (.ok, v)) (fuel : Nat) : runSteps (fuel + 1) u = runSteps fuel v := by
  rw [runSteps_of_ok (by rw [h]), h]

/-- The cached bits of a first byte, one, two and five taken in turn. -/
def firstReader (b : Byte) : BitReader := { brCache := b.setWidth 32, brCount := 8 }

theorem firstReader_empty (b : Byte) : skipToByteBoundary (dropBits 2 (dropBits 1 (firstReader b))) = emptyReader := by
  have hzero : b.setWidth 32 >>> 1 >>> 2 >>> 5 = 0#32 := by
    refine BitVec.eq_of_toNat_eq ?_
    simp only [BitVec.toNat_ushiftRight, BitVec.toNat_setWidth_of_le (show (8 : Nat) ≤ 32 by decide), ← Nat.shiftRight_add]
    exact Nat.shiftRight_eq_zero _ _ b.isLt
  simp only [skipToByteBoundary, dropBits, firstReader, emptyReader]
  exact congrArg (BitReader.mk · 0) hzero

/-- R134, R135, R146: a first byte with BFINAL 1 and BTYPE 00 leads to the byte boundary after it. -/
theorem header_first {first : Byte} (hr : s.reader = emptyReader) (hb : unreadBytes s = first :: rest)
    (hstate : s.dec.decState = .readingBFinal) (hfirst : first.toNat % 8 = 1) :
    ∃ u, InHeader s rest .uncompressedByte1 u ∧ ∀ fuel, runSteps (fuel + 3) s = runSteps fuel u := by
  have hword : (first.setWidth 32).toNat = first.toNat := BitVec.toNat_setWidth_of_le (by decide)
  let s1 : State := { takeByte s with reader := dropBits 1 (firstReader first)
                                      dec := { s.dec with bfinal := true, decState := .readingBType } }
  let s2 : State := { s1 with reader := dropBits 2 (dropBits 1 (firstReader first))
                              dec := { s1.dec with decState := .uncompressedAligning } }
  let s3 : State := { s2 with reader := emptyReader, dec := { s2.dec with decState := .uncompressedByte1 } }
  have h1 : decStep s = (.ok, s1) := by
    have hbit : (first.setWidth 32).toNat % 2 ^ 1 = 1 := by omega
    have hbits : getBits 1 s = (some 1, { takeByte s with reader := dropBits 1 (firstReader first) }) := by
      rw [getBits, load_byte hr hb (by decide) (by decide)]
      dsimp only
      rw [if_pos (by decide), hbit]
      rfl
    simp only [decStep, hstate, decReadingBFinal, withBits, hbits]
    rfl
  have h2 : decStep s1 = (.ok, s2) := by
    have hbit : (first.setWidth 32 >>> 1).toNat % 2 ^ 2 = 0 := by
      rw [BitVec.toNat_ushiftRight, Nat.shiftRight_eq_div_pow]
      omega
    have hbits : getBits 2 s1 = (some 0, { s1 with reader := dropBits 2 (dropBits 1 (firstReader first)) }) := by
      have h7 : 2 ≤ s1.reader.brCount := show 2 ≤ 7 by decide
      rw [getBits, load_of_cached h7]
      exact (if_pos h7).trans (congrArg (fun v => (some v, _)) hbit)
    simp only [decStep, s1, decReadingBType, withBits]
    simp only [s1] at hbits
    rw [hbits]
    rfl
  have h3 : decStep s2 = (.ok, s3) := by
    have hskip := firstReader_empty first
    simp only [decStep, s2, s3, decUncompressedAligning, hskip]
  refine ⟨s3, ⟨rfl, (unreadBytes_cons_iff hb).2.2, rfl, rfl⟩, fun fuel => ?_⟩
  rw [runSteps_next h1, runSteps_next h2, runSteps_next h3]

section
variable (hr : s.reader = emptyReader) (hb : unreadBytes s = b :: rest)
include hr hb

theorem decStep_byte1 (hstate : s.dec.decState = .uncompressedByte1) :
    decStep s = (.ok, { takeByte s with dec := { s.dec with lenLo := b, decState := .uncompressedByte2 } }) := by
  simp only [decStep, hstate, decUncompressedByte1, withBits_byte hr hb, BitVec.ofNat_toNat, BitVec.setWidth_eq]
  rfl

theorem decStep_byte2 (hstate : s.dec.decState = .uncompressedByte2) :
    decStep s = (.ok, { takeByte s with
      dec := { s.dec with storedLen := b ++ s.dec.lenLo, decState := .uncompressedByte3 } }) := by
  simp only [decStep, hstate, decUncompressedByte2, withBits_byte hr hb, BitVec.ofNat_toNat, BitVec.setWidth_eq]
  rfl

theorem decStep_byte3 (hstate : s.dec.decState = .uncompressedByte3) :
    decStep s = (.ok, { takeByte s with dec := { s.dec with nlenLo := b, decState := .uncompressedByte4 } }) := by
  simp only [decStep, hstate, decUncompressedByte3, withBits_byte hr hb, BitVec.ofNat_toNat, BitVec.setWidth_eq]
  rfl

theorem decStep_byte4 (hstate : s.dec.decState = .uncompressedByte4) (hnlen : (b ++ s.dec.nlenLo : BitVec 16) = ~~~ s.dec.storedLen) :
    decStep s = (.ok, { takeByte s with
      dec := { s.dec with storedRem := s.dec.storedLen.toNat, decState := .decodingUncompressed } }) := by
  simp only [decStep, hstate, decUncompressedByte4, withBits_byte hr hb, BitVec.ofNat_toNat, BitVec.setWidth_eq]
  exact if_neg (not_not.mpr hnlen)

end

theorem toNat_append_byte (hi lo : Byte) : (hi ++ lo : BitVec 16).toNat = lo.toNat + 256 * hi.toNat := by
  have := toNat_append_bytes lo hi.isLt
  rwa [BitVec.ofNat_toNat, BitVec.setWidth_eq] at this

/-- R147: LEN and NLEN, byte by byte. -/
theorem header_lengths {l0 l1 n0 n1 : Byte} (h : InHeader s (l0 :: l1 :: n0 :: n1 :: rest) .uncompressedByte1 u)
    (hlen : n0.toNat + 256 * n1.toNat = 65535 - (l0.toNat + 256 * l1.toNat)) :
    ∃ v, InHeader s rest .decodingUncompressed v ∧ v.dec.storedRem = l0.toNat + 256 * l1.toNat ∧
      ∀ fuel, runSteps (fuel + 4) u = runSteps fuel v := by
  have e1 := decStep_byte1 h.reader h.bytes h.state
  have h1 := h.next (x := { u.dec with lenLo := l0, decState := .uncompressedByte2 }) h.bfinal rfl
  have e2 := decStep_byte2 h1.reader h1.bytes h1.state
  have h2 := h1.next (x := { u.dec with lenLo := l0, storedLen := l1 ++ l0, decState := .uncompressedByte3 }) h.bfinal rfl
  have e3 := decStep_byte3 h2.reader h2.bytes h2.state
  have h3 := h2.next (x := { u.dec with lenLo := l0, storedLen := l1 ++ l0, nlenLo := n0, decState := .uncompressedByte4 })
    h.bfinal rfl
  have hnlen : (n1 ++ n0 : BitVec 16) = ~~~ (l1 ++ l0 : BitVec 16) := by
    rw [BitVec.toNat_eq, BitVec.toNat_not, toNat_append_byte, toNat_append_byte, hlen]
  have e4 := decStep_byte4 h3.reader h3.bytes h3.state hnlen
  have h4 := h3.next (x := { u.dec with lenLo := l0, storedLen := l1 ++ l0, nlenLo := n0,
                                        storedRem := (l1 ++ l0 : BitVec 16).toNat, decState := .decodingUncompressed })
    h.bfinal rfl
  refine ⟨_, h4, toNat_append_byte l1 l0, fun fuel => ?_⟩
  rw [runSteps_next e1, runSteps_next e2, runSteps_next e3, runSteps_next e4]

end
end Sys2Proof.Machine
end

section
/-! PROOF. The raw bytes of a final stored block (R80, R148, R150): what has been read is in OUT_BUF and, after it, undrained in
the window; every step and every drain moves one of the two borders. -/

namespace Sys2Proof.Machine

/-! ### The window as a queue (R78, R80) -/

/-- The undrained bytes are the bytes before the cursor. -/
theorem oldestBytes_eq_windowBytes {w : Nat} {x : Window} (h : x.winUsed ≤ w) :
    oldestBytes w x x.winUsed = (List.range x.winUsed).map fun j => windowByte w x (x.winUsed - j) := by
  rw [oldestBytes_eq]
  refine List.map_congr_left fun j hj => ?_
  have hj := List.mem_range.mp hj
  have hidx : x.winEnd + w - x.winUsed + j = x.winEnd + w - (x.winUsed - j) := by omega
  rw [windowByte, hidx]

/-- R78: a byte written joins the undrained bytes at their end. -/
theorem oldestBytes_writeLiteral {w : Nat} {x : Window} (b : Byte) (hwf : Memory.wf x.win = true) (he : x.winEnd < w)
    (hroom : x.winUsed < w) :
    oldestBytes w (writeLiteral w b x) (writeLiteral w b x).winUsed = oldestBytes w x x.winUsed ++ [b] := by
  rw [oldestBytes_eq_windowBytes (by rw [writeLiteral_winUsed]; exact hroom), oldestBytes_eq_windowBytes hroom.le,
    writeLiteral_winUsed, List.range_succ, List.map_append, List.map_singleton, Nat.add_sub_cancel_left,
    windowByte_writeLiteral_one b hwf he]
  refine congrArg (· ++ [b]) (List.map_congr_left fun j hj => ?_)
  have hj := List.mem_range.mp hj
  rw [Nat.sub_add_comm hj.le, windowByte_writeLiteral_succ b he (by omega) (by omega)]

/-- The bytes of OUT_BUF after a write that follows those before. -/
theorem outBytes_writeOut {m : Memory} (h : Memory.wf m = true) (n : Nat) (bytes : List Byte) :
    outBytes (writeOut m n bytes) (n + bytes.length) = outBytes m n ++ bytes := by
  have hold : Memory.readBytes (Memory.writeBytes m (outBase + n) bytes) outBase n = Memory.readBytes m outBase n :=
    Memory.readBytes_writeBytes_outside m (outBase + n) bytes (.inl (Nat.le_refl _))
  have hnew := Memory.readBytes_writeBytes_self h (outBase + n) bytes
  have hsplit : ∀ m' : Memory, outBytes m' (n + bytes.length) =
      Memory.readBytes m' outBase n ++ Memory.readBytes m' (outBase + n) bytes.length := by
    intro m'
    simp only [outBytes, Memory.readBytes, List.range_add, List.map_append, List.map_map, Nat.add_assoc, Function.comp_def]
  rw [hsplit, writeOut, hold, hnew]
  rfl

/-- R36, R37: output leaves the input unread as it is. -/
theorem unreadBytes_writeOut {u : State} (hlen : u.input.inLen ≤ 2 ^ 20) (n : Nat) (bytes : List Byte) (x : Window) :
    unreadBytes { u with mem := writeOut u.mem n bytes, window := x } = unreadBytes u := by
  refine List.map_congr_left fun j hj => ?_
  have hj := List.mem_range.mp hj
  refine Memory.read_writeBytes_outside bytes u.mem _ _ ?_
  dsimp only at hj
  simp only [inBase, outBase]
  omega

/-! ### The copy -/

/-- Of the raw bytes, `p` have been read and the first `written` of them are in OUT_BUF; the others wait in the window. -/
structure Copying (w : Nat) (raw : List Byte) (written p : Nat) (u : State) : Prop where
  size : windowSize u.wbits = w
  reader : u.reader = emptyReader
  bytes : unreadBytes u = raw.drop p
  inLen : u.input.inLen ≤ 2 ^ 20
  bfinal : u.dec.bfinal = true
  rem : u.dec.storedRem = raw.length - p
  le : written ≤ p
  all : p ≤ raw.length
  used : u.window.winUsed = p - written
  ring : u.window.InRange w
  win : Memory.wf u.window.win = true
  undrained : oldestBytes w u.window u.window.winUsed = (raw.drop written).take (p - written)
  mem : Memory.wf u.mem = true
  out : outBytes u.mem written = raw.take written

section
variable {w : Nat} {raw : List Byte} {written p : Nat} {u : State}

/-- R148: a stored byte goes to the window. -/
theorem Copying.step (h : Copying w raw written p u) (hstate : u.dec.decState = .decodingUncompressed)
    (hmore : p < raw.length) (hroom : u.window.winUsed < w) :
    ∃ v, decStep u = (.ok, v) ∧ Copying w raw written (p + 1) v ∧ v.dec.decState = .decodingUncompressed := by
  have hcons : unreadBytes u = raw[p] :: raw.drop (p + 1) := by rw [h.bytes, List.drop_eq_getElem_cons hmore]
  have hrem : ¬ u.dec.storedRem = 0 := by
    rw [h.rem]
    omega
  have hfree : ¬ freeBytes w u.window = 0 := by
    rw [freeBytes]
    omega
  have hstep : decStep u = (.ok, { takeByte u with window := writeLiteral w raw[p] u.window
                                                   dec := { u.dec with storedRem := u.dec.storedRem - 1 } }) := by
    rw [decStep, hstate]
    dsimp only
    rw [decDecodingUncompressed, if_neg hrem, h.size, if_neg hfree, withBits_byte h.reader hcons, BitVec.ofNat_toNat,
      BitVec.setWidth_eq]
    simp only [takeByte, h.size]
  refine ⟨_, hstep, ?_, hstate⟩
  have hle := h.le
  exact
    { size := h.size, reader := h.reader, bytes := (unreadBytes_cons_iff hcons).2.2, inLen := h.inLen, bfinal := h.bfinal
      rem := by
        dsimp only
        rw [h.rem]
        omega
      le := Nat.le_succ_of_le hle
      all := hmore
      used := by
        rw [writeLiteral_winUsed, h.used]
        omega
      ring := writeLiteral_inRange _ h.ring hroom
      win := writeLiteral_wf _ h.win
      undrained := by
        have hidx : p + 1 - written = p - written + 1 := by omega
        have hlt : p - written < (raw.drop written).length := by
          rw [List.length_drop]
          omega
        rw [oldestBytes_writeLiteral _ h.win h.ring.cursor hroom, h.undrained, hidx,
          List.take_succ_eq_append_getElem hlt, List.getElem_drop]
        simp only [Nat.add_sub_cancel' hle]
      mem := h.mem, out := h.out }

/-- R148: with the ring full the copy waits for a drain, its last byte aside. -/
theorem Copying.stall (h : Copying w raw written p u) (hstate : u.dec.decState = .decodingUncompressed)
    (hmore : p < raw.length) (hfull : w ≤ u.window.winUsed) : decStep u = (.needOut, u) := by
  have hrem : ¬ u.dec.storedRem = 0 := by
    rw [h.rem]
    omega
  have hfree : freeBytes w u.window = 0 := Nat.sub_eq_zero_of_le hfull
  rw [decStep, hstate]
  dsimp only
  rw [decDecodingUncompressed, if_neg hrem, h.size, if_pos hfree]

/-- R148: after the last byte the stream, whose block is final, is done. -/
theorem Copying.last (h : Copying w raw written raw.length u) (hstate : u.dec.decState = .decodingUncompressed) :
    ∃ v, decStep u = (.ok, v) ∧ Copying w raw written raw.length v ∧ v.dec.decState = .done := by
  have hrem : u.dec.storedRem = 0 := by rw [h.rem, Nat.sub_self]
  have hafter : afterBlock u.dec = .done := if_pos h.bfinal
  have hstep : decStep u = (.ok, { u with dec := { u.dec with decState := .done } }) := by
    rw [decStep, hstate]
    dsimp only
    rw [decDecodingUncompressed, if_pos hrem, hafter]
  exact ⟨_, hstep, { h with }, rfl⟩

/-- The steps of one turn from `u`: they stop at a full ring before the last byte, or when the stream is done. -/
def TurnCopies (w : Nat) (raw : List Byte) (written : Nat) (u : State) : Prop :=
  ∀ fuel r, runSteps fuel u = some r →
    (r.1 = .needOut ∧ r.2.dec.decState = .decodingUncompressed ∧ ∃ p < raw.length, Copying w raw written p r.2) ∨
    (r.1 = .done ∧ r.2.dec.decState = .done ∧ Copying w raw written raw.length r.2)

theorem Copying.turn (h : Copying w raw written p u) (hstate : u.dec.decState = .decodingUncompressed) :
    TurnCopies w raw written u := by
  intro fuel
  induction fuel generalizing p u with
  | zero => exact fun _ h => nomatch h
  | succ fuel ih =>
    intro r hrun
    rcases Nat.lt_or_eq_of_le h.all with hmore | rfl
    · rcases Nat.lt_or_ge u.window.winUsed w with hroom | hfull
      · obtain ⟨v, hstep, hv, hstate'⟩ := h.step hstate hmore hroom
        rw [runSteps_next hstep] at hrun
        exact ih hv hstate' r hrun
      · have hstep := h.stall hstate hmore hfull
        rw [runSteps_of_ne (by rw [hstep]; exact StepOut.noConfusion), hstep] at hrun
        cases hrun
        exact .inl ⟨rfl, hstate, p, hmore, h⟩
    · obtain ⟨v, hstep, hv, hdone⟩ := h.last hstate
      rw [runSteps_next hstep] at hrun
      cases fuel with
      | zero => cases hrun
      | succ fuel =>
        have hend : decStep v = (.done, v) := by
          rw [decStep, hdone]
        rw [runSteps_of_ne (by rw [hend]; exact StepOut.noConfusion), hend] at hrun
        cases hrun
        exact .inr ⟨rfl, hdone, hv⟩

/-- R80: with room in OUT_BUF a drain empties the window. -/
theorem Copying.drain {cap : Nat} (h : Copying w raw written p u) (hcap : p ≤ cap) :
    (drainWindow cap written u).1 = p ∧ Copying w raw p p (drainWindow cap written u).2 := by
  have hused := h.used
  have hle := h.le
  have hall : min (cap - written) u.window.winUsed = u.window.winUsed := by omega
  have hbytes : (oldestBytes w u.window u.window.winUsed).length = p - written := by rw [oldestBytes_length, hused]
  refine ⟨by dsimp only [drainWindow]; omega, ?_⟩
  rw [drainWindow, hall]
  dsimp only
  rw [h.size]
  exact
    { size := h.size, reader := h.reader, bytes := (unreadBytes_writeOut h.inLen written _ _).trans h.bytes
      inLen := h.inLen, bfinal := h.bfinal, rem := h.rem, le := Nat.le_refl p, all := h.all
      used := by rw [Nat.sub_self, Nat.sub_self]
      ring := drain_inRange _ h.ring
      win := h.win
      undrained := by
        rw [Nat.sub_self, Nat.sub_self, List.take_zero]
        rfl
      mem := writeOut_wf _ _ h.mem
      out := by
        have hout := outBytes_writeOut h.mem written (oldestBytes w u.window u.window.winUsed)
        rw [hbytes, Nat.add_sub_cancel' hle, h.out, h.undrained] at hout
        rw [h.undrained, hout, ← List.take_add, Nat.add_sub_cancel' hle] }

/-- The run to the end of the stream, from the start of a turn with an empty window. -/
theorem TurnCopies.decodeLoop {cap fuel : Nat} {r : RunEnd} (hcap : raw.length ≤ cap) : ∀ {p : Nat} {u : State},
    TurnCopies w raw p u → u.dec.decState ≠ .done → p < cap → Machine.decodeLoop cap fuel p u = some r →
    r.raised = .none ∧ r.written = raw.length ∧ r.state.dec.decState = .done ∧ Copying w raw raw.length raw.length r.state := by
  induction fuel with
  | zero => exact fun _ _ _ h => nomatch h
  | succ fuel ih =>
    intro p u h hstate hlt hrun
    rw [Machine.decodeLoop, if_pos ⟨hlt, hstate⟩] at hrun
    split at hrun
    · cases hrun
    · rename_i e v hsteps
      rcases h _ _ hsteps with ⟨he, -⟩ | ⟨he, -⟩ <;> cases he
    · rename_i o v _ hsteps
      rcases h _ _ hsteps with ⟨he, hstate', p', hp', hv⟩ | ⟨he, hdone, hv⟩ <;> cases he
      · obtain ⟨hwritten, hd⟩ := hv.drain (cap := cap) (hp'.le.trans hcap)
        dsimp only at hrun
        rw [if_neg StepOut.noConfusion, hwritten] at hrun
        exact ih (hd.turn hstate') (by rw [drainWindow_dec, hstate']; exact DecState.noConfusion) (hp'.trans_le hcap) hrun
      · obtain ⟨hwritten, hd⟩ := hv.drain (cap := cap) hcap
        dsimp only at hrun
        rw [if_neg StepOut.noConfusion, hwritten] at hrun
        cases fuel with
        | zero => cases hrun
        | succ fuel =>
          rw [Machine.decodeLoop, if_neg fun hgo => hgo.2 hdone] at hrun
          cases hrun
          exact ⟨rfl, rfl, hdone, hd⟩

/-! ### The block -/

/-- The header's five bytes, then the copy of the raw bytes. -/
theorem header_copying {s : State} {first : Byte} (hwf : s.wf) (hmode : s.mode = .decode)
    (hstate : s.dec.decState = .readingBFinal) (hcount : s.reader.brCount = 0) (hused : s.window.winUsed = 0)
    (hfirst : first.toNat % 8 = 1) (hraw : raw.length ≤ 65535) (hbytes : unreadBytes s = storedBlockBytes first raw) :
    ∃ v, (∀ fuel, runSteps (fuel + 7) s = runSteps fuel v) ∧ Copying (windowSize s.wbits) raw 0 0 v ∧
      v.dec.decState = .decodingUncompressed := by
  have hr : s.reader = emptyReader := by
    have hcache := hwf.reader.cache
    rw [hcount, Nat.pow_zero, Nat.lt_one_iff] at hcache
    exact congrArg₂ BitReader.mk (BitVec.eq_of_toNat_eq hcache) hcount
  obtain ⟨u, hu, hsteps⟩ := header_first hr hbytes hstate hfirst
  obtain ⟨v, hv, hrem, hsteps'⟩ := header_lengths hu (by
    simp only [BitVec.toNat_ofNat]
    omega)
  have hframe := hv.frame
  obtain ⟨-, hring, -⟩ := ((windowInRange_iff s).mp hwf.window).2 hmode
  have hbound : s.input.inLen ≤ 2 ^ 20 := by
    have hcap : s.params.inCap ≤ 2 ^ 20 := by
      have := hwf.params
      simp only [paramsLegal, Bool.and_eq_true, decide_eq_true_eq] at this
      omega
    exact hwf.input.len.trans hcap
  have hmem : v.mem = s.mem := by rw [hframe]
  have hwindow : v.window = s.window := by rw [hframe]
  have hwbits : v.wbits = s.wbits := by rw [hframe]
  have hlen : v.input.inLen = s.input.inLen := by rw [hframe]
  refine ⟨v, fun fuel => (hsteps (fuel + 4)).trans (hsteps' fuel), ?_, hv.state⟩
  exact
    { size := by rw [hwbits]
      reader := hv.reader, bytes := hv.bytes
      inLen := by rwa [hlen]
      bfinal := hv.bfinal
      rem := by
        rw [hrem]
        simp only [BitVec.toNat_ofNat]
        omega
      le := Nat.le_refl 0, all := Nat.zero_le _
      used := by rw [hwindow, hused]
      ring := by rwa [hwindow]
      win := by rw [hwindow]; exact hwf.memory.win
      undrained := by
        rw [hwindow, hused]
        rfl
      mem := by rw [hmem]; exact hwf.memory.mem
      out := rfl }

/-- Settles O37: the header leads to the copy, and the turns of the driver carry the copy to the end of the raw bytes. -/
theorem storedFinalBlockDecodesToItsBytes : Obligations.StoredFinalBlockDecodesToItsBytes := by
  unfold Obligations.StoredFinalBlockDecodesToItsBytes
  intro s cap first raw hwf herr hmode hstate hcount hused hfirst hraw hbytes hlen hcap houtcap
  obtain ⟨v, hsteps, hcopy, hvstate⟩ := header_copying hwf hmode hstate hcount hused hfirst hraw hbytes
  have hturn : TurnCopies (windowSize s.wbits) raw 0 s := by
    intro fuel r hrun
    obtain ⟨r', hr'⟩ := runSteps_ends (decBound s + 7) (s := s) (by have := decMeasure_lt_decBound s; omega)
    rw [runSteps_unique hrun hr']
    exact hcopy.turn hvstate _ r' ((hsteps _).symm.trans hr')
  have hdrain : drainWindow cap.toNat 0 s = (0, s) := by
    have hnone : min (cap.toNat - 0) s.window.winUsed = 0 := by rw [hused, Nat.min_zero]
    rw [drainWindow, hnone]
    rfl
  obtain ⟨r, hr⟩ := decodeRun_ends cap.toNat (s := s) (hwf.window.wbits hmode)
  obtain ⟨hrun, -⟩ := decodeRun_run hr
  have hloop := hr
  rw [decodeRun, hdrain] at hloop
  obtain ⟨hraised, hwritten, hdone, hend⟩ :=
    hturn.decodeLoop hlen (by rw [hstate]; exact DecState.noConfusion) hcap hloop
  have hrmode : r.state.mode = .decode := by
    rw [hrun.frame]
    exact hmode
  have hrerr : r.state.err = .none := by
    rw [hrun.frame]
    exact herr
  have hfinished : finished r.state = true := by
    rw [finished_decode hrmode, hdone, hend.used, Nat.sub_self]
    rfl
  have hconsumed : r.state.input.inLen ≤ r.state.input.inPos := by
    have hnil := congrArg List.length hend.bytes
    rw [unreadBytes, List.length_map, List.length_range, List.length_drop, Nat.sub_self] at hnil
    exact Nat.le_of_sub_eq_zero hnil
  have hbound := hrun.input.bound hwf.input.pos
  rw [← hrun.input.len] at hbound
  refine ⟨_, (exec_produceOutput_decode herr hmode houtcap).trans (decodeOutput_of_run hr), ?_⟩
  rw [endRun, if_pos hraised, hwritten]
  refine ⟨hrerr, hdone, Nat.le_antisymm hbound hconsumed, ?_, ?_⟩
  · rw [outputEnd_result, hfinished]
  · exact hend.out.trans (List.take_length ..)

end
end Sys2Proof.Machine
end

section
/-! PROOF. The run-length coding of code lengths (R58, R115, R121): the symbols of one run, then the runs in order. -/

namespace Sys2Proof.Machine

/-- What R58 asks of a code-length symbol. -/
structure ClItem.InRange (it : ClItem) : Prop where
  sym : it.sym < 19
  bits : it.extraBits = Alphabet.cl.extraBits it.sym
  extra : it.extra < 2 ^ it.extraBits

/-- The bounds that R115 sets before a run of `cur` that follows a run of `prev`. -/
def boundsFor (prev : Option Nat) (cur : Nat) : Nat × Nat :=
  if cur = 0 then (138, 3) else if prev = some cur then (6, 3) else (7, 4)

theorem runBounds_some (c d : Nat) : runBounds c (some d) = boundsFor (some c) d := by
  simp only [runBounds, boundsFor, Option.some.injEq, eq_comm (a := d) (b := c)]

/-- `prev` is the last of the lengths so far, or none is known. -/
def PrevIs (out : List Nat) (prev : Option Nat) : Prop := ∀ c, prev = some c → ∃ before, out = before ++ [c]

theorem at0_last (before : List Nat) (c : Nat) : at0 (before ++ [c]) ((before ++ [c]).length - 1) = c := by
  simp [at0]

theorem prevIs_append_replicate (out : List Nat) (cur : Nat) {count : Nat} (h : 0 < count) :
    PrevIs (out ++ List.replicate count cur) (some cur) := by
  rintro c ⟨⟩
  obtain ⟨n, rfl⟩ := Nat.exists_eq_succ_of_ne_zero h.ne'
  exact ⟨out ++ List.replicate n cur, by rw [Nat.succ_eq_add_one, List.replicate_succ', List.append_assoc]⟩

/-! ### One symbol (R58) -/

section
variable (out : List Nat) (rest : List ClItem)

theorem expandItems_length {cur : Nat} (h : cur ≤ 15) :
    expandItems out ({ sym := cur, extra := 0, extraBits := 0 } :: rest) = expandItems (out ++ [cur]) rest := by
  rw [expandItems, if_neg (by dsimp only; omega), if_neg (by dsimp only; omega), if_neg (by dsimp only; omega)]

theorem expandItems_lengths {cur : Nat} (h : cur ≤ 15) (count : Nat) :
    expandItems out (List.replicate count { sym := cur, extra := 0, extraBits := 0 } ++ rest) =
      expandItems (out ++ List.replicate count cur) rest := by
  induction count generalizing out with
  | zero => rw [List.replicate_zero, List.replicate_zero, List.append_nil, List.nil_append]
  | succ count ih =>
    rw [List.replicate_succ, List.cons_append, expandItems_length _ _ h, ih, List.append_assoc, List.replicate_succ,
      List.singleton_append]

theorem expandItems_repeat (before : List Nat) (cur : Nat) {count : Nat} (h : 3 ≤ count) (bits : Nat) :
    expandItems (before ++ [cur]) ({ sym := 16, extra := count - 3, extraBits := bits } :: rest) =
      expandItems (before ++ [cur] ++ List.replicate count cur) rest := by
  rw [expandItems, if_pos rfl, at0_last, Nat.add_sub_cancel' h]

theorem expandItems_zeros {count : Nat} (h : 3 ≤ count) (bits : Nat) :
    expandItems out ({ sym := 17, extra := count - 3, extraBits := bits } :: rest) =
      expandItems (out ++ List.replicate count 0) rest := by
  rw [expandItems, if_neg (by dsimp only; omega), if_pos rfl, Nat.add_sub_cancel' h]

theorem expandItems_manyZeros {count : Nat} (h : 11 ≤ count) (bits : Nat) :
    expandItems out ({ sym := 18, extra := count - 11, extraBits := bits } :: rest) =
      expandItems (out ++ List.replicate count 0) rest := by
  rw [expandItems, if_neg (by dsimp only; omega), if_neg (by dsimp only; omega), if_pos rfl, Nat.add_sub_cancel' h]

end

theorem inRange_length {cur : Nat} (h : cur ≤ 15) : ClItem.InRange { sym := cur, extra := 0, extraBits := 0 } where
  sym := by
    dsimp only
    omega
  bits := by
    interval_cases cur <;> rfl
  extra := Nat.zero_lt_one

/-! ### One run (R115) -/

/-- The items `its`, after the lengths `out` of which `prev` is the last, stand for `lens`. -/
structure StandFor (out : List Nat) (prev : Option Nat) (lens : List Nat) (its : List ClItem) : Prop where
  expand : ∀ rest, expandItems out (its ++ rest) = expandItems (out ++ lens) rest
  inRange : ∀ it ∈ its, it.InRange
  first : prev = none → its.head?.map ClItem.sym ≠ some 16

section
variable {out : List Nat} {prev : Option Nat} {cur count : Nat}

theorem StandFor.append {lens lens' : List Nat} {its its' : List ClItem} (h : StandFor out prev lens its)
    (h' : StandFor (out ++ lens) (some cur) lens' its') (hne : its ≠ []) : StandFor out prev (lens ++ lens') (its ++ its') where
  expand rest := by rw [List.append_assoc, h.expand, h'.expand, List.append_assoc]
  inRange it hit := (List.mem_append.mp hit).elim (h.inRange it) (h'.inRange it)
  first hprev := by
    rw [List.head?_append_of_ne_nil its hne]
    exact h.first hprev

/-- A run written as one length each. -/
theorem standFor_lengths (hcur : cur ≤ 15) :
    StandFor out prev (List.replicate count cur) (List.replicate count { sym := cur, extra := 0, extraBits := 0 }) where
  expand rest := expandItems_lengths out rest hcur count
  inRange it hit := by
    rw [List.eq_of_mem_replicate hit]
    exact inRange_length hcur
  first _ h := by
    have h := (List.mem_map.mp (List.mem_of_mem_head? ((List.head?_map (f := ClItem.sym)).trans h)))
    obtain ⟨it, hit, hsym⟩ := h
    rw [List.eq_of_mem_replicate hit] at hsym
    dsimp only at hsym
    omega

/-- A run that repeats the length before it. -/
theorem standFor_repeat (hprev : PrevIs out (some cur)) (hmin : 3 ≤ count) (hmax : count ≤ 6) :
    StandFor out (some cur) (List.replicate count cur) [{ sym := 16, extra := count - 3, extraBits := 2 }] where
  expand rest := by
    obtain ⟨before, rfl⟩ := hprev cur rfl
    exact expandItems_repeat rest before cur hmin 2
  inRange it hit := by
    cases List.mem_singleton.mp hit
    exact ⟨show 16 < 19 by decide, rfl, show count - 3 < 4 by omega⟩
  first h := nomatch h

theorem standFor_zeros (hmin : 3 ≤ count) (hmax : count ≤ 10) :
    StandFor out prev (List.replicate count 0) [{ sym := 17, extra := count - 3, extraBits := 3 }] where
  expand rest := expandItems_zeros out rest hmin 3
  inRange it hit := by
    cases List.mem_singleton.mp hit
    exact ⟨show 17 < 19 by decide, rfl, show count - 3 < 8 by omega⟩
  first _ h := nomatch h

theorem standFor_manyZeros (hmin : 11 ≤ count) (hmax : count ≤ 138) :
    StandFor out prev (List.replicate count 0) [{ sym := 18, extra := count - 11, extraBits := 7 }] where
  expand rest := expandItems_manyZeros out rest hmin 7
  inRange it hit := by
    cases List.mem_singleton.mp hit
    exact ⟨show 18 < 19 by decide, rfl, show count - 11 < 128 by omega⟩
  first _ h := nomatch h

theorem runItems_standFor (hcur : cur ≤ 15) (hprev : PrevIs out prev) (hmax : count ≤ (boundsFor prev cur).1) :
    StandFor out prev (List.replicate count cur) (runItems prev cur count (boundsFor prev cur).2) := by
  unfold runItems
  split
  · exact standFor_lengths hcur
  rename_i hmin
  by_cases hzero : cur = 0
  · subst hzero
    simp only [boundsFor, if_true] at hmin hmax
    rw [if_neg (not_not.mpr rfl)]
    split
    · exact standFor_zeros (by omega) ‹_›
    · exact standFor_manyZeros (by omega) hmax
  rw [if_pos hzero]
  by_cases hsame : prev = some cur
  · subst hsame
    simp only [boundsFor, if_neg hzero, if_true] at hmin hmax
    rw [if_neg (not_not.mpr rfl)]
    exact standFor_repeat hprev (by omega) hmax
  · simp only [boundsFor, if_neg hzero, if_neg hsame] at hmin hmax
    rw [if_pos hsame]
    have hone : StandFor out prev [cur] [{ sym := cur, extra := 0, extraBits := 0 }] := standFor_lengths (count := 1) hcur
    have hmore : StandFor (out ++ [cur]) (some cur) (List.replicate (count - 1) cur)
        [{ sym := 16, extra := count - 1 - 3, extraBits := 2 }] :=
      standFor_repeat (prevIs_append_replicate out cur Nat.one_pos) (by omega) (by omega)
    have hsplit : List.replicate count cur = [cur] ++ List.replicate (count - 1) cur := by
      rw [List.singleton_append, ← List.replicate_succ]
      congr 1
      omega
    rw [hsplit]
    exact hone.append hmore (List.cons_ne_nil _ _)

theorem runItems_ne_nil (h : 0 < count) (minCount : Nat) : runItems prev cur count minCount ≠ [] := by
  unfold runItems
  split
  · simp [h.ne']
  · split
    · split <;> exact List.cons_ne_nil _ _
    · split <;> exact List.cons_ne_nil _ _

end

/-! ### The runs in order (R115, R121) -/

theorem standFor_nil (out : List Nat) (prev : Option Nat) : StandFor out prev [] [] where
  expand _ := by rw [List.append_nil, List.nil_append]
  inRange _ hit := nomatch hit
  first _ h := nomatch h

/-- `count` lengths equal to the next one wait: with them, the symbols stand for the lengths still to scan. -/
theorem scanRuns_standFor {rest : List Nat} : ∀ {cur count : Nat} {out : List Nat} {prev : Option Nat},
    (∀ l ∈ cur :: rest, l ≤ 15) → PrevIs out prev → count < (boundsFor prev cur).1 →
    StandFor out prev (List.replicate count cur ++ cur :: rest)
      (scanRuns (cur :: rest) prev count (boundsFor prev cur).1 (boundsFor prev cur).2) := by
  induction rest with
  | nil =>
    intro cur count out prev hle hprev hcount
    rw [scanRuns, if_neg (fun h => nomatch h.2)]
    dsimp only
    rw [scanRuns, List.append_nil, ← List.replicate_succ']
    exact runItems_standFor (hle cur (List.mem_cons_self ..)) hprev hcount
  | cons next rest ih =>
    intro cur count out prev hle hprev hcount
    have hrest : ∀ l ∈ next :: rest, l ≤ 15 := fun l hl => hle l (List.mem_cons_of_mem _ hl)
    have hsplit : List.replicate count cur ++ cur :: next :: rest = List.replicate (count + 1) cur ++ next :: rest := by
      rw [List.replicate_succ', List.append_assoc, List.singleton_append]
    rw [hsplit, scanRuns]
    dsimp only
    split
    · rename_i hgo
      obtain rfl : next = cur := Option.some.inj hgo.2
      exact ih hrest hprev hgo.1
    · rw [List.head?_cons, runBounds_some]
      have hrun := runItems_standFor (hle cur (List.mem_cons_self ..)) hprev hcount
      have hpos : 0 < (boundsFor (some cur) next).1 := by
        unfold boundsFor
        split
        · decide
        · split <;> decide
      have hmore := ih (count := 0) hrest (prevIs_append_replicate out cur (Nat.succ_pos count)) hpos
      exact hrun.append hmore (runItems_ne_nil (Nat.succ_pos count) _)

theorem clItems_standFor {lens : List Nat} (maxCode : Nat) (hle : ∀ l ∈ lens, l ≤ 15) :
    StandFor [] none (lens.take (maxCode + 1)) (clItems lens maxCode) := by
  have hle : ∀ l ∈ lens.take (maxCode + 1), l ≤ 15 := fun l hl => hle l (List.mem_of_mem_take hl)
  unfold clItems
  cases hls : lens.take (maxCode + 1) with
  | nil => exact standFor_nil [] none
  | cons cur rest =>
    rw [hls] at hle
    have hprev : PrevIs [] none := fun _ h => nomatch h
    by_cases hzero : cur = 0
    · subst hzero
      exact scanRuns_standFor (count := 0) hle hprev (by decide)
    · have hbounds : boundsFor none cur = (7, 4) := by
        rw [boundsFor, if_neg hzero, if_neg (fun h => nomatch h)]
      have hrun := scanRuns_standFor (count := 0) hle hprev (by rw [hbounds]; decide)
      rw [hbounds] at hrun
      dsimp only
      have hhead : ¬ (cur :: rest).head? = some 0 := fun h => hzero (Option.some.inj h)
      rwa [if_neg hhead]

/-- Settles O47: each run's symbols stand for the run, and the runs are the lengths in order. -/
theorem codeLengthSymbolsStandForTheLengths : Obligations.CodeLengthSymbolsStandForTheLengths := by
  unfold Obligations.CodeLengthSymbolsStandForTheLengths
  intro lens maxCode hle
  have h := clItems_standFor maxCode hle
  refine ⟨?_, fun it hit => ?_, h.first rfl⟩
  · have hexpand := h.expand []
    rwa [List.append_nil, List.nil_append, expandItems] at hexpand
  · obtain ⟨hsym, hbits, hextra⟩ := h.inRange it hit
    exact ⟨hsym, hbits, hextra⟩

end Sys2Proof.Machine
end

section
/-! SUPPORT. The heap as a set of nodes (R88, R89): sifting moves the nodes of positions 1..heap_len about, and no other. Which
node comes first, the order R87 fixes; that a code is complete, and what it costs, holds for any order. -/

namespace Sys2Proof.Machine

/-- The nodes in the heap: positions 1..heap_len. -/
def activeNodes (b : TreeBuild) : List Nat := (b.heap.drop 1).take b.heapLen

/-- The nodes recorded, the last one first: positions heap_max and up. -/
def recordedNodes (b : TreeBuild) : List Nat := b.heap.drop b.heapMax

/-- The nodes of positions 1..heap_len have changed places among themselves. -/
structure Rearranged (b c : TreeBuild) : Prop where
  frame : HeapFrame b c
  perm : c.heap.Perm b.heap
  before : c.heap.take 1 = b.heap.take 1
  after : c.heap.drop (b.heapLen + 1) = b.heap.drop (b.heapLen + 1)

section
variable {b c d : TreeBuild}

theorem Rearranged.refl (b : TreeBuild) : Rearranged b b := ⟨.refl b, .refl _, rfl, rfl⟩

theorem Rearranged.heapLen (h : Rearranged b c) : c.heapLen = b.heapLen := by rw [h.frame]
theorem Rearranged.heapMax (h : Rearranged b c) : c.heapMax = b.heapMax := by rw [h.frame]
theorem Rearranged.dad (h : Rearranged b c) : c.dad = b.dad := by rw [h.frame]
theorem Rearranged.freq (h : Rearranged b c) : c.freq = b.freq := by rw [h.frame]
theorem Rearranged.heap_length (h : Rearranged b c) : c.heap.length = b.heap.length := h.perm.length_eq

theorem Rearranged.trans (h : Rearranged b c) (h' : Rearranged c d) : Rearranged b d where
  frame := h.frame.trans h'.frame
  perm := h'.perm.trans h.perm
  before := h'.before.trans h.before
  after := by
    have := h'.after
    rw [h.heapLen] at this
    exact this.trans h.after

theorem heap_eq_active (b : TreeBuild) : b.heap = b.heap.take 1 ++ (activeNodes b ++ b.heap.drop (b.heapLen + 1)) := by
  have hafter : b.heap.drop (b.heapLen + 1) = (b.heap.drop 1).drop b.heapLen := by rw [List.drop_drop, Nat.add_comm]
  rw [activeNodes, hafter, List.take_append_drop, List.take_append_drop]

theorem Rearranged.active (h : Rearranged b c) : (activeNodes c).Perm (activeNodes b) := by
  have hperm := h.perm
  rw [heap_eq_active b, heap_eq_active c, h.before, h.heapLen, h.after] at hperm
  exact (List.perm_append_right_iff _).mp ((List.perm_append_left_iff _).mp hperm)

theorem Rearranged.recorded (h : Rearranged b c) (hlt : b.heapLen < b.heapMax) : recordedNodes c = recordedNodes b := by
  obtain ⟨k, hk⟩ := Nat.exists_eq_add_of_le (Nat.succ_le_of_lt hlt)
  have hsplit : ∀ xs : List Nat, xs.drop b.heapMax = (xs.drop (b.heapLen + 1)).drop k := fun xs => by rw [List.drop_drop, hk]
  rw [recordedNodes, recordedNodes, h.heapMax, hsplit, hsplit, h.after]

end

/-- A node moved up to position i, and v put in its place: the same nodes as with v at position i. -/
theorem perm_set_set {xs : List Nat} {i j : Nat} (hi : i < xs.length) (hj : j < xs.length) (hne : i ≠ j) (v : Nat) :
    ((xs.set i (at0 xs j)).set j v).Perm (xs.set i v) := by
  have hswap := List.set_set_perm (as := xs.set i v) (i := i) (j := j) (by rwa [List.length_set]) (by rwa [List.length_set])
  rwa [List.getElem_set_self, List.getElem_set_ne hne, List.set_set, ← at0_eq_getElem hj] at hswap

/-- R88: v sinks from position k, and the nodes above its final place move up. -/
theorem downHeapLoop_rearranged {v fuel : Nat} : ∀ {k : Nat} {b : TreeBuild}, 1 ≤ k → k ≤ b.heapLen →
    b.heapLen < b.heap.length →
    Rearranged { b with heap := b.heap.set k v } (downHeapLoop fuel v k (2 * k) b) := by
  induction fuel with
  | zero => exact fun _ _ _ => .refl _
  | succ fuel ih =>
    intro k b hpos hk hlen
    rw [downHeapLoop]
    split
    · rename_i hj
      obtain ⟨child, hchild, hlt, hle⟩ : ∃ child,
          (if 2 * k < b.heapLen ∧ smaller b (at0 b.heap (2 * k + 1)) (at0 b.heap (2 * k)) = true then 2 * k + 1 else 2 * k) =
            child ∧ k < child ∧ child ≤ b.heapLen := by
        refine ⟨_, rfl, ?_⟩
        split <;> omega
      simp only [hchild]
      split
      · exact .refl _
      · let b' : TreeBuild := { b with heap := b.heap.set k (at0 b.heap child) }
        have hmoved : Rearranged { b with heap := b.heap.set k v } { b' with heap := b'.heap.set child v } :=
          { frame := rfl
            perm := perm_set_set (hk.trans_lt hlen) (hle.trans_lt hlen) hlt.ne v
            before := by
              dsimp only [b']
              rw [List.take_set_of_le (hpos.trans hlt.le), List.take_set_of_le hpos, List.take_set_of_le hpos]
            after := by
              dsimp only [b']
              rw [List.drop_set_of_lt (Nat.lt_succ_of_le hle), List.drop_set_of_lt (Nat.lt_succ_of_le hk),
                List.drop_set_of_lt (Nat.lt_succ_of_le hk)] }
        exact hmoved.trans (ih (b := b') (hpos.trans hlt.le) hle (by rwa [List.length_set]))
    · exact .refl _

theorem set_at0_self {xs : List Nat} {i : Nat} (h : i < xs.length) : xs.set i (at0 xs i) = xs := by
  rw [at0_eq_getElem h, List.set_getElem_self]

theorem downHeap_rearranged {b : TreeBuild} {k : Nat} (hpos : 1 ≤ k) (hk : k ≤ b.heapLen) (hlen : b.heapLen < b.heap.length) :
    Rearranged b (downHeap k b) := by
  have h := downHeapLoop_rearranged (v := at0 b.heap k) (fuel := b.heapLen) hpos hk hlen
  rwa [set_at0_self (hk.trans_lt hlen)] at h

/-- R89. -/
theorem heapify_rearranged {k : Nat} : ∀ {b : TreeBuild}, k ≤ b.heapLen → b.heapLen < b.heap.length →
    Rearranged b (heapify k b) := by
  induction k with
  | zero => exact fun _ _ => .refl _
  | succ k ih =>
    intro b hk hlen
    have h := downHeap_rearranged (b := b) (Nat.succ_pos k) hk hlen
    refine h.trans (ih ?_ ?_)
    · rw [h.heapLen]
      exact Nat.le_of_succ_le hk
    · rwa [h.heapLen, h.heap_length]

end Sys2Proof.Machine
end

section
/-! SUPPORT. The symbols that take part in a build (R85, R86): those of non-zero frequency, and the forced ones. -/

namespace Sys2Proof.Machine

theorem at0_set {xs : List Nat} {i : Nat} (h : i < xs.length) (v x : Nat) :
    at0 (xs.set i v) x = if x = i then v else at0 xs x := by
  simp only [at0, List.getD_eq_getElem?_getD, List.getElem?_set]
  by_cases hx : x = i
  · subst hx
    simp [h]
  · simp [hx, Ne.symm hx]

/-! ### The participants -/

/-- The symbols of non-zero frequency, in increasing order. -/
def usedSymbols (f : List Nat) (n : Nat) : List Nat := (List.range n).filter fun s => at0 f s ≠ 0

/-- R86: the symbols forced beside fewer than two others. -/
def forcedSymbols : List Nat → List Nat
  | [] => [0, 1]
  | [x] => [if x = 0 then 1 else if x = 1 then 2 else 0]
  | _ => []

/-- The symbols that get a code. -/
def participants (f : List Nat) (n : Nat) : List Nat := usedSymbols f n ++ forcedSymbols (usedSymbols f n)

section
variable {f : List Nat} {n x : Nat}

theorem mem_usedSymbols : x ∈ usedSymbols f n ↔ x < n ∧ at0 f x ≠ 0 := by
  simp [usedSymbols]

theorem usedSymbols_nodup (f : List Nat) (n : Nat) : (usedSymbols f n).Nodup := List.nodup_range.filter _

theorem usedSymbols_length_le (f : List Nat) (n : Nat) : (usedSymbols f n).length ≤ n :=
  (List.length_filter_le ..).trans_eq List.length_range

theorem forcedSymbols_le {xs : List Nat} (h : x ∈ forcedSymbols xs) : x ≤ 2 := by
  unfold forcedSymbols at h
  split at h
  · simp at h
    omega
  · rw [List.mem_singleton.mp h]
    split
    · decide
    · split <;> decide
  · cases h

theorem forcedSymbols_nodup (xs : List Nat) : (forcedSymbols xs).Nodup := by
  unfold forcedSymbols
  split <;> simp

theorem not_mem_of_forced {xs : List Nat} (h : x ∈ forcedSymbols xs) : x ∉ xs := by
  unfold forcedSymbols at h
  split at h
  · simp
  · rw [List.mem_singleton] at h ⊢
    subst h
    split
    · omega
    · split <;> omega
  · cases h

theorem forcedSymbols_length (xs : List Nat) : (xs ++ forcedSymbols xs).length = max 2 xs.length := by
  match xs with
  | [] => rfl
  | [_] => rfl
  | _ :: _ :: xs => simp [forcedSymbols]

/-- Symbols are forced only up to two participants. -/
theorem length_of_forced {xs : List Nat} (h : x ∈ forcedSymbols xs) : (xs ++ forcedSymbols xs).length = 2 := by
  match xs with
  | [] => rfl
  | [_] => rfl
  | _ :: _ :: _ => cases h

theorem participants_nodup (f : List Nat) (n : Nat) : (participants f n).Nodup :=
  List.nodup_append'.mpr ⟨usedSymbols_nodup f n, forcedSymbols_nodup _, fun _ hx hforced => not_mem_of_forced hforced hx⟩

theorem participants_lt (hn : 2 < n) (h : x ∈ participants f n) : x < n :=
  (List.mem_append.mp h).elim (fun h => (mem_usedSymbols.mp h).1) (fun h => (forcedSymbols_le h).trans_lt hn)

theorem two_le_participants (f : List Nat) (n : Nat) : 2 ≤ (participants f n).length := by
  rw [participants, forcedSymbols_length]
  exact Nat.le_max_left ..

theorem participants_length_le (f : List Nat) (hn : 2 < n) : (participants f n).length ≤ n := by
  rw [participants, forcedSymbols_length]
  exact Nat.max_le.mpr ⟨hn.le, usedSymbols_length_le f n⟩

end

/-! ### The heap seeded (R85, R86) -/

/-- The heap holds `xs`, and `max_code` is the largest of them. -/
structure Seeded (b : TreeBuild) (xs : List Nat) : Prop where
  active : activeNodes b = xs
  heapLen : b.heapLen = xs.length
  size : b.heap.length = heapSize
  le : ∀ x ∈ xs, (x : Int) ≤ b.maxCode
  mem : (b.maxCode = -1 ∧ xs = []) ∨ ∃ x ∈ xs, b.maxCode = (x : Int)

/-- A node enters the heap at its end. -/
theorem active_push {xs : List Nat} {k : Nat} (h : k + 1 < xs.length) (x : Nat) :
    ((xs.set (k + 1) x).drop 1).take (k + 1) = (xs.drop 1).take k ++ [x] := by
  have hk : k < ((xs.set (k + 1) x).drop 1).length := by
    rw [List.length_drop, List.length_set]
    omega
  have hsame : ((xs.set (k + 1) x).drop 1).take k = (xs.drop 1).take k := by
    rw [List.take_drop, List.take_drop, List.take_set_of_le (by omega)]
  rw [List.take_succ_eq_append_getElem hk, hsame]
  simp

section
variable {b c : TreeBuild} {xs : List Nat}

theorem Seeded.push {x : Nat} (h : Seeded b xs) (hlen : xs.length + 1 < heapSize) (hc : c.heapLen = b.heapLen + 1)
    (hheap : c.heap = b.heap.set (b.heapLen + 1) x) (hle : ∀ y ∈ xs, (y : Int) ≤ c.maxCode) (hx : (x : Int) ≤ c.maxCode)
    (hmem : ∃ y ∈ xs ++ [x], c.maxCode = (y : Int)) : Seeded c (xs ++ [x]) where
  active := by
    have hlt : b.heapLen + 1 < b.heap.length := by rwa [h.size, h.heapLen]
    rw [activeNodes, hc, hheap, active_push hlt]
    exact congrArg (· ++ [x]) h.active
  heapLen := by rw [hc, h.heapLen, List.length_append, List.length_singleton]
  size := by rw [hheap, List.length_set, h.size]
  le y hy := (List.mem_append.mp hy).elim (hle y) fun hy => by rwa [List.mem_singleton.mp hy]
  mem := .inr hmem

/-- The seeding touches the heap and `max_code` only. -/
theorem foldl_seedSymbol_eq (ys : List Nat) (b : TreeBuild) : ys.foldl seedSymbol b =
    { b with heap := (ys.foldl seedSymbol b).heap, heapLen := (ys.foldl seedSymbol b).heapLen,
             maxCode := (ys.foldl seedSymbol b).maxCode } := by
  induction ys generalizing b with
  | nil => rfl
  | cons y ys ih =>
    have hstep : seedSymbol b y = { b with heap := (seedSymbol b y).heap, heapLen := (seedSymbol b y).heapLen,
                                           maxCode := (seedSymbol b y).maxCode } := by
      unfold seedSymbol
      split <;> rfl
    rw [List.foldl_cons, ih, hstep]

theorem seedHeap_freq (n : Nat) (b : TreeBuild) : (seedHeap n b).freq = b.freq := by rw [seedHeap, foldl_seedSymbol_eq]

theorem seedHeap_seeded {n : Nat} (hn : n + 1 < heapSize) (hb : Seeded b []) : Seeded (seedHeap n b) (usedSymbols b.freq n) := by
  induction n with
  | zero => exact hb
  | succ n ih =>
    have ih := ih (Nat.lt_of_succ_lt hn)
    have hfreq := seedHeap_freq n b
    have hsucc : seedHeap (n + 1) b = seedSymbol (seedHeap n b) n := by
      rw [seedHeap, List.range_succ, List.foldl_append]
      rfl
    rw [hsucc, seedSymbol, hfreq, usedSymbols, List.range_succ, List.filter_append]
    by_cases hzero : at0 b.freq n = 0
    · rw [if_neg (not_not.mpr hzero)]
      simpa [hzero, usedSymbols] using ih
    · rw [if_pos hzero]
      have hnew : List.filter (fun s => decide (at0 b.freq s ≠ 0)) [n] = [n] := by simp [hzero]
      have hlen := usedSymbols_length_le b.freq n
      rw [hnew]
      refine ih.push (by omega) rfl rfl (fun y hy => ?_) (le_refl _) ⟨n, List.mem_append_right _ (List.mem_singleton_self n), rfl⟩
      exact Int.ofNat_le.mpr (mem_usedSymbols.mp hy).1.le

/-! ### Forcing (R86) -/

/-- What forcing the symbols `ys` does to the frequencies and to the costs. -/
structure Forced (alpha : Alphabet) (b : TreeBuild) (ys : List Nat) (c : TreeBuild) : Prop where
  freq : c.freq = ys.foldl (fun f y => f.set y 1) b.freq
  optLen : c.optLen = b.optLen - (ys.length : Word)
  staticLen : c.staticLen = b.staticLen - (((ys.map fun y => (alpha.staticLen y).getD 0).sum : Nat) : Word)

variable {alpha : Alphabet}

theorem Forced.refl (b : TreeBuild) : Forced alpha b [] b := ⟨rfl, by simp, by simp⟩

theorem Forced.trans {d : TreeBuild} {ys zs : List Nat} (h : Forced alpha b ys c) (h' : Forced alpha c zs d) :
    Forced alpha b (ys ++ zs) d where
  freq := by rw [List.foldl_append, ← h.freq, h'.freq]
  optLen := by
    rw [h'.optLen, h.optLen, List.length_append, Nat.cast_add]
    ring
  staticLen := by
    rw [h'.staticLen, h.staticLen, List.map_append, List.sum_append, Nat.cast_add]
    ring

theorem forceSymbol_forced (alpha : Alphabet) (b : TreeBuild) : Forced alpha b [forcedNode b] (forceSymbol alpha b) where
  freq := rfl
  optLen := rfl
  staticLen := by
    unfold forceSymbol
    dsimp only
    rw [List.map_singleton, List.sum_singleton]
    split <;> rename_i hl <;> rw [hl]
    · rfl
    · simp

theorem forceSymbol_seeded (alpha : Alphabet) (h : Seeded b xs) (hlen : xs.length + 1 < heapSize) :
    Seeded (forceSymbol alpha b) (xs ++ [forcedNode b]) := by
  have hlow : -1 ≤ b.maxCode := by
    rcases h.mem with ⟨hm, -⟩ | ⟨x, -, hm⟩ <;> omega
  by_cases hm : b.maxCode < 2
  · have hnode : (forcedNode b : Int) = b.maxCode + 1 := by
      rw [forcedNode, if_pos hm]
      omega
    have hmax : (forceSymbol alpha b).maxCode = (forcedNode b : Int) := (if_pos hm).trans hnode.symm
    refine h.push hlen rfl rfl (fun y hy => ?_) hmax.ge ⟨_, List.mem_append_right _ (List.mem_singleton_self _), hmax⟩
    have := h.le y hy
    omega
  · have hnode : forcedNode b = 0 := if_neg hm
    have hmax : (forceSymbol alpha b).maxCode = b.maxCode := if_neg hm
    refine h.push hlen rfl rfl (fun y hy => by rw [hmax]; exact h.le y hy) (by rw [hmax, hnode]; omega) ?_
    rcases h.mem with ⟨hm', -⟩ | ⟨x, hx, hm'⟩
    · omega
    · exact ⟨x, List.mem_append_left _ hx, hmax.trans hm'⟩

theorem Seeded.forcedNode_nil (h : Seeded b []) : forcedNode b = 0 := by
  rcases h.mem with ⟨hm, -⟩ | ⟨x, hx, -⟩
  · rw [forcedNode, hm]
    rfl
  · cases hx

theorem Seeded.forcedNode_singleton {x : Nat} (h : Seeded b [x]) :
    forcedNode b = if x = 0 then 1 else if x = 1 then 2 else 0 := by
  have hm : b.maxCode = (x : Int) := by
    rcases h.mem with ⟨-, hx⟩ | ⟨y, hy, hm⟩
    · cases hx
    · rw [hm, List.mem_singleton.mp hy]
  rw [forcedNode, hm]
  by_cases h0 : x = 0
  · subst h0
    rfl
  by_cases h1 : x = 1
  · subst h1
    rfl
  · rw [if_neg (by omega), if_neg h0, if_neg h1]

theorem forceSymbols_spec (alpha : Alphabet) (h : Seeded b xs) (hlen : xs.length ≤ 286) :
    Seeded (forceSymbols alpha b) (xs ++ forcedSymbols xs) ∧ Forced alpha b (forcedSymbols xs) (forceSymbols alpha b) := by
  have hstop : ∀ {c : TreeBuild}, 2 ≤ c.heapLen → (if c.heapLen < 2 then forceSymbol alpha c else c) = c :=
    fun hc => if_neg (Nat.not_lt_of_le hc)
  have hgo : ∀ {c : TreeBuild}, c.heapLen < 2 → (if c.heapLen < 2 then forceSymbol alpha c else c) = forceSymbol alpha c :=
    fun hc => if_pos hc
  have hsize : (289 : Nat) < heapSize := by decide
  unfold forceSymbols
  dsimp only
  match xs with
  | [] =>
    have h1 := forceSymbol_seeded alpha h (by decide)
    rw [h.forcedNode_nil] at h1
    have h2 := forceSymbol_seeded alpha h1 (by decide)
    have hf := (forceSymbol_forced alpha b).trans (forceSymbol_forced alpha (forceSymbol alpha b))
    rw [h.forcedNode_nil] at hf
    rw [h1.forcedNode_singleton] at h2 hf
    have hlen0 : b.heapLen < 2 := h.heapLen.trans_lt Nat.two_pos
    have hlen1 : (forceSymbol alpha b).heapLen < 2 := h1.heapLen.trans_lt Nat.one_lt_two
    rw [hgo hlen0, hgo hlen1]
    exact ⟨h2, hf⟩
  | [x] =>
    have h1 := forceSymbol_seeded alpha h (show 2 < heapSize by decide)
    have hf := forceSymbol_forced alpha b
    rw [h.forcedNode_singleton] at h1 hf
    have hlen0 : b.heapLen < 2 := h.heapLen.trans_lt Nat.one_lt_two
    have hlen1 : 2 ≤ (forceSymbol alpha b).heapLen := h1.heapLen.ge
    rw [hgo hlen0, hstop hlen1]
    exact ⟨h1, hf⟩
  | x :: y :: xs =>
    have hge : 2 ≤ b.heapLen := by
      rw [h.heapLen]
      exact Nat.le_add_left 2 xs.length
    rw [hstop hge, hstop hge, forcedSymbols, List.append_nil]
    · exact ⟨h, .refl b⟩
    · exact fun h => nomatch h
    · exact fun _ h => nomatch h

theorem at0_foldl_set_one {ys : List Nat} : ∀ {f : List Nat}, (∀ y ∈ ys, y < f.length) → ∀ x,
    at0 (ys.foldl (fun f y => f.set y 1) f) x = if x ∈ ys then 1 else at0 f x := by
  induction ys with
  | nil => exact fun _ _ => rfl
  | cons y ys ih =>
    intro f hy x
    rw [List.foldl_cons, ih (fun z hz => by rw [List.length_set]; exact hy z (List.mem_cons_of_mem _ hz)),
      at0_set (hy y List.mem_cons_self)]
    by_cases hx : x ∈ ys <;> by_cases hxy : x = y <;> simp [hx, hxy]

end

/-! ### The seeded build -/

section
variable (f : List Nat) (alpha : Alphabet) (optIn staticIn : Word)

theorem startBuild_freq_length : (startBuild f alpha optIn staticIn).freq.length = 2 * alpha.size + 1 := by
  simp only [startBuild, List.length_append, List.length_take, List.length_replicate]
  omega

theorem at0_startBuild_freq {x : Nat} (hx : x < alpha.size) : at0 (startBuild f alpha optIn staticIn).freq x = at0 f x := by
  rw [startBuild]
  dsimp only
  rcases Nat.lt_or_ge x (f.take alpha.size).length with h | h
  · rw [at0_append_left h, at0_take hx]
  · have hf : f.length ≤ x := by
      rw [List.length_take] at h
      omega
    obtain ⟨j, rfl⟩ := Nat.exists_eq_add_of_le h
    rw [at0_append_right, at0_replicate_zero, at0_of_length_le hf]

theorem usedSymbols_startBuild :
    usedSymbols (startBuild f alpha optIn staticIn).freq alpha.size = usedSymbols f alpha.size :=
  List.filter_congr fun x hx => by rw [at0_startBuild_freq f alpha optIn staticIn (List.mem_range.mp hx)]

theorem seedBuild_spec : Seeded (seedBuild f alpha optIn staticIn) (participants f alpha.size) ∧
    Forced alpha (startBuild f alpha optIn staticIn) (forcedSymbols (usedSymbols f alpha.size))
      (seedBuild f alpha optIn staticIn) := by
  have hsize := alpha.size_le
  have hheap : (286 : Nat) + 1 < heapSize := by decide
  have hstart : Seeded (startBuild f alpha optIn staticIn) [] :=
    { active := rfl, heapLen := rfl, size := List.length_replicate, le := fun _ h => (nomatch h), mem := .inl ⟨rfl, rfl⟩ }
  have hseed := seedHeap_seeded (n := alpha.size) (by omega) hstart
  rw [usedSymbols_startBuild] at hseed
  obtain ⟨hs, hforced⟩ := forceSymbols_spec alpha hseed ((usedSymbols_length_le ..).trans hsize)
  refine ⟨hs, ?_⟩
  have hframe := foldl_seedSymbol_eq (List.range alpha.size) (startBuild f alpha optIn staticIn)
  have hopt : (seedHeap alpha.size (startBuild f alpha optIn staticIn)).optLen = optIn := by rw [seedHeap, hframe]; rfl
  have hstat : (seedHeap alpha.size (startBuild f alpha optIn staticIn)).staticLen = staticIn := by rw [seedHeap, hframe]; rfl
  exact ⟨by rw [seedBuild, hforced.freq, seedHeap_freq], by rw [seedBuild, hforced.optLen, hopt]; rfl,
    by rw [seedBuild, hforced.staticLen, hstat]; rfl⟩

/-- A forced symbol counts once, every other as often as it occurs. -/
theorem at0_seedBuild_freq {x : Nat} (hx : x < alpha.size) : at0 (seedBuild f alpha optIn staticIn).freq x =
    if x ∈ forcedSymbols (usedSymbols f alpha.size) then 1 else at0 f x := by
  have hsize := alpha.two_lt_size
  rw [(seedBuild_spec f alpha optIn staticIn).2.freq, at0_foldl_set_one, at0_startBuild_freq f alpha optIn staticIn hx]
  intro y hy
  have := forcedSymbols_le hy
  rw [startBuild_freq_length]
  omega

end
end Sys2Proof.Machine
end

section
/-! SUPPORT. The merges (R90): what they record, and whose children the recorded nodes are. -/

namespace Sys2Proof.Machine

/-! ### The heap's positions -/

section
variable {xs : List Nat}

theorem at0_set_ne {i x : Nat} (h : x ≠ i) (v : Nat) : at0 (xs.set i v) x = at0 xs x := by
  simp only [at0, List.getD_eq_getElem?_getD, List.getElem?_set, Ne.symm h, if_false]

/-- The last node takes the first one's place. -/
theorem perm_pop {k : Nat} (h : k + 2 < xs.length) :
    ((xs.drop 1).take (k + 2)).Perm (at0 xs 1 :: ((xs.set 1 (at0 xs (k + 2))).drop 1).take (k + 1)) := by
  match xs with
  | _ :: x :: xs =>
    have hk : k < xs.length := by
      simp only [List.length_cons] at h
      omega
    have hlast : xs.take (k + 1) = xs.take k ++ [at0 xs k] := by rw [List.take_succ_eq_append_getElem hk, at0_eq_getElem hk]
    change List.Perm (x :: xs.take (k + 1)) (x :: at0 xs k :: xs.take k)
    rw [hlast]
    exact (List.perm_append_singleton ..).cons x

theorem drop_set_self {i : Nat} (h : i < xs.length) (v : Nat) : (xs.set i v).drop i = v :: xs.drop (i + 1) := by
  rw [List.drop_eq_getElem_cons (by rwa [List.length_set]), List.getElem_set_self, List.drop_set_of_lt (Nat.lt_succ_self i)]

end

section
variable {b : TreeBuild}

theorem active_cons (hpos : 1 ≤ b.heapLen) (hlen : b.heapLen < b.heap.length) :
    activeNodes b = at0 b.heap 1 :: (b.heap.drop 2).take (b.heapLen - 1) := by
  obtain ⟨k, hk⟩ := Nat.exists_eq_add_of_le' hpos
  have h1 : 1 < b.heap.length := by omega
  rw [activeNodes, hk, List.drop_eq_getElem_cons h1, at0_eq_getElem h1]
  rfl

theorem popHeap_heapLen (b : TreeBuild) : (popHeap b).heapLen = b.heapLen - 1 := by rw [popHeap, downHeap_frame]
theorem popHeap_heapMax (b : TreeBuild) : (popHeap b).heapMax = b.heapMax := by rw [popHeap, downHeap_frame]
theorem popHeap_dad (b : TreeBuild) : (popHeap b).dad = b.dad := by rw [popHeap, downHeap_frame]
theorem popHeap_freq (b : TreeBuild) : (popHeap b).freq = b.freq := by rw [popHeap, downHeap_frame]

theorem popHeap_spec (hlen : 2 ≤ b.heapLen) (hsize : b.heapLen < b.heap.length) (hmax : b.heapLen < b.heapMax) :
    (activeNodes b).Perm (at0 b.heap 1 :: activeNodes (popHeap b)) ∧ recordedNodes (popHeap b) = recordedNodes b ∧
      (popHeap b).heap.length = b.heap.length := by
  obtain ⟨k, hk⟩ := Nat.exists_eq_add_of_le' hlen
  have h : Rearranged { b with heap := b.heap.set 1 (at0 b.heap b.heapLen), heapLen := b.heapLen - 1 } (popHeap b) :=
    downHeap_rearranged (Nat.le_refl 1) (by dsimp only; omega) (by dsimp only; rw [List.length_set]; omega)
  have hpop := perm_pop (xs := b.heap) (k := k) (by omega)
  rw [← hk] at hpop
  have hsucc : k + 1 = b.heapLen - 1 := by omega
  rw [hsucc] at hpop
  refine ⟨hpop.trans (h.active.symm.cons _), (h.recorded (by dsimp only; omega)).trans ?_, ?_⟩
  · exact List.drop_set_of_lt (by dsimp only; omega)
  · rw [h.heap_length, List.length_set]

theorem recordNode_active (x : Nat) (h : b.heapLen + 1 < b.heapMax) : activeNodes (recordNode x b) = activeNodes b := by
  rw [activeNodes, activeNodes, recordNode]
  dsimp only
  rw [List.take_drop, List.take_drop, List.take_set_of_le (by omega)]

theorem recordNode_recorded (x : Nat) (hpos : 1 ≤ b.heapMax) (hmax : b.heapMax ≤ b.heap.length) :
    recordedNodes (recordNode x b) = x :: recordedNodes b := by
  rw [recordedNodes, recordedNodes, recordNode]
  dsimp only
  rw [drop_set_self (by omega), Nat.sub_add_cancel hpos]

theorem joinNodes_heapLen (node x y : Nat) (b : TreeBuild) : (joinNodes node x y b).heapLen = b.heapLen := by
  rw [joinNodes, downHeap_frame]
theorem joinNodes_heapMax (node x y : Nat) (b : TreeBuild) : (joinNodes node x y b).heapMax = b.heapMax := by
  rw [joinNodes, downHeap_frame]
theorem joinNodes_dad (node x y : Nat) (b : TreeBuild) : (joinNodes node x y b).dad = (b.dad.set x node).set y node := by
  rw [joinNodes, downHeap_frame]
theorem joinNodes_freq (node x y : Nat) (b : TreeBuild) :
    (joinNodes node x y b).freq = b.freq.set node (at0 b.freq x + at0 b.freq y) := by rw [joinNodes, downHeap_frame]

theorem joinNodes_spec {z : Nat} {rest : List Nat} (node x y : Nat) (hactive : activeNodes b = z :: rest)
    (hpos : 1 ≤ b.heapLen) (hsize : b.heapLen < b.heap.length) (hmax : b.heapLen < b.heapMax) :
    (activeNodes (joinNodes node x y b)).Perm (node :: rest) ∧ recordedNodes (joinNodes node x y b) = recordedNodes b ∧
      (joinNodes node x y b).heap.length = b.heap.length := by
  let c : TreeBuild :=
    { b with
      freq := b.freq.set node (at0 b.freq x + at0 b.freq y)
      depth := b.depth.set node (max (at0 b.depth x) (at0 b.depth y) + 1)
      dad := (b.dad.set x node).set y node
      heap := b.heap.set 1 node }
  have hc : c.heapLen < c.heap.length := hsize.trans_eq (List.length_set).symm
  have h : Rearranged c (joinNodes node x y b) := downHeap_rearranged (Nat.le_refl 1) hpos hc
  have hrest : activeNodes c = node :: rest := by
    have h1 : at0 (b.heap.set 1 node) 1 = node := (at0_set (by omega) _ _).trans (if_pos rfl)
    have h2 : (b.heap.set 1 node).drop 2 = b.heap.drop 2 := List.drop_set_of_lt Nat.one_lt_two
    rw [active_cons hpos hsize] at hactive
    rw [active_cons (b := c) hpos hc, ← (List.cons.inj hactive).2]
    dsimp only [c]
    rw [h1, h2]
  refine ⟨hrest ▸ h.active, (h.recorded hmax).trans (List.drop_set_of_lt (hpos.trans_lt hmax)), ?_⟩
  rw [h.heap_length]
  exact List.length_set

end

/-- R90: what one merge does. The nodes x and y leave the heap for the record, and their parent `node` enters the heap. -/
structure MergesTo (node : Nat) (b c : TreeBuild) (x y : Nat) (rest : List Nat) : Prop where
  before : (activeNodes b).Perm (x :: y :: rest)
  after : (activeNodes c).Perm (node :: rest)
  recorded : recordedNodes c = y :: x :: recordedNodes b
  heapLen : c.heapLen = b.heapLen - 1
  heapMax : c.heapMax = b.heapMax - 2
  size : c.heap.length = b.heap.length
  dad : c.dad = (b.dad.set x node).set y node
  freq : c.freq = b.freq.set node (at0 b.freq x + at0 b.freq y)

theorem mergeStep_mergesTo {b : TreeBuild} (node : Nat) (htwo : 2 ≤ b.heapLen) (hroom : b.heapLen + 2 < b.heapMax)
    (hmax : b.heapMax ≤ b.heap.length) : ∃ x y rest, MergesTo node b (mergeStep node b) x y rest := by
  let x := at0 b.heap 1
  let c := popHeap b
  let y := at0 c.heap 1
  let d := recordNode y (recordNode x c)
  obtain ⟨hpop, hcrec, hcsize⟩ := popHeap_spec htwo (by omega) (by omega)
  have hclen : c.heapLen = b.heapLen - 1 := popHeap_heapLen b
  have hcmax : c.heapMax = b.heapMax := popHeap_heapMax b
  have hclength : c.heap.length = b.heap.length := hcsize
  have hxlen : (recordNode x c).heapLen = b.heapLen - 1 := hclen
  have hxmax : (recordNode x c).heapMax = b.heapMax - 1 := congrArg (· - 1) hcmax
  have hxsize : (recordNode x c).heap.length = b.heap.length := List.length_set.trans hcsize
  have hdlen : d.heapLen = b.heapLen - 1 := hclen
  have hdmax : d.heapMax = b.heapMax - 2 := congrArg (· - 1) hxmax
  have hdsize : d.heap.length = b.heap.length := List.length_set.trans hxsize
  have hdrec : recordedNodes d = y :: x :: recordedNodes b := by
    rw [recordNode_recorded _ (by omega) (by omega), recordNode_recorded _ (by omega) (by omega), hcrec]
  have hdactive : activeNodes d = activeNodes c := by
    rw [recordNode_active _ (by omega), recordNode_active _ (by omega)]
  obtain ⟨rest, hrest⟩ : ∃ rest, activeNodes c = y :: rest := ⟨_, active_cons (by omega) (by omega)⟩
  obtain ⟨hjoin, hjrec, hjsize⟩ := joinNodes_spec node x y (hdactive.trans hrest) (by omega) (by omega) (by omega)
  exact ⟨x, y, rest,
    { before := hrest ▸ hpop, after := hjoin, recorded := hjrec.trans hdrec
      heapLen := (joinNodes_heapLen ..).trans hdlen, heapMax := (joinNodes_heapMax ..).trans hdmax
      size := hjsize.trans hdsize
      dad := (joinNodes_dad ..).trans (congrArg (fun dad : List Nat => (dad.set x node).set y node) (popHeap_dad b))
      freq := (joinNodes_freq ..).trans
        (congrArg (fun f : List Nat => f.set node (at0 f x + at0 f y)) (popHeap_freq b)) }⟩

/-! ### The merges in order -/

/-- The parents of the recorded nodes after k merges: two children each, the last parent's first. -/
def pairsDown (n : Nat) : Nat → List Nat
  | 0 => []
  | k + 1 => (n + k) :: (n + k) :: pairsDown n k

/-- After k merges of the symbols `xs`, whose frequencies are `f`: heap and record hold the symbols and the k internal nodes. -/
structure Merging (n : Nat) (xs f : List Nat) (k : Nat) (b : TreeBuild) : Prop where
  heapLen : b.heapLen + k = xs.length
  heapMax : b.heapMax + 2 * k = heapSize
  size : b.heap.length = heapSize
  dadSize : b.dad.length = 2 * n + 1
  nodes : (activeNodes b ++ recordedNodes b).Perm (xs ++ List.range' n k)
  dads : (recordedNodes b).map (at0 b.dad) = pairsDown n k
  rising : ∀ m ∈ recordedNodes b, m < at0 b.dad m
  freq : ∀ x, x < n → at0 b.freq x = at0 f x

section
variable {n k : Nat} {xs f : List Nat} {b : TreeBuild}

theorem nodes_nodup (hnodup : xs.Nodup) (hlt : ∀ x ∈ xs, x < n) (k : Nat) : (xs ++ List.range' n k).Nodup :=
  List.nodup_append'.mpr ⟨hnodup, List.nodup_range', fun x hx hk =>
    Nat.not_lt_of_le (List.mem_range'_1.mp hk).1 (hlt x hx)⟩

theorem nodes_lt (hlt : ∀ x ∈ xs, x < n) {m : Nat} (h : m ∈ xs ++ List.range' n k) : m < n + k :=
  (List.mem_append.mp h).elim (fun h => Nat.lt_add_right k (hlt m h)) (fun h => (List.mem_range'_1.mp h).2)

/-- The two nodes popped get one parent; the parents set before stay. -/
theorem dad_join {dad rec : List Nat} {x y node : Nat} (hx : x < dad.length) (hy : y < dad.length)
    (hnotx : x ∉ rec) (hnoty : y ∉ rec) :
    at0 ((dad.set x node).set y node) x = node ∧ at0 ((dad.set x node).set y node) y = node ∧
      ∀ m ∈ rec, at0 ((dad.set x node).set y node) m = at0 dad m := by
  have hlen : y < (dad.set x node).length := by rwa [List.length_set]
  refine ⟨?_, (at0_set hlen _ _).trans (if_pos rfl), fun m hm => ?_⟩
  · rw [at0_set hlen, at0_set hx, if_pos rfl, ite_self]
  · rw [at0_set_ne (ne_of_mem_of_not_mem hm hnoty), at0_set_ne (ne_of_mem_of_not_mem hm hnotx)]

variable (hnodup : xs.Nodup) (hlt : ∀ x ∈ xs, x < n) (hn : n ≤ 286)
include hnodup hlt hn

theorem mergeStep_merging (hlen : xs.length ≤ n) (h : Merging n xs f k b) (htwo : 2 ≤ b.heapLen) :
    Merging n xs f (k + 1) (mergeStep (n + k) b) ∧ (mergeStep (n + k) b).heapLen = b.heapLen - 1 := by
  have hheap : heapSize = 573 := rfl
  have hL := h.heapLen
  have hM := h.heapMax
  have hS := h.size
  have hD := h.dadSize
  obtain ⟨x, y, rest, hm⟩ := mergeStep_mergesTo (n + k) htwo (by omega) (by omega)
  have hall : (x :: y :: (rest ++ recordedNodes b)).Perm (xs ++ List.range' n k) :=
    (hm.before.append_right _).symm.trans h.nodes
  have hdistinct := hall.nodup_iff.mpr (nodes_nodup hnodup hlt k)
  rw [List.nodup_cons, List.nodup_cons] at hdistinct
  obtain ⟨hx, hy, -⟩ := hdistinct
  have hxrec : x ∉ recordedNodes b := fun hmem => hx (List.mem_cons_of_mem _ (List.mem_append_right _ hmem))
  have hyrec : y ∉ recordedNodes b := fun hmem => hy (List.mem_append_right _ hmem)
  have hxlt : x < n + k := nodes_lt hlt (hall.subset List.mem_cons_self)
  have hylt : y < n + k := nodes_lt hlt (hall.subset (List.mem_cons_of_mem _ List.mem_cons_self))
  obtain ⟨hdadx, hdady, hdads⟩ := dad_join (dad := b.dad) (node := n + k) (by omega) (by omega) hxrec hyrec
  refine ⟨⟨?_, ?_, hm.size.trans hS, ?_, ?_, ?_, ?_, fun z hz => ?_⟩, hm.heapLen⟩
  · rw [hm.heapLen]
    omega
  · rw [hm.heapMax]
    omega
  · rw [hm.dad, List.length_set, List.length_set, hD]
  · rw [hm.recorded, List.range'_1_concat, ← List.append_assoc]
    have hperm : (rest ++ y :: x :: recordedNodes b).Perm (xs ++ List.range' n k) :=
      (List.perm_middle.trans ((List.perm_middle.cons y).trans (.swap ..))).trans hall
    exact (hm.after.append_right _).trans ((hperm.cons _).trans (List.perm_append_singleton ..).symm)
  · rw [hm.recorded, hm.dad, List.map_cons, List.map_cons, hdadx, hdady, pairsDown, ← h.dads]
    exact congrArg (fun l => (n + k) :: (n + k) :: l) (List.map_congr_left hdads)
  · rw [hm.recorded, hm.dad]
    refine List.forall_mem_cons.mpr ⟨by rwa [hdady], List.forall_mem_cons.mpr ⟨by rwa [hdadx], fun m hmem => ?_⟩⟩
    rw [hdads m hmem]
    exact h.rising m hmem
  · rw [hm.freq, at0_set_ne (by omega), h.freq z hz]

theorem mergeLoop_merging (hlen : xs.length ≤ n) {fuel : Nat} : ∀ {k : Nat} {b : TreeBuild}, Merging n xs f k b →
    2 ≤ b.heapLen → b.heapLen ≤ fuel → Merging n xs f (xs.length - 1) (mergeLoop fuel (n + k) b) := by
  induction fuel with
  | zero => exact fun _ htwo hfuel => absurd (htwo.trans hfuel) (by decide)
  | succ fuel ih =>
    intro k b h htwo hfuel
    obtain ⟨hnext, hnextLen⟩ := mergeStep_merging hnodup hlt hn hlen h htwo
    rw [mergeLoop]
    split
    · have hk : k + 1 = xs.length - 1 := by
        have := h.heapLen
        omega
      rwa [← hk]
    · exact ih hnext (by omega) (by omega)

end

/-! ### The tree -/

/-- The record of a finished tree: the root, then the other nodes, the children of a later internal node first. -/
structure MergedTree (n : Nat) (xs f : List Nat) (root : Nat) (rest : List Nat) (b : TreeBuild) : Prop where
  size : b.heap.length = heapSize
  recorded : recordedNodes b = root :: rest
  root_eq : root + 2 = n + xs.length
  nodes : (root :: rest).Perm (xs ++ List.range' n (xs.length - 1))
  dads : rest.map (at0 b.dad) = pairsDown n (xs.length - 1)
  rising : ∀ m ∈ rest, m < at0 b.dad m
  freq : ∀ x, x < n → at0 b.freq x = at0 f x

theorem mem_pairsDown {n k d : Nat} : d ∈ pairsDown n k ↔ n ≤ d ∧ d < n + k := by
  induction k with
  | zero =>
    simp only [pairsDown, List.not_mem_nil, false_iff]
    omega
  | succ k ih =>
    simp only [pairsDown, List.mem_cons, ih]
    omega

theorem pairsDown_sorted (n k : Nat) : (pairsDown n k).Pairwise (· ≥ ·) := by
  induction k with
  | zero => exact .nil
  | succ k ih =>
    have hle : ∀ d ∈ pairsDown n k, n + k ≥ d := fun d hd => (mem_pairsDown.mp hd).2.le
    exact .cons (List.forall_mem_cons.mpr ⟨Nat.le_refl _, hle⟩) (.cons hle ih)

section
variable {n : Nat} {xs f : List Nat} {b : TreeBuild}

/-- R90: the last node of the heap is the root. -/
theorem recordRoot_mergedTree (htwo : 2 ≤ xs.length) (h : Merging n xs f (xs.length - 1) b) :
    ∃ root rest, MergedTree n xs f root rest (recordNode (at0 b.heap 1) b) := by
  have hheap : heapSize = 573 := rfl
  have hL := h.heapLen
  have hM := h.heapMax
  have hS := h.size
  have hone : b.heapLen = 1 := by omega
  have hactive : activeNodes b = [at0 b.heap 1] := by
    rw [active_cons (by omega) (by omega), hone]
    rfl
  have hnodes := h.nodes
  rw [hactive, List.singleton_append] at hnodes
  have hdads : ∀ m ∈ recordedNodes b, at0 b.dad m < n + (xs.length - 1) := fun m hm =>
    (mem_pairsDown.mp (h.dads ▸ List.mem_map_of_mem hm)).2
  have hroot : at0 b.heap 1 + 2 = n + xs.length := by
    have hlast : n + (xs.length - 2) ∈ at0 b.heap 1 :: recordedNodes b :=
      hnodes.symm.subset (List.mem_append_right _ (List.mem_range'_1.mpr (by omega)))
    rcases List.mem_cons.mp hlast with heq | hmem
    · omega
    · have := h.rising _ hmem
      have := hdads _ hmem
      omega
  exact ⟨_, recordedNodes b, List.length_set.trans hS, recordNode_recorded _ (by omega) (by omega), hroot, hnodes, h.dads,
    h.rising, h.freq⟩

end

theorem mergeBuild_mergedTree (f : List Nat) (alpha : Alphabet) (optIn staticIn : Word) :
    ∃ root rest, MergedTree alpha.size (participants f alpha.size) (seedBuild f alpha optIn staticIn).freq root rest
      (mergeBuild f alpha optIn staticIn) := by
  have hn := alpha.size_le
  have hbig := alpha.two_lt_size
  have hheap : heapSize = 573 := rfl
  have htwo := two_le_participants f alpha.size
  have hlen := participants_length_le f hbig
  have hlt : ∀ x ∈ participants f alpha.size, x < alpha.size := fun x hx => participants_lt hbig hx
  obtain ⟨hseed, -⟩ := seedBuild_spec f alpha optIn staticIn
  set b := seedBuild f alpha optIn staticIn with hb
  have hframe : b = _ := seedBuild_frame f alpha optIn staticIn
  have hmax : b.heapMax = heapSize := by
    rw [hframe]
    rfl
  have hdad : b.dad.length = 2 * alpha.size + 1 := by
    rw [hframe]
    exact List.length_replicate
  have hseedLen := hseed.heapLen
  have hseedSize := hseed.size
  have hsift : Rearranged b (heapify (b.heapLen / 2) b) := heapify_rearranged (Nat.div_le_self ..) (by omega)
  have hrecorded : recordedNodes b = [] := by
    rw [recordedNodes, hmax, ← hseedSize, List.drop_length]
  have hmerging : Merging alpha.size (participants f alpha.size) b.freq 0 (heapify (b.heapLen / 2) b) :=
    { heapLen := by rw [hsift.heapLen, hseedLen, Nat.add_zero]
      heapMax := hsift.heapMax.trans hmax
      size := by rw [hsift.heap_length, hseedSize]
      dadSize := by rw [hsift.dad, hdad]
      nodes := by
        rw [hsift.recorded (by omega), hrecorded, List.append_nil, List.range'_zero, List.append_nil, ← hseed.active]
        exact hsift.active
      dads := by
        rw [hsift.recorded (by omega), hrecorded]
        rfl
      rising := by
        rw [hsift.recorded (by omega), hrecorded]
        exact fun _ hm => nomatch hm
      freq := fun x _ => by rw [hsift.freq] }
  have hheapLen := hmerging.heapLen
  exact recordRoot_mergedTree htwo
    (mergeLoop_merging (participants_nodup f _) hlt hn hlen hmerging (by omega) (Nat.le_refl _))

end Sys2Proof.Machine
end

section
/-! SUPPORT. The walk (R91): the lengths are the capped depths, and what the cap does to the sum of the code space. -/

namespace Sys2Proof.Machine

/-! ### Depths -/

section
variable {root maxLen : Nat} {dad : Nat → Nat}

/-- Where parents come before their children there are depths, capped at `maxLen`. -/
theorem exists_depths (rest : List Nat) : (root :: rest).Nodup →
    (∀ before m after, rest = before ++ m :: after → dad m ∈ root :: before) →
    ∃ depth : Nat → Nat, depth root = 0 ∧ ∀ m ∈ rest, depth m = min (depth (dad m) + 1) maxLen := by
  induction rest using List.reverseRecOn with
  | nil => exact fun _ _ => ⟨fun _ => 0, rfl, fun _ hm => nomatch hm⟩
  | append_singleton before m ih =>
    intro hnodup hparents
    rw [← List.cons_append] at hnodup
    obtain ⟨hbefore, -, hdisjoint⟩ := List.nodup_append'.mp hnodup
    have hne : ∀ x ∈ root :: before, x ≠ m := fun x hx heq => hdisjoint hx (List.mem_singleton.mpr heq)
    obtain ⟨depth, hroot, hdepth⟩ := ih hbefore fun before' x after' heq =>
      hparents before' x (after' ++ [m]) (by rw [heq, List.append_assoc, List.cons_append])
    refine ⟨Function.update depth m (min (depth (dad m) + 1) maxLen), ?_, fun x hx => ?_⟩
    · rw [Function.update_of_ne (hne root List.mem_cons_self), hroot]
    · rcases List.mem_append.mp hx with hx | hx
      · obtain ⟨before', after', heq⟩ := List.append_of_mem hx
        have hdad : dad x ∈ root :: before := by
          have hmem := hparents before' x (after' ++ [m]) (by rw [heq, List.append_assoc, List.cons_append])
          refine List.mem_cons.mpr ((List.mem_cons.mp hmem).imp id fun h => ?_)
          rw [heq]
          exact List.mem_append_left _ h
        rw [Function.update_of_ne (hne x (List.mem_cons_of_mem _ hx)), Function.update_of_ne (hne _ hdad), hdepth x hx]
      · obtain rfl := List.mem_singleton.mp hx
        rw [Function.update_self, Function.update_of_ne (hne _ (hparents before x [] rfl))]

end

section
variable {n : Nat} {xs f : List Nat} {root : Nat} {rest : List Nat} {b : TreeBuild}

theorem MergedTree.nodup (h : MergedTree n xs f root rest b) (hnodup : xs.Nodup) (hlt : ∀ x ∈ xs, x < n) :
    (root :: rest).Nodup := h.nodes.nodup_iff.mpr (nodes_nodup hnodup hlt _)

/-- Every node is recorded after its parent. -/
theorem MergedTree.parents_first (h : MergedTree n xs f root rest b) (before : List Nat) (m : Nat) (after : List Nat)
    (heq : rest = before ++ m :: after) : at0 b.dad m ∈ root :: before := by
  have hm : m ∈ rest := by
    rw [heq]
    exact List.mem_append_right _ List.mem_cons_self
  have hdad : at0 b.dad m ∈ root :: rest := by
    refine h.nodes.symm.subset (List.mem_append_right _ (List.mem_range'_1.mpr (mem_pairsDown.mp ?_)))
    rw [← h.dads]
    exact List.mem_map_of_mem hm
  have hsorted := pairsDown_sorted n (xs.length - 1)
  rw [← h.dads, heq, List.map_append, List.pairwise_append, List.map_cons, List.pairwise_cons] at hsorted
  obtain ⟨-, ⟨hafter, -⟩, -⟩ := hsorted
  rcases List.mem_cons.mp hdad with hroot | hrest
  · exact List.mem_cons.mpr (.inl hroot)
  have hrising := h.rising _ hrest
  rw [heq] at hrest
  rcases List.mem_append.mp hrest with hbefore | hrest
  · exact List.mem_cons_of_mem _ hbefore
  rcases List.mem_cons.mp hrest with hself | hlater
  · exact absurd (h.rising m hm) (by rw [hself]; exact Nat.lt_irrefl m)
  · have := hafter _ (List.mem_map_of_mem hlater)
    omega

end

/-! ### The walk -/

/-- R91, node m: `lengthStep` at the position of m. -/
def visitNode (alpha : Alphabet) (b : TreeBuild) (m : Nat) : TreeBuild :=
  let bits := at0 b.len (at0 b.dad m) + 1
  let b := if alpha.maxLen < bits then { b with overflow := b.overflow + 1 } else b
  let bits := min bits alpha.maxLen
  let b := { b with len := b.len.set m bits }
  if b.maxCode < (m : Int) then b else countLeaf alpha m bits b

theorem lengthStep_eq (alpha : Alphabet) (b : TreeBuild) (h : Nat) : lengthStep alpha b h = visitNode alpha b (at0 b.heap h) :=
  rfl

theorem foldl_lengthStep (alpha : Alphabet) (hs : List Nat) (b : TreeBuild) :
    hs.foldl (lengthStep alpha) b = (hs.map (at0 b.heap)).foldl (visitNode alpha) b := by
  induction hs generalizing b with
  | nil => rfl
  | cons h hs ih =>
    have hheap : (lengthStep alpha b h).heap = b.heap := by rw [lengthStep_frame alpha b h]
    rw [List.foldl_cons, ih, hheap, List.map_cons, List.foldl_cons, lengthStep_eq]

theorem map_at0_range' {xs : List Nat} {i : Nat} : (List.range' i (xs.length - i)).map (at0 xs) = xs.drop i := by
  refine List.ext_getElem (by simp) fun j hj _ => ?_
  rw [List.length_map, List.length_range'] at hj
  rw [List.getElem_map, List.getElem_range', List.getElem_drop, Nat.one_mul, at0_eq_getElem]

/-- The static cost of a symbol that occurs `count` times (R83, R91). -/
def staticCost (alpha : Alphabet) (count s : Nat) : Nat :=
  match alpha.staticLen s with
  | some l => count * (l + alpha.extraBits s)
  | none => 0

/-- The nodes that are symbols. -/
def leavesOf (b : TreeBuild) (ms : List Nat) : List Nat := ms.filter fun m => decide ((m : Int) ≤ b.maxCode)

/-- What the walk has found out when the nodes `done` are done: `b` is the build before it. -/
structure Walked (alpha : Alphabet) (depth : Nat → Nat) (b : TreeBuild) (done : List Nat) (c : TreeBuild) : Prop where
  frame : LengthFrame b c
  lenSize : c.len.length = 2 * alpha.size + 1
  blSize : c.blCount.length = 16
  len : ∀ x, at0 c.len x = if x ∈ done then depth x else 0
  overflow : c.overflow = done.countP fun m => decide (alpha.maxLen ≤ depth (at0 b.dad m))
  blCount : ∀ l, at0 c.blCount l = ((leavesOf b done).map depth).count l
  optLen : c.optLen = b.optLen +
    ((((leavesOf b done).map fun m => at0 b.freq m * (depth m + alpha.extraBits m)).sum : Nat) : Word)
  staticLen : c.staticLen = b.staticLen +
    ((((leavesOf b done).map fun m => staticCost alpha (at0 b.freq m) m).sum : Nat) : Word)

section
variable {alpha : Alphabet} {depth : Nat → Nat} {b c : TreeBuild} {done : List Nat} {m : Nat}

theorem visitNode_internal (h : c.maxCode < (m : Int)) : visitNode alpha c m =
    { c with overflow := c.overflow + (if alpha.maxLen ≤ at0 c.len (at0 c.dad m) then 1 else 0)
             len := c.len.set m (min (at0 c.len (at0 c.dad m) + 1) alpha.maxLen) } := by
  unfold visitNode
  dsimp only
  by_cases hover : alpha.maxLen ≤ at0 c.len (at0 c.dad m)
  · rw [if_pos (Nat.lt_succ_of_le hover), if_pos hover, if_pos h]
  · rw [if_neg (fun hlt => hover (Nat.le_of_lt_succ hlt)), if_neg hover, if_pos h]
    rfl

theorem visitNode_leaf (h : (m : Int) ≤ c.maxCode) : visitNode alpha c m =
    { c with overflow := c.overflow + (if alpha.maxLen ≤ at0 c.len (at0 c.dad m) then 1 else 0)
             len := c.len.set m (min (at0 c.len (at0 c.dad m) + 1) alpha.maxLen)
             blCount := addAt c.blCount (min (at0 c.len (at0 c.dad m) + 1) alpha.maxLen) 1
             optLen := c.optLen +
               ((at0 c.freq m * (min (at0 c.len (at0 c.dad m) + 1) alpha.maxLen + alpha.extraBits m) : Nat) : Word)
             staticLen := c.staticLen + ((staticCost alpha (at0 c.freq m) m : Nat) : Word) } := by
  have hstatic : (match alpha.staticLen m with
      | some l => c.staticLen + BitVec.ofNat 32 (at0 c.freq m * (l + alpha.extraBits m))
      | none => c.staticLen) = c.staticLen + ((staticCost alpha (at0 c.freq m) m : Nat) : Word) := by
    unfold staticCost
    cases alpha.staticLen m with
    | none => simp
    | some l => rfl
  unfold visitNode countLeaf
  dsimp only
  rw [← hstatic]
  by_cases hover : alpha.maxLen ≤ at0 c.len (at0 c.dad m)
  · rw [if_pos (Nat.lt_succ_of_le hover), if_pos hover, if_neg (not_lt.mpr h)]
    rfl
  · rw [if_neg (fun hlt => hover (Nat.le_of_lt_succ hlt)), if_neg hover, if_neg (not_lt.mpr h), Nat.add_zero]
    rfl

/-- One node more, whose parent is the root or has been done. -/
theorem Walked.step {root : Nat} (h : Walked alpha depth b done c) (hroot : depth root = 0)
    (hsize : m < 2 * alpha.size + 1) (hdad : at0 b.dad m ∈ root :: done)
    (hdepth : depth m = min (depth (at0 b.dad m) + 1) alpha.maxLen) :
    Walked alpha depth b (done ++ [m]) (visitNode alpha c m) := by
  have hframe := h.frame
  have hcdad : c.dad = b.dad := by rw [hframe]
  have hcmax : c.maxCode = b.maxCode := by rw [hframe]
  have hcfreq : c.freq = b.freq := by rw [hframe]
  have hparent : at0 c.len (at0 c.dad m) = depth (at0 b.dad m) := by
    rw [hcdad, h.len]
    split
    · rfl
    · rename_i hnot
      rw [(List.mem_cons.mp hdad).resolve_right hnot, hroot]
  have hoverflow : c.overflow + (if alpha.maxLen ≤ depth (at0 b.dad m) then 1 else 0) =
      (done ++ [m]).countP fun m => decide (alpha.maxLen ≤ depth (at0 b.dad m)) := by
    rw [List.countP_append, List.countP_singleton, ← h.overflow]
    simp only [decide_eq_true_eq]
  have hlen : ∀ x, at0 (c.len.set m (depth m)) x = if x ∈ done ++ [m] then depth x else 0 := by
    intro x
    rw [at0_set (by rwa [h.lenSize]), h.len]
    by_cases hx : x = m <;> simp [hx]
  by_cases hleaf : (m : Int) ≤ b.maxCode
  · have hleaves : leavesOf b (done ++ [m]) = leavesOf b done ++ [m] := by simp [leavesOf, List.filter_append, hleaf]
    have hbits : depth m ≤ 15 := by
      rw [hdepth]
      exact (Nat.min_le_right ..).trans alpha.maxLen_le
    rw [visitNode_leaf (by rwa [hcmax]), hparent, ← hdepth, hcfreq]
    refine ⟨?_, (List.length_set).trans h.lenSize, (addAt_length ..).trans h.blSize, hlen, hoverflow, fun l => ?_, ?_, ?_⟩
    · rw [hframe]
      rfl
    · rw [hleaves, List.map_append, List.count_append, ← h.blCount, List.map_singleton, List.count_singleton,
        at0_addAt (by rw [h.blSize]; omega)]
      simp only [beq_iff_eq]
      rw [if_congr (eq_comm (a := l)) rfl rfl]
    · rw [hleaves, List.map_append, List.sum_append, List.map_singleton, List.sum_singleton, Nat.cast_add, ← add_assoc,
        ← h.optLen]
    · rw [hleaves, List.map_append, List.sum_append, List.map_singleton, List.sum_singleton, Nat.cast_add, ← add_assoc,
        ← h.staticLen]
  · have hleaves : leavesOf b (done ++ [m]) = leavesOf b done := by simp [leavesOf, List.filter_append, hleaf]
    rw [visitNode_internal (by rw [hcmax]; exact not_le.mp hleaf), hparent, ← hdepth]
    refine ⟨?_, (List.length_set).trans h.lenSize, h.blSize, hlen, hoverflow, fun l => ?_, ?_, ?_⟩
    · rw [hframe]
      rfl
    · rw [hleaves]
      exact h.blCount l
    · rw [hleaves]
      exact h.optLen
    · rw [hleaves]
      exact h.staticLen

theorem Walked.foldl {root : Nat} {rest : List Nat} (hroot : depth root = 0)
    (hsize : ∀ m ∈ rest, m < 2 * alpha.size + 1)
    (hparents : ∀ before m after, rest = before ++ m :: after → at0 b.dad m ∈ root :: before)
    (hdepth : ∀ m ∈ rest, depth m = min (depth (at0 b.dad m) + 1) alpha.maxLen) (todo : List Nat) :
    ∀ {done : List Nat} {c : TreeBuild}, rest = done ++ todo → Walked alpha depth b done c →
      Walked alpha depth b rest (todo.foldl (visitNode alpha) c) := by
  induction todo with
  | nil =>
    intro done c heq h
    rw [List.append_nil] at heq
    rwa [heq]
  | cons m todo ih =>
    intro done c heq h
    have hm : m ∈ rest := by
      rw [heq]
      exact List.mem_append_right _ List.mem_cons_self
    exact ih (by rw [heq, List.append_assoc, List.singleton_append])
      (h.step hroot (hsize m hm) (hparents done m todo heq) (hdepth m hm))

end

/-! ### The code space of the capped depths -/

/-- How many codes of `maxLen` bits the codes of the lengths `ds` take. -/
def kraftSum (maxLen : Nat) (ds : List Nat) : Nat := (ds.map fun d => 2 ^ (maxLen - d)).sum

theorem kraftSum_perm {maxLen : Nat} {ds es : List Nat} (h : ds.Perm es) : kraftSum maxLen ds = kraftSum maxLen es :=
  (h.map _).sum_eq

/-- A node's two children share its code space, but for those of a capped node. -/
theorem two_mul_pow_child (maxLen d : Nat) :
    2 * 2 ^ (maxLen - min (d + 1) maxLen) = 2 ^ (maxLen - d) + (if maxLen ≤ d then 1 else 0) := by
  by_cases h : maxLen ≤ d
  · rw [if_pos h, Nat.min_eq_right (h.trans (Nat.le_succ d)), Nat.sub_self, Nat.sub_eq_zero_of_le h]
    rfl
  · rw [if_neg h, Nat.min_eq_left (Nat.succ_le_of_lt (not_le.mp h)), ← Nat.pow_succ']
    congr 1
    omega

theorem pairsDown_perm (n k : Nat) : (pairsDown n k).Perm (List.range' n k ++ List.range' n k) := by
  induction k with
  | zero => exact .nil
  | succ k ih =>
    have hsnoc : (List.range' n (k + 1)).Perm ((n + k) :: List.range' n k) := by
      rw [List.range'_1_concat]
      exact List.perm_append_singleton ..
    exact (((ih.cons (n + k)).trans (List.perm_middle.symm)).cons (n + k)).trans (hsnoc.append hsnoc).symm

section
variable {n maxLen : Nat} {xs f : List Nat} {root : Nat} {rest : List Nat} {b : TreeBuild} {depth : Nat → Nat}

/-- The capped internal nodes. -/
def cappedNodes (maxLen : Nat) (depth : Nat → Nat) (n k : Nat) : Nat :=
  (List.range' n k).countP fun m => decide (maxLen ≤ depth m)

theorem MergedTree.countP_dads (h : MergedTree n xs f root rest b) :
    rest.countP (fun m => decide (maxLen ≤ depth (at0 b.dad m))) = 2 * cappedNodes maxLen depth n (xs.length - 1) := by
  have hmap : rest.countP (fun m => decide (maxLen ≤ depth (at0 b.dad m))) =
      (rest.map (at0 b.dad)).countP fun m => decide (maxLen ≤ depth m) := by
    rw [List.countP_map]
    rfl
  rw [hmap, h.dads, (pairsDown_perm ..).countP_eq, List.countP_append, cappedNodes, Nat.two_mul]

variable (h : MergedTree n xs f root rest b) (hroot : depth root = 0)
  (hdepth : ∀ m ∈ rest, depth m = min (depth (at0 b.dad m) + 1) maxLen)
include h hdepth

theorem MergedTree.sum_children : 2 * kraftSum maxLen (rest.map depth) =
    2 * kraftSum maxLen ((List.range' n (xs.length - 1)).map depth) + 2 * cappedNodes maxLen depth n (xs.length - 1) := by
  have hdads : ((rest.map (at0 b.dad)).map fun m => 2 ^ (maxLen - depth m)).sum =
      2 * kraftSum maxLen ((List.range' n (xs.length - 1)).map depth) := by
    rw [h.dads, ((pairsDown_perm n _).map _).sum_eq, List.map_append, List.sum_append, kraftSum, List.map_map, Nat.two_mul]
    rfl
  rw [← hdads, ← h.countP_dads]
  have hall : ∀ ms : List Nat, (∀ m ∈ ms, depth m = min (depth (at0 b.dad m) + 1) maxLen) →
      2 * kraftSum maxLen (ms.map depth) = ((ms.map (at0 b.dad)).map fun m => 2 ^ (maxLen - depth m)).sum +
        ms.countP (fun m => decide (maxLen ≤ depth (at0 b.dad m))) := by
    intro ms
    induction ms with
    | nil => exact fun _ => rfl
    | cons m ms ih =>
      intro hms
      obtain ⟨hm, hms⟩ := List.forall_mem_cons.mp hms
      have hchild := two_mul_pow_child maxLen (depth (at0 b.dad m))
      have ih := ih hms
      rw [← hm] at hchild
      simp only [kraftSum, List.map_cons, List.sum_cons, List.countP_cons, decide_eq_true_eq] at ih ⊢
      omega
  exact hall rest hdepth

include hroot

/-- The symbols overrun the code space by one code for every capped internal node. -/
theorem MergedTree.kraft : kraftSum maxLen (xs.map depth) = 2 ^ maxLen + cappedNodes maxLen depth n (xs.length - 1) := by
  have hchildren := h.sum_children hdepth
  have hall := kraftSum_perm (maxLen := maxLen) (h.nodes.map depth)
  have hsplit : kraftSum maxLen ((xs ++ List.range' n (xs.length - 1)).map depth) =
      kraftSum maxLen (xs.map depth) + kraftSum maxLen ((List.range' n (xs.length - 1)).map depth) := by
    simp only [kraftSum, List.map_append, List.sum_append]
  have hcons : kraftSum maxLen ((root :: rest).map depth) = 2 ^ maxLen + kraftSum maxLen (rest.map depth) := by
    simp only [kraftSum, List.map_cons, List.sum_cons, hroot, Nat.sub_zero]
  omega

omit hroot

/-- There are as many capped symbols as capped internal nodes. -/
theorem MergedTree.capped_leaves :
    cappedNodes maxLen depth n (xs.length - 1) ≤ xs.countP fun m => decide (maxLen ≤ depth m) := by
  have hall := h.nodes.countP_eq fun m => decide (maxLen ≤ depth m)
  rw [List.countP_append, List.countP_cons] at hall
  have hsub : rest.countP (fun m => decide (maxLen ≤ depth (at0 b.dad m))) ≤ rest.countP fun m => decide (maxLen ≤ depth m) := by
    refine List.countP_mono_left fun m hm hcap => ?_
    rw [decide_eq_true_eq] at hcap ⊢
    rw [hdepth m hm]
    omega
  rw [h.countP_dads] at hsub
  unfold cappedNodes at hsub ⊢
  omega

end
end Sys2Proof.Machine
end

section
/-! SUPPORT. The overflow correction (R92, R93): each turn gives one code of the code space back, and the leaves take the
lengths that are left. -/

namespace Sys2Proof.Machine

/-! ### The histogram as a collection of lengths -/

/-- The histogram counts the lengths `ds`, which are all usable. -/
structure Counts (maxLen : Nat) (bl ds : List Nat) : Prop where
  size : bl.length = 16
  count : ∀ l, at0 bl l = ds.count l
  range : ∀ d ∈ ds, 1 ≤ d ∧ d ≤ maxLen

theorem nonEmptyBelow_spec {bl : List Nat} {d k : Nat} (hd : at0 bl d ≠ 0) (hpos : 1 ≤ d) (hk : d ≤ k) :
    1 ≤ nonEmptyBelow bl k ∧ nonEmptyBelow bl k ≤ k ∧ at0 bl (nonEmptyBelow bl k) ≠ 0 := by
  induction k with
  | zero => exact absurd (hpos.trans hk) (by decide)
  | succ k ih =>
    rw [nonEmptyBelow]
    split
    · rename_i hzero
      have hle : d ≤ k := by
        by_contra hgt
        exact hd (by rw [Nat.le_antisymm hk (Nat.lt_of_not_le hgt), hzero])
      obtain ⟨hp, hle', hne⟩ := ih hle
      exact ⟨hp, Nat.le_succ_of_le hle', hne⟩
    · rename_i hne
      exact ⟨Nat.succ_pos k, Nat.le_refl _, hne⟩

theorem count_cons_eq (x l : Nat) (xs : List Nat) : (x :: xs).count l = xs.count l + if l = x then 1 else 0 := by
  rw [List.count_cons, if_congr (beq_iff_eq.trans eq_comm) rfl rfl]

section
variable {maxLen : Nat} {bl ds : List Nat}

/-- R92: one leaf moves down a level, and a leaf of the last level becomes its sibling. -/
theorem correctOnce_counts (h : Counts maxLen bl ds) (hmax : maxLen ≤ 15) (hlast : maxLen ∈ ds) {d : Nat} (hd : d ∈ ds)
    (hlt : d < maxLen) :
    ∃ es, Counts maxLen (correctOnce maxLen bl) es ∧ es.length = ds.length ∧ kraftSum maxLen es + 1 = kraftSum maxLen ds ∧
      ds.count maxLen ≤ es.count maxLen + 1 := by
  have hdcount : at0 bl d ≠ 0 := by
    rw [h.count]
    exact (List.count_pos_iff.mpr hd).ne'
  obtain ⟨hpos, hle, hne⟩ := nonEmptyBelow_spec (k := maxLen - 1) hdcount (h.range d hd).1 (Nat.le_sub_one_of_lt hlt)
  have hdef : correctOnce maxLen bl = (addAt (bl.set (nonEmptyBelow bl (maxLen - 1))
      (at0 bl (nonEmptyBelow bl (maxLen - 1)) - 1)) (nonEmptyBelow bl (maxLen - 1) + 1) 2).set maxLen
      (at0 (addAt (bl.set (nonEmptyBelow bl (maxLen - 1)) (at0 bl (nonEmptyBelow bl (maxLen - 1)) - 1))
        (nonEmptyBelow bl (maxLen - 1) + 1) 2) maxLen - 1) := rfl
  rw [hdef]
  generalize nonEmptyBelow bl (maxLen - 1) = bits at hpos hle hne ⊢
  have hbits : bits < maxLen := by omega
  rw [h.count] at hne
  obtain ⟨es, hperm⟩ : ∃ es, ds.Perm (bits :: maxLen :: es) := by
    have hfirst := List.perm_cons_erase (List.count_pos_iff.mp (Nat.pos_of_ne_zero hne))
    have hlast' : maxLen ∈ ds.erase bits := (List.mem_erase_of_ne hbits.ne').mpr hlast
    exact ⟨_, hfirst.trans ((List.perm_cons_erase hlast').cons bits)⟩
  have hcount : ∀ l, ds.count l = es.count l + (if l = maxLen then 1 else 0) + (if l = bits then 1 else 0) := fun l => by
    rw [hperm.count_eq, count_cons_eq, count_cons_eq]
  refine ⟨(bits + 1) :: (bits + 1) :: es, ⟨?_, fun l => ?_, ?_⟩, hperm.length_eq.symm, ?_, ?_⟩
  · rw [List.length_set, addAt_length, List.length_set, h.size]
  · have hsize : bits < bl.length := by
      rw [h.size]
      omega
    have hsize' : bits + 1 < (bl.set bits (at0 bl bits - 1)).length := by
      rw [List.length_set, h.size]
      omega
    have hsize'' : maxLen < (addAt (bl.set bits (at0 bl bits - 1)) (bits + 1) 2).length := by
      rw [addAt_length, List.length_set, h.size]
      omega
    rw [at0_set hsize'', at0_addAt hsize', at0_addAt hsize', at0_set hsize, at0_set hsize, h.count, h.count, h.count,
      count_cons_eq, count_cons_eq, hcount l, hcount maxLen, hcount bits]
    by_cases hfrom : l = bits
    · subst hfrom
      split_ifs <;> omega
    by_cases hlast : l = maxLen
    · subst hlast
      split_ifs <;> omega
    · split_ifs <;> omega
  · intro x hx
    have hrest := h.range x
    rw [hperm.mem_iff] at hrest
    rcases List.mem_cons.mp hx with rfl | hx
    · omega
    rcases List.mem_cons.mp hx with rfl | hx
    · omega
    · exact hrest (List.mem_cons_of_mem _ (List.mem_cons_of_mem _ hx))
  · rw [kraftSum_perm hperm]
    have hpow : 2 ^ (maxLen - bits) = 2 * 2 ^ (maxLen - (bits + 1)) := by
      rw [← Nat.pow_succ']
      congr 1
      omega
    simp only [kraftSum, List.map_cons, List.sum_cons, Nat.sub_self, hpow]
    omega
  · rw [hcount maxLen, if_pos rfl, if_neg hbits.ne', Nat.add_zero, count_cons_eq, count_cons_eq]
    omega

/-- Lengths that overrun the code space are not all maximal, when there are fewer than that many codes. -/
theorem exists_short {j : Nat} (hlen : ds.length ≤ 2 ^ maxLen) (hkraft : kraftSum maxLen ds = 2 ^ maxLen + (j + 1)) :
    ∃ d ∈ ds, d < maxLen := by
  by_contra hnone
  push Not at hnone
  have hone : ∀ d ∈ ds, 2 ^ (maxLen - d) = 1 := fun d hd => by rw [Nat.sub_eq_zero_of_le (hnone d hd), Nat.pow_zero]
  rw [kraftSum, List.map_congr_left hone, List.map_const', List.sum_replicate, smul_eq_mul, Nat.mul_one] at hkraft
  omega

/-- R92: the turns stop at a complete code. -/
theorem correctLoop_counts (hmax : maxLen ≤ 15) {j : Nat} : ∀ {fuel : Nat} {bl ds : List Nat}, Counts maxLen bl ds →
    ds.length ≤ 2 ^ maxLen → kraftSum maxLen ds = 2 ^ maxLen + (j + 1) → j + 1 ≤ ds.count maxLen → j < fuel →
    ∃ es, Counts maxLen (correctLoop maxLen fuel (2 * (j + 1)) bl) es ∧ es.length = ds.length ∧
      kraftSum maxLen es = 2 ^ maxLen := by
  induction j with
  | zero =>
    intro fuel bl ds h hlen hkraft hcount hfuel
    obtain ⟨fuel, rfl⟩ := Nat.exists_eq_add_of_lt hfuel
    obtain ⟨d, hd, hlt⟩ := exists_short hlen hkraft
    obtain ⟨es, hes, hsame, hless, -⟩ := correctOnce_counts h hmax (List.count_pos_iff.mp hcount) hd hlt
    refine ⟨es, ?_, hsame, by omega⟩
    rw [correctLoop, if_pos (Nat.le_refl 2)]
    exact hes
  | succ j ih =>
    intro fuel bl ds h hlen hkraft hcount hfuel
    obtain ⟨fuel, rfl⟩ := Nat.exists_eq_add_of_lt hfuel
    obtain ⟨d, hd, hlt⟩ := exists_short hlen hkraft
    obtain ⟨es, hes, hsame, hless, hlast⟩ :=
      correctOnce_counts h hmax (List.count_pos_iff.mp ((Nat.succ_pos _).trans_le hcount)) hd hlt
    obtain ⟨gs, hgs, hlenG, hkraftG⟩ := ih (fuel := j + 1 + fuel) hes (by omega) (by omega) (by omega) (by omega)
    refine ⟨gs, ?_, hlenG.trans hsame, hkraftG⟩
    rw [correctLoop, if_neg (by omega)]
    exact hgs

/-! ### The lengths handed out (R93) -/

theorem count_lengthsDown (bl : List Nat) (k l : Nat) :
    (lengthsDown bl k).count l = if 1 ≤ l ∧ l ≤ k then at0 bl l else 0 := by
  induction k with
  | zero =>
    rw [if_neg (by omega)]
    rfl
  | succ k ih =>
    rw [lengthsDown, List.count_append, List.count_replicate, ih]
    by_cases hl : l = k + 1
    · subst hl
      simp
    · have hiff : (1 ≤ l ∧ l ≤ k + 1) ↔ (1 ≤ l ∧ l ≤ k) := by omega
      rw [if_neg (by simpa using Ne.symm hl), if_congr hiff rfl rfl, Nat.zero_add]

theorem Counts.lengthsDown (h : Counts maxLen bl ds) : (lengthsDown bl maxLen).Perm ds := by
  refine List.perm_iff_count.mpr fun l => ?_
  rw [count_lengthsDown, h.count]
  split
  · rfl
  · rename_i hout
    exact (List.count_eq_zero.mpr fun hl => hout (h.range l hl)).symm

end

section
variable {b : TreeBuild} {m d : Nat}

theorem reassign_len (hm : m < b.len.length) (x : Nat) :
    at0 (reassign b (m, d)).len x = if x = m then d else at0 b.len x := by
  unfold reassign
  dsimp only
  split
  · exact at0_set hm d x
  · rename_i hsame
    by_cases hx : x = m
    · rw [if_pos hx, hx]
      exact not_not.mp hsame
    · rw [if_neg hx]

theorem reassign_len_length (b : TreeBuild) (mb : Nat × Nat) : (reassign b mb).len.length = b.len.length := by
  unfold reassign
  dsimp only
  split
  · exact List.length_set
  · rfl

theorem reassign_freq (b : TreeBuild) (mb : Nat × Nat) : (reassign b mb).freq = b.freq := by rw [reassign_frame b mb]

theorem reassign_optLen (b : TreeBuild) (m d : Nat) : (reassign b (m, d)).optLen + ((at0 b.freq m * at0 b.len m : Nat) : Word) =
    b.optLen + ((at0 b.freq m * d : Nat) : Word) := by
  unfold reassign
  dsimp only
  split
  · have hcast : BitVec.ofInt 32 (((d : Int) - (at0 b.len m : Int)) * (at0 b.freq m : Int)) =
        ((((d : Int) - (at0 b.len m : Int)) * (at0 b.freq m : Int) : Int) : Word) := rfl
    rw [hcast]
    push_cast
    ring
  · rename_i hsame
    rw [not_not.mp hsame]

/-- R93: the leaves take the lengths in order, and the cost follows. -/
theorem foldl_reassign {ms : List Nat} : ∀ {ds : List Nat} {b : TreeBuild}, ms.Nodup → (∀ m ∈ ms, m < b.len.length) →
    ms.length = ds.length →
    ms.map (at0 ((ms.zip ds).foldl reassign b).len) = ds ∧
    (∀ x, x ∉ ms → at0 ((ms.zip ds).foldl reassign b).len x = at0 b.len x) ∧
    ((ms.zip ds).foldl reassign b).optLen + (((ms.map fun m => at0 b.freq m * at0 b.len m).sum : Nat) : Word) =
      b.optLen + (((ms.map fun m => at0 b.freq m * at0 ((ms.zip ds).foldl reassign b).len m).sum : Nat) : Word) := by
  induction ms with
  | nil =>
    intro ds b _ _ hlen
    cases List.length_eq_zero_iff.mp hlen.symm
    exact ⟨rfl, fun _ _ => rfl, rfl⟩
  | cons m ms ih =>
    intro ds b hnodup hsize hlen
    match ds with
    | d :: ds =>
      obtain ⟨hnew, hnodup⟩ := List.nodup_cons.mp hnodup
      obtain ⟨hm, hsize⟩ := List.forall_mem_cons.mp hsize
      obtain ⟨hmap, hother, hcost⟩ := ih (ds := ds) (b := reassign b (m, d)) hnodup
        (by rwa [reassign_len_length]) (Nat.succ.inj hlen)
      rw [List.zip_cons_cons, List.foldl_cons]
      set c := (ms.zip ds).foldl reassign (reassign b (m, d)) with hc
      have hself : at0 c.len m = d := by rw [hother m hnew, reassign_len hm, if_pos rfl]
      have hold : ms.map (fun x => at0 (reassign b (m, d)).freq x * at0 (reassign b (m, d)).len x) =
          ms.map fun x => at0 b.freq x * at0 b.len x :=
        List.map_congr_left fun x hx => by
          rw [reassign_freq, reassign_len hm, if_neg (ne_of_mem_of_not_mem hx hnew)]
      refine ⟨?_, fun x hx => ?_, ?_⟩
      · rw [List.map_cons, hself, hmap]
      · obtain ⟨hxm, hxs⟩ := List.ne_and_not_mem_of_not_mem_cons hx
        rw [hother x hxs, reassign_len hm, if_neg hxm]
      · rw [hold, reassign_freq] at hcost
        have hone := reassign_optLen b m d
        simp only [List.map_cons, List.sum_cons, hself, Nat.cast_add] at hcost ⊢
        linear_combination hcost + hone

end
end Sys2Proof.Machine
end

section
/-! SUPPORT. The lengths a build ends with (R91 to R93): the participants' lengths fill the code space, the histogram counts them,
and the costs follow them. -/

namespace Sys2Proof.Machine

theorem Counts.perm {maxLen : Nat} {bl ds es : List Nat} (h : Counts maxLen bl ds) (hperm : ds.Perm es) : Counts maxLen bl es where
  size := h.size
  count l := by rw [h.count, hperm.count_eq]
  range d hd := h.range d (hperm.mem_iff.mpr hd)

/-- What the symbols `xs` cost that occur `count` times each, under the lengths `len`. -/
def codeCost (alpha : Alphabet) (count len : Nat → Nat) (xs : List Nat) : Nat :=
  (xs.map fun x => count x * (len x + alpha.extraBits x)).sum

theorem codeCost_split (alpha : Alphabet) (count len : Nat → Nat) (xs : List Nat) : codeCost alpha count len xs =
    (xs.map fun x => count x * len x).sum + (xs.map fun x => count x * alpha.extraBits x).sum := by
  simp only [codeCost, Nat.mul_add, List.sum_map_add]

theorem codeCost_congr {alpha : Alphabet} {count count' len len' : Nat → Nat} {xs : List Nat}
    (h : ∀ x ∈ xs, count x = count' x ∧ len x = len' x) : codeCost alpha count len xs = codeCost alpha count' len' xs :=
  congrArg List.sum (List.map_congr_left fun x hx => by rw [(h x hx).1, (h x hx).2])

theorem codeCost_perm {alpha : Alphabet} {count len : Nat → Nat} {xs ys : List Nat} (h : xs.Perm ys) :
    codeCost alpha count len xs = codeCost alpha count len ys := (h.map _).sum_eq

/-- The lengths, the histogram and the costs of a finished code for the symbols `xs`, whose frequencies are `f`. -/
structure BuiltLengths (alpha : Alphabet) (xs f : List Nat) (optIn staticIn : Word) (c : TreeBuild) : Prop where
  counts : Counts alpha.maxLen c.blCount (xs.map (at0 c.len))
  kraft : kraftSum alpha.maxLen (xs.map (at0 c.len)) = 2 ^ alpha.maxLen
  zero : ∀ x, x < alpha.size → x ∉ xs → at0 c.len x = 0
  optLen : c.optLen = optIn + ((codeCost alpha (at0 f) (at0 c.len) xs : Nat) : Word)
  staticLen : c.staticLen = staticIn + (((xs.map fun x => staticCost alpha (at0 f x) x).sum : Nat) : Word)

/-! ### The walk -/

section
variable {alpha : Alphabet} {xs f : List Nat} {root : Nat} {rest : List Nat} {b : TreeBuild}

theorem MergedTree.drop_root (h : MergedTree alpha.size xs f root rest b) : b.heap.drop (b.heapMax + 1) = rest := by
  have hrec := h.recorded
  rw [recordedNodes] at hrec
  rw [← List.drop_drop, hrec]
  rfl

/-- R91: the walk finds the capped depths. -/
theorem genLengths_walked (h : MergedTree alpha.size xs f root rest b) (hnodup : xs.Nodup) (hlt : ∀ x ∈ xs, x < alpha.size)
    (hlen : xs.length ≤ alpha.size) (hzero : b.len = List.replicate (2 * alpha.size + 1) 0) :
    ∃ depth : Nat → Nat, depth root = 0 ∧ (∀ m ∈ rest, depth m = min (depth (at0 b.dad m) + 1) alpha.maxLen) ∧
      Walked alpha depth b rest (genLengths alpha b) := by
  obtain ⟨depth, hroot, hdepth⟩ := exists_depths (maxLen := alpha.maxLen) (dad := at0 b.dad) rest (h.nodup hnodup hlt)
    h.parents_first
  refine ⟨depth, hroot, hdepth, ?_⟩
  have hsize : ∀ m ∈ rest, m < 2 * alpha.size + 1 := by
    intro m hm
    have := nodes_lt hlt (h.nodes.subset (List.mem_cons_of_mem _ hm))
    omega
  have hstart : Walked alpha depth b [] { b with blCount := List.replicate 16 0, overflow := 0,
                                                 len := b.len.set (at0 b.heap b.heapMax) 0 } :=
    { frame := rfl
      lenSize := by rw [List.length_set, hzero, List.length_replicate]
      blSize := List.length_replicate
      len := fun x => by
        rw [hzero, List.set_replicate_self]
        exact at0_replicate_zero _ x
      overflow := rfl
      blCount := fun l => at0_replicate_zero 16 l
      optLen := (add_zero b.optLen).symm
      staticLen := (add_zero b.staticLen).symm }
  have hfold := Walked.foldl (todo := rest) hroot hsize h.parents_first hdepth rfl hstart
  rw [genLengths, foldl_lengthStep, ← h.size, map_at0_range', h.drop_root]
  exact hfold

/-- The leaves recorded are the participants. -/
theorem MergedTree.leaves (h : MergedTree alpha.size xs f root rest b) (hle : ∀ x ∈ xs, (x : Int) ≤ b.maxCode)
    (hmax : b.maxCode < alpha.size) (htwo : 2 ≤ xs.length) :
    (leavesOf b (root :: rest)).Perm xs ∧ leavesOf b (root :: rest) = leavesOf b rest := by
  have hinternal : ∀ m : Nat, alpha.size ≤ m → ¬ (m : Int) ≤ b.maxCode := fun m hm => by omega
  have hroot := h.root_eq
  refine ⟨?_, List.filter_cons_of_neg (by simpa using hinternal root (by omega))⟩
  have hperm := h.nodes.filter fun m : Nat => decide ((m : Int) ≤ b.maxCode)
  have hxs : xs.filter (fun m : Nat => decide ((m : Int) ≤ b.maxCode)) = xs := List.filter_eq_self.mpr (by simpa using hle)
  have hnone : (List.range' alpha.size (xs.length - 1)).filter (fun m : Nat => decide ((m : Int) ≤ b.maxCode)) = [] :=
    List.filter_eq_nil_iff.mpr fun m hm => by simpa using hinternal m (List.mem_range'_1.mp hm).1
  rwa [List.filter_append, hxs, hnone, List.append_nil] at hperm

end

theorem Alphabet.size_le_pow (alpha : Alphabet) : alpha.size ≤ 2 ^ alpha.maxLen := by cases alpha <;> decide

theorem Alphabet.maxLen_pos (alpha : Alphabet) : 1 ≤ alpha.maxLen := by cases alpha <;> decide

/-! ### The final lengths -/

section
variable {alpha : Alphabet} {xs f : List Nat} {root : Nat} {rest : List Nat} {b c : TreeBuild} {depth : Nat → Nat}

/-- The walk's own lengths: complete if nothing overflowed. -/
structure WalkEnd (alpha : Alphabet) (xs f : List Nat) (b : TreeBuild) (c : TreeBuild) (excess : Nat) : Prop where
  counts : Counts alpha.maxLen c.blCount (xs.map (at0 c.len))
  kraft : kraftSum alpha.maxLen (xs.map (at0 c.len)) = 2 ^ alpha.maxLen + excess
  overflow : c.overflow = 2 * excess
  capped : excess ≤ (xs.map (at0 c.len)).count alpha.maxLen
  size : c.len.length = 2 * alpha.size + 1
  zero : ∀ x, x < alpha.size → x ∉ xs → at0 c.len x = 0
  optLen : c.optLen = b.optLen + ((codeCost alpha (at0 f) (at0 c.len) xs : Nat) : Word)
  staticLen : c.staticLen = b.staticLen + (((xs.map fun x => staticCost alpha (at0 f x) x).sum : Nat) : Word)

theorem walked_end (h : MergedTree alpha.size xs f root rest b) (hlt : ∀ x ∈ xs, x < alpha.size)
    (hle : ∀ x ∈ xs, (x : Int) ≤ b.maxCode) (hmax : b.maxCode < alpha.size) (htwo : 2 ≤ xs.length)
    (hroot : depth root = 0) (hdepth : ∀ m ∈ rest, depth m = min (depth (at0 b.dad m) + 1) alpha.maxLen)
    (hw : Walked alpha depth b rest c) :
    WalkEnd alpha xs f b c (cappedNodes alpha.maxLen depth alpha.size (xs.length - 1)) := by
  obtain ⟨hleaves, hsame⟩ := h.leaves hle hmax htwo
  rw [hsame] at hleaves
  have hmem : ∀ x ∈ xs, x ∈ rest := fun x hx => (List.mem_filter.mp (hleaves.mem_iff.mpr hx)).1
  have hlen : ∀ x ∈ xs, at0 c.len x = depth x := fun x hx => by rw [hw.len, if_pos (hmem x hx)]
  have hmap : xs.map (at0 c.len) = xs.map depth := List.map_congr_left hlen
  have hrange : ∀ x ∈ xs, 1 ≤ depth x ∧ depth x ≤ alpha.maxLen := by
    intro x hx
    have := alpha.maxLen_pos
    rw [hdepth x (hmem x hx)]
    omega
  have hfreq : ∀ x ∈ xs, at0 b.freq x = at0 f x := fun x hx => h.freq x (hlt x hx)
  refine ⟨⟨hw.blSize, fun l => ?_, fun d hd => ?_⟩, ?_, ?_, ?_, hw.lenSize, fun x hx hnot => ?_, ?_, ?_⟩
  · rw [hw.blCount, hmap, (hleaves.map depth).count_eq]
  · rw [hmap] at hd
    obtain ⟨x, hx, rfl⟩ := List.mem_map.mp hd
    exact hrange x hx
  · rw [hmap, h.kraft hroot hdepth]
  · rw [hw.overflow, h.countP_dads]
  · rw [hmap, List.count, List.countP_map]
    refine (h.capped_leaves hdepth).trans (List.countP_mono_left fun x hx hcap => ?_)
    rw [decide_eq_true_eq] at hcap
    exact beq_iff_eq.mpr (Nat.le_antisymm (hrange x hx).2 hcap)
  · rw [hw.len, if_neg]
    intro hrest
    rcases List.mem_append.mp (h.nodes.subset (List.mem_cons_of_mem _ hrest)) with hxs | hinternal
    · exact hnot hxs
    · exact Nat.not_lt_of_le (List.mem_range'_1.mp hinternal).1 hx
  · have hcost : codeCost alpha (at0 b.freq) depth (leavesOf b rest) = codeCost alpha (at0 f) (at0 c.len) xs :=
      (codeCost_perm hleaves).trans (codeCost_congr fun x hx => ⟨hfreq x hx, (hlen x hx).symm⟩)
    rw [← hcost]
    exact hw.optLen
  · have hcost : ((leavesOf b rest).map fun m => staticCost alpha (at0 b.freq m) m).sum =
        (xs.map fun x => staticCost alpha (at0 f x) x).sum :=
      ((hleaves.map _).sum_eq).trans (congrArg List.sum (List.map_congr_left fun x hx => by rw [hfreq x hx]))
    rw [← hcost]
    exact hw.staticLen

theorem foldl_reassign_others (ps : List (Nat × Nat)) (b : TreeBuild) :
    (ps.foldl reassign b).blCount = b.blCount ∧ (ps.foldl reassign b).staticLen = b.staticLen := by
  have hstep : ∀ (c : TreeBuild) (mb : Nat × Nat), (reassign c mb).blCount = c.blCount ∧
      (reassign c mb).staticLen = c.staticLen := by
    intro c mb
    unfold reassign
    dsimp only
    split <;> exact ⟨rfl, rfl⟩
  induction ps generalizing b with
  | nil => exact ⟨rfl, rfl⟩
  | cons p ps ih => exact ⟨(ih _).1.trans (hstep b p).1, (ih _).2.trans (hstep b p).2⟩

/-- R92, R93: after the correction the code is complete. -/
theorem correctOverflow_built {excess : Nat} (h : WalkEnd alpha xs f b c excess) (hnodup : xs.Nodup)
    (hlt : ∀ x ∈ xs, x < alpha.size) (hlen : xs.length ≤ alpha.size) (hleaves : (leavesFromEnd c).Perm xs)
    (hfreq : ∀ x ∈ xs, at0 c.freq x = at0 f x) :
    BuiltLengths alpha xs f b.optLen b.staticLen (correctOverflow alpha c) := by
  have hoverflow := h.overflow
  rw [correctOverflow]
  split
  · obtain ⟨j, rfl⟩ : ∃ j, excess = j + 1 := Nat.exists_eq_succ_of_ne_zero (by omega)
    have hsize := alpha.size_le_pow
    obtain ⟨es, hes, hesLen, hesKraft⟩ := correctLoop_counts (fuel := c.overflow) alpha.maxLen_le h.counts
      (by rw [List.length_map]; omega) h.kraft h.capped (by omega)
    rw [← hoverflow] at hes
    dsimp only
    set bl := correctLoop alpha.maxLen c.overflow c.overflow c.blCount with hbl
    let c' : TreeBuild := { c with blCount := bl }
    set ls := leavesFromEnd c with hls
    set down := lengthsDown bl alpha.maxLen with hdown
    have hdownPerm : down.Perm es := hes.lengthsDown
    have hsame : ls.length = down.length := by
      rw [hleaves.length_eq, hdownPerm.length_eq, hesLen, List.length_map]
    have hbound : ∀ m ∈ ls, m < c'.len.length := by
      intro m hm
      have := hlt m (hleaves.subset hm)
      have := h.size
      change m < c.len.length
      omega
    obtain ⟨hmap, hother, hcost⟩ := foldl_reassign (b := c') (hleaves.nodup_iff.mpr hnodup) hbound hsame
    obtain ⟨hblCount, hstatic⟩ := foldl_reassign_others (ls.zip down) c'
    set d := (ls.zip down).foldl reassign c' with hd
    have hlens : es.Perm (xs.map (at0 d.len)) := by
      have := hleaves.map (at0 d.len)
      rw [hmap] at this
      exact hdownPerm.symm.trans this
    have hcounts : Counts alpha.maxLen d.blCount (xs.map (at0 d.len)) := by
      rw [hblCount]
      exact hes.perm hlens
    change BuiltLengths alpha xs f b.optLen b.staticLen d
    refine ⟨hcounts, (kraftSum_perm hlens.symm).trans hesKraft, fun x hx hnot => ?_, ?_, hstatic.trans h.staticLen⟩
    · rw [hother x (fun hx' => hnot (hleaves.subset hx'))]
      exact h.zero x hx hnot
    · have hsum : ∀ len : Nat → Nat, (ls.map fun m => at0 c'.freq m * len m).sum = (xs.map fun x => at0 f x * len x).sum :=
        fun len => ((hleaves.map _).sum_eq).trans
          (congrArg List.sum (List.map_congr_left fun x hx => congrArg (· * len x) (hfreq x hx)))
      rw [hsum, hsum] at hcost
      have hopt := h.optLen
      have hc'opt : c'.optLen = c.optLen := rfl
      have hc'len : c'.len = c.len := rfl
      rw [codeCost_split, Nat.cast_add] at hopt ⊢
      rw [hc'opt, hc'len] at hcost
      linear_combination hcost + hopt
  · obtain rfl : excess = 0 := by omega
    exact ⟨h.counts, h.kraft, h.zero, h.optLen, h.staticLen⟩

end

/-- R84 to R93: the lengths of the participants, and the costs beyond those of the seeded build. -/
theorem lengthBuild_built (f : List Nat) (alpha : Alphabet) (optIn staticIn : Word) :
    BuiltLengths alpha (participants f alpha.size) (seedBuild f alpha optIn staticIn).freq
      (seedBuild f alpha optIn staticIn).optLen (seedBuild f alpha optIn staticIn).staticLen
      (lengthBuild f alpha optIn staticIn) := by
  have hbig := alpha.two_lt_size
  have hlt : ∀ x ∈ participants f alpha.size, x < alpha.size := fun x hx => participants_lt hbig hx
  have hnodup := participants_nodup f alpha.size
  have hlen := participants_length_le f hbig
  have htwo := two_le_participants f alpha.size
  obtain ⟨hseed, -⟩ := seedBuild_spec f alpha optIn staticIn
  obtain ⟨root, rest, htree⟩ := mergeBuild_mergedTree f alpha optIn staticIn
  set b := mergeBuild f alpha optIn staticIn with hb
  have hmerge : b = _ := mergeBuild_frame f alpha optIn staticIn
  have hzero : b.len = List.replicate (2 * alpha.size + 1) 0 := by
    rw [hmerge, seedBuild_frame]
    rfl
  have hmaxCode : b.maxCode = (seedBuild f alpha optIn staticIn).maxCode := by rw [hmerge]
  have hopt : b.optLen = (seedBuild f alpha optIn staticIn).optLen := by rw [hmerge]
  have hstatic : b.staticLen = (seedBuild f alpha optIn staticIn).staticLen := by rw [hmerge]
  have hle : ∀ x ∈ participants f alpha.size, (x : Int) ≤ b.maxCode := fun x hx => by
    rw [hmaxCode]
    exact hseed.le x hx
  have hmax : b.maxCode < alpha.size := by
    rw [hmaxCode]
    exact seedBuild_maxCode_lt ..
  obtain ⟨depth, hroot, hdepth, hwalk⟩ := genLengths_walked htree hnodup hlt hlen hzero
  have hend := walked_end htree hlt hle hmax htwo hroot hdepth hwalk
  have hframe : genLengths alpha b = _ := genLengths_frame alpha b
  have hleaves : (leavesFromEnd (genLengths alpha b)).Perm (participants f alpha.size) := by
    have heq : leavesFromEnd (genLengths alpha b) = (leavesOf b (root :: rest)).reverse := by
      rw [hframe, leavesFromEnd, leavesOf, ← htree.recorded, List.filter_reverse]
      rfl
    rw [heq]
    exact (List.reverse_perm _).trans (htree.leaves hle hmax htwo).1
  have hfreq : ∀ x ∈ participants f alpha.size, at0 (genLengths alpha b).freq x =
      at0 (seedBuild f alpha optIn staticIn).freq x := fun x hx => by
    rw [hframe]
    exact htree.freq x (hlt x hx)
  rw [← hopt, ← hstatic]
  exact correctOverflow_built hend hnodup hlt hlen hleaves hfreq

end Sys2Proof.Machine
end

section
/-! PROOF. What BUILD_TREE builds and what it costs (R85, R86, R91 to R95, R162). -/

namespace Sys2Proof.Machine

/-! ### Sums over symbols -/

/-- The symbols that a property leaves out count nothing. -/
theorem sum_map_filter {g : Nat → Nat} {p : Nat → Bool} {xs : List Nat} (h : ∀ x ∈ xs, p x = false → g x = 0) :
    ((xs.filter p).map g).sum = (xs.map g).sum := by
  induction xs with
  | nil => rfl
  | cons x xs ih =>
    obtain ⟨hx, hxs⟩ := List.forall_mem_cons.mp h
    cases hp : p x with
    | true => rw [List.filter_cons_of_pos hp, List.map_cons, List.map_cons, List.sum_cons, List.sum_cons, ih hxs]
    | false => rw [List.filter_cons_of_neg (by simp [hp]), List.map_cons, List.sum_cons, ih hxs, hx hp, Nat.zero_add]

/-- A sum over a list is a sum over the values it may hold, each as often as it occurs. -/
theorem sum_count_mul {vs : List Nat} (hnodup : vs.Nodup) (g : Nat → Nat) {ds : List Nat} (hmem : ∀ d ∈ ds, d ∈ vs) :
    (vs.map fun v => ds.count v * g v).sum = (ds.map g).sum := by
  have hsingle : ∀ d ∈ vs, (vs.map fun v => (if v = d then 1 else 0) * g v).sum = g d := by
    intro d hd
    have hothers : ∀ v ∈ vs.erase d, (if v = d then 1 else 0) * g v = 0 := fun v hv => by
      rw [if_neg (hnodup.mem_erase_iff.mp hv).1, Nat.zero_mul]
    rw [((List.perm_cons_erase hd).map _).sum_eq, List.map_cons, List.sum_cons, List.map_congr_left hothers]
    simp
  induction ds with
  | nil => simp
  | cons d ds ih =>
    obtain ⟨hd, hds⟩ := List.forall_mem_cons.mp hmem
    simp only [count_cons_eq, Nat.add_mul, List.sum_map_add]
    rw [ih hds, hsingle d hd, List.map_cons, List.sum_cons, Nat.add_comm]

theorem count_map_of_perm_filter {g : Nat → Nat} {xs ys : List Nat} {l : Nat} (hl : l ≠ 0)
    (h : ys.Perm (xs.filter fun x => g x ≠ 0)) : (xs.map g).count l = (ys.map g).count l := by
  rw [(h.map g).count_eq, List.count_eq_countP, List.count_eq_countP, List.countP_map, List.countP_map, List.countP_filter]
  refine List.countP_congr fun x _ => ?_
  simp only [Function.comp_apply, beq_iff_eq, Bool.and_eq_true, decide_eq_true_eq]
  exact ⟨fun hx => ⟨hx, by rwa [hx]⟩, fun hx => hx.1⟩

/-! ### The result of a build -/

/-- Two codes fill the code space only if both have one bit. -/
theorem kraft_two {maxLen a b : Nat} (ha : 1 ≤ a ∧ a ≤ maxLen) (hb : 1 ≤ b ∧ b ≤ maxLen)
    (h : kraftSum maxLen [a, b] = 2 ^ maxLen) : a = 1 ∧ b = 1 := by
  have hle : ∀ d, 1 ≤ d → 2 ^ (maxLen - d) ≤ 2 ^ (maxLen - 1) := fun d hd =>
    Nat.pow_le_pow_right Nat.two_pos (Nat.sub_le_sub_left hd maxLen)
  have hdouble : 2 ^ maxLen = 2 * 2 ^ (maxLen - 1) := by
    rw [← Nat.pow_succ']
    congr 1
    omega
  have hsum : 2 ^ (maxLen - a) + 2 ^ (maxLen - b) = 2 ^ maxLen := h
  have hla := hle a ha.1
  have hlb := hle b hb.1
  have hea : 2 ^ (maxLen - a) = 2 ^ (maxLen - 1) := by omega
  have heb : 2 ^ (maxLen - b) = 2 ^ (maxLen - 1) := by omega
  have := Nat.pow_right_injective (Nat.le_refl 2) hea
  have := Nat.pow_right_injective (Nat.le_refl 2) heb
  omega

theorem Alphabet.extraBits_small (alpha : Alphabet) {x : Nat} (h : x ≤ 2) : alpha.extraBits x = 0 := by
  interval_cases x <;> cases alpha <;> decide

/-- The result of a build: a complete code for the participants, and their exact costs. -/
structure BuiltTree (f : List Nat) (alpha : Alphabet) (optIn staticIn : Word) (r : TreeResult) : Prop where
  size : r.table.len.length = alpha.size
  counts : Counts alpha.maxLen r.blCount ((participants f alpha.size).map (at0 r.table.len))
  kraft : kraftSum alpha.maxLen ((participants f alpha.size).map (at0 r.table.len)) = 2 ^ alpha.maxLen
  coded : ∀ x, x < alpha.size → (at0 r.table.len x ≠ 0 ↔ x ∈ participants f alpha.size)
  maxCode_mem : r.maxCode ∈ participants f alpha.size
  maxCode_le : ∀ x ∈ participants f alpha.size, x ≤ r.maxCode
  optLen : r.optLen = optIn + ((codeCost alpha (at0 f) (at0 r.table.len) (List.range alpha.size) : Nat) : Word)
  staticLen : r.staticLen =
    staticIn + ((((List.range alpha.size).map fun x => staticCost alpha (at0 f x) x).sum : Nat) : Word)

section
variable {f : List Nat} {alpha : Alphabet}

/-- A sum over the participants, in which a forced symbol stands for itself alone. -/
theorem sum_participants {g g' : Nat → Nat} (hused : ∀ x ∈ usedSymbols f alpha.size, g x = g' x)
    (hzero : ∀ x, at0 f x = 0 → g' x = 0) : ((participants f alpha.size).map g).sum =
      ((List.range alpha.size).map g').sum + ((forcedSymbols (usedSymbols f alpha.size)).map g).sum := by
  have hfilter : ((usedSymbols f alpha.size).map g').sum = ((List.range alpha.size).map g').sum :=
    sum_map_filter fun x _ hx => hzero x (by simpa using hx)
  rw [participants, List.map_append, List.sum_append, List.map_congr_left hused, hfilter]

/-- R86: a forced symbol takes one of two codes of one bit. -/
theorem forced_len {len : Nat → Nat} (hrange : ∀ x ∈ participants f alpha.size, 1 ≤ len x ∧ len x ≤ alpha.maxLen)
    (hkraft : kraftSum alpha.maxLen ((participants f alpha.size).map len) = 2 ^ alpha.maxLen) :
    ∀ x ∈ forcedSymbols (usedSymbols f alpha.size), len x = 1 := by
  intro x hx
  have htwo := length_of_forced hx
  have hmem : x ∈ participants f alpha.size := List.mem_append_right _ hx
  obtain ⟨y, z, heq⟩ := List.length_eq_two.mp htwo
  rw [← participants] at heq
  rw [heq] at hrange hkraft hmem
  obtain ⟨hy, hz, -⟩ : (1 ≤ len y ∧ len y ≤ alpha.maxLen) ∧ (1 ≤ len z ∧ len z ≤ alpha.maxLen) ∧ True :=
    ⟨hrange y (by simp), hrange z (by simp), trivial⟩
  obtain ⟨hy1, hz1⟩ := kraft_two hy hz hkraft
  rcases List.mem_cons.mp hmem with rfl | hmem
  · exact hy1
  · rwa [List.mem_singleton.mp hmem]

end

/-! ### The costs, the forced symbols taken out (R86) -/

section
variable (f : List Nat) (alpha : Alphabet) (optIn staticIn : Word)

theorem freq_of_forced {x : Nat} (hx : x ∈ forcedSymbols (usedSymbols f alpha.size)) :
    at0 (seedBuild f alpha optIn staticIn).freq x = 1 := by
  rw [at0_seedBuild_freq f alpha optIn staticIn ((forcedSymbols_le hx).trans_lt alpha.two_lt_size), if_pos hx]

theorem freq_of_used {x : Nat} (hx : x ∈ usedSymbols f alpha.size) :
    at0 (seedBuild f alpha optIn staticIn).freq x = at0 f x := by
  rw [at0_seedBuild_freq f alpha optIn staticIn (mem_usedSymbols.mp hx).1, if_neg fun h => not_mem_of_forced h hx]

/-- In the built code a forced symbol costs one bit. -/
theorem codeCost_participants {len : Nat → Nat} (hone : ∀ x ∈ forcedSymbols (usedSymbols f alpha.size), len x = 1) :
    codeCost alpha (at0 (seedBuild f alpha optIn staticIn).freq) len (participants f alpha.size) =
      codeCost alpha (at0 f) len (List.range alpha.size) + (forcedSymbols (usedSymbols f alpha.size)).length := by
  have hforced : ∀ x ∈ forcedSymbols (usedSymbols f alpha.size),
      at0 (seedBuild f alpha optIn staticIn).freq x * (len x + alpha.extraBits x) = 1 := fun x hx => by
    rw [freq_of_forced f alpha optIn staticIn hx, hone x hx, alpha.extraBits_small (forcedSymbols_le hx)]
  rw [codeCost, codeCost, sum_participants (g' := fun x => at0 f x * (len x + alpha.extraBits x))
    (fun x hx => by rw [freq_of_used f alpha optIn staticIn hx]) (fun x hx => by rw [hx, Nat.zero_mul]),
    List.map_congr_left hforced, List.map_const', List.sum_replicate, smul_eq_mul, Nat.mul_one]

/-- In the static code a forced symbol costs its static length. -/
theorem staticCost_participants :
    ((participants f alpha.size).map fun x => staticCost alpha (at0 (seedBuild f alpha optIn staticIn).freq x) x).sum =
      ((List.range alpha.size).map fun x => staticCost alpha (at0 f x) x).sum +
        ((forcedSymbols (usedSymbols f alpha.size)).map fun y => (alpha.staticLen y).getD 0).sum := by
  have hforced : ∀ x ∈ forcedSymbols (usedSymbols f alpha.size),
      staticCost alpha (at0 (seedBuild f alpha optIn staticIn).freq x) x = (alpha.staticLen x).getD 0 := by
    intro x hx
    rw [freq_of_forced f alpha optIn staticIn hx, staticCost, alpha.extraBits_small (forcedSymbols_le hx)]
    cases alpha.staticLen x with
    | none => rfl
    | some l => exact Nat.one_mul l
  have hzero : ∀ x, at0 f x = 0 → staticCost alpha (at0 f x) x = 0 := by
    intro x hx
    rw [hx, staticCost]
    cases alpha.staticLen x with
    | none => rfl
    | some l => exact Nat.zero_mul _
  rw [sum_participants (g' := fun x => staticCost alpha (at0 f x) x)
    (fun x hx => by rw [freq_of_used f alpha optIn staticIn hx]) hzero, List.map_congr_left hforced]

/-- `max_code` is the largest participant. -/
theorem buildTree_maxCode_participants : (buildTree f alpha optIn staticIn).maxCode ∈ participants f alpha.size ∧
    ∀ x ∈ participants f alpha.size, x ≤ (buildTree f alpha optIn staticIn).maxCode := by
  obtain ⟨hseed, -⟩ := seedBuild_spec f alpha optIn staticIn
  have htwo := two_le_participants f alpha.size
  rw [buildTree_maxCode]
  rcases hseed.mem with ⟨-, hnil⟩ | ⟨top, htop, hmax⟩
  · rw [hnil] at htwo
    exact absurd htwo (by decide)
  · refine ⟨by rwa [hmax], fun x hx => ?_⟩
    have := hseed.le x hx
    omega

theorem buildTree_built : BuiltTree f alpha optIn staticIn (buildTree f alpha optIn staticIn) := by
  obtain ⟨-, hforced⟩ := seedBuild_spec f alpha optIn staticIn
  obtain ⟨hmaxMem, hmaxLe⟩ := buildTree_maxCode_participants f alpha optIn staticIn
  obtain ⟨hcounts, hkraft, hzero, hopt, hstatic⟩ := lengthBuild_built f alpha optIn staticIn
  set r := buildTree f alpha optIn staticIn with hr
  set c := lengthBuild f alpha optIn staticIn with hc
  have hlen : ∀ x, x < alpha.size → at0 c.len x = at0 r.table.len x := fun x hx => (at0_take hx).symm
  have hlenPart : ∀ x ∈ participants f alpha.size, at0 c.len x = at0 r.table.len x := fun x hx =>
    hlen x (participants_lt alpha.two_lt_size hx)
  rw [List.map_congr_left hlenPart] at hcounts hkraft
  have hrange : ∀ x ∈ participants f alpha.size, 1 ≤ at0 r.table.len x ∧ at0 r.table.len x ≤ alpha.maxLen := fun x hx =>
    hcounts.range _ (List.mem_map_of_mem hx)
  have hstartOpt : (startBuild f alpha optIn staticIn).optLen = optIn := rfl
  have hstartStatic : (startBuild f alpha optIn staticIn).staticLen = staticIn := rfl
  refine ⟨buildTree_len_length .., hcounts, hkraft, fun x hx => ⟨fun hne => ?_, fun hmem => ?_⟩, hmaxMem, hmaxLe, ?_, ?_⟩
  · by_contra hnot
    exact hne (by rw [← hlen x hx, hzero x hx hnot])
  · exact Nat.pos_iff_ne_zero.mp (hrange x hmem).1
  · change c.optLen = _
    rw [hopt, codeCost_congr fun x hx => ⟨rfl, hlenPart x hx⟩,
      codeCost_participants f alpha optIn staticIn (forced_len hrange hkraft), hforced.optLen, hstartOpt, Nat.cast_add]
    ring
  · change c.staticLen = _
    rw [hstatic, staticCost_participants, hforced.staticLen, hstartStatic, Nat.cast_add]
    ring

end
end Sys2Proof.Machine
end

section
/-! PROOF. BUILD_TREE's tables and registers (R23, R162), from the code that the build ends with. -/

namespace Sys2Proof.Machine

section
variable {f : List Nat} {alpha : Alphabet} {optIn staticIn : Word} {r : TreeResult}

theorem BuiltTree.len_le (h : BuiltTree f alpha optIn staticIn r) : ∀ l ∈ r.table.len, l ≤ 15 := by
  intro l hl
  obtain ⟨x, hx, rfl⟩ := List.getElem_of_mem hl
  have hsize : x < alpha.size := by rwa [← h.size]
  rw [← at0_eq_getElem hx]
  by_cases hcode : at0 r.table.len x = 0
  · rw [hcode]
    exact Nat.zero_le 15
  · exact (h.counts.range _ (List.mem_map_of_mem ((h.coded x hsize).mp hcode))).2.trans alpha.maxLen_le

/-- The lengths, as a list over the symbols. -/
theorem BuiltTree.len_eq_map (h : BuiltTree f alpha optIn staticIn r) :
    (List.range alpha.size).map (at0 r.table.len) = r.table.len := by
  refine List.ext_getElem (by rw [List.length_map, List.length_range, h.size]) fun x _ hx => ?_
  rw [List.getElem_map, List.getElem_range, at0_eq_getElem hx]

theorem BuiltTree.participants_perm (h : BuiltTree f alpha optIn staticIn r) :
    (participants f alpha.size).Perm ((List.range alpha.size).filter fun x => at0 r.table.len x ≠ 0) := by
  refine (List.perm_ext_iff_of_nodup (participants_nodup f _) (List.nodup_range.filter _)).mpr fun x => ?_
  rw [List.mem_filter, List.mem_range, decide_eq_true_eq]
  exact ⟨fun hx => ⟨participants_lt alpha.two_lt_size hx, (h.coded x (participants_lt alpha.two_lt_size hx)).mpr hx⟩,
    fun hx => (h.coded x hx.1).mp hx.2⟩

theorem BuiltTree.blCount_zero (h : BuiltTree f alpha optIn staticIn r) : at0 r.blCount 0 = 0 := by
  rw [h.counts.count, List.count_eq_zero]
  intro hmem
  exact absurd (h.counts.range 0 hmem).1 (by decide)

theorem BuiltTree.blCount_eq (h : BuiltTree f alpha optIn staticIn r) {l : Nat} (hl : l ≠ 0) :
    at0 r.blCount l = r.table.len.count l := by
  have hcount := count_map_of_perm_filter hl h.participants_perm
  rw [h.len_eq_map] at hcount
  rw [h.counts.count, hcount]

/-- R94: the histogram is that of the lengths. -/
theorem BuiltTree.blCount_histogram (h : BuiltTree f alpha optIn staticIn r) : r.blCount = histogram r.table.len := by
  have hsize : (histogram r.table.len).length = 16 := rfl
  refine List.ext_getElem (by rw [h.counts.size, hsize]) fun l hl hl' => ?_
  rw [h.counts.size] at hl
  rw [← at0_eq_getElem, ← at0_eq_getElem]
  rcases Nat.eq_zero_or_pos l with rfl | hpos
  · exact h.blCount_zero
  · rw [h.blCount_eq hpos.ne', at0_histogram _ hpos (Nat.le_of_lt_succ hl)]

theorem BuiltTree.blCount_lt (h : BuiltTree f alpha optIn staticIn r) (l : Nat) : at0 r.blCount l < 2 ^ 16 := by
  rw [h.counts.count]
  have hle := List.count_le_length (a := l) (l := (participants f alpha.size).map (at0 r.table.len))
  have hlen := participants_length_le f alpha.two_lt_size
  have hsize := alpha.size_le
  rw [List.length_map] at hle
  omega

/-- The code space of 15 bits is that of `maxLen` bits, each code refined. -/
theorem kraftSum_refine {maxLen n : Nat} (h : maxLen ≤ n) {ds : List Nat} (hds : ∀ d ∈ ds, d ≤ maxLen) :
    (ds.map fun d => 2 ^ (n - d)).sum = kraftSum maxLen ds * 2 ^ (n - maxLen) := by
  rw [kraftSum, ← List.sum_map_mul_right]
  refine congrArg List.sum (List.map_congr_left fun d hd => ?_)
  have := hds d hd
  rw [← Nat.pow_add]
  congr 1
  omega

/-- R94: the code is complete. -/
theorem BuiltTree.complete (h : BuiltTree f alpha optIn staticIn r) :
    ((List.range' 1 15).map fun l => at0 r.blCount l * 2 ^ (15 - l)).sum = 2 ^ 15 := by
  have hmax := alpha.maxLen_le
  have hrange := h.counts.range
  simp only [h.counts.count]
  rw [sum_count_mul (by decide) (fun l => 2 ^ (15 - l)) fun d hd => ?_,
    kraftSum_refine hmax fun d hd => (hrange d hd).2, h.kraft, ← Nat.pow_add, Nat.add_sub_cancel' hmax]
  have := hrange d hd
  exact List.mem_range'_1.mpr (by omega)

theorem at0_assignCodes_zero {lens : List Nat} : ∀ {next : List Nat} {s : Nat}, at0 lens s = 0 →
    at0 (assignCodes lens next) s = 0 := by
  induction lens with
  | nil => exact fun _ => rfl
  | cons l lens ih =>
    intro next s h
    rw [assignCodes]
    cases s with
    | zero =>
      have hl : l = 0 := h
      rw [if_neg (not_not.mpr hl)]
      rfl
    | succ s => split <;> exact ih h

end

/-! ### The participants by the number of symbols that occur (R86) -/

section
variable {f : List Nat} {n : Nat}

theorem usedSymbols_eq_nil (h : ∀ y, y < n → at0 f y = 0) : usedSymbols f n = [] :=
  List.eq_nil_iff_forall_not_mem.mpr fun x hx => (mem_usedSymbols.mp hx).2 (h x (mem_usedSymbols.mp hx).1)

theorem usedSymbols_eq_singleton {x : Nat} (hx : x < n) (hf : at0 f x ≠ 0)
    (hothers : ∀ y, y < n → y ≠ x → at0 f y = 0) : usedSymbols f n = [x] := by
  refine List.perm_singleton.mp ((List.perm_ext_iff_of_nodup (usedSymbols_nodup f n) (List.nodup_singleton x)).mpr fun y => ?_)
  rw [mem_usedSymbols, List.mem_singleton]
  refine ⟨fun hy => ?_, fun hy => hy ▸ ⟨hx, hf⟩⟩
  by_contra hne
  exact hy.2 (hothers y hy.1 hne)

/-- Two symbols that occur leave none to force. -/
theorem participants_eq_used {x y : Nat} (hne : x ≠ y) (hx : x ∈ usedSymbols f n) (hy : y ∈ usedSymbols f n) :
    participants f n = usedSymbols f n := by
  rw [participants]
  match usedSymbols f n, hx, hy with
  | [a], hx, hy => exact absurd ((List.mem_singleton.mp hx).trans (List.mem_singleton.mp hy).symm) hne
  | _ :: _ :: _, _, _ => exact List.append_nil _

end

/-! ### The tables (R23) -/

theorem at0_frequencies {m : Memory} {n x : Nat} (hx : x < n) : at0 (frequencies m n) x = freqEntry m x := by
  rw [at0_eq_getElem (by rwa [frequencies, List.length_map, List.length_range])]
  simp [frequencies]

theorem BuiltTree.lenTable {f : List Nat} {alpha : Alphabet} {optIn staticIn : Word} {r : TreeResult} {m : Memory}
    (h : BuiltTree f alpha optIn staticIn r) (hm : Memory.wf m = true) : lenTable (writeTree r m) alpha.size = r.table.len := by
  rw [Machine.lenTable, ← h.len_eq_map]
  refine List.map_congr_left fun x hx => ?_
  have hx := List.mem_range.mp hx
  have hlt : at0 r.table.len x < 256 := (getD_le h.len_le x).trans_lt (by decide)
  rw [read_writeTree_len hm (hx.trans_le alpha.size_le), BitVec.toNat_ofNat]
  exact Nat.mod_eq_of_lt hlt

/-- Settles O31: the lengths fill the code space, the histogram counts them, and the codes follow from both. -/
theorem buildTreeBuildsACompleteCode : Obligations.BuildTreeBuildsACompleteCode := by
  unfold Obligations.BuildTreeBuildsACompleteCode
  rintro alpha a s t herr hmode hwf ha h lens rfl
  rw [buildTree_next herr hmode ha h]
  set f := frequencies s.mem a.size with hf
  set r := buildTree f a 0#32 0#32 with hr
  have hbuilt : BuiltTree f a 0#32 0#32 r := buildTree_built ..
  have hmem : (buildTreeEffect a s).mem = writeTree r s.mem := rfl
  have hmaxCode : (buildTreeEffect a s).tree.maxCode.toNat = r.maxCode := buildTree_maxCode_register ..
  have hbl : r.blCount.length = 16 := hbuilt.counts.size
  have hentry : ∀ l, l < 16 → blcountEntry (writeTree r s.mem) l = at0 r.blCount l := fun l hl => by
    rw [blcountEntry_writeTree hwf hbl hl, Nat.mod_eq_of_lt (hbuilt.blCount_lt l)]
  have hfreq : ∀ x, x < a.size → freqEntry s.mem x = at0 f x := fun x hx => (at0_frequencies hx).symm
  have hused : ∀ x, x < a.size → (freqEntry s.mem x ≠ 0 ↔ x ∈ usedSymbols f a.size) := fun x hx => by
    rw [hfreq x hx, mem_usedSymbols]
    exact ⟨fun h => ⟨hx, h⟩, fun h => h.2⟩
  rw [hmem, hmaxCode, hbuilt.lenTable hwf]
  refine ⟨⟨?_, fun l hpos hl => ?_⟩, ?_, fun x hx hne => ?_, fun x y hlt hy hfx hfy z hz hcode => ?_,
    fun x hx hne hothers z hz => ?_, fun hnone z hz => ?_, ⟨?_, ?_, fun z hz hcode => ?_⟩, fun z hz => ?_⟩
  · rw [hentry 0 (by decide), hbuilt.blCount_zero]
  · rw [hentry l (by omega), hbuilt.blCount_eq (by omega)]
  · rw [← hbuilt.complete]
    refine congrArg List.sum (List.map_congr_left fun l hl => ?_)
    have := List.mem_range'_1.mp hl
    rw [hentry l (by omega)]
  · exact (hbuilt.coded x hx).mpr (List.mem_append_left _ ((hused x hx).mp hne))
  · have hxused := (hused x (hlt.trans hy)).mp hfx
    have hyused := (hused y hy).mp hfy
    have hzpart := (hbuilt.coded z hz).mp hcode
    rw [participants_eq_used hlt.ne hxused hyused] at hzpart
    exact (hused z hz).mpr hzpart
  · rw [hbuilt.coded z hz, participants, usedSymbols_eq_singleton hx (by rwa [← hfreq x hx])
      fun y hy hne' => by rw [← hfreq y hy, hothers y hy hne']]
    simp [forcedSymbols]
  · rw [hbuilt.coded z hz, participants, usedSymbols_eq_nil fun y hy => by rw [← hfreq y hy, hnone y hy]]
    simp [forcedSymbols]
  · exact participants_lt a.two_lt_size hbuilt.maxCode_mem
  · exact (hbuilt.coded _ (participants_lt a.two_lt_size hbuilt.maxCode_mem)).mpr hbuilt.maxCode_mem
  · exact hbuilt.maxCode_le z ((hbuilt.coded z hz).mp hcode)
  · have hcodes : r.table.code = genCodes r.table.len (histogram r.table.len) := by
      rw [← hbuilt.blCount_histogram]
      rfl
    rw [codeEntry_writeTree hwf (hz.trans_le a.size_le), hcodes]
    split
    · rename_i hzero
      rw [genCodes, at0_assignCodes_zero hzero, Nat.zero_mod]
    · rename_i hcode
      have hlt : revBits (at0 r.table.len z) (canonicalCode r.table.len z) < 2 ^ 16 :=
        (revBits_lt ..).trans_le (Nat.pow_le_pow_right Nat.two_pos ((getD_le hbuilt.len_le z).trans (by decide)))
      rw [at0_genCodes hbuilt.len_le (by rwa [hbuilt.size]) hcode, Nat.mod_eq_of_lt hlt]

/-! ### The costs -/

theorem Alphabet.extraBits_le (alpha : Alphabet) (x : Nat) : alpha.extraBits x ≤ 13 := by
  unfold Alphabet.extraBits
  cases alpha with
  | lit =>
    dsimp only
    split
    · exact Nat.zero_le 13
    · exact (lenExtraOf_le x).trans (by decide)
  | dist => exact distExtraOf_le x
  | cl =>
    dsimp only
    split_ifs <;> decide

theorem Alphabet.staticLen_le (alpha : Alphabet) {x l : Nat} (h : alpha.staticLen x = some l) : l ≤ 15 := by
  unfold Alphabet.staticLen at h
  cases alpha with
  | lit =>
    cases h
    exact getD_le (xs := staticLitLens) (by decide +kernel) x
  | dist =>
    cases h
    decide
  | cl => cases h

theorem sum_le_card_mul {xs : List Nat} {g : Nat → Nat} {b : Nat} (h : ∀ x ∈ xs, g x ≤ b) : (xs.map g).sum ≤ xs.length * b := by
  have hle := List.sum_le_card_nsmul (xs.map g) b fun y hy => by
    obtain ⟨x, hx, rfl⟩ := List.mem_map.mp hy
    exact h x hx
  rwa [List.length_map, smul_eq_mul] at hle

theorem staticCost_le (alpha : Alphabet) (count x : Nat) : staticCost alpha count x ≤ count * 28 := by
  unfold staticCost
  split
  · rename_i l hl
    exact Nat.mul_le_mul_left _ (Nat.add_le_add (alpha.staticLen_le hl) (alpha.extraBits_le x))
  · exact Nat.zero_le _

theorem codeCost_le (alpha : Alphabet) {count len : Nat → Nat} (hlen : ∀ x, len x ≤ 15) (xs : List Nat) :
    codeCost alpha count len xs ≤ (xs.map fun x => count x * 28).sum :=
  List.sum_le_sum fun x _ => Nat.mul_le_mul_left _ (Nat.add_le_add (hlen x) (alpha.extraBits_le x))

theorem toNat_cast_of_lt {n : Nat} (h : n < 2 ^ 32) : ((n : Nat) : Word).toNat = n := by
  rw [BitVec.natCast_eq_ofNat, BitVec.toNat_ofNat, Nat.mod_eq_of_lt h]

theorem freqEntry_lt (m : Memory) (x : Nat) : freqEntry m x < 2 ^ 16 := by
  have hlt := leValue_lt (Memory.readBytes m (freqBase + 2 * x) 2)
  rwa [Memory.readBytes, List.length_map, List.length_range] at hlt

/-- Settles O56: both costs are sums far below 2^32. -/
theorem buildTreeCountsTheCost : Obligations.BuildTreeCountsTheCost := by
  unfold Obligations.BuildTreeCountsTheCost
  intro alpha a s t herr hmode hwf ha h
  rw [buildTree_next herr hmode ha h]
  set f := frequencies s.mem a.size with hf
  set r := buildTree f a 0#32 0#32 with hr
  have hbuilt : BuiltTree f a 0#32 0#32 r := buildTree_built ..
  have hfreq : ∀ x ∈ List.range a.size, at0 f x = freqEntry s.mem x := fun x hx => at0_frequencies (List.mem_range.mp hx)
  have hbound : ((List.range a.size).map fun x => at0 f x * 28).sum < 2 ^ 32 := by
    have hle := sum_le_card_mul (xs := List.range a.size) (g := fun x => at0 f x * 28) (b := 65535 * 28) fun x hx => by
      rw [hfreq x hx]
      exact Nat.mul_le_mul_right _ (Nat.le_of_lt_succ (freqEntry_lt s.mem x))
    have := a.size_le
    rw [List.length_range] at hle
    omega
  refine ⟨?_, ?_⟩
  · have hcost := codeCost_le a (count := at0 f) (len := at0 r.table.len) (fun x => getD_le hbuilt.len_le x) (List.range a.size)
    change r.optLen.toNat = _
    rw [hbuilt.optLen, BitVec.zero_add, toNat_cast_of_lt (hcost.trans_lt hbound)]
    have hlens : lenTable (buildTreeEffect a s).mem a.size = r.table.len := hbuilt.lenTable hwf
    rw [hlens]
    exact congrArg List.sum (List.map_congr_left fun x hx => by rw [hfreq x hx])
  · have hcost : ((List.range a.size).map fun x => staticCost a (at0 f x) x).sum ≤
        ((List.range a.size).map fun x => at0 f x * 28).sum := List.sum_le_sum fun x _ => staticCost_le a (at0 f x) x
    change r.staticLen.toNat = _
    rw [hbuilt.staticLen, BitVec.zero_add, toNat_cast_of_lt (hcost.trans_lt hbound)]
    exact congrArg List.sum (List.map_congr_left fun x hx => by rw [hfreq x hx]; rfl)

end Sys2Proof.Machine
end

section
/-! PROOF. The costs of a block (R114, R115, R119 to R122): the trees' costs are sums over the symbols that occur, and so are the
lengths of the bits written. -/

namespace Sys2Proof.Machine

/-! ### The symbols of a tally -/

theorem le_lenCode_of_three {len : Nat} (h : 3 ≤ len) : 257 ≤ lenCode len := by
  by_cases hlen : len = 258
  · subst hlen
    decide
  · exact le_lenCode h hlen

theorem litSymbol_lt (y : Sym) : y.litSymbol < 286 := by
  cases y with
  | lit b => exact b.isLt.trans (by decide)
  | backRef len dist => exact lenCode_lt len

theorem distSymbol_lt {y : Sym} {c : Nat} (h : y.distSymbol = some c) : c < 30 := by
  cases y with
  | lit b => cases h
  | backRef len dist =>
    cases h
    exact Nat.lt_succ_of_le (distCode_le dist)

/-- The literal/length symbols of a block, its end included. -/
def litSymbols (tally : List Sym) : List Nat := 256 :: tally.map Sym.litSymbol

/-- The distance symbols of a block. -/
def distSymbols (tally : List Sym) : List Nat := tally.filterMap Sym.distSymbol

theorem litSymbols_lt {tally : List Sym} : ∀ s ∈ litSymbols tally, s < 286 := by
  refine List.forall_mem_cons.mpr ⟨by decide, fun s hs => ?_⟩
  obtain ⟨y, -, rfl⟩ := List.mem_map.mp hs
  exact litSymbol_lt y

theorem distSymbols_lt {tally : List Sym} : ∀ c ∈ distSymbols tally, c < 30 := by
  intro c hc
  obtain ⟨y, -, hy⟩ := List.mem_filterMap.mp hc
  exact distSymbol_lt hy

theorem count_distSymbols (tally : List Sym) (c : Nat) : (distSymbols tally).count c = (tally.map Sym.distSymbol).count (some c) := by
  rw [distSymbols, List.count_filterMap, List.count_eq_countP, List.countP_map]
  exact List.countP_congr fun y _ => by simp

/-! ### Costs as sums over the symbols written -/

/-- A cost over the frequencies of the symbols `ds` is a sum over `ds`. -/
theorem codeCost_of_counts (alpha : Alphabet) {count len : Nat → Nat} {ds : List Nat} (hds : ∀ d ∈ ds, d < alpha.size)
    (hcount : ∀ x, x < alpha.size → count x = ds.count x) :
    codeCost alpha count len (List.range alpha.size) = (ds.map fun d => len d + alpha.extraBits d).sum := by
  rw [← sum_count_mul List.nodup_range (fun d => len d + alpha.extraBits d) fun d hd => List.mem_range.mpr (hds d hd)]
  exact congrArg List.sum (List.map_congr_left fun x hx => by rw [hcount x (List.mem_range.mp hx)])

/-- R63: the bits of one tallied symbol. -/
theorem symbolBits_length (lt dt : CodeTable) {y : Sym} (h : y.inRange 32768) :
    (symbolBits (codeBits lt) (codeBits dt) y).length =
      at0 lt.len y.litSymbol + Alphabet.lit.extraBits y.litSymbol +
        (y.distSymbol.toList.map fun c => at0 dt.len c + Alphabet.dist.extraBits c).sum := by
  cases y with
  | lit b =>
    have hlt : b.toNat < 257 := b.isLt.trans (by decide)
    simp [symbolBits, codeBits, Sym.litSymbol, Sym.distSymbol, Alphabet.extraBits, hlt]
  | backRef len dist =>
    obtain ⟨hlen, -⟩ := h
    have hge : ¬ lenCode len < 257 := Nat.not_lt_of_le (le_lenCode_of_three hlen)
    simp [symbolBits, codeBits, Sym.litSymbol, Sym.distSymbol, Alphabet.extraBits, hge]
    omega

theorem sum_map_filterMap {β : Type} (f : β → Option Nat) (g : Nat → Nat) (xs : List β) :
    ((xs.filterMap f).map g).sum = (xs.map fun x => ((f x).toList.map g).sum).sum := by
  induction xs with
  | nil => rfl
  | cons x xs ih =>
    cases hx : f x with
    | none => simp [hx, ih]
    | some c => simp [hx, ih]

/-- R63: the bits of a block's compressed data are the costs of its symbols. -/
theorem compressedBits_length (lt dt : CodeTable) {tally : List Sym} (h : ∀ y ∈ tally, y.inRange 32768) :
    (compressedBits (codeBits lt) (codeBits dt) tally).length =
      ((litSymbols tally).map fun s => at0 lt.len s + Alphabet.lit.extraBits s).sum +
        ((distSymbols tally).map fun c => at0 dt.len c + Alphabet.dist.extraBits c).sum := by
  have hend : (codeBits lt 256).length = at0 lt.len 256 + Alphabet.lit.extraBits 256 := bitsOf_length ..
  have hsyms : (tally.map fun y => (symbolBits (codeBits lt) (codeBits dt) y).length) =
      tally.map fun y => at0 lt.len y.litSymbol + Alphabet.lit.extraBits y.litSymbol +
        (y.distSymbol.toList.map fun c => at0 dt.len c + Alphabet.dist.extraBits c).sum :=
    List.map_congr_left fun y hy => symbolBits_length lt dt (h y hy)
  rw [compressedBits, List.length_append, List.length_flatMap, hsyms, List.sum_map_add, hend, litSymbols, List.map_cons,
    List.sum_cons, List.map_map, distSymbols, sum_map_filterMap]
  simp only [Function.comp_def]
  omega

/-! ### The code-length symbols -/

theorem at0_foldl_addAt {items : List ClItem} : ∀ {f : List Nat}, (∀ it ∈ items, it.sym < f.length) → ∀ x,
    at0 (items.foldl (fun f it => addAt f it.sym 1) f) x = at0 f x + (items.map ClItem.sym).count x := by
  induction items with
  | nil => exact fun _ _ => rfl
  | cons it items ih =>
    intro f h x
    obtain ⟨hit, hitems⟩ := List.forall_mem_cons.mp h
    rw [List.foldl_cons, ih (fun it' h' => by rw [addAt_length]; exact hitems it' h'), at0_addAt hit, List.map_cons, count_cons_eq]
    omega

/-- Every code-length symbol stands for a length at least. -/
theorem expandItems_length_ge {items : List ClItem} : ∀ {out : List Nat},
    out.length + items.length ≤ (expandItems out items).length := by
  induction items with
  | nil => exact Nat.le_refl _
  | cons it items ih =>
    intro out
    have hstep : ∀ more : List Nat, 0 < more.length →
        out.length + (it :: items).length ≤ (expandItems (out ++ more) items).length := by
      intro more hmore
      refine le_trans ?_ ih
      rw [List.length_append, List.length_cons]
      omega
    rw [expandItems]
    split
    · exact hstep _ (by rw [List.length_replicate]; omega)
    split
    · exact hstep _ (by rw [List.length_replicate]; omega)
    split
    · exact hstep _ (by rw [List.length_replicate]; omega)
    · exact hstep _ Nat.one_pos

/-- Without a symbol that is a length, all lengths are 0. -/
theorem expandItems_eq_zero {items : List ClItem} (h : ∀ it ∈ items, 16 ≤ it.sym ∧ it.sym < 19) : ∀ {out : List Nat},
    (∀ l ∈ out, l ≤ 0) → ∀ l ∈ expandItems out items, l ≤ 0 := by
  induction items with
  | nil => exact fun hout => hout
  | cons it items ih =>
    intro out hout
    obtain ⟨⟨hlow, hhigh⟩, hitems⟩ := List.forall_mem_cons.mp h
    have hmore : ∀ n v : Nat, v ≤ 0 → ∀ l ∈ out ++ List.replicate n v, l ≤ 0 := fun n v hv l hl =>
      (List.mem_append.mp hl).elim (hout l) fun hl => (List.eq_of_mem_replicate hl).trans_le hv
    rw [expandItems]
    split
    · exact ih hitems (hmore _ _ (getD_le hout _))
    split
    · exact ih hitems (hmore _ _ (Nat.le_refl 0))
    split
    · exact ih hitems (hmore _ _ (Nat.le_refl 0))
    · omega

section
variable {lens : List Nat} (hlens : ∀ l ∈ lens, l ≤ 15) (maxCode : Nat)
include hlens

theorem expandItems_clItems : expandItems [] (clItems lens maxCode) = lens.take (maxCode + 1) :=
  (codeLengthSymbolsStandForTheLengths lens maxCode hlens).1

theorem clItems_length_le : (clItems lens maxCode).length ≤ lens.length := by
  have hle := expandItems_length_ge (items := clItems lens maxCode) (out := [])
  rw [expandItems_clItems hlens, List.length_nil, Nat.zero_add] at hle
  exact hle.trans (List.length_take_le' _ _)

theorem clItems_sym_lt : ∀ it ∈ clItems lens maxCode, it.sym < 19 := fun it hit =>
  ((clItems_standFor maxCode hlens).inRange it hit).sym

/-- A length other than 0 takes a symbol below 16. -/
theorem exists_length_item {i : Nat} (hi : i ≤ maxCode) (hcode : at0 lens i ≠ 0) :
    ∃ it ∈ clItems lens maxCode, it.sym < 16 := by
  by_contra hnone
  push Not at hnone
  have hzero := expandItems_eq_zero (out := []) (fun it hit => ⟨hnone it hit, clItems_sym_lt hlens maxCode it hit⟩)
    (fun _ h => nomatch h)
  rw [expandItems_clItems hlens] at hzero
  have hle := getD_le hzero i
  have heq : (lens.take (maxCode + 1)).getD i 0 = at0 lens i := at0_take (Nat.lt_succ_of_le hi)
  omega

theorem clItemBits_length (bt : CodeTable) : (clItemBits bt (clItems lens maxCode)).length =
    (((clItems lens maxCode).map ClItem.sym).map fun s => at0 bt.len s + Alphabet.cl.extraBits s).sum := by
  rw [clItemBits, List.length_flatMap, List.map_map]
  refine congrArg List.sum (List.map_congr_left fun it hit => ?_)
  rw [List.length_append, bitsOf_length, codeBits, bitsOf_length, ((clItems_standFor maxCode hlens).inRange it hit).bits]
  rfl

end

/-! ### The code-length code lengths sent (R114, R120) -/

theorem trimBlIndex_le (lens : List Nat) (i : Nat) : trimBlIndex lens i ≤ i := by
  induction i with
  | zero => exact Nat.le_refl 0
  | succ i ih =>
    rw [trimBlIndex]
    split
    · exact Nat.le_succ_of_le ih
    · exact Nat.le_refl _

/-- R114: nothing but zeros is left out. -/
theorem at0_of_trimBlIndex_lt {lens : List Nat} {i j : Nat} (hlt : trimBlIndex lens i < j) (hj : j ≤ i) :
    at0 lens (at0 blOrder j) = 0 := by
  induction i with
  | zero => exact absurd hlt (by rw [trimBlIndex]; omega)
  | succ i ih =>
    rw [trimBlIndex] at hlt
    split at hlt
    · rename_i h
      rcases Nat.lt_or_eq_of_le hj with hj | rfl
      · exact ih hlt (Nat.le_of_lt_succ hj)
      · exact h.2
    · omega

theorem exists_blOrder : ∀ s < 16, ∃ j < 19, 3 ≤ j ∧ at0 blOrder j = s := by decide

theorem three_le_trimBlIndex {lens : List Nat} {s : Nat} (hs : s < 16) (h : at0 lens s ≠ 0) : 3 ≤ trimBlIndex lens 18 := by
  obtain ⟨j, hj, hge, rfl⟩ := exists_blOrder s hs
  by_contra hlt
  exact h (at0_of_trimBlIndex_lt (i := 18) (by omega) (Nat.le_of_lt_succ hj))

end Sys2Proof.Machine
end

section
/-! PROOF. The trees of a block (R114): their costs are the lengths of the bits written, and every symbol written has a code. -/

namespace Sys2Proof.Machine

/-- The frequencies are those of a tally of symbols in range. -/
structure BlockCounted (tally : List Sym) (litFreq distFreq : List Nat) : Prop where
  length : tally.length ≤ 65535
  syms : ∀ y ∈ tally, y.inRange 32768
  lit : ∀ x, x < 286 → at0 litFreq x = (litSymbols tally).count x
  dist : ∀ x, x < 30 → at0 distFreq x = (distSymbols tally).count x

/-- The code-length symbols of both trees (R115). -/
def blockItems (t : BlockTrees) : List ClItem :=
  clItems t.lt.table.len t.lt.maxCode ++ clItems t.dt.table.len t.dt.maxCode

/-- The frequencies of the code-length symbols (R114, R115). -/
def blockClFreq (t : BlockTrees) : List Nat :=
  scanTree t.dt.table.len t.dt.maxCode (scanTree t.lt.table.len t.lt.maxCode (List.replicate 19 0))

/-- The three trees of a block, each with the costs of those before it. -/
structure BlockBuilt (litFreq distFreq : List Nat) (t : BlockTrees) : Prop where
  lt : BuiltTree litFreq .lit 0#32 0#32 t.lt
  dt : BuiltTree distFreq .dist t.lt.optLen t.lt.staticLen t.dt
  bt : BuiltTree (blockClFreq t) .cl t.dt.optLen t.dt.staticLen t.bt
  maxBlIndex : t.maxBlIndex = trimBlIndex t.bt.table.len 18
  optLen : t.optLen = t.bt.optLen + ((3 * (t.maxBlIndex + 1) + 14 : Nat) : Word)
  staticLen : t.staticLen = t.bt.staticLen

theorem blockTrees_built (litFreq distFreq : List Nat) : BlockBuilt litFreq distFreq (blockTrees litFreq distFreq) where
  lt := buildTree_built ..
  dt := buildTree_built ..
  bt := buildTree_built ..
  maxBlIndex := rfl
  optLen := rfl
  staticLen := rfl

/-- A symbol that occurs has a code. -/
theorem BuiltTree.coded_of_count {f : List Nat} {alpha : Alphabet} {optIn staticIn : Word} {r : TreeResult} {ds : List Nat}
    (h : BuiltTree f alpha optIn staticIn r) (hcount : ∀ x, x < alpha.size → at0 f x = ds.count x) {d : Nat}
    (hlt : d < alpha.size) (hd : d ∈ ds) : at0 r.table.len d ≠ 0 ∧ d ≤ r.maxCode := by
  have hused : d ∈ participants f alpha.size := by
    refine List.mem_append_left _ (mem_usedSymbols.mpr ⟨hlt, ?_⟩)
    rw [hcount d hlt]
    exact (List.count_pos_iff.mpr hd).ne'
  exact ⟨(h.coded d hlt).mpr hused, h.maxCode_le d hused⟩

/-- Two symbols have codes, so the larger is not 0. -/
theorem BuiltTree.one_le_maxCode {f : List Nat} {alpha : Alphabet} {optIn staticIn : Word} {r : TreeResult}
    (h : BuiltTree f alpha optIn staticIn r) : 1 ≤ r.maxCode := by
  by_contra hzero
  have hsub : participants f alpha.size ⊆ [0] := fun x hx => by
    have := h.maxCode_le x hx
    exact List.mem_singleton.mpr (by omega)
  have hlen := (participants_nodup f alpha.size).length_le_of_subset hsub
  have htwo := two_le_participants f alpha.size
  rw [List.length_singleton] at hlen
  omega

section
variable {tally : List Sym} {litFreq distFreq : List Nat} {t : BlockTrees}

theorem BlockBuilt.items_lt (h : BlockBuilt litFreq distFreq t) : ∀ s ∈ (blockItems t).map ClItem.sym, s < 19 := by
  intro s hs
  obtain ⟨it, hit, rfl⟩ := List.mem_map.mp hs
  exact (List.mem_append.mp hit).elim (clItems_sym_lt h.lt.len_le _ it) (clItems_sym_lt h.dt.len_le _ it)

theorem BlockBuilt.clFreq (h : BlockBuilt litFreq distFreq t) (x : Nat) :
    at0 (blockClFreq t) x = ((blockItems t).map ClItem.sym).count x := by
  have hlit : ∀ it ∈ clItems t.lt.table.len t.lt.maxCode, it.sym < (List.replicate 19 0).length :=
    clItems_sym_lt h.lt.len_le _
  have hscan : (scanTree t.lt.table.len t.lt.maxCode (List.replicate 19 0)).length = 19 :=
    List.foldlRecOn (motive := fun f : List Nat => f.length = 19) _ _ List.length_replicate fun f hf it _ => by
      rw [addAt_length, hf]
  have hdist : ∀ it ∈ clItems t.dt.table.len t.dt.maxCode,
      it.sym < (scanTree t.lt.table.len t.lt.maxCode (List.replicate 19 0)).length := fun it hit => by
    rw [hscan]
    exact clItems_sym_lt h.dt.len_le _ it hit
  rw [blockClFreq, scanTree, at0_foldl_addAt hdist, scanTree, at0_foldl_addAt hlit, at0_replicate_zero, Nat.zero_add,
    blockItems, List.map_append, List.count_append]

theorem BlockBuilt.items_length (h : BlockBuilt litFreq distFreq t) : (blockItems t).length ≤ 316 := by
  have hlit := clItems_length_le h.lt.len_le t.lt.maxCode
  have hdist := clItems_length_le h.dt.len_le t.dt.maxCode
  rw [h.lt.size] at hlit
  rw [h.dt.size] at hdist
  rw [blockItems, List.length_append]
  exact Nat.add_le_add hlit hdist

/-- The cost of a block's literal/length symbols under the lengths `len`, and of its distance symbols. -/
def litCost (tally : List Sym) (len : Nat → Nat) : Nat := ((litSymbols tally).map fun s => len s + Alphabet.lit.extraBits s).sum
def distCost (tally : List Sym) (len : Nat → Nat) : Nat :=
  ((distSymbols tally).map fun c => len c + Alphabet.dist.extraBits c).sum

/-- The cost of the code-length symbols of both trees. -/
def itemCost (t : BlockTrees) : Nat :=
  (((blockItems t).map ClItem.sym).map fun s => at0 t.bt.table.len s + Alphabet.cl.extraBits s).sum

theorem BlockCounted.costs_le (hc : BlockCounted tally litFreq distFreq) {len len' : Nat → Nat} (hlen : ∀ x, len x ≤ 15)
    (hlen' : ∀ x, len' x ≤ 15) : litCost tally len + distCost tally len' ≤ 4000000 := by
  have hlit : litCost tally len ≤ (litSymbols tally).length * 28 :=
    sum_le_card_mul fun s _ => Nat.add_le_add (hlen s) (Alphabet.lit.extraBits_le s)
  have hdist : distCost tally len' ≤ (distSymbols tally).length * 28 :=
    sum_le_card_mul fun c _ => Nat.add_le_add (hlen' c) (Alphabet.dist.extraBits_le c)
  have hlitLen : (litSymbols tally).length = tally.length + 1 := by rw [litSymbols, List.length_cons, List.length_map]
  have hdistLen : (distSymbols tally).length ≤ tally.length := List.length_filterMap_le ..
  have := hc.length
  omega

variable (h : BlockBuilt litFreq distFreq t)
include h

theorem BlockBuilt.itemCost_le : itemCost t ≤ 316 * 28 := by
  have hle : itemCost t ≤ ((blockItems t).map ClItem.sym).length * 28 :=
    sum_le_card_mul fun s _ => Nat.add_le_add ((getD_le h.bt.len_le s)) (Alphabet.cl.extraBits_le s)
  have := h.items_length
  rw [List.length_map] at hle
  omega

theorem BlockBuilt.maxBlIndex_le : t.maxBlIndex ≤ 18 := by
  rw [h.maxBlIndex]
  exact trimBlIndex_le ..

theorem BlockBuilt.items_coded : ∀ it ∈ blockItems t, at0 t.bt.table.len it.sym ≠ 0 := by
  intro it hit
  have hmem : it.sym ∈ (blockItems t).map ClItem.sym := List.mem_map_of_mem hit
  exact (h.bt.coded_of_count (fun x _ => h.clFreq x) (h.items_lt _ hmem) hmem).1

variable (hc : BlockCounted tally litFreq distFreq)
include hc

/-- R114: `opt_len` of the three trees. -/
theorem BlockBuilt.toNat_optLen : t.optLen.toNat =
    litCost tally (at0 t.lt.table.len) + distCost tally (at0 t.dt.table.len) + itemCost t + (3 * (t.maxBlIndex + 1) + 14) := by
  have hlit : codeCost .lit (at0 litFreq) (at0 t.lt.table.len) (List.range Alphabet.lit.size) =
      litCost tally (at0 t.lt.table.len) := codeCost_of_counts .lit litSymbols_lt hc.lit
  have hdist : codeCost .dist (at0 distFreq) (at0 t.dt.table.len) (List.range Alphabet.dist.size) =
      distCost tally (at0 t.dt.table.len) := codeCost_of_counts .dist distSymbols_lt hc.dist
  have hcl : codeCost .cl (at0 (blockClFreq t)) (at0 t.bt.table.len) (List.range Alphabet.cl.size) = itemCost t :=
    codeCost_of_counts .cl h.items_lt fun x _ => h.clFreq x
  have hbound := hc.costs_le (len := at0 t.lt.table.len) (len' := at0 t.dt.table.len) (getD_le h.lt.len_le)
    (getD_le h.dt.len_le)
  have := h.itemCost_le
  have := h.maxBlIndex_le
  rw [h.optLen, h.bt.optLen, h.dt.optLen, h.lt.optLen, hlit, hdist, hcl, BitVec.zero_add, ← Nat.cast_add, ← Nat.cast_add,
    ← Nat.cast_add]
  exact toNat_cast_of_lt (by omega)

/-- R114: `static_len`, to which the code-length tree adds nothing. -/
theorem BlockBuilt.toNat_staticLen :
    t.staticLen.toNat = litCost tally (at0 staticLitLens) + distCost tally (at0 staticDistLens) := by
  have hlit : ((List.range Alphabet.lit.size).map fun x => staticCost .lit (at0 litFreq x) x).sum =
      litCost tally (at0 staticLitLens) := codeCost_of_counts .lit litSymbols_lt hc.lit
  have hdist : ((List.range Alphabet.dist.size).map fun x => staticCost .dist (at0 distFreq x) x).sum =
      distCost tally (at0 staticDistLens) := by
    have hfive : ∀ x, x < 30 → at0 staticDistLens x = 5 := by decide
    refine Eq.trans (congrArg List.sum (List.map_congr_left fun x hx => ?_)) (codeCost_of_counts .dist distSymbols_lt hc.dist)
    rw [hfive x (List.mem_range.mp hx)]
    rfl
  have hcl : ((List.range Alphabet.cl.size).map fun x => staticCost .cl (at0 (blockClFreq t) x) x).sum = 0 :=
    List.sum_eq_zero fun y hy => by
      obtain ⟨x, -, rfl⟩ := List.mem_map.mp hy
      rfl
  have hbound := hc.costs_le (len := at0 staticLitLens) (len' := at0 staticDistLens) (getD_le (by decide +kernel))
    (getD_le (by decide))
  rw [h.staticLen, h.bt.staticLen, h.dt.staticLen, h.lt.staticLen, hlit, hdist, hcl, BitVec.zero_add, Nat.cast_zero, add_zero,
    ← Nat.cast_add]
  exact toNat_cast_of_lt (by omega)

theorem BlockBuilt.writeDynamic_length {w : BitWriter} (hw : w.InRange) (last : Bool) :
    (writerBits (writeDynamic last t tally w)).length = (writerBits w).length + 3 + t.optLen.toNat := by
  have hclLens : ((blOrder.take (t.maxBlIndex + 1)).flatMap fun x => bitsOf 3 (at0 t.bt.table.len x)).length =
      3 * (t.maxBlIndex + 1) := by
    have hlen : (blOrder.take (t.maxBlIndex + 1)).length = t.maxBlIndex + 1 := by
      rw [List.length_take]
      exact Nat.min_eq_left (Nat.succ_le_succ h.maxBlIndex_le)
    simp only [List.length_flatMap, bitsOf_length, List.map_const', List.sum_replicate, hlen, smul_eq_mul, Nat.mul_comm]
  have hitems : itemCost t = (clItemBits t.bt.table (clItems t.lt.table.len t.lt.maxCode)).length +
      (clItemBits t.bt.table (clItems t.dt.table.len t.dt.maxCode)).length := by
    rw [clItemBits_length h.lt.len_le, clItemBits_length h.dt.len_le, itemCost, blockItems, List.map_append, List.map_append,
      List.sum_append]
  have hdata := compressedBits_length t.lt.table t.dt.table hc.syms
  rw [(writeDynamic_extends hw last t tally).eq, h.toNat_optLen hc, hitems, litCost, distCost]
  simp only [List.length_append, bitsOf_length, hclLens, hdata, List.length_cons, List.length_nil]
  omega

theorem BlockBuilt.writeStatic_length {w : BitWriter} (hw : w.InRange) (last : Bool) :
    (writerBits (writeStatic last tally w)).length = (writerBits w).length + 3 + t.staticLen.toNat := by
  have hdata : (compressedBits (codeBits staticLitCode) (codeBits staticDistCode) tally).length =
      litCost tally (at0 staticLitLens) + distCost tally (at0 staticDistLens) := compressedBits_length _ _ hc.syms
  rw [(writeStatic_extends hw last tally).eq, ← compressedBits_static, h.toNat_staticLen hc, ← hdata]
  simp only [List.length_append, List.length_cons, List.length_nil]
  omega

/-- The end-of-block symbol has a code, and so do all tallied ones. -/
theorem BlockBuilt.lit_coded {s : Nat} (hs : s ∈ litSymbols tally) : at0 t.lt.table.len s ≠ 0 ∧ s ≤ t.lt.maxCode :=
  h.lt.coded_of_count hc.lit (litSymbols_lt s hs) hs

theorem BlockBuilt.dist_coded {c : Nat} (hd : c ∈ distSymbols tally) : at0 t.dt.table.len c ≠ 0 :=
  (h.dt.coded_of_count hc.dist (distSymbols_lt c hd) hd).1

/-- The length of the end-of-block code is sent as a symbol of its own or repeats one. -/
theorem BlockBuilt.three_le_maxBlIndex : 3 ≤ t.maxBlIndex := by
  obtain ⟨hend, hle⟩ := h.lit_coded hc List.mem_cons_self
  obtain ⟨it, hit, hsym⟩ := exists_length_item h.lt.len_le t.lt.maxCode hle hend
  rw [h.maxBlIndex]
  exact three_le_trimBlIndex hsym (h.items_coded it (List.mem_append_left _ hit))

end

/-- Settles O42: the costs and the bits are sums over the same symbols, and a symbol that is counted has a code. -/
theorem blockCostsAreExact : Obligations.BlockCostsAreExact := by
  unfold Obligations.BlockCostsAreExact
  rintro tally litFreq distFreq last w t hcount hacc hlen hsyms - - hlit hdist rfl
  have h := blockTrees_built litFreq distFreq
  have hc : BlockCounted tally litFreq distFreq :=
    { length := hlen, syms := hsyms
      lit := fun x hx => by
        rw [hlit x hx, litSymbols, count_cons_eq]
      dist := fun x hx => by rw [hdist x hx, count_distSymbols] }
  have hw : w.InRange := ⟨hcount, hacc⟩
  have hend := h.lit_coded hc List.mem_cons_self
  refine ⟨h.writeDynamic_length hc hw last, h.writeStatic_length hc hw last, h.items_coded, ⟨hend.1, fun y hy => ⟨?_, ?_⟩⟩,
    hend.2, ?_, h.dt.one_le_maxCode, ?_, h.three_le_maxBlIndex hc, h.maxBlIndex_le, fun j hj hlt => ?_⟩
  · exact (h.lit_coded hc (List.mem_cons_of_mem _ (List.mem_map_of_mem hy))).1
  · exact fun c hyc => h.dist_coded hc (List.mem_filterMap.mpr ⟨y, hy, hyc⟩)
  · exact Nat.le_of_lt_succ (participants_lt (by decide) h.lt.maxCode_mem)
  · exact Nat.le_of_lt_succ (participants_lt (by decide) h.dt.maxCode_mem)
  · rw [h.maxBlIndex] at hj
    exact at0_of_trimBlIndex_lt hj (Nat.le_of_lt_succ hlt)

end Sys2Proof.Machine
end
